-- ==== Sys2Proof/Word.lean ====
section
/-! DEFINITION. The carrier of the machine's numbers, the complex pair, the type of a memory and the
word every memory starts from. -/

namespace Sys2Proof

/-- The carrier of `NUM_F32`, the 32-bit patterns (00_scope.md R13). -/
abbrev Num32 := BitVec 32

/-- What one word of a chip's memories and registers holds, an integer: in `NUM_F32` the pattern as a
number below `2^32` (00_scope.md R13), in `NUM_FIX(w, f)` the value in units of `2^-f`, of any width
(R15; log 3). Only the record `NUM` of the chip (`Cfg.arith`, R12) reads it. -/
abbrev NumWord := Int

/-- A complex value `(re, im)` (00_scope.md R16). -/
structure Cplx (α : Type) where
  re : α
  im : α
  deriving DecidableEq, Repr

/-- Silence, the sample value `+0` (00_scope.md section 7); the integer
0 in a word of either kind of chip, the number 0 in `NUM_REAL`. -/
def silence {α : Type} [Inhabited α] : α := default

/-- A word-addressed memory space (10_state.md R51): (word address, word) pairs in canonical form,
addresses strictly rising and no word equal to what an unlisted address reads as, which is `+0`
(log 15). Its operations are in `Machine/Ops.lean`. -/
abbrev Memory (α : Type) := List (Nat × α)

end Sys2Proof
end

