-- ==== Sys2Proof/Config.lean ====
section
/-! DEFINITION. The configuration record `CFG` (00_scope.md section 3), its defaults and its
well-formedness, and the free values of the model. -/

namespace Sys2Proof

/-- The instance of the numeric record `NUM` a chip is built with (00_scope.md R13, R15): `NUM_F32`, or
`NUM_FIX(w, f)` with `w` bits and `f` fraction bits. `NUM_REAL` is no chip: it is the reference of
`Machine/NumReal.lean`. -/
inductive NumFormat where
  | f32
  | fix (w f : Nat)
  deriving DecidableEq, Repr

/-- The record `CFG` (00_scope.md R7, R8). It is plain data: a chip carries it unchanged in
`State.cfg` (log 1). `H = 9` and `I = 1` are fixed and are no fields. -/
structure Cfg where
  /-- the numeric instance `NUM` (R12, R15): two chips differ in `CFG` and `NUM` only (log 1) -/
  NUM : NumFormat
  /-- hop length, samples per block (R7) -/
  L : Nat
  /-- sample rate in Hz; no rule reads it (R7) -/
  FS : Nat
  /-- the model table: `MTAB[i]` is one row of 335 words, an unlisted one `+0`; `NMODEL` is the list's
  length (R8; 42_neural.md R176) -/
  MTAB : List (Memory NumWord)
  /-- the impulse-response table: `IRTAB[i]` has `IRLEN[i]` samples; `NIR` is its length (R8) -/
  IRTAB : List (List NumWord)
  /-- capacity of `PART` and `HIST`, in spectra -/
  KMAX : Nat
  /-- capacity of the delay buffer, in samples -/
  DMAX : Nat
  /-- coefficient of the smoother of the delay length -/
  DLY_SMOOTH : Rat
  /-- largest feedback and decay gain -/
  FB_MAX : Rat
  /-- capacity of each reverb line, in samples -/
  RMAX : Nat
  /-- length ratios of the reverb lines, in 1024ths; `NREV` is the list's length -/
  REV_P : List Nat
  /-- base line length at room 0 and at room 1 -/
  RV_MIN : Nat
  RV_MAX : Nat
  /-- damping coefficient of every reverb line -/
  REV_DAMP : Rat
  /-- reverb output gain -/
  REV_GOUT : Rat
  /-- the knob midpoint of the tone stage -/
  TONE_MID : Rat
  /-- tone-stage coefficients (43_tone.md) -/
  ALPHA_LO : Rat
  AHP_MAX : Rat
  BC2 : Rat
  /-- the crossfade constant -/
  MIXC : Rat
  /-- upper ends of the gain and level ranges -/
  GAIN_MAX : Rat
  LEVEL_MAX : Rat
  /-- the document's "within floating tolerance"; no rule of the machine reads it (R8, D27) -/
  TOL : Rat
  /-- accuracy of `sigmoid` and `tanh` (R14); read by `F32.sigmoid` and `F32.tanh` only -/
  SIGTOL : Rat
  deriving DecidableEq, Repr

/-- Transform length `N = 2*L` (R7). -/
def Cfg.N (c : Cfg) : Nat := 2 * c.L

/-- Number of transform stages `M = log2(N)` (R7). -/
def Cfg.M (c : Cfg) : Nat := Nat.log2 c.N

/-- Rows of the model table (R8). -/
def Cfg.NMODEL (c : Cfg) : Nat := c.MTAB.length

/-- Rows of the impulse-response table (R8). -/
def Cfg.NIR (c : Cfg) : Nat := c.IRTAB.length

/-- Number of reverb lines (R8). -/
def Cfg.NREV (c : Cfg) : Nat := c.REV_P.length

/-- Row `i` of the model table (empty past the table; no rule reads there). -/
def Cfg.model (c : Cfg) (i : Nat) : Memory NumWord := c.MTAB.getD i []

/-- Impulse response `i`; its length is `IRLEN[i]` (empty past the table; no rule reads there). -/
def Cfg.ir (c : Cfg) (i : Nat) : List NumWord := c.IRTAB.getD i []

/-- Words in one row of the model table (42_neural.md R176). -/
def modelWords : Nat := 335

/-- Hidden size of the recurrent cell (R7). -/
def hiddenSize : Nat := 9

/-- `0 < q`, compared on numerator and denominator. -/
def ratPos (q : Rat) : Bool := decide (0 < q.num)

/-- `0 <= q`. -/
def ratNonneg (q : Rat) : Bool := decide (0 ≤ q.num)

/-- `q <= 1`. -/
def ratLeOne (q : Rat) : Bool := decide (q.num ≤ (q.den : Int))

/-- `q < 1`. -/
def ratLtOne (q : Rat) : Bool := decide (q.num < (q.den : Int))

/-- Least and greatest value of a `w`-bit two's-complement integer (R15). -/
def fixMin (w : Nat) : Int := -(2 ^ (w - 1))
def fixMax (w : Nat) : Int := 2 ^ (w - 1) - 1

/-- The words of a result of `NUM_FIX` that saturated: the integers next below and above the `w`-bit
range (R15; log 3). -/
def fixSatLow (w : Nat) : Int := fixMin w - 1
def fixSatHigh (w : Nat) : Int := fixMax w + 1

/-- The word is one of the instance: a pattern of `NUM_F32` (R13), a value of `NUM_FIX` or the mark of
a saturated result (R15). -/
def NumFormat.holds (k : NumFormat) (v : Int) : Bool :=
  match k with
  | .f32 => decide (0 ≤ v) && decide (v < 2 ^ 32)
  | .fix w _ => decide (fixSatLow w ≤ v) && decide (v ≤ fixSatHigh w)

/-- `finite` (R12): the exponent field of a binary32 pattern is not 255 (R13); a fixed-point word is
not that of a saturated result (R15). -/
def NumFormat.finite (k : NumFormat) (v : Int) : Bool :=
  match k with
  | .f32 => decide ((BitVec.ofInt 32 v).toNat / 2 ^ 23 % 256 ≠ 255)
  | .fix w _ => decide (fixSatLow w < v) && decide (v < fixSatHigh w)

/-- The formats a fixed-point chip may have: any width `w`, and any `f` with which the format has the
value `0.5`, which `sigmoid` takes at zero (R14; log 3, DEDUCED). -/
def NumFormat.ok : NumFormat → Bool
  | .f32 => true
  | .fix w f => decide (1 ≤ f) && decide (f < w)

/-- No ratio is a multiple of another one (R8 "pairwise not multiples"). -/
def notMultiples : List Nat → Bool
  | [] => true
  | p :: ps => ps.all (fun q => decide (p % q ≠ 0) && decide (q % p ≠ 0)) && notMultiples ps

/-- The sizes of the block, of the memories and of the reverb lines obey R8 and R9. -/
def Cfg.sizesOk (c : Cfg) : Bool :=
  decide (1 ≤ c.L) && (decide (c.L ≤ 2 ^ 18) && (decide (2 ^ Nat.log2 c.L = c.L)
  && (decide (1 ≤ c.KMAX) && (decide (3 ≤ c.DMAX) && (decide (1 ≤ c.RMAX)
  && (decide (1 ≤ c.RV_MIN) && decide (c.RV_MIN ≤ c.RV_MAX)))))))

/-- The line ratios obey R8 and R9; the quotient of R9's `RV_MAX * max(REV_P) / 1024 <= RMAX` is exact. -/
def Cfg.ratiosOk (c : Cfg) : Bool :=
  decide (1 ≤ c.NREV) && (c.REV_P.all (fun p => decide (1 ≤ p)) && (notMultiples c.REV_P
  && c.REV_P.all (fun p => decide (c.RV_MAX * p ≤ 1024 * c.RMAX))))

/-- The tables obey R8 and R9. -/
def Cfg.tablesOk (c : Cfg) : Bool :=
  decide (1 ≤ c.NMODEL) && (decide (c.NMODEL ≤ 2 ^ 24)
  && (decide (1 ≤ c.NIR) && (decide (c.NIR ≤ 2 ^ 24)
  && (c.MTAB.all (fun row => row.all (fun e =>
      decide (e.1 < modelWords) && (c.NUM.holds e.2 && c.NUM.finite e.2)))
  && c.IRTAB.all (fun row => row.all (fun v => c.NUM.holds v && c.NUM.finite v))))))

/-- The coefficients obey R8, which constrains neither `MIXC` nor, with R9 and R14, `SIGTOL` (log 5). R8's
"finite" on `REV_GOUT` is read of the rational the field holds, which always is; whether `const` of it is
finite is not asked: DESIGN CHOICE (log 30). Nor is it asked that `const` of a coefficient stays in the
range R8 gives the rational, so `const(TONE_MID)` may be 0 (log 35) or `const(FB_MAX)` 1 (log 24), nor that
a bound is at least the reset value it bounds (log 37), nor that `MIXC` is 1.4186 (log 36): DESIGN
CHOICE. -/
def Cfg.coefficientsOk (c : Cfg) : Bool :=
  ratPos c.DLY_SMOOTH && (ratLeOne c.DLY_SMOOTH
  && (ratNonneg c.FB_MAX && (ratLtOne c.FB_MAX
  && (ratNonneg c.REV_DAMP && (ratLtOne c.REV_DAMP
  && (ratPos c.TONE_MID && (ratLtOne c.TONE_MID
  && (ratPos c.ALPHA_LO && (ratLeOne c.ALPHA_LO
  && (ratPos c.AHP_MAX && (ratLeOne c.AHP_MAX
  && (ratNonneg c.BC2 && (ratLtOne c.BC2
  && (ratPos c.GAIN_MAX && (ratPos c.LEVEL_MAX
  && ratPos c.TOL)))))))))))))))

/-- A well-formed configuration (00_scope.md R9, with the constraints of R8). -/
def Cfg.wf (c : Cfg) : Bool :=
  c.NUM.ok && (c.sizesOk && (c.ratiosOk && (c.tablesOk && c.coefficientsOk)))

namespace Config

/-- The default configuration (92_eei_decisions.md "Defaults of the CFG parameters"). The spec gives
the ROM tables no contents: DESIGN CHOICE, a blank ROM, one model row of 335 words `+0` and one
empty impulse response (log 2). -/
def default : Cfg where
  NUM := .f32
  L := 256
  FS := 48000
  MTAB := [[]]
  IRTAB := [[]]
  KMAX := 8
  DMAX := 48000
  DLY_SMOOTH := mkRat 1 4096
  FB_MAX := mkRat 1023 1024
  RMAX := 8192
  REV_P := [1024, 1163, 1321, 1499]
  RV_MIN := 256
  RV_MAX := 5000
  REV_DAMP := mkRat 1 4
  REV_GOUT := mkRat 1 4
  TONE_MID := mkRat 1 2
  ALPHA_LO := mkRat 1 32
  AHP_MAX := mkRat 1 2
  BC2 := mkRat 1023 1024
  MIXC := mkRat 7093 5000
  GAIN_MAX := mkRat 4 1
  LEVEL_MAX := mkRat 4 1
  TOL := mkRat 1 10000
  SIGTOL := mkRat 1 1048576

/-- The operations of `NUM` that may yield a NaN, for `nanFree`. -/
inductive NumOp where
  | add | sub | mul | div | sqrt
  deriving DecidableEq, Repr

/-- FREE VALUE (log 4): the bits of the NaN an operation yields ("Which NaN an invalid operation
yields is not specified", 00_scope.md R13; 93 U17). `F32.nan` uses it only where it is a NaN. -/
opaque nanFree : NumOp → Num32 → Num32 → Num32

/-- FREE VALUE (log 5): `sigmoid` of a pattern that is not finite, any `Num` (00_scope.md R14). The bound
of 42_neural.md R186 is read for gates with finite operands only (log 29). -/
opaque sigmoidFree : Num32 → Num32

/-- FREE VALUE (log 5): `tanh` of a pattern that is not finite, any `Num` (00_scope.md R14; log 29). -/
opaque tanhFree : Num32 → Num32

/-- FREE VALUE (log 5): where `sigmoid` and, on each side of zero, `tanh` rise from one value to the
next. `risingSearch` makes a non-decreasing function of any such thresholds, and every one (R14; 93
U16). -/
opaque sigmoidStep : NumFormat → Nat → Int
opaque tanhStep : NumFormat → Bool → Nat → Int

/-- FREE VALUE (log 5): the sign of a zero that `sigmoid` or `tanh` yields, which R14 does not state. -/
opaque sigmoidZeroSign : Num32 → Bool
opaque tanhZeroSign : Num32 → Bool

/-- FREE VALUE (log 6): `floor` of a value that is negative or not finite, which no rule takes in a
reachable state (00_scope.md R11, R13). -/
opaque floorFree : Num32 → Int

/-- FREE VALUE (log 16): `num` of an integer that no binary32 value equals: R11 states `num` for
integers that a `Num` equals, all that the spec converts being below `2^24`. -/
opaque numFree : Int → Num32

/-- FREE VALUE (log 3): whether a fixed-point result between two neighbours is the upper one; R15 states
no rounding. -/
opaque fixUp : NumFormat → NumOp → NumWord → NumWord → Bool

/-- FREE VALUE (log 3): whether `const` of a rational at the middle between two fixed-point values is the
upper one; R15 states no rounding. -/
opaque fixTieUp : NumFormat → Rat → Bool

/-- FREE VALUE (log 32): at which end of the range an operation on a saturated fixed-point word saturates;
R15 does not state it. -/
opaque fixSatUp : NumFormat → NumOp → NumWord → NumWord → Bool

/-- FREE VALUE (log 3): the fixed-point quotient by zero and the root of a negative value, of which R15
states nothing. -/
opaque fixFree : NumFormat → NumOp → NumWord → NumWord → NumWord

/-- FREE VALUES (log 5, log 6): `sigmoid` and `tanh` of a saturated fixed-point word, any `Num`
(00_scope.md R14), and `floor` of a fixed-point word that is negative or saturated (R11). -/
opaque fixSigmoidFree : NumFormat → NumWord → NumWord
opaque fixTanhFree : NumFormat → NumWord → NumWord
opaque fixFloorFree : NumFormat → NumWord → Int

/-- FREE VALUES (log 3): what R15 does not state of the reference `NUM_REAL`: the quotient by zero, the
root of a negative number and the crossing to and from 32 bits; and its `floor` of a negative number, of
which R11 states nothing (log 6). -/
opaque realDivFree : ℝ → ℝ
opaque realSqrtFree : ℝ → ℝ
opaque realFloorFree : ℝ → Int
opaque realOfBits : BitVec 32 → ℝ
opaque realToBits : ℝ → BitVec 32

end Config
end Sys2Proof
end

