-- ==== Sys2Proof/Syntax.lean ====
section
/-! DEFINITION. The commands of the Altair CORE (30_encoding.md R105), one constructor per row of
spec/opcode_table.json. Operands are the fields of the command word. -/

namespace Sys2Proof

/-- A command (30_encoding.md R100, R105). `n` is a sample index and `idx` a table row (R103);
`inv`, `st`, `q` are the butterfly operand (R104). -/
inductive Instr where
  | ctlBound
  | ctlPre (n : BitVec 24)
  | ctlByp (n : BitVec 24)
  | ctlBlock
  | fftBrev
  | fftBfly (inv : Bool) (st : BitVec 5) (q : BitVec 18)
  | fftFwd
  | fftInv
  | convInit (idx : BitVec 24)
  | convClear
  | convBlock
  | convFrame
  | convPush
  | convMac
  | convOut
  | nnLoad (idx : BitVec 24)
  | nnReset
  | nnFwd (n : BitVec 24)
  | toneSet
  | toneProc (n : BitVec 24)
  | dlySet
  | dlyProc (n : BitVec 24)
  | revRoom
  | revDecay
  | revProc (n : BitVec 24)
  | mixSet
  | mixProc (n : BitVec 24)
  deriving DecidableEq, Repr

/-- The mnemonic of a command (R105). -/
def Instr.mnemonic : Instr → String
  | .ctlBound => "CTL.BOUND"
  | .ctlPre _ => "CTL.PRE"
  | .ctlByp _ => "CTL.BYP"
  | .ctlBlock => "CTL.BLOCK"
  | .fftBrev => "FFT.BREV"
  | .fftBfly _ _ _ => "FFT.BFLY"
  | .fftFwd => "FFT.FWD"
  | .fftInv => "FFT.INV"
  | .convInit _ => "CONV.INIT"
  | .convClear => "CONV.CLEAR"
  | .convBlock => "CONV.BLOCK"
  | .convFrame => "CONV.FRAME"
  | .convPush => "CONV.PUSH"
  | .convMac => "CONV.MAC"
  | .convOut => "CONV.OUT"
  | .nnLoad _ => "NN.LOAD"
  | .nnReset => "NN.RESET"
  | .nnFwd _ => "NN.FWD"
  | .toneSet => "TONE.SET"
  | .toneProc _ => "TONE.PROC"
  | .dlySet => "DLY.SET"
  | .dlyProc _ => "DLY.PROC"
  | .revRoom => "REV.ROOM"
  | .revDecay => "REV.DECAY"
  | .revProc _ => "REV.PROC"
  | .mixSet => "MIX.SET"
  | .mixProc _ => "MIX.PROC"

/-- The operands of a command in its textual form, decimal, separated by commas (R113). -/
def Instr.operands : Instr → List Nat
  | .ctlPre n => [n.toNat]
  | .ctlByp n => [n.toNat]
  | .fftBfly inv st q => [inv.toNat, st.toNat, q.toNat]
  | .convInit idx => [idx.toNat]
  | .nnLoad idx => [idx.toNat]
  | .nnFwd n => [n.toNat]
  | .toneProc n => [n.toNat]
  | .dlyProc n => [n.toNat]
  | .revProc n => [n.toNat]
  | .mixProc n => [n.toNat]
  | .ctlBound => []
  | .ctlBlock => []
  | .fftBrev => []
  | .fftFwd => []
  | .fftInv => []
  | .convClear => []
  | .convBlock => []
  | .convFrame => []
  | .convPush => []
  | .convMac => []
  | .convOut => []
  | .nnReset => []
  | .toneSet => []
  | .dlySet => []
  | .revRoom => []
  | .revDecay => []
  | .mixSet => []

/-- One line of the assembler's textual form (R113). -/
def Instr.assembly (i : Instr) : String :=
  match i.operands with
  | [] => i.mnemonic
  | ops => i.mnemonic ++ " " ++ String.intercalate "," (ops.map toString)

end Sys2Proof
end

