-- ==== Sys2Proof/WellFormed.lean ====
section
/-! DEFINITION. Which commands have an encoding that is not reserved (30_encoding.md R103, R104,
R106). -/

namespace Sys2Proof

/-- A sample index is inside the block (30_encoding.md R103). -/
def sampleOk (c : Cfg) (n : BitVec 24) : Bool := decide (n.toNat < c.L)

/-- A butterfly operand is inside the transform (30_encoding.md R104). -/
def butterflyOk (c : Cfg) (st : BitVec 5) (q : BitVec 18) : Bool :=
  decide (1 ≤ st.toNat) && decide (st.toNat ≤ c.M) && decide (q.toNat < c.N / 2)

/-- The command is one that some word encodes under `c` (30_encoding.md R106). A table row outside
its table is no encoding error (R103). -/
def Instr.wf (c : Cfg) : Instr → Bool
  | .ctlBound => true
  | .ctlPre n => sampleOk c n
  | .ctlByp n => sampleOk c n
  | .ctlBlock => true
  | .fftBrev => true
  | .fftBfly _ st q => butterflyOk c st q
  | .fftFwd => true
  | .fftInv => true
  | .convInit _ => true
  | .convClear => true
  | .convBlock => true
  | .convFrame => true
  | .convPush => true
  | .convMac => true
  | .convOut => true
  | .nnLoad _ => true
  | .nnReset => true
  | .nnFwd n => sampleOk c n
  | .toneSet => true
  | .toneProc n => sampleOk c n
  | .dlySet => true
  | .dlyProc n => sampleOk c n
  | .revRoom => true
  | .revDecay => true
  | .revProc n => sampleOk c n
  | .mixSet => true
  | .mixProc n => sampleOk c n

end Sys2Proof
end

