-- ==== Sys2Proof/Decode.lean ====
section
/-! DEFINITION. Decoding of command words (30_encoding.md R101 to R107), total, and the encoder. -/

namespace Sys2Proof

/-- Why a word is reserved (30_encoding.md R106). -/
inductive DecodeError where
  /-- no row of R105 has this unit and function -/
  | reservedRow
  /-- format C0 with a non-zero `arg` (R102) -/
  | nonzeroArg
  /-- a per-sample command with `n >= L` (R103) -/
  | sampleOutOfBlock
  /-- butterfly fields outside R104 -/
  | butterflyOutOfRange
  deriving DecidableEq, Repr

/-- The field `arg[23:0]` (R101). -/
def argField (w : BitVec 32) : BitVec 24 := w.extractLsb' 0 24

/-- The fields `unit[31:28]` and `func[27:24]` as one byte (R101). -/
def opField (w : BitVec 32) : BitVec 8 := w.extractLsb' 24 8

/-- Format C0: `arg` must be 0 (R102). -/
def decodeC0 (w : BitVec 32) (i : Instr) : Except DecodeError Instr :=
  if argField w = 0 then .ok i else .error .nonzeroArg

/-- Format CI on a per-sample command: `n < L` (R103, R106). -/
def decodeSample (c : Cfg) (w : BitVec 32) (mk : BitVec 24 → Instr) : Except DecodeError Instr :=
  if sampleOk c (argField w) then .ok (mk (argField w)) else .error .sampleOutOfBlock

/-- Format CI on `NN.LOAD` and `CONV.INIT`: any row index (R103). -/
def decodeRow (w : BitVec 32) (mk : BitVec 24 → Instr) : Except DecodeError Instr :=
  .ok (mk (argField w))

/-- Format CB: `inv[23] s[22:18] q[17:0]` (R104). -/
def decodeButterfly (c : Cfg) (w : BitVec 32) : Except DecodeError Instr :=
  let st : BitVec 5 := w.extractLsb' 18 5
  let q : BitVec 18 := w.extractLsb' 0 18
  if butterflyOk c st q then .ok (.fftBfly (w.getLsbD 23) st q) else .error .butterflyOutOfRange

/-- Every word is exactly one command or reserved (30_encoding.md R106). -/
def decode (c : Cfg) (w : BitVec 32) : Except DecodeError Instr :=
  match (opField w).toNat with
  | 0x01 => decodeC0 w .ctlBound
  | 0x02 => decodeSample c w .ctlPre
  | 0x03 => decodeSample c w .ctlByp
  | 0x04 => decodeC0 w .ctlBlock
  | 0x11 => decodeC0 w .fftBrev
  | 0x12 => decodeButterfly c w
  | 0x13 => decodeC0 w .fftFwd
  | 0x14 => decodeC0 w .fftInv
  | 0x21 => decodeRow w .convInit
  | 0x22 => decodeC0 w .convClear
  | 0x23 => decodeC0 w .convBlock
  | 0x24 => decodeC0 w .convFrame
  | 0x25 => decodeC0 w .convPush
  | 0x26 => decodeC0 w .convMac
  | 0x27 => decodeC0 w .convOut
  | 0x31 => decodeRow w .nnLoad
  | 0x32 => decodeC0 w .nnReset
  | 0x33 => decodeSample c w .nnFwd
  | 0x41 => decodeC0 w .toneSet
  | 0x42 => decodeSample c w .toneProc
  | 0x51 => decodeC0 w .dlySet
  | 0x52 => decodeSample c w .dlyProc
  | 0x61 => decodeC0 w .revRoom
  | 0x62 => decodeC0 w .revDecay
  | 0x63 => decodeSample c w .revProc
  | 0x71 => decodeC0 w .mixSet
  | 0x72 => decodeSample c w .mixProc
  | _ => .error .reservedRow

/-- How a row reads `arg` (30_encoding.md R102, R103, R104): no operand, a sample index, a table row
index, the butterfly operand. -/
inductive Format where
  | c0
  | ciSample
  | ciRow
  | cb
  deriving DecidableEq, Repr

/-- The word's `arg` is one the format allows (30_encoding.md R106). -/
def Format.accepts (c : Cfg) (w : BitVec 32) : Format → Bool
  | .c0 => decide (w.toNat % 2 ^ 24 = 0)
  | .ciSample => decide (w.toNat % 2 ^ 24 < c.L)
  | .ciRow => true
  | .cb => decide (1 ≤ w.toNat / 2 ^ 18 % 2 ^ 5) && decide (w.toNat / 2 ^ 18 % 2 ^ 5 ≤ c.M)
      && decide (w.toNat % 2 ^ 18 < c.N / 2)

/-- One row of the opcode map: mnemonic, unit, function, format (30_encoding.md R105). -/
structure OpcodeRow where
  mnemonic : String
  unit : Nat
  func : Nat
  format : Format
  deriving DecidableEq, Repr

/-- The opcode map (30_encoding.md R105), the table the decoder is compared with. -/
def opcodeRows : List OpcodeRow :=
  [⟨"CTL.BOUND", 0, 1, .c0⟩, ⟨"CTL.PRE", 0, 2, .ciSample⟩, ⟨"CTL.BYP", 0, 3, .ciSample⟩,
   ⟨"CTL.BLOCK", 0, 4, .c0⟩, ⟨"FFT.BREV", 1, 1, .c0⟩, ⟨"FFT.BFLY", 1, 2, .cb⟩,
   ⟨"FFT.FWD", 1, 3, .c0⟩, ⟨"FFT.INV", 1, 4, .c0⟩, ⟨"CONV.INIT", 2, 1, .ciRow⟩,
   ⟨"CONV.CLEAR", 2, 2, .c0⟩, ⟨"CONV.BLOCK", 2, 3, .c0⟩, ⟨"CONV.FRAME", 2, 4, .c0⟩,
   ⟨"CONV.PUSH", 2, 5, .c0⟩, ⟨"CONV.MAC", 2, 6, .c0⟩, ⟨"CONV.OUT", 2, 7, .c0⟩,
   ⟨"NN.LOAD", 3, 1, .ciRow⟩, ⟨"NN.RESET", 3, 2, .c0⟩, ⟨"NN.FWD", 3, 3, .ciSample⟩,
   ⟨"TONE.SET", 4, 1, .c0⟩, ⟨"TONE.PROC", 4, 2, .ciSample⟩, ⟨"DLY.SET", 5, 1, .c0⟩,
   ⟨"DLY.PROC", 5, 2, .ciSample⟩, ⟨"REV.ROOM", 6, 1, .c0⟩, ⟨"REV.DECAY", 6, 2, .c0⟩,
   ⟨"REV.PROC", 6, 3, .ciSample⟩, ⟨"MIX.SET", 7, 1, .c0⟩, ⟨"MIX.PROC", 7, 2, .ciSample⟩]

/-- A word from its op byte and its argument (R101). -/
def commandWord (op : BitVec 8) (arg : BitVec 24) : BitVec 32 := op ++ arg

/-- The butterfly argument (R104). -/
def butterflyArg (inv : Bool) (st : BitVec 5) (q : BitVec 18) : BitVec 24 :=
  BitVec.ofBool inv ++ st ++ q

/-- The word of a command (30_encoding.md R101 to R105). -/
def encode : Instr → BitVec 32
  | .ctlBound => commandWord 0x01 0
  | .ctlPre n => commandWord 0x02 n
  | .ctlByp n => commandWord 0x03 n
  | .ctlBlock => commandWord 0x04 0
  | .fftBrev => commandWord 0x11 0
  | .fftBfly inv st q => commandWord 0x12 (butterflyArg inv st q)
  | .fftFwd => commandWord 0x13 0
  | .fftInv => commandWord 0x14 0
  | .convInit idx => commandWord 0x21 idx
  | .convClear => commandWord 0x22 0
  | .convBlock => commandWord 0x23 0
  | .convFrame => commandWord 0x24 0
  | .convPush => commandWord 0x25 0
  | .convMac => commandWord 0x26 0
  | .convOut => commandWord 0x27 0
  | .nnLoad idx => commandWord 0x31 idx
  | .nnReset => commandWord 0x32 0
  | .nnFwd n => commandWord 0x33 n
  | .toneSet => commandWord 0x41 0
  | .toneProc n => commandWord 0x42 n
  | .dlySet => commandWord 0x51 0
  | .dlyProc n => commandWord 0x52 n
  | .revRoom => commandWord 0x61 0
  | .revDecay => commandWord 0x62 0
  | .revProc n => commandWord 0x63 n
  | .mixSet => commandWord 0x71 0
  | .mixProc n => commandWord 0x72 n

/-- The command word of a table entry of `nbits` bits `w`: the bits above `nbits` are 0. A command is
one whole 32-bit word and byte order is unobservable (20_memory.md R71), so no bytes are laid out. -/
def tableCommandWord (nbits w : Nat) : BitVec 32 := BitVec.ofNat 32 (w % 2 ^ nbits)

/-- The command the decoder reads from a table entry, under the default configuration. -/
def decodeTableWord (nbits w : Nat) : Option Instr :=
  match decode Config.default (tableCommandWord nbits w) with
  | .ok i => some i
  | .error _ => none

end Sys2Proof
end

