-- ==== Sys2Proof/Machine/Num.lean ====
section
/-! DEFINITION. The functions of the default numeric instance `NUM_F32`, IEEE 754 binary32
(00_scope.md R13, R14), and the fixed-point computation of the ideal values of `e^x`, of the sine and of
the cosine. The record `NUM` they make up is in `Machine/Record.lean`.

A finite value is a sign and a magnitude counted in units of `2^-149`, the smallest subnormal, so that
every operation is an exact computation on natural numbers followed by one rounding, `roundMag`. -/

namespace Sys2Proof.Machine

/-- The scale of the fixed-point computation of ideal values: those of the twiddle factors, of `sigmoid`
and of `tanh`. -/
def trigScale : Nat := 2 ^ 192

/-- `floor(pi * 2^192)`. -/
def trigPi : Nat := 19720096697726538562396133364228268891463450865190089732560

/-- The alternating series `t - (t' - (t'' - ...))` with `t' = t * x^2 / ((i+1)(i+2))`, all values
scaled by `trigScale`; `x2` is the scaled `x^2`. -/
def altSeries : Nat → Nat → Nat → Nat → Nat
  | 0, _, _, _ => 0
  | fuel + 1, i, t, x2 =>
    t - altSeries fuel (i + 2) (t * x2 / trigScale / ((i + 1) * (i + 2))) x2

/-- `cos(2*pi*k/N)` and `sin(2*pi*k/N)`, scaled by `trigScale`, for `8*k <= N`. -/
def trigSmall (N k : Nat) : Nat × Nat :=
  let x := trigPi * 2 * k / N
  let x2 := x * x / trigScale
  (altSeries 40 0 trigScale x2, altSeries 40 1 x x2)

/-- `cos(2*pi*k/N)` in the first quarter turn, scaled by `trigScale`, by reflection at one eighth. -/
def cosScaled (N k : Nat) : Nat :=
  if 8 * k ≤ N then (trigSmall N k).1 else (trigSmall N (N / 4 - k)).2

/-- The partial sum of `e^y` with terms from `t = y^i / i!` on, all values scaled by `trigScale`. Every
operation is non-decreasing in `y`. -/
def expSeries : Nat → Nat → Nat → Nat → Nat
  | 0, _, _, _ => 0
  | fuel + 1, i, t, y => t + expSeries fuel (i + 1) (t * y / trigScale / (i + 1)) y

/-- `v` squared `k` times, scaled. -/
def squareTimes : Nat → Nat → Nat
  | 0, v => v
  | k + 1, v => squareTimes k (v * v / trigScale)

/-- `e^x` for a scaled `x`, scaled; `x` is cut off at 128, past which the ideal values of R14 are within
`2^-184` of their limits. The series runs at `x / 2^8`, at most one half. -/
def expScaled (x : Nat) : Nat :=
  squareTimes 8 (expSeries 40 0 trigScale (min x (128 * trigScale) / 2 ^ 8))

/-- The ideal `sigmoid` `1/(1+e^(-x))` of a scaled magnitude `x`, negated if `neg`, scaled (R14). -/
def sigmoidIdeal (neg : Bool) (x : Nat) : Nat :=
  let e := expScaled x
  if neg then trigScale * trigScale / (trigScale + e) else trigScale - trigScale * trigScale / (trigScale + e)

/-- The ideal `tanh` `(e^x - e^(-x))/(e^x + e^(-x))` of a scaled magnitude `x`, scaled (R14). -/
def tanhIdeal (x : Nat) : Nat :=
  let e := expScaled (2 * x)
  trigScale - 2 * trigScale * trigScale / (e + trigScale)

/-- The non-decreasing function of `a` with values `lo` to `lo + 2^fuel - 1` that the thresholds `step`
describe, by bisection: `a` is at or past the middle value exactly if it has reached its threshold.
Whatever the thresholds, it does not decrease as `a` grows. -/
def risingSearch (step : Nat → Int) (a : Int) : Nat → Nat → Nat
  | 0, lo => lo
  | fuel + 1, lo =>
    risingSearch step a fuel (if step (lo + 2 ^ fuel) ≤ a then lo + 2 ^ fuel else lo)

namespace F32

/-- `+0`, the silence of every rule. -/
def zero : Num32 := 0x00000000#32
/-- `const(1)`. -/
def one : Num32 := 0x3F800000#32
/-- `const(0.5)`. -/
def half : Num32 := 0x3F000000#32
/-- `const(-1)`. -/
def negOne : Num32 := 0xBF800000#32

/-- Bit 31, the sign (R13). -/
def sign (a : Num32) : Bool := a.getLsbD 31

/-- Bits 30:23, the biased exponent (R13). -/
def expo (a : Num32) : Nat := a.toNat / 2 ^ 23 % 256

/-- Bits 22:0, the fraction (R13). -/
def frac (a : Num32) : Nat := a.toNat % 2 ^ 23

/-- `finite` (R13): the exponent field is not 255; `NumFormat.finite` says the same. -/
def finite (a : Num32) : Bool := decide (expo a ≠ 255)

/-- A NaN (R13): exponent 255 with a non-zero fraction. -/
def isNaN (a : Num32) : Bool := decide (expo a = 255) && decide (frac a ≠ 0)

/-- An infinity (R13): exponent 255 with fraction 0. -/
def isInf (a : Num32) : Bool := decide (expo a = 255) && decide (frac a = 0)

/-- The magnitude in units of `2^-149`: subnormals have no hidden bit (R13). -/
def mag (a : Num32) : Nat :=
  if expo a = 0 then frac a else (2 ^ 23 + frac a) * 2 ^ (expo a - 1)

/-- A zero of either sign. -/
def isZero (a : Num32) : Bool := decide (a.toNat % 2 ^ 31 = 0)

/-- The pattern with sign `s` and the 31 low bits `m`. -/
def pack (s : Bool) (m : Nat) : Num32 := BitVec.ofNat 32 ((if s then 2 ^ 31 else 0) + m)

/-- The pattern of an infinity without its sign; also the least pattern that is not finite. -/
def infMag : Nat := 0x7F800000

/-- Round to nearest, ties to even, from quotient `q` with remainder `r` of divisor `d` (R13). -/
def roundHalfEven (q r d : Nat) : Nat :=
  if d < 2 * r ∨ (2 * r = d ∧ q % 2 = 1) then q + 1 else q

/-- The sign-less binary32 pattern nearest to `n/d` units of `2^-149`: a grid of `2^k` units that keeps
at most 24 bits, gradual underflow at `k = 0`, overflow to infinity (R13). -/
def roundMag (n d : Nat) : Nat :=
  let k := Nat.log2 (n / d) - 23
  let grid := d * 2 ^ k
  min (k * 2 ^ 23 + roundHalfEven (n / grid) (n % grid) grid) infMag

/-- The NaN an operation yields: any NaN, a free value (R13, log 4). -/
def nan (op : Config.NumOp) (a b : Num32) : Num32 :=
  let v := Config.nanFree op a b
  if isNaN v then v else 0x7FC00000#32

/-- The negation is a sign-bit flip (R16). -/
def neg (a : Num32) : Num32 := a ^^^ 0x80000000#32

/-- The sum of two finite values, rounded once; an exact zero sum is `+0` unless both operands are
negative (R13). -/
def addFinite (a b : Num32) : Num32 :=
  if sign a = sign b then pack (sign a) (roundMag (mag a + mag b) 1)
  else if mag a = mag b then zero
  else if mag b < mag a then pack (sign a) (roundMag (mag a - mag b) 1)
  else pack (sign b) (roundMag (mag b - mag a) 1)

/-- The sum, infinities and NaNs included; `op` and `x y` only name the NaN. -/
def addAs (op : Config.NumOp) (x y a b : Num32) : Num32 :=
  if isNaN a || isNaN b then nan op x y
  else if isInf a then (if isInf b && decide (sign a ≠ sign b) then nan op x y else a)
  else if isInf b then b
  else addFinite a b

/-- `add` (R12, R13). -/
def add (a b : Num32) : Num32 := addAs .add a b a b

/-- `sub` (R12, R13). -/
def sub (a b : Num32) : Num32 := addAs .sub a b a (neg b)

/-- `mul` (R12, R13). -/
def mul (a b : Num32) : Num32 :=
  let s := sign a ^^ sign b
  if isNaN a || isNaN b then nan .mul a b
  else if isInf a then (if isZero b then nan .mul a b else pack s infMag)
  else if isInf b then (if isZero a then nan .mul a b else pack s infMag)
  else pack s (roundMag (mag a * mag b) (2 ^ 149))

/-- `div` (R12, R13). -/
def div (a b : Num32) : Num32 :=
  let s := sign a ^^ sign b
  if isNaN a || isNaN b then nan .div a b
  else if isInf a then (if isInf b then nan .div a b else pack s infMag)
  else if isInf b then pack s 0
  else if isZero b then (if isZero a then nan .div a b else pack s infMag)
  else pack s (roundMag (mag a * 2 ^ 149) (mag b))

/-- The integer square root of `x`, bit by bit from bit `fuel - 1` down, starting from `r`. -/
def isqrtFrom : Nat → Nat → Nat → Nat
  | 0, r, _ => r
  | fuel + 1, r, x =>
    let t := r + 2 ^ fuel
    isqrtFrom fuel (if t * t ≤ x then t else r) x

/-- The sign-less binary32 pattern nearest to the square root of `m` units of `2^-149`: with
`x = m * 2^149` that root is `sqrt x` units, taken on a grid of `2^k` units (R13). -/
def sqrtMag (m : Nat) : Nat :=
  let x := m * 2 ^ 149
  let k := Nat.log2 x / 2 - 23
  let q := isqrtFrom 25 0 (x / 4 ^ k)
  let mid := (2 * q + 1) * (2 * q + 1) * 4 ^ k
  k * 2 ^ 23 + (if mid < 4 * x ∨ (mid = 4 * x ∧ q % 2 = 1) then q + 1 else q)

/-- `sqrt` (R12, R13). -/
def sqrt (a : Num32) : Num32 :=
  if isNaN a then nan .sqrt a a
  else if isZero a then a
  else if sign a then nan .sqrt a a
  else if isInf a then a
  else pack false (sqrtMag (mag a))

/-- `const(q)`: the binary32 nearest to `q`, ties to even (R13). -/
def const (q : Rat) : Num32 :=
  pack (decide (q.num < 0)) (roundMag (q.num.natAbs * 2 ^ 149) q.den)

/-- The binary32 value nearest to an integer. -/
def ofInt (i : Int) : Num32 := pack (decide (i < 0)) (roundMag (i.natAbs * 2 ^ 149) 1)

/-- `num(i)`: the `Num` that equals the integer (R11); of an integer that none equals, a free value,
log 16. -/
def num (i : Int) : Num32 :=
  if finite (ofInt i) && decide (mag (ofInt i) = i.natAbs * 2 ^ 149) then ofInt i else Config.numFree i

/-- `floor(v)`: for a finite `v >= 0` the largest integer `<= v` (R11); elsewhere a free value, log 6. -/
def floor (a : Num32) : Int :=
  if finite a && (!sign a || isZero a) then ((mag a / 2 ^ 149 : Nat) : Int) else Config.floorFree a

/-- The order of values that are not NaNs, on signed magnitudes. -/
def key (a : Num32) : Int := if sign a then -(mag a : Int) else (mag a : Int)

/-- `lt`: the IEEE comparison, false on a NaN (R13). -/
def lt (a b : Num32) : Bool := !isNaN a && !isNaN b && decide (key a < key b)

/-- `le`: the IEEE comparison, false on a NaN (R13). -/
def le (a b : Num32) : Bool := !isNaN a && !isNaN b && decide (key a ≤ key b)

/-- `eq`: the IEEE comparison, false on a NaN; `-0 = +0` (R13). -/
def eq (a b : Num32) : Bool := !isNaN a && !isNaN b && decide (key a = key b)

/-- `ofBits` (R13). -/
def ofBits (w : BitVec 32) : Num32 := w

/-- `toBits` (R13). -/
def toBits (a : Num32) : BitVec 32 := a

/-- The grid of at most 24 bits that `n/d` units of `2^-149` are rounded on, as in `roundMag`. -/
def gridBits (n d : Nat) : Nat := Nat.log2 (n / d) - 23

/-- The largest sign-less pattern of at most `n/d` units. -/
def floorMag (n d : Nat) : Nat :=
  min (gridBits n d * 2 ^ 23 + n / (d * 2 ^ gridBits n d)) infMag

/-- The least sign-less pattern of at least `n/d` units. -/
def ceilMag (n d : Nat) : Nat :=
  min (gridBits n d * 2 ^ 23 + (n + (d * 2 ^ gridBits n d - 1)) / (d * 2 ^ gridBits n d)) infMag

/-- A magnitude of `a`, scaled by `trigScale`. -/
def scaledMag (a : Num32) : Nat := mag a * 2 ^ 43

/-- `SIGTOL`, scaled by `trigScale` and rounded down; a negative one counts as 0 (log 5). -/
def scaledTol (tol : Rat) : Nat := (tol.num * (trigScale : Int) / (tol.den : Int)).toNat

/-- The pattern `p` brought into the patterns within `t` of the ideal value `v`, both scaled; if there is
none, the least one above (R14; log 5). -/
def withinTol (t v p : Nat) : Nat :=
  max (ceilMag ((v - t) * 2 ^ 149) trigScale) (min (floorMag ((v + t) * 2 ^ 149) trigScale) p)

/-- The sign-less pattern of `sigmoid` of a finite operand that is not zero: a non-decreasing function of
the operand with values in `[0, 1]`, on the side of `0.5` the operand is on, within the tolerance. -/
def sigmoidMag (tol : Rat) (a : Num32) : Nat :=
  let p := withinTol (scaledTol tol) (sigmoidIdeal (sign a) (scaledMag a))
    (risingSearch (Config.sigmoidStep .f32) (key a) 30 0)
  if sign a then min p half.toNat else max half.toNat (min p one.toNat)

/-- `sigmoid` (R14): a function of the operand; `0.5` at zero; on finite operands non-decreasing, in
`[0, 1]` and within `SIGTOL`, the parameter `tol`, of its ideal value; any value on others. What R14
leaves open is free (log 5). -/
def sigmoid (tol : Rat) (a : Num32) : Num32 :=
  if isZero a then half
  else if !finite a then Config.sigmoidFree a
  else pack (decide (sigmoidMag tol a = 0) && Config.sigmoidZeroSign a) (sigmoidMag tol a)

/-- The sign-less pattern of `tanh` of a finite operand that is not zero: on each side of zero a
non-decreasing function of the operand's magnitude, at most 1, within the tolerance. -/
def tanhMag (tol : Rat) (a : Num32) : Nat :=
  min one.toNat (withinTol (scaledTol tol) (tanhIdeal (scaledMag a))
    (risingSearch (Config.tanhStep .f32 (sign a)) (mag a) 30 0))

/-- `tanh` (R14): a function of the operand; zero at zero; on finite operands non-decreasing, in
`[-1, 1]` and within `SIGTOL` of its ideal value; any value on others. What R14 leaves open is free
(log 5). -/
def tanh (tol : Rat) (a : Num32) : Num32 :=
  if a = zero then zero
  else if isZero a then pack (Config.tanhZeroSign a) 0
  else if !finite a then Config.tanhFree a
  else pack (if tanhMag tol a = 0 then Config.tanhZeroSign a else sign a) (tanhMag tol a)

/-- The binary32 nearest to `cos(2*pi*k/N)`, `4*k <= N`, negated if `s`: a series in fixed point, rounded
once (log 7). -/
def ofTrig (s : Bool) (N k : Nat) : Num32 := pack s (roundMag (cosScaled N k * 2 ^ 149) trigScale)

end F32

end Sys2Proof.Machine
end

