-- ==== Sys2Proof/Machine/Fix.lean ====
section
/-! DEFINITION. The functions of the numeric instance `NUM_FIX(w, f)` (00_scope.md R15): two's-complement
fixed point of `w` bits with `f` fraction bits, saturating. A word holds the value as an integer, and a
saturated result as the integer next outside the range (log 3). -/

namespace Sys2Proof.Machine

namespace Fix

/-- The value of a word in units of `2^-f`, as a comparison and a port see it; the mark of a saturated
result counts as the end of the range. -/
def value (w : Nat) (a : Int) : Int := max (fixMin w) (min (fixMax w) a)

/-- The word of an exact result: the value, or the mark of a saturated one (R15). -/
def saturate (w : Nat) (v : Int) : Int := max (fixSatLow w) (min (fixSatHigh w) v)

/-- `finite` (R15): false exactly for a saturated result. -/
def finite (w f : Nat) (a : Int) : Bool := (NumFormat.fix w f).finite a

/-- The word of an operation on `a` and `b` with the exact result `v`. On the mark of a saturated result
every operation saturates too, so that a non-finite operand gives a non-finite result (40_fft.md R135;
70_reset_and_hazards.md R369); at which end is free (log 32). -/
def result (w f : Nat) (op : Config.NumOp) (a b v : Int) : Int :=
  if finite w f a && finite w f b then saturate w v
  else if Config.fixSatUp (.fix w f) op a b then fixSatHigh w
  else fixSatLow w

/-- One of the two neighbours of `n/d`, the value itself if it is one: R15 states no rounding, so which
one is free (log 3). -/
def neighbour (w f : Nat) (op : Config.NumOp) (a b : Int) (n : Int) (d : Nat) : Int :=
  if n % (d : Int) = 0 ∨ Config.fixUp (.fix w f) op a b = false then n / (d : Int) else n / (d : Int) + 1

/-- `add`, exact but for saturation. -/
def add (w f : Nat) (a b : Int) : Int := result w f .add a b (a + b)

/-- `sub`, exact but for saturation. -/
def sub (w f : Nat) (a b : Int) : Int := result w f .sub a b (a - b)

/-- `mul`. -/
def mul (w f : Nat) (a b : Int) : Int := result w f .mul a b (neighbour w f .mul a b (a * b) (2 ^ f))

/-- `div`; by zero, a free value (log 3). -/
def div (w f : Nat) (a b : Int) : Int :=
  result w f .div a b
    (if b = 0 then Config.fixFree (.fix w f) .div a b
     else neighbour w f .div a b (a * 2 ^ f * b.sign) b.natAbs)

/-- The root of a value that is not negative: one of the two neighbours (log 3). -/
def root (w f : Nat) (a : Int) : Int :=
  let x := a.toNat * 2 ^ f
  let q := F32.isqrtFrom w 0 x
  if q * q = x ∨ Config.fixUp (.fix w f) .sqrt a a = false then (q : Int) else q + 1

/-- `sqrt`; of a negative value, a free value (log 3). -/
def sqrt (w f : Nat) (a : Int) : Int :=
  result w f .sqrt a a (if a < 0 then Config.fixFree (.fix w f) .sqrt a a else root w f a)

/-- `const(q)`: the value nearest to `q`, the end of the range for a `q` past it; which of the two at the
middle between them, R15 does not state and is free (log 3). -/
def const (w f : Nat) (q : Rat) : Int :=
  let n := q.num * 2 ^ f
  let twice := 2 * (n % (q.den : Int))
  value w (n / (q.den : Int) +
    if twice < q.den ∨ (twice = q.den ∧ Config.fixTieUp (.fix w f) q = false) then 0 else 1)

/-- `num(i)` (R11). For an integer that the format lacks it is the value nearest to it, an end of the range:
DESIGN CHOICE (log 34). -/
def num (w f : Nat) (i : Int) : Int := value w (i * 2 ^ f)

/-- `floor(v)` of a finite `v >= 0` (R11); elsewhere a free value, log 6. -/
def floor (w f : Nat) (a : Int) : Int :=
  if finite w f a && decide (0 ≤ value w a) then value w a / 2 ^ f else Config.fixFloorFree (.fix w f) a

/-- `ofBits`: the low `w` bits of the pattern as a signed integer, all 32 if `w` is larger (log 3). -/
def ofBits (w : Nat) (p : BitVec 32) : Int := if w < 32 then (p.setWidth w).toInt else p.toInt

/-- `toBits`: the low 32 bits of the value as a signed integer (log 3). -/
def toBits (w : Nat) (a : Int) : BitVec 32 := BitVec.ofInt 32 (value w a)

/-- The largest and the least value of `[-1, 1]` that are finite, in units of `2^-f`. -/
def top (w f : Nat) : Nat := (min (2 ^ f) (fixSatHigh w - 1)).toNat
def bottom (w f : Nat) : Nat := (min (2 ^ f) (-fixSatLow w - 1)).toNat

/-- `sigmoid` (R14): `0.5` at zero; on finite operands non-decreasing and in `[0, 1]`; any value on
others. The rest is free (log 5). -/
def sigmoid (w f : Nat) (a : Int) : Int :=
  let half := (value w (const w f (mkRat 1 2))).toNat
  let p := min (top w f) (risingSearch (Config.sigmoidStep (.fix w f)) (value w a) (f + 1) 0)
  if !finite w f a then saturate w (Config.fixSigmoidFree (.fix w f) a)
  else if value w a = 0 then const w f (mkRat 1 2)
  else (if value w a < 0 then min p half else max p half : Nat)

/-- `tanh` (R14): zero at zero; on finite operands non-decreasing and in `[-1, 1]`; any value on others.
The rest is free (log 5). -/
def tanh (w f : Nat) (a : Int) : Int :=
  let p := risingSearch (Config.tanhStep (.fix w f) (decide (value w a < 0))) (value w a).natAbs (f + 1) 0
  if !finite w f a then saturate w (Config.fixTanhFree (.fix w f) a)
  else if value w a = 0 then saturate w 0
  else if value w a < 0 then -(min (bottom w f) p : Nat)
  else (min (top w f) p : Nat)

/-- `cos(2*pi*k/2^M)` is negative: the angle is past one quarter of a turn and short of three. -/
def cosNeg (M k : Nat) : Bool :=
  decide (2 ^ M < 4 * (k % 2 ^ M)) && decide (4 * (k % 2 ^ M) < 3 * 2 ^ M)

/-- On which side of `cos(2*pi*k/2^M)` the fraction `n / 2^e` lies: positive above, negative below, 0 if
they are equal. Exact: where the two have the same sign, the comparison is that of `2*x^2 - 1` with the
cosine of twice the angle. `cosSide_spec` in `Laws/Trig.lean` proves it. -/
def cosSide : Nat → Nat → Int → Nat → Int
  | 0, _, n, e => (n - ((2 ^ e : Nat) : Int)).sign
  | M + 1, k, n, e =>
    let d := ((2 * (n.natAbs * n.natAbs) : Nat) : Int) - ((4 ^ e : Nat) : Int)
    if cosNeg (M + 1) k then (if 0 ≤ n then 1 else -cosSide M k d (2 * e))
    else if n < 0 then -1 else cosSide M k d (2 * e)

/-- The integer nearest to `2^f * cos(2*pi*k/2^M)`, `4*k <= 2^M`: the last one that lies at most one half
above, found by bisection with exact comparisons. -/
def cosNearest (f M k : Nat) : Nat :=
  risingSearch (fun v => cosSide M k (2 * (v : Int) - 1) (f + 1)) 0 (f + 1) 0

/-- The value nearest to `cos(2*pi*k/N)`, `4*k <= N`, negated if `s`, for `N` a power of two and every `w`
and `f` (40_fft.md R131; `ofTrig_nearest` in `Laws/Trig.lean`). -/
def ofTrig (w f : Nat) (s : Bool) (N k : Nat) : Int :=
  let v := (cosNearest f (Nat.log2 N) k : Int)
  value w (if s then -v else v)

end Fix

end Sys2Proof.Machine
end

