-- ==== Sys2Proof/Machine/Record.lean ====
section
/-! DEFINITION. The numeric configuration record `NUM` (00_scope.md R12) over any carrier, the complex
arithmetic on it (R16), its instances `NUM_F32` (R13) and `NUM_FIX` (R15), and the record of a chip.
`NUM_REAL` is in `Machine/NumReal.lean`. -/

namespace Sys2Proof.Machine

/-- The numeric configuration `NUM` with its total functions (R12). `neg` is the negation in `conj`
(R16), and `TW N k` the twiddle entry `k` of a transform of length `N` (40_fft.md R131). Every
arithmetic sign of a rule is one of these functions. -/
structure NUM (α : Type) where
  add : α → α → α
  sub : α → α → α
  mul : α → α → α
  div : α → α → α
  sqrt : α → α
  sigmoid : α → α
  tanh : α → α
  const : Rat → α
  num : Int → α
  floor : α → Int
  finite : α → Bool
  lt : α → α → Bool
  le : α → α → Bool
  eq : α → α → Bool
  ofBits : BitVec 32 → α
  toBits : α → BitVec 32
  neg : α → α
  TW : Nat → Nat → Cplx α

/-- The complex product (R16), operand order as written there. -/
def NUM.cmul {α : Type} (N : NUM α) (a b : Cplx α) : Cplx α :=
  ⟨N.sub (N.mul a.re b.re) (N.mul a.im b.im), N.add (N.mul a.re b.im) (N.mul a.im b.re)⟩

/-- Complex addition, componentwise (R16). -/
def NUM.cadd {α : Type} (N : NUM α) (a b : Cplx α) : Cplx α := ⟨N.add a.re b.re, N.add a.im b.im⟩

/-- Complex subtraction, componentwise (R16). -/
def NUM.csub {α : Type} (N : NUM α) (a b : Cplx α) : Cplx α := ⟨N.sub a.re b.re, N.sub a.im b.im⟩

/-- The conjugate (R16). -/
def NUM.conj {α : Type} (N : NUM α) (a : Cplx α) : Cplx α := ⟨a.re, N.neg a.im⟩

/-- The complex zero `(+0, +0)`. -/
def czero {α : Type} [Inhabited α] : Cplx α := ⟨silence, silence⟩

/-- The twiddle table `TW[k]`, `k < N/2`: `(const(cos(2*pi*k/N)), const(-sin(2*pi*k/N)))`, the nearest
values, with `TW[0] = (1, +0)` and `TW[N/4] = (+0, -1)` exact (40_fft.md R131; log 7, and log 3 for a
format without the value 1). `near s N k` is the value nearest to `cos(2*pi*k/N)` in the first quarter
turn, negated if `s`. -/
def twiddleTable {α : Type} [Inhabited α] (one negOne : α) (near : Bool → Nat → Nat → α)
    (N k : Nat) : Cplx α :=
  if k = 0 then ⟨one, silence⟩
  else if 4 * k = N then ⟨silence, negOne⟩
  else if 4 * k < N then ⟨near false N k, near true N (N / 4 - k)⟩
  else ⟨near true N (N / 2 - k), near true N (k - N / 4)⟩

/-- The default instance `NUM_F32` (R13, R14); `tol` is `SIGTOL`. Its negation is a sign-bit flip
(R16; log 20). -/
def NUM_F32 (tol : Rat) : NUM Num32 where
  add := F32.add
  sub := F32.sub
  mul := F32.mul
  div := F32.div
  sqrt := F32.sqrt
  sigmoid := F32.sigmoid tol
  tanh := F32.tanh tol
  const := F32.const
  num := F32.num
  floor := F32.floor
  finite := F32.finite
  lt := F32.lt
  le := F32.le
  eq := F32.eq
  ofBits := F32.ofBits
  toBits := F32.toBits
  neg := F32.neg
  TW := twiddleTable F32.one F32.negOne F32.ofTrig

/-- The instance `NUM_FIX(w, f)` (R15); its negation is `0 - i` (R16). -/
def NUM_FIX (w f : Nat) : NUM NumWord where
  add := Fix.add w f
  sub := Fix.sub w f
  mul := Fix.mul w f
  div := Fix.div w f
  sqrt := Fix.sqrt w f
  sigmoid := Fix.sigmoid w f
  tanh := Fix.tanh w f
  const := Fix.const w f
  num := Fix.num w f
  floor := Fix.floor w f
  finite := Fix.finite w f
  lt := fun a b => decide (Fix.value w a < Fix.value w b)
  le := fun a b => decide (Fix.value w a ≤ Fix.value w b)
  eq := fun a b => decide (Fix.value w a = Fix.value w b)
  ofBits := Fix.ofBits w
  toBits := Fix.toBits w
  neg := fun a => Fix.sub w f 0 a
  TW := twiddleTable (Fix.const w f 1) (Fix.const w f (-1)) (Fix.ofTrig w f)

/-- The complex pair with `f` applied to both parts. -/
def Cplx.map {α β : Type} (f : α → β) (z : Cplx α) : Cplx β := ⟨f z.re, f z.im⟩

/-- The word that holds a pattern, and the pattern a word holds. -/
def F32.word (p : Num32) : NumWord := (p.toNat : Int)
def F32.pattern (v : NumWord) : Num32 := BitVec.ofInt 32 v

/-- A record over patterns, on the words that hold them. -/
def NUM.onWords (N : NUM Num32) : NUM NumWord where
  add := fun a b => F32.word (N.add (F32.pattern a) (F32.pattern b))
  sub := fun a b => F32.word (N.sub (F32.pattern a) (F32.pattern b))
  mul := fun a b => F32.word (N.mul (F32.pattern a) (F32.pattern b))
  div := fun a b => F32.word (N.div (F32.pattern a) (F32.pattern b))
  sqrt := fun a => F32.word (N.sqrt (F32.pattern a))
  sigmoid := fun a => F32.word (N.sigmoid (F32.pattern a))
  tanh := fun a => F32.word (N.tanh (F32.pattern a))
  const := fun q => F32.word (N.const q)
  num := fun i => F32.word (N.num i)
  floor := fun a => N.floor (F32.pattern a)
  finite := fun a => N.finite (F32.pattern a)
  lt := fun a b => N.lt (F32.pattern a) (F32.pattern b)
  le := fun a b => N.le (F32.pattern a) (F32.pattern b)
  eq := fun a b => N.eq (F32.pattern a) (F32.pattern b)
  ofBits := fun p => F32.word (N.ofBits p)
  toBits := fun a => N.toBits (F32.pattern a)
  neg := fun a => F32.word (N.neg (F32.pattern a))
  TW := fun n k => Cplx.map F32.word (N.TW n k)

/-- The record of a chip, on its words (R12). -/
def arithOf (k : NumFormat) (tol : Rat) : NUM NumWord :=
  match k with
  | .f32 => (NUM_F32 tol).onWords
  | .fix w f => NUM_FIX w f

end Sys2Proof.Machine

namespace Sys2Proof

/-- The record `NUM` that a configuration is built with (00_scope.md R12). -/
def Cfg.arith (c : Cfg) : Machine.NUM NumWord := Machine.arithOf c.NUM c.SIGTOL

end Sys2Proof
end

