-- ==== Sys2Proof/Machine/State.lean ====
section
/-! DEFINITION. The state of the Altair CORE (10_state.md), the events the outside sends it, its
faults and refusals, and its reset state. Fields carry the spec's names. -/

namespace Sys2Proof.Machine

/-- ChainState (R27). -/
inductive ChainState where
  | bypassed
  | active
  deriving DecidableEq, Repr

/-- `PHASE` of the sequencer position (R32). -/
inductive Phase where
  | idle
  | run
  | halt
  deriving DecidableEq, Repr

/-- `TMODE` (R45): 0 low-pass, 1 high-pass. -/
inductive ToneMode where
  | lowPass
  | highPass
  deriving DecidableEq, Repr

/-- One bank of parameter registers `P[0..9]` and `FLAGS` (R21, R22, R23). -/
structure Params where
  GAIN : NumWord
  MIX : NumWord
  LEVEL : NumWord
  TONE : NumWord
  DTIME : NumWord
  DFB : NumWord
  DLEVEL : NumWord
  T2OFS : NumWord
  ROOM : NumWord
  DECAY : NumWord
  FLAGS : BitVec 3
  deriving DecidableEq, Repr

/-- A reload mailbox `(pend, idx)` (R25). -/
structure Request where
  pend : Bool
  idx : BitVec 32
  deriving DecidableEq, Repr

/-- The state words of one tone filter `k`: `TLP[k]`, `TQ[k]`, `TR[k]` (R45). -/
structure ToneFilter (α : Type) where
  TLP : α
  TQ : α
  TR : α
  deriving DecidableEq, Repr

/-- One reverb line `j`: `RB[j]`, `RLEN[j]`, `RP[j]`, `LP[j]` (R48). -/
structure ReverbLine (α : Type) where
  RB : Memory α
  RLEN : Nat
  RP : Nat
  LP : α
  deriving DecidableEq, Repr

/-- What an outside agent sends (00_scope.md R19; log 8). -/
inductive Event where
  /-- the platform's `RESET` (70 R350) -/
  | reset
  /-- the transport's `TICK(blen, in)`, `blen` the length of `in`, each sample as the pattern that crosses
  the audio block port (30 R111, R112, 47 R284) -/
  | tick (block : List (BitVec 32))
  /-- the control loop's `PortWrite(addr, w)` with an access width in bits (20 R72, R80) -/
  | portWrite (addr width : Nat) (w : BitVec 32)
  /-- the control loop's `PortRead(addr)` with an access width in bits (20 R72, R80) -/
  | portRead (addr width : Nat)
  /-- a command word of the verification environment (30 R100) -/
  | command (w : BitVec 32)
  deriving DecidableEq, Repr

/-- The state of the CORE. -/
structure State where
  /-- the chip's configuration; written by no step, survives `RESET` (00 R7, R8; 70 R350; log 1) -/
  cfg : Cfg
  /-- shadow bank (R22) -/
  S : Params
  /-- mailbox bank (R22) -/
  M : Params
  /-- active bank (R22) -/
  A : Params
  /-- the mailbox holds a committed snapshot (R24) -/
  MV : Bool
  /-- model reload request (R25) -/
  RQM : Request
  /-- impulse-response reload request (R25) -/
  RQI : Request
  /-- bypass toggle request `RQB.pend` (R25) -/
  RQB : Bool
  /-- index of the loaded model (R26) -/
  CURM : BitVec 24
  /-- index of the loaded impulse response (R26) -/
  CURI : BitVec 24
  /-- ChainState (R27) -/
  CHAIN : ChainState
  /-- code of the fatal fault that halted the CORE (R29) -/
  HCAUSE : BitVec 3
  /-- sequencer phase (R32) -/
  PHASE : Phase
  /-- sequencer sample counter (R32) -/
  n : Nat
  /-- input block (R31) -/
  X : Memory NumWord
  /-- working block (R31) -/
  W : Memory NumWord
  /-- output channels (R31) -/
  OUTL : Memory NumWord
  OUTR : Memory NumWord
  /-- transform work buffer, entry `k` at words `2k`, `2k+1` (R35, R51) -/
  Z : Memory NumWord
  /-- partition spectra, row `p` at word `2*N*p` (R36, R51) -/
  PART : Memory NumWord
  /-- history ring, row `s` at word `2*N*s` (R37, R51) -/
  HIST : Memory NumWord
  /-- ring write index (R38) -/
  WIDX : Nat
  /-- previous block (R39) -/
  OVL : Memory NumWord
  /-- partition count (R40) -/
  K : Nat
  /-- the 335 weight registers, in the layout of 42_neural.md R176 (R42) -/
  WT : Memory NumWord
  /-- hidden state (R43) -/
  h : Memory NumWord
  /-- selected tone filter (R45) -/
  TMODE : ToneMode
  /-- tone coefficient (R45) -/
  TALPHA : NumWord
  /-- state words of the low-pass, `k = 0`, and of the high-pass, `k = 1` (R45) -/
  TF0 : ToneFilter NumWord
  TF1 : ToneFilter NumWord
  /-- delay buffer (R46) -/
  DBUF : Memory NumWord
  /-- delay write pointer (R46) -/
  WP : Nat
  /-- smoothed and target delay length (R47) -/
  CUR : NumWord
  TGT : NumWord
  /-- feedback gain (R47) -/
  FB : NumWord
  /-- active flag (R47) -/
  ACT : Bool
  /-- delay output level (R47) -/
  DLV : NumWord
  /-- second-tap flag and delay (R47) -/
  TAP2 : Bool
  T2 : NumWord
  /-- the reverb lines, line 0 first (R48) -/
  REV : List (ReverbLine NumWord)
  /-- shared decay gain (R49) -/
  G : NumWord
  /-- room value of the present line lengths, or NONE (R49) -/
  ROOMCUR : Option NumWord
  /-- mixer gains (R50) -/
  WETG : NumWord
  DRYG : NumWord
  /-- model-only counter of NumericalFault recoveries; no rule reads it (R30; log 17) -/
  NFAULT : Nat
  /-- model's own: the events still to come, the next first (log 8) -/
  inbox : List Event
  /-- model's own: `blen` of the `TICK` being served (47 R272; log 11) -/
  tickLen : Option Nat
  /-- model's own: the coming readiness answers `ready_m`, `ready_i`; none listed means ready
  (47 R278; log 10) -/
  readyM : List Bool
  readyI : List Bool
  /-- model's own: the value the last `PortRead` returned (log 18) -/
  portOut : BitVec 32
  /-- model's own: the last output block delivered to the transport (47 R284; log 18) -/
  audioOut : Option (List (BitVec 32) × List (BitVec 32))
  deriving DecidableEq, Repr

/-- A stop of the machine. The spec's own fatal faults are no stop: they take the CORE to `HALT`, a
next state (60_exceptions.md R316). -/
inductive Fault where
  /-- A command found an index register outside its range, so that it would access a word past its
  space: "a bug in the model, not ... behaviour of the chip" (20_memory.md R70). Raised by the
  convolution ring, delay and reverb commands. Safe: no reachable state raises it (log 14). -/
  | indexOutOfSpace
  deriving DecidableEq, Repr

/-- What the model does not accept. -/
inductive Refusal where
  /-- an instruction without a meaning; raised by no arm of `exec`. Safe. -/
  | notModelled (mnemonic : String)
  /-- a configuration that is not well-formed (00_scope.md R9, 93 U15). Raised by `step`. Safe. -/
  | illFormedConfig
  /-- a `TICK` while a block runs (47_control.md R285, 93 U7). Raised by `step`. Safe. -/
  | tickInRun
  /-- an outside command while a block runs (30 R100, 93 U22). Raised by `step`. Safe. -/
  | commandInRun
  deriving DecidableEq, Repr

/-- The three outcomes for this machine. -/
abbrev Result := Host.Outcome State Fault Refusal

/-- Reset column of the parameter registers and `FLAGS` (R21, R23), not clamped where a bound of `CFG` lies
below a reset value, which R22 takes as never the case: DESIGN CHOICE (log 37). -/
def Params.atReset (c : Cfg) : Params where
  GAIN := c.arith.const 1
  MIX := c.arith.const 1
  LEVEL := c.arith.const 1
  TONE := c.arith.const (mkRat 1 2)
  DTIME := c.arith.num (c.DMAX / 2 : Nat)
  DFB := silence
  DLEVEL := c.arith.const 1
  T2OFS := c.arith.num (c.DMAX / 3 : Nat)
  ROOM := c.arith.const (mkRat 1 2)
  DECAY := c.arith.const (mkRat 1 2)
  FLAGS := 0#3

/-- Reset value of one reverb line (R48). -/
def ReverbLine.atReset : ReverbLine NumWord := ⟨[], 1, 0, silence⟩

/-- Steps 1 and 2 of reset (70_reset_and_hazards.md R350): every register and RAM word at the reset
value its rule in 10_state.md gives, before the boot sequence. -/
def State.cold (c : Cfg) : State where
  cfg := c
  S := Params.atReset c
  M := Params.atReset c
  A := Params.atReset c
  MV := false
  RQM := ⟨false, 0⟩
  RQI := ⟨false, 0⟩
  RQB := false
  CURM := 0
  CURI := 0
  CHAIN := .bypassed
  HCAUSE := 0
  PHASE := .idle
  n := 0
  X := []
  W := []
  OUTL := []
  OUTR := []
  Z := []
  PART := []
  HIST := []
  WIDX := 0
  OVL := []
  K := 1
  WT := []
  h := []
  TMODE := .lowPass
  TALPHA := c.arith.const 1
  TF0 := ⟨silence, silence, silence⟩
  TF1 := ⟨silence, silence, silence⟩
  DBUF := []
  WP := 0
  CUR := c.arith.num (c.DMAX / 2 : Nat)
  TGT := c.arith.num (c.DMAX / 2 : Nat)
  FB := silence
  ACT := false
  DLV := c.arith.const 1
  TAP2 := false
  T2 := c.arith.num (c.DMAX / 3 : Nat)
  REV := List.replicate c.NREV ReverbLine.atReset
  G := silence
  ROOMCUR := none
  WETG := silence
  DRYG := c.arith.const 1
  NFAULT := 0
  inbox := []
  tickLen := none
  readyM := []
  readyI := []
  portOut := 0
  audioOut := none

/-- The machine right after `RESET` with the default configuration: the values after the boot sequence
that 10_state.md R54 lists (70 R350, R357). The blank ROM of log 2 makes `WT`, `PART` and `Z` all `+0`
and `K = 1`. The statement `ResetStateValues` says that this is `State.cold` after the
boot sequence. -/
def State.reset : State :=
  { State.cold Config.default with
    REV := [⟨[], 2628, 0, silence⟩, ⟨[], 2984, 0, silence⟩,
            ⟨[], 3390, 0, silence⟩, ⟨[], 3847, 0, silence⟩]
    G := F32.word F32.half
    ROOMCUR := some (F32.word F32.half)
    WETG := F32.word F32.one
    DRYG := silence }

end Sys2Proof.Machine
end

