-- ==== Sys2Proof/Machine/Ops.lean ====
section
/-! DEFINITION. The named operations over memories, registers and faults that the meanings share. -/

namespace Sys2Proof

open Machine

/-! ### Memories (20_memory.md R70) -/

variable {α : Type} [Inhabited α] [DecidableEq α]

/-- The word at an address; an unlisted one reads `+0`. -/
def Memory.read {α : Type} [Inhabited α] (m : Memory α) (a : Nat) : α :=
  match m with
  | [] => silence
  | (b, v) :: rest => if a = b then v else Memory.read rest a

/-- The canonical form of the words `ws` at `base`, `base + 1`, .... -/
def Memory.ofWords (base : Nat) : List α → Memory α
  | [] => []
  | v :: vs =>
    if v = silence then Memory.ofWords (base + 1) vs
    else (base, v) :: Memory.ofWords (base + 1) vs

/-- `MemWrite(space, base, n, ws)` with `n` the length of `ws` (00_scope.md R11). -/
def Memory.writeBlock (m : Memory α) (base : Nat) (ws : List α) : Memory α :=
  m.filter (fun e => decide (e.1 < base)) ++ Memory.ofWords base ws
    ++ m.filter (fun e => decide (base + ws.length ≤ e.1))

/-- `A[i] <- v`. -/
def Memory.write (m : Memory α) (a : Nat) (v : α) : Memory α := Memory.writeBlock m a [v]

/-- `MemRead(space, base, n)` (00_scope.md R11). -/
def Memory.readBlock {α : Type} [Inhabited α] (m : Memory α) (base n : Nat) : List α :=
  (List.range n).map (fun i => Memory.read m (base + i))

/-- A memory of `n` words with word `i` equal to `f i`. -/
def Memory.tabulate (n : Nat) (f : Nat → α) : Memory α := Memory.ofWords 0 ((List.range n).map f)

/-- The two words of a complex entry, real then imaginary (10_state.md R51). -/
def cplxWords {α : Type} (v : Cplx α) : List α := [v.re, v.im]

/-- Complex entry `k`. -/
def Memory.readC {α : Type} [Inhabited α] (m : Memory α) (k : Nat) : Cplx α :=
  ⟨Memory.read m (2 * k), Memory.read m (2 * k + 1)⟩

/-- `A[k] <- v` for a complex entry. -/
def Memory.writeC (m : Memory α) (k : Nat) (v : Cplx α) : Memory α :=
  Memory.writeBlock m (2 * k) (cplxWords v)

/-- A memory of `n` complex entries with entry `k` equal to `f k`. -/
def Memory.tabulateC (n : Nat) (f : Nat → Cplx α) : Memory α :=
  Memory.ofWords 0 ((List.range n).flatMap (fun k => cplxWords (f k)))

/-- Addresses rise strictly from `lo` on and no word is `+0`. -/
def Memory.wfFrom (lo : Nat) : Memory α → Bool
  | [] => true
  | (a, v) :: rest => decide (lo ≤ a) && decide (v ≠ silence) && Memory.wfFrom (a + 1) rest

/-- The canonical form: equal contents are equal data (log 15). -/
def Memory.wf (m : Memory α) : Bool := Memory.wfFrom 0 m

/-- Every listed address is below `size`. -/
def Memory.inSize {α : Type} (m : Memory α) (size : Nat) : Bool := m.all (fun e => decide (e.1 < size))

end Sys2Proof

namespace Sys2Proof.Machine

/-! ### NumericalFault (60_exceptions.md R311): `+0` in place of the one affected value -/

/-- The value stored: `v` if its tests passed, else silence. -/
def orSilence {α : Type} [Inhabited α] (ok : Bool) (v : α) : α := if ok then v else silence

/-- One more recovery in the model-only counter, if a test failed (10_state.md R30). -/
def State.countFault (s : State) (ok : Bool) : State :=
  { s with NFAULT := s.NFAULT + (if ok then 0 else 1) }

/-- `W[i] <- v`, or `+0` with a NumericalFault. -/
def State.storeW (s : State) (i : Nat) (ok : Bool) (v : NumWord) : State :=
  { s with W := Memory.write s.W i (orSilence ok v) }.countFault ok

/-- `OUTL[i] <- v; OUTR[i] <- v`. -/
def State.storeOut (s : State) (i : Nat) (v : NumWord) : State :=
  { s with OUTL := Memory.write s.OUTL i v, OUTR := Memory.write s.OUTR i v }

/-! ### Fatal faults (60_exceptions.md R310, R314 to R316): the one entry -/

/-- The faults of the CORE and their codes (R310). -/
inductive FaultCause where
  | numericalFault
  | configurationMismatch
  | deadlineOverrun
  | illegalCommand
  deriving DecidableEq, Repr

/-- The code of a fault (R310). -/
def FaultCause.code : FaultCause → BitVec 3
  | .numericalFault => 1
  | .configurationMismatch => 2
  | .deadlineOverrun => 3
  | .illegalCommand => 4

/-- Both output channels silent (R316). -/
def State.silenceOut (s : State) : State := { s with OUTL := [], OUTR := [] }

/-- Taking a fatal fault: `HCAUSE` is the code, `PHASE` is `HALT`, and the output block is silence
(R316). An IllegalCommand changes nothing but `HCAUSE` and `PHASE` (R315, 30_encoding.md R107;
log 12). -/
def State.fatal (s : State) (cause : FaultCause) : State :=
  let t := { s with HCAUSE := cause.code, PHASE := .halt }
  match cause with
  | .illegalCommand => t
  | _ => t.silenceOut

/-! ### Issuing a command (30_encoding.md R100, R107) -/

/-- A command in `HALT` changes nothing (R100); one whose operand is reserved is an IllegalCommand
(R107); any other has its effect `f`. -/
def issue (legal : Bool) (f : State → Result) (s : State) : Result :=
  if s.PHASE = .halt then .next s
  else if legal then f s
  else .next (s.fatal .illegalCommand)

/-- The next state `t` of a command whose index registers were in range (20_memory.md R70; log 14). -/
def inSpace (inRange : Bool) (t : State) : Result :=
  if inRange then .next t else .fault .indexOutOfSpace

/-- The convolution ring's index registers are in range (00_scope.md R17; 10_state.md R38, R40). -/
def State.ringInRange (s : State) : Bool := decide (s.WIDX < s.K) && decide (s.K ≤ s.cfg.KMAX)

/-- The delay pointer is in range (10_state.md R46). -/
def State.dlyInRange (s : State) : Bool := decide (s.WP < s.cfg.DMAX)

/-- The pointers of the reverb lines are in range (10_state.md R48). -/
def State.revInRange (s : State) : Bool :=
  s.REV.all (fun l => decide (l.RP < l.RLEN) && decide (l.RLEN ≤ s.cfg.RMAX))

end Sys2Proof.Machine
end

