-- ==== Sys2Proof/Machine/Operands.lean ====
section
/-! DEFINITION. The effective-address computations of 20_memory.md R77, the bit reversal and butterfly
numbering of 40_fft.md, the weight layout of 42_neural.md R176 and the parameter ranges of
10_state.md R21. -/

namespace Sys2Proof.Machine

/-- `(ptr - off) mod size`, the mathematical modulus (00_scope.md R11, R17): the delayed ring read and
the delay tap of R77. -/
def ringIndex (ptr : Nat) (off : Int) (size : Nat) : Nat := (((ptr : Int) - off) % (size : Int)).toNat

/-- `(ptr + 1) mod size`, the post-increment of R77. -/
def ringNext (ptr size : Nat) : Nat := (ptr + 1) % size

/-- `rev_M(i)` (40_fft.md R132): the `M`-bit number with the bits of `i` in the opposite order. -/
def bitRev : Nat → Nat → Nat
  | 0, _ => 0
  | m + 1, i => (i % 2) * 2 ^ m + bitRev m (i / 2)

/-- `half = 2^(s-1)` of stage `s` (40_fft.md R134). -/
def bflyHalf (st : Nat) : Nat := 2 ^ (st - 1)

/-- `span = 2^s` (40_fft.md R134). -/
def bflySpan (st : Nat) : Nat := 2 ^ st

/-- `j = q mod half` (40_fft.md R134). -/
def bflyJ (st q : Nat) : Nat := q % bflyHalf st

/-- The upper index `g + j`, `g = (q div half) * span` (40_fft.md R134). -/
def bflyTop (st q : Nat) : Nat := q / bflyHalf st * bflySpan st + bflyJ st q

/-- The lower index `g + j + half` (40_fft.md R134). -/
def bflyBottom (st q : Nat) : Nat := bflyTop st q + bflyHalf st

/-- The twiddle index `j * (N div span)` (40_fft.md R134). -/
def bflyTwiddle (N st q : Nat) : Nat := bflyJ st q * (N / bflySpan st)

/-- First word of row `p` of `PART` or `HIST`: a row is `N` complex entries (R51, R77). -/
def rowBase (c : Cfg) (p : Nat) : Nat := p * (2 * c.N)

/-- Complex entry `k` of row `p`. -/
def rowEntry (c : Cfg) (p k : Nat) : Nat := p * c.N + k

/-- Word `m` of partition `p` of an impulse response, `+0` past its end (R77; 41_convolution.md R151). -/
def irWord {α : Type} [Inhabited α] (c : Cfg) (ir : List α) (p m : Nat) : α :=
  if m < c.L ∧ p * c.L + m < ir.length then ir.getD (p * c.L + m) silence else silence

/-- Word offsets of the weights (42_neural.md R176). -/
def wihAt (g i : Nat) : Nat := g * 9 + i
def whhAt (g i j : Nat) : Nat := 27 + (g * 9 + i) * 9 + j
def bihAt (g i : Nat) : Nat := 270 + g * 9 + i
def bhhAt (g i : Nat) : Nat := 297 + g * 9 + i
def wdAt (i : Nat) : Nat := 324 + i
def bdAt : Nat := 333
def lvlAt : Nat := 334

/-- `S.P[i]` for a port index `i` below 10 (47_control.md R290). -/
def Params.get (p : Params) : Nat → NumWord
  | 0 => p.GAIN
  | 1 => p.MIX
  | 2 => p.LEVEL
  | 3 => p.TONE
  | 4 => p.DTIME
  | 5 => p.DFB
  | 6 => p.DLEVEL
  | 7 => p.T2OFS
  | 8 => p.ROOM
  | _ => p.DECAY

/-- `S.P[i] <- v` for a port index `i` below 10 (47_control.md R290). -/
def Params.set (p : Params) (i : Nat) (v : NumWord) : Params :=
  match i with
  | 0 => { p with GAIN := v }
  | 1 => { p with MIX := v }
  | 2 => { p with LEVEL := v }
  | 3 => { p with TONE := v }
  | 4 => { p with DTIME := v }
  | 5 => { p with DFB := v }
  | 6 => { p with DLEVEL := v }
  | 7 => { p with T2OFS := v }
  | 8 => { p with ROOM := v }
  | _ => { p with DECAY := v }

/-- `PMIN[0..9]` (10_state.md R21). -/
def pmin (c : Cfg) : Params where
  GAIN := silence
  MIX := silence
  LEVEL := silence
  TONE := silence
  DTIME := c.arith.num 1
  DFB := silence
  DLEVEL := silence
  T2OFS := c.arith.num 1
  ROOM := silence
  DECAY := silence
  FLAGS := 0

/-- `PMAX[0..9]` (10_state.md R21). The bounds that `CFG` holds as rationals are taken by `const`, which
rounds to nearest: DESIGN CHOICE (log 24), since R21 and 44_delay.md R224 name the bound `FB_MAX` and do
not say how a register holds it. An `FB_MAX` within `2^-25` of 1 gives the bound 1 in `NUM_F32`. -/
def pmax (c : Cfg) : Params where
  GAIN := c.arith.const c.GAIN_MAX
  MIX := c.arith.const 1
  LEVEL := c.arith.const c.LEVEL_MAX
  TONE := c.arith.const 1
  DTIME := c.arith.num (c.DMAX - 1 : Nat)
  DFB := c.arith.const c.FB_MAX
  DLEVEL := c.arith.const c.LEVEL_MAX
  T2OFS := c.arith.num (c.DMAX - 1 : Nat)
  ROOM := c.arith.const 1
  DECAY := c.arith.const c.FB_MAX
  FLAGS := 7

/-- One field of the snapshot (47_control.md R273): clamped into its range, dropped if not finite. -/
def clampParam {α : Type} (N : NUM α) (lo hi old v : α) : α :=
  if N.finite v then (if N.lt hi v then hi else if N.lt v lo then lo else v) else old

/-- All eleven fields of the snapshot (47_control.md R273). -/
def Params.accept (c : Cfg) (old m : Params) : Params where
  GAIN := clampParam c.arith (pmin c).GAIN (pmax c).GAIN old.GAIN m.GAIN
  MIX := clampParam c.arith (pmin c).MIX (pmax c).MIX old.MIX m.MIX
  LEVEL := clampParam c.arith (pmin c).LEVEL (pmax c).LEVEL old.LEVEL m.LEVEL
  TONE := clampParam c.arith (pmin c).TONE (pmax c).TONE old.TONE m.TONE
  DTIME := clampParam c.arith (pmin c).DTIME (pmax c).DTIME old.DTIME m.DTIME
  DFB := clampParam c.arith (pmin c).DFB (pmax c).DFB old.DFB m.DFB
  DLEVEL := clampParam c.arith (pmin c).DLEVEL (pmax c).DLEVEL old.DLEVEL m.DLEVEL
  T2OFS := clampParam c.arith (pmin c).T2OFS (pmax c).T2OFS old.T2OFS m.T2OFS
  ROOM := clampParam c.arith (pmin c).ROOM (pmax c).ROOM old.ROOM m.ROOM
  DECAY := clampParam c.arith (pmin c).DECAY (pmax c).DECAY old.DECAY m.DECAY
  FLAGS := m.FLAGS

end Sys2Proof.Machine
end

