-- ==== Sys2Proof/Machine/Fft.lean ====
section
/-! DEFINITION. The transform unit (40_fft.md): `FFT.BREV`, `FFT.BFLY`, `FFT.FWD`, `FFT.INV`. -/

namespace Sys2Proof.Machine

variable {α : Type} [Inhabited α] [DecidableEq α] (N : NUM α)

/-- The bit-reversal permutation of `N = 2^M` entries: entry `i` becomes the old entry `rev_M(i)`
(R133). -/
def bitReverseZ (c : Cfg) (z : Memory α) : Memory α :=
  Memory.tabulateC c.N (fun i => z.readC (bitRev c.M i))

/-- The twiddle factor of a butterfly, conjugated when `inv` (R135). -/
def bflyFactor (c : Cfg) (inv : Bool) (st q : Nat) : Cplx α :=
  let t := N.TW c.N (bflyTwiddle c.N st q)
  if inv then N.conj t else t

/-- One radix-2 butterfly (R135). -/
def butterflyZ (c : Cfg) (inv : Bool) (st q : Nat) (z : Memory α) : Memory α :=
  let a := z.readC (bflyTop st q)
  let b := N.cmul (z.readC (bflyBottom st q)) (bflyFactor N c inv st q)
  (z.writeC (bflyTop st q) (N.cadd a b)).writeC (bflyBottom st q) (N.csub a b)

/-- The `N/2` butterflies of stage `st` in ascending `q` (R134, R136). -/
def stageZ (c : Cfg) (inv : Bool) (st : Nat) (z : Memory α) : Memory α :=
  (List.range (c.N / 2)).foldl (fun z q => butterflyZ N c inv st q z) z

/-- Bit reversal, then the stages `1..M` in ascending order (R136, R137). -/
def transformZ (c : Cfg) (inv : Bool) (z : Memory α) : Memory α :=
  (List.range c.M).foldl (fun z i => stageZ N c inv (i + 1) z) (bitReverseZ c z)

def State.fftBrev (s : State) : State := { s with Z := bitReverseZ s.cfg s.Z }

def State.fftBfly (inv : Bool) (st q : Nat) (s : State) : State :=
  { s with Z := butterflyZ s.cfg.arith s.cfg inv st q s.Z }

def State.fftTransform (inv : Bool) (s : State) : State :=
  { s with Z := transformZ s.cfg.arith s.cfg inv s.Z }

/-- `FFT.BREV` (R133). -/
def execFftBrev (s : State) : Result := issue true (fun s => .next s.fftBrev) s

/-- `FFT.BFLY inv, s, q` (R135); fields outside R104 are an IllegalCommand. -/
def execFftBfly (inv : Bool) (st : BitVec 5) (q : BitVec 18) (s : State) : Result :=
  issue (butterflyOk s.cfg st q) (fun s => .next (s.fftBfly inv st.toNat q.toNat)) s

/-- `FFT.FWD` (R136). -/
def execFftFwd (s : State) : Result := issue true (fun s => .next (s.fftTransform false)) s

/-- `FFT.INV` (R137). -/
def execFftInv (s : State) : Result := issue true (fun s => .next (s.fftTransform true)) s

end Sys2Proof.Machine
end

