-- ==== Sys2Proof/Machine/Conv.lean ====
section
/-! DEFINITION. The partitioned convolution engine (41_convolution.md): `CONV.INIT`, `CONV.CLEAR`,
`CONV.FRAME`, `CONV.PUSH`, `CONV.MAC`, `CONV.OUT`, `CONV.BLOCK`. -/

namespace Sys2Proof.Machine

/-- `max(1, ceil(len / L))` (R152). -/
def partitionCount (c : Cfg) (len : Nat) : Nat := max 1 ((len + c.L - 1) / c.L)

variable {α : Type} [Inhabited α] [DecidableEq α] (N : NUM α)

/-- The frame of partition `p`: its `L` samples, then `L` zeros, imaginary parts `+0` (R151, R152). -/
def partitionFrame (c : Cfg) (ir : List α) (p : Nat) : Memory α :=
  Memory.tabulateC c.N (fun m => ⟨irWord c ir p m, silence⟩)

/-- The spectrum of partition `p` (R151, R152). -/
def partitionSpectrum (c : Cfg) (ir : List α) (p : Nat) : Memory α :=
  transformZ N c false (partitionFrame c ir p)

/-- Row `p` of `PART` or of `HIST` replaced by the transform buffer (R152, R155). -/
def storeRow (c : Cfg) (rows : Memory α) (p : Nat) (z : Memory α) : Memory α :=
  rows.writeBlock (rowBase c p) (z.readBlock 0 (2 * c.N))

/-- The frame of a block: the previous block, then the current one, imaginary parts `+0` (R154). -/
def blockFrame (c : Cfg) (ovl w : Memory α) : Memory α :=
  Memory.tabulateC c.N (fun m => ⟨if m < c.L then ovl.read m else w.read (m - c.L), silence⟩)

/-- Lane `k` of step 3 (R156): the products of partition 0, 1, ..., `K-1`, history first, accumulated in
that order from `(+0, +0)`. -/
def macLane (c : Cfg) (hist part : Memory α) (widx count k : Nat) : Cplx α :=
  (List.range count).foldl
    (fun acc (p : Nat) =>
      N.cadd acc (N.cmul (hist.readC (rowEntry c (ringIndex widx p count) k))
        (part.readC (rowEntry c p k))))
    czero

/-- Step 4, scale: `Z[L + m].re * const(1/N)` (R157). In a `NUM_FIX` with fewer than `log2(N)` fraction bits
no value is `1/N`, which R157 calls exact, and `const` is the nearest: DESIGN CHOICE (log 33). -/
def scaledSample (c : Cfg) (z : Memory α) (m : Nat) : α :=
  N.mul (z.readC (c.L + m)).re (N.const (mkRat 1 c.N))

/-- `HIST` and `OVL` to silence, `WIDX <- 0` (R153). -/
def State.convClear (s : State) : State := { s with HIST := [], OVL := [], WIDX := 0 }

/-- Partition `p` of an impulse response through `Z` into `PART[p]` (R152). -/
def State.loadPartition (ir : List NumWord) (p : Nat) (s : State) : State :=
  let z := partitionSpectrum s.cfg.arith s.cfg ir p
  { s with Z := z, PART := storeRow s.cfg s.PART p z }

/-- `CONV.INIT idx` (R152): the two checks, the partitions in ascending order, the clear. -/
def State.convInit (idx : BitVec 24) (s : State) : State :=
  if s.cfg.NIR ≤ idx.toNat then s.fatal .configurationMismatch
  else
    let ir := s.cfg.ir idx.toNat
    let k := partitionCount s.cfg ir.length
    if s.cfg.KMAX < k then s.fatal .configurationMismatch
    else
      let t := (List.range k).foldl (fun t p => t.loadPartition ir p) { s with K := k }
      { t.convClear with CURI := idx }

/-- Step 1 (R154): previous block, then current block; the block is saved in `OVL`. -/
def State.convFrame (s : State) : State :=
  { s with
    Z := blockFrame s.cfg s.OVL s.W
    OVL := Memory.tabulate s.cfg.L s.W.read }

/-- Step 2, second half (R155): `HIST[WIDX] <- Z`. -/
def State.convPush (s : State) : State := { s with HIST := storeRow s.cfg s.HIST s.WIDX s.Z }

/-- Step 3 (R156). -/
def State.convMac (s : State) : State :=
  { s with Z := Memory.tabulateC s.cfg.N (macLane s.cfg.arith s.cfg s.HIST s.PART s.WIDX s.K) }

/-- The sample `m` of the output block before its test (R157). -/
def State.convSample (s : State) (m : Nat) : NumWord := scaledSample s.cfg.arith s.cfg s.Z m

/-- Steps 4 (scale), 5 and 6 (R157), a non-finite sample silenced. -/
def State.convOut (s : State) : State :=
  { s with
    W := Memory.tabulate s.cfg.L
      (fun m => orSilence (s.cfg.arith.finite (s.convSample m)) (s.convSample m))
    NFAULT := s.NFAULT + (List.range s.cfg.L).countP (fun m => !s.cfg.arith.finite (s.convSample m))
    WIDX := ringNext s.WIDX s.K }

/-- The six steps in order (R158). -/
def State.convBlock (s : State) : State :=
  (((((s.convFrame).fftTransform false).convPush).convMac).fftTransform true).convOut

/-- `CONV.INIT idx` (R152). -/
def execConvInit (idx : BitVec 24) (s : State) : Result :=
  issue true (fun s => .next (s.convInit idx)) s

/-- `CONV.CLEAR` (R153). -/
def execConvClear (s : State) : Result := issue true (fun s => .next s.convClear) s

/-- `CONV.FRAME` (R154). -/
def execConvFrame (s : State) : Result := issue true (fun s => .next s.convFrame) s

/-- `CONV.PUSH` (R155). -/
def execConvPush (s : State) : Result :=
  issue true (fun s => inSpace s.ringInRange s.convPush) s

/-- `CONV.MAC` (R156). -/
def execConvMac (s : State) : Result := issue true (fun s => inSpace s.ringInRange s.convMac) s

/-- `CONV.OUT` (R157). -/
def execConvOut (s : State) : Result := issue true (fun s => inSpace s.ringInRange s.convOut) s

/-- `CONV.BLOCK` (R158). -/
def execConvBlock (s : State) : Result :=
  issue true (fun s => inSpace s.ringInRange s.convBlock) s

end Sys2Proof.Machine
end

