-- ==== Sys2Proof/Machine/Flags.lean ====
section
/-! DEFINITION. The flag bits (10_state.md R23, R28, R33). No command sets a flag as a side effect of
arithmetic; these are the readings of `FLAGS` and of `STAT`. -/

namespace Sys2Proof.Machine

/-- `DLY_ACTIVE`, bit 0 of `FLAGS` (R23). -/
def Params.dlyActive (p : Params) : Bool := p.FLAGS.getLsbD 0

/-- `DLY_TAP2`, bit 1 of `FLAGS` (R23). -/
def Params.dlyTap2 (p : Params) : Bool := p.FLAGS.getLsbD 1

/-- `REV_EN`, bit 2 of `FLAGS` (R23). -/
def Params.revEn (p : Params) : Bool := p.FLAGS.getLsbD 2

/-- The `FLAGS` field of a port word: bits 31:3 are ignored (R23; 47_control.md R291). -/
def flagsOfWord (w : BitVec 32) : BitVec 3 := w.extractLsb' 0 3

/-- `zext_32(FLAGS)` (47_control.md R291). -/
def Params.flagsWord (p : Params) : BitVec 32 := p.FLAGS.setWidth 32

/-- The read value of `STAT`: bit 0 is `CHAIN`, bits 31:1 are 0 (R28). -/
def statWord (c : ChainState) : BitVec 32 :=
  match c with
  | .bypassed => 0
  | .active => 1

end Sys2Proof.Machine
end

