-- ==== Sys2Proof/Machine/Dly.lean ====
section
/-! DEFINITION. The delay network (44_delay.md): `DLY.SET`, `DLY.PROC`. -/

namespace Sys2Proof.Machine

/-- `DLY.SET` (R216). -/
def State.dlySet (s : State) : State :=
  { s with
    TGT := s.A.DTIME
    FB := s.A.DFB
    DLV := s.A.DLEVEL
    T2 := s.A.T2OFS
    ACT := s.A.dlyActive
    TAP2 := s.A.dlyTap2 }

/-- Step 1, smoothing: the one-pole step, then the two clamps (R218). In a `NUM_FIX` that lacks one of
the integers, `num` of it is the nearest value (log 34), and the lengths stay finite. -/
def smoothedDelay {α : Type} (N : NUM α) (c : Cfg) (cur tgt : α) : α :=
  let v := N.add cur (N.mul (N.const c.DLY_SMOOTH) (N.sub tgt cur))
  let v := if N.lt v (N.num 1) then N.num 1 else v
  if N.lt (N.num (c.DMAX - 1 : Nat)) v then N.num (c.DMAX - 1 : Nat) else v

/-- `tap(d)`: linear interpolation between the samples `i` and `i + 1` steps ago (R218). -/
def delayTap {α : Type} [Inhabited α] (N : NUM α) (c : Cfg) (dbuf : Memory α) (wp : Nat) (d : α) : α :=
  let i := N.floor d
  let f := N.sub d (N.num i)
  let a := dbuf.read (ringIndex wp i c.DMAX)
  let b := dbuf.read (ringIndex wp (i + 1) c.DMAX)
  N.add a (N.mul (N.sub b a) f)

/-- The primary tap, read at the smoothed length before the write (R219). -/
def State.dlyRead (s : State) : NumWord :=
  delayTap s.cfg.arith s.cfg s.DBUF s.WP (smoothedDelay s.cfg.arith s.cfg s.CUR s.TGT)

/-- The second tap, or `+0` when it is off (R219). -/
def State.dlyRead2 (s : State) : NumWord :=
  if s.TAP2 then delayTap s.cfg.arith s.cfg s.DBUF s.WP s.T2 else silence

/-- The value to write before its test: feedback, plus the input when active (R219). -/
def State.dlyWriteValue (s : State) (x : NumWord) : NumWord :=
  let fb := s.cfg.arith.mul s.FB s.dlyRead
  if s.ACT then s.cfg.arith.add x fb else fb

/-- The output before its test: the taps times the level (R221). -/
def State.dlyOutput (s : State) : NumWord := s.cfg.arith.mul (s.cfg.arith.add s.dlyRead s.dlyRead2) s.DLV

/-- The return of `DlyProcess` (R221). -/
def State.dlyReturn (s : State) : NumWord := orSilence (s.cfg.arith.finite s.dlyOutput) s.dlyOutput

/-- `DlyProcess(x)` without its return: smoothing, reads, then the write and the post-increment (R218
to R220), and the NumericalFaults of the write and of the output. -/
def State.dlyAdvance (s : State) (x : NumWord) : State :=
  ({ s with
    CUR := smoothedDelay s.cfg.arith s.cfg s.CUR s.TGT
    DBUF := s.DBUF.write s.WP
      (orSilence (s.cfg.arith.finite (s.dlyWriteValue x)) (s.dlyWriteValue x))
    WP := ringNext s.WP s.cfg.DMAX }.countFault (s.cfg.arith.finite (s.dlyWriteValue x))).countFault
      (s.cfg.arith.finite s.dlyOutput)

/-- `DLY.PROC n` (R217). The command does not test `CHAIN`, so a single one on a bypassed chain runs; that
the delay is frozen while bypassed (R225) is read of the block schedule. DEDUCED (log 25). -/
def State.dlyProc (n : Nat) (s : State) : State :=
  let x := s.W.read n
  let sum := s.cfg.arith.add x s.dlyReturn
  (s.dlyAdvance x).storeW n (s.cfg.arith.finite sum) sum

/-- `DLY.SET` (R216). -/
def execDlySet (s : State) : Result := issue true (fun s => .next s.dlySet) s

/-- `DLY.PROC n` (R217). -/
def execDlyProc (n : BitVec 24) (s : State) : Result :=
  issue (sampleOk s.cfg n) (fun s => inSpace s.dlyInRange (s.dlyProc n.toNat)) s

end Sys2Proof.Machine
end

