-- ==== Sys2Proof/Machine/Mix.lean ====
section
/-! DEFINITION. The crossfade mixer (46_mixer.md): `MIX.SET`, `MIX.PROC`. -/

namespace Sys2Proof.Machine

variable {α : Type} (N : NUM α)

/-- `b = a * (1 + k*a)` with `x = 1 - mix`, `a = mix * x` (R256). R257 has the gains made of it finite and
at most 1.00301, which fails where a format without the value 1 saturates in `1 + k*a`, where its fraction
is coarse, and for another `MIXC` than 1.4186: all are admitted, DESIGN CHOICE (log 36). -/
def crossfadeBump (k mix : α) : α :=
  let a := N.mul mix (N.sub (N.const 1) mix)
  N.mul a (N.add (N.const 1) (N.mul k a))

/-- The wet gain of `Gains(mix)` (R256). -/
def wetGain (k mix : α) : α :=
  let wet := N.add (crossfadeBump N k mix) mix
  N.mul wet wet

/-- The dry gain of `Gains(mix)` (R256). -/
def dryGain (k mix : α) : α :=
  let dry := N.add (crossfadeBump N k mix) (N.sub (N.const 1) mix)
  N.mul dry dry

/-- `((DRYG * X[n]) + (WETG * W[n])) * A.LEVEL` (R258). -/
def mixedSample (dry wet level x w : α) : α := N.mul (N.add (N.mul dry x) (N.mul wet w)) level

/-- `MIX.SET` (R257). -/
def State.mixSet (s : State) : State :=
  { s with
    WETG := wetGain s.cfg.arith (s.cfg.arith.const s.cfg.MIXC) s.A.MIX
    DRYG := dryGain s.cfg.arith (s.cfg.arith.const s.cfg.MIXC) s.A.MIX }

/-- The mixed sample before its test (R258). -/
def State.mixSample (s : State) (n : Nat) : NumWord :=
  mixedSample s.cfg.arith s.DRYG s.WETG s.A.LEVEL (s.X.read n) (s.W.read n)

/-- `MIX.PROC n` (R258). -/
def State.mixProc (n : Nat) (s : State) : State :=
  let o := s.mixSample n
  (s.storeOut n (orSilence (s.cfg.arith.finite o) o)).countFault (s.cfg.arith.finite o)

/-- `MIX.SET` (R257). -/
def execMixSet (s : State) : Result := issue true (fun s => .next s.mixSet) s

/-- `MIX.PROC n` (R258). -/
def execMixProc (n : BitVec 24) (s : State) : Result :=
  issue (sampleOk s.cfg n) (fun s => .next (s.mixProc n.toNat)) s

end Sys2Proof.Machine
end

