-- ==== Sys2Proof/Machine/Nn.lean ====
section
/-! DEFINITION. The neural inference stage (42_neural.md): `NN.LOAD`, `NN.RESET`, `NN.FWD`. -/

namespace Sys2Proof.Machine

variable {α : Type} [Inhabited α] [DecidableEq α] (N : NUM α)

/-- `in(g, i) = (WIH[g][i] * x) + BIH[g][i]` (R180). -/
def nnIn (wt : Memory α) (x : α) (g i : Nat) : α :=
  N.add (N.mul (wt.read (wihAt g i)) x) (wt.read (bihAt g i))

/-- `rec(g, i)`: from `BHH[g][i]`, the terms `WHH[g][i][j] * h[j]` added for `j` in `0..8` (R180). -/
def nnRec (wt h : Memory α) (g i : Nat) : α :=
  (List.range hiddenSize).foldl
    (fun acc j => N.add acc (N.mul (wt.read (whhAt g i j)) (h.read j)))
    (wt.read (bhhAt g i))

/-- The reset gate `r[i]` (R180). -/
def nnResetGate (wt h : Memory α) (x : α) (i : Nat) : α :=
  N.sigmoid (N.add (nnIn N wt x 0 i) (nnRec N wt h 0 i))

/-- The update gate `z[i]` (R180). -/
def nnUpdateGate (wt h : Memory α) (x : α) (i : Nat) : α :=
  N.sigmoid (N.add (nnIn N wt x 1 i) (nnRec N wt h 1 i))

/-- The candidate `c[i]` (R180). -/
def nnCandidate (wt h : Memory α) (x : α) (i : Nat) : α :=
  N.tanh (N.add (nnIn N wt x 2 i) (N.mul (nnResetGate N wt h x i) (nnRec N wt h 2 i)))

/-- `h'[i] = ((1 - z[i]) * c[i]) + (z[i] * h[i])` (R180). The bound of R186 is read for gates with finite
operands only: DEDUCED (log 29). -/
def nnHidden (wt h : Memory α) (x : α) (i : Nat) : α :=
  N.add
    (N.mul (N.sub (N.const 1) (nnUpdateGate N wt h x i)) (nnCandidate N wt h x i))
    (N.mul (nnUpdateGate N wt h x i) (h.read i))

/-- The new hidden state: all nine components from the previous state (R180). -/
def nnHiddenAll (wt h : Memory α) (x : α) : List α :=
  (List.range hiddenSize).map (nnHidden N wt h x)

/-- The output layer on the new hidden state (R181). -/
def nnOutput (wt : Memory α) (hs : List α) : α :=
  N.mul
    ((List.range hiddenSize).foldl
      (fun acc i => N.add acc (N.mul (wt.read (wdAt i)) (hs.getD i silence)))
      (wt.read bdAt))
    (wt.read lvlAt)

/-- What one step of the cell leaves: the hidden state, the output, and whether all ten values were
finite. -/
structure NnStep (α : Type) where
  h : Memory α
  y : α
  ok : Bool

/-- `Forward(x, h)` with its guard (R179 to R182): if one of the ten values is not finite, the output is
silence and the hidden state keeps its value. The ten values alone are tested, as R179 writes: a sample
that is not finite is no test of its own, and one whose ten values come out finite is committed.
DEDUCED (log 27). -/
def nnStep (wt h : Memory α) (x : α) : NnStep α :=
  let hs := nnHiddenAll N wt h x
  let y := nnOutput N wt hs
  let ok := N.finite y && hs.all N.finite
  ⟨if ok then Memory.ofWords 0 hs else h, orSilence ok y, ok⟩

/-- `NN.LOAD idx` (R177). -/
def State.nnLoad (idx : BitVec 24) (s : State) : State :=
  if s.cfg.NMODEL ≤ idx.toNat then s.fatal .configurationMismatch
  else
    { s with
      WT := Memory.tabulate modelWords (s.cfg.model idx.toNat).read
      CURM := idx }

/-- `NN.RESET` (R178). -/
def State.nnReset (s : State) : State := { s with h := [] }

/-- `NN.FWD n` (R179): one step on `W[n]`. -/
def State.nnFwd (n : Nat) (s : State) : State :=
  let r := nnStep s.cfg.arith s.WT s.h (s.W.read n)
  { s with h := r.h }.storeW n r.ok r.y

/-- `NN.LOAD idx` (R177). -/
def execNnLoad (idx : BitVec 24) (s : State) : Result :=
  issue true (fun s => .next (s.nnLoad idx)) s

/-- `NN.RESET` (R178). -/
def execNnReset (s : State) : Result := issue true (fun s => .next s.nnReset) s

/-- `NN.FWD n` (R179). -/
def execNnFwd (n : BitVec 24) (s : State) : Result :=
  issue (sampleOk s.cfg n) (fun s => .next (s.nnFwd n.toNat)) s

end Sys2Proof.Machine
end

