-- ==== Sys2Proof/Machine/Rev.lean ====
section
/-! DEFINITION. The reverb network (45_reverb.md): `REV.ROOM`, `REV.DECAY`, `REV.PROC`. -/

namespace Sys2Proof.Machine

variable {α : Type} [Inhabited α] [DecidableEq α] (N : NUM α)

/-- `base = RV_MIN + floor(A.ROOM * num(RV_MAX - RV_MIN))` (R236). -/
def roomBase (c : Cfg) (room : α) : Int :=
  c.RV_MIN + N.floor (N.mul room (N.num (c.RV_MAX - c.RV_MIN : Nat)))

/-- `min(max((base * REV_P[j]) div 1024, 1), RMAX)` (R236). -/
def lineLength (c : Cfg) (base : Int) (p : Nat) : Nat := (min (max (base * p / 1024) 1) c.RMAX).toNat

/-- `REV.ROOM` (R236): new lengths, lines cleared. -/
def State.revRoom (s : State) : State :=
  { s with
    REV := s.cfg.REV_P.map (fun p =>
      ⟨[], lineLength s.cfg (roomBase s.cfg.arith s.cfg s.A.ROOM) p, 0, silence⟩)
    ROOMCUR := some s.A.ROOM }

/-- `REV.DECAY` (R237). -/
def State.revDecay (s : State) : State := { s with G := s.A.DECAY }

/-- The read of a line, before its write (R239). -/
def ReverbLine.tap {α : Type} [Inhabited α] (l : ReverbLine α) : α := l.RB.read l.RP

/-- The damping filter of a line (R239). -/
def ReverbLine.damped (c : Cfg) (l : ReverbLine α) : α :=
  N.add l.LP (N.mul (N.sub (N.const 1) (N.const c.REV_DAMP)) (N.sub l.tap l.LP))

/-- Input plus damped, scaled feedback (R239). -/
def ReverbLine.feedback (c : Cfg) (g x : α) (l : ReverbLine α) : α :=
  N.add x (N.mul g (l.damped N c))

/-- The line's two values are finite (R239). -/
def ReverbLine.ok (c : Cfg) (g x : α) (l : ReverbLine α) : Bool :=
  N.finite (l.damped N c) && N.finite (l.feedback N c g x)

/-- One sample through a line (R239). -/
def ReverbLine.advance (c : Cfg) (g x : α) (l : ReverbLine α) : ReverbLine α where
  RB := l.RB.write l.RP (orSilence (l.ok N c g x) (l.feedback N c g x))
  RLEN := l.RLEN
  RP := ringNext l.RP l.RLEN
  LP := orSilence (l.ok N c g x) (l.damped N c)

/-- The sum of the reads of the lines, ascending from `+0` (R239). -/
def reverbSum (lines : List (ReverbLine α)) : α := lines.foldl (fun acc l => N.add acc l.tap) silence

/-- The output before its test: `const(REV_GOUT)` times the sum of the reads, ascending (R239, R240). -/
def State.revOutput (s : State) : NumWord :=
  s.cfg.arith.mul (s.cfg.arith.const s.cfg.REV_GOUT) (reverbSum s.cfg.arith s.REV)

/-- The return of `RevProcess` (R240). -/
def State.revReturn (s : State) : NumWord := orSilence (s.cfg.arith.finite s.revOutput) s.revOutput

/-- `RevProcess(x)` without its return: every line advances (R239). -/
def State.revAdvance (s : State) (x : NumWord) : State :=
  { s with
    REV := s.REV.map (ReverbLine.advance s.cfg.arith s.cfg s.G x)
    NFAULT := s.NFAULT + s.REV.countP (fun l => !ReverbLine.ok s.cfg.arith s.cfg s.G x l) }.countFault
      (s.cfg.arith.finite s.revOutput)

/-- `REV.PROC n` (R238): with `REV_EN = 0` nothing is read or written. The test of `REV_EN` is the only one
of the command (30_encoding.md R105; 47_control.md R287). What R244 says of a bypassed chain is read of the
block schedule, which issues no `REV.PROC` there (47_control.md R283): DEDUCED (log 25). -/
def State.revProc (n : Nat) (s : State) : State :=
  if s.A.revEn then
    let x := s.W.read n
    let sum := s.cfg.arith.add x s.revReturn
    (s.revAdvance x).storeW n (s.cfg.arith.finite sum) sum
  else s

/-- `REV.ROOM` (R236). -/
def execRevRoom (s : State) : Result := issue true (fun s => .next s.revRoom) s

/-- `REV.DECAY` (R237). -/
def execRevDecay (s : State) : Result := issue true (fun s => .next s.revDecay) s

/-- `REV.PROC n` (R238). -/
def execRevProc (n : BitVec 24) (s : State) : Result :=
  issue (sampleOk s.cfg n)
    (fun s => inSpace (!s.A.revEn || s.revInRange) (s.revProc n.toNat)) s

end Sys2Proof.Machine
end

