-- ==== Sys2Proof/Machine/Tone.lean ====
section
/-! DEFINITION. The tone stage (43_tone.md): `TONE.SET`, `TONE.PROC`. -/

namespace Sys2Proof.Machine

/-- `TONE.SET` (R201). What its operations give is stored without a test (R312). R201 has `TALPHA = 1` at
the midpoint, which fails, and `TALPHA` is then not finite, in a format without the value 1, where the
quotient 1 saturates, and at `A.TONE = 0` if `const(TONE_MID)` is 0: both are admitted, DESIGN CHOICE
(log 35). -/
def State.toneSet (s : State) : State :=
  let N := s.cfg.arith
  let t := s.A.TONE
  let mid := N.const s.cfg.TONE_MID
  let lo := N.const s.cfg.ALPHA_LO
  if N.le t mid then
    { s with
      TMODE := .lowPass
      TALPHA := N.add lo (N.mul (N.sub (N.const 1) lo) (N.div t mid)) }
  else
    { s with
      TMODE := .highPass
      TALPHA := N.mul (N.const s.cfg.AHP_MAX)
        (N.div (N.sub t mid) (N.sub (N.const 1) mid)) }

/-- The results of one sample through a tone filter: the next state words, the sample, and whether all
four tested values are finite. -/
structure ToneStep (α : Type) where
  next : ToneFilter α
  y : α
  ok : Bool
  deriving DecidableEq, Repr

/-- One sample `x` through the filter and its energy balance (R202, R203, R204). With `q = 0` the sample is
`f * sqrt(r)` as R202 writes; that it is then zero (R204) holds where `q = 0` forces `f = 0`, which the
rounding of a chip need not keep. DEDUCED (log 31). -/
def toneStep {α : Type} [Inhabited α] (N : NUM α) (c : Cfg) (mode : ToneMode) (alpha : α)
    (f0 : ToneFilter α) (x : α) : ToneStep α :=
  let lp := N.add f0.TLP (N.mul alpha (N.sub x f0.TLP))
  let f := match mode with
    | .lowPass => lp
    | .highPass => N.sub x lp
  let bc2 := N.const c.BC2
  let bc1 := N.sub (N.const 1) bc2
  let q := N.add (N.mul bc1 (N.mul f f)) (N.mul bc2 f0.TQ)
  let r := N.add (N.mul bc1 (N.mul x x)) (N.mul bc2 f0.TR)
  let a := if N.eq q silence then N.sqrt r else N.sqrt (N.div r q)
  let y := N.mul f a
  ⟨⟨lp, q, r⟩, y, N.finite lp && N.finite q && N.finite r && N.finite y⟩

/-- The state words of the selected filter, `k = TMODE` (R202). -/
def State.toneFilter (s : State) : ToneFilter NumWord :=
  match s.TMODE with
  | .lowPass => s.TF0
  | .highPass => s.TF1

/-- `TONE.PROC n` (R202): on a non-finite value `W[n] <- +0` and the states keep their values. -/
def State.toneProc (n : Nat) (s : State) : State :=
  let r := toneStep s.cfg.arith s.cfg s.TMODE s.TALPHA s.toneFilter (s.W.read n)
  let f := if r.ok then r.next else s.toneFilter
  { s with
    TF0 := match s.TMODE with
      | .lowPass => f
      | .highPass => s.TF0
    TF1 := match s.TMODE with
      | .lowPass => s.TF1
      | .highPass => f }.storeW n r.ok r.y

/-- `TONE.SET` (R201). -/
def execToneSet (s : State) : Result := issue true (fun s => .next s.toneSet) s

/-- `TONE.PROC n` (R202). -/
def execToneProc (n : BitVec 24) (s : State) : Result :=
  issue (sampleOk s.cfg n) (fun s => .next (s.toneProc n.toNat)) s

end Sys2Proof.Machine
end

