-- ==== Sys2Proof/Machine/Ctl.lean ====
section
/-! DEFINITION. The controller (47_control.md): `CTL.BOUND`, `CTL.PRE`, `CTL.BYP`, `CTL.BLOCK`. -/

namespace Sys2Proof.Machine

/-- The block length of the `TICK` being served; outside a `TICK` it is `L` (R272). -/
def State.blen (s : State) : Nat := s.tickLen.getD s.cfg.L

/-- Step 2, the snapshot (R273). -/
def State.takeSnapshot (s : State) : State :=
  if s.MV then { s with A := Params.accept s.cfg s.A s.M, MV := false } else s

/-- The model of the request is loaded, if it is another one (R274). -/
def State.switchModel (s : State) : State :=
  if s.cfg.NMODEL ≤ s.RQM.idx.toNat then s.fatal .configurationMismatch
  else if s.RQM.idx ≠ s.CURM.setWidth 32 then (s.nnLoad (s.RQM.idx.setWidth 24)).nnReset
  else s

/-- Step 3, model reload: one readiness draw for a pending request (R274, R278; log 10). -/
def State.modelReload (s : State) : State :=
  if s.RQM.pend then
    let t := { s with readyM := s.readyM.tail }
    if s.readyM.headD true then { t with RQM := ⟨false, s.RQM.idx⟩ }.switchModel else t
  else s

/-- The impulse response of the request is loaded, if it is another one (R275). -/
def State.switchIr (s : State) : State :=
  if s.cfg.NIR ≤ s.RQI.idx.toNat then s.fatal .configurationMismatch
  else if s.RQI.idx ≠ s.CURI.setWidth 32 then s.convInit (s.RQI.idx.setWidth 24)
  else s

/-- Step 4, impulse-response reload (R275, R278; log 10). -/
def State.irReload (s : State) : State :=
  if s.RQI.pend then
    let t := { s with readyI := s.readyI.tail }
    if s.readyI.headD true then { t with RQI := ⟨false, s.RQI.idx⟩ }.switchIr else t
  else s

/-- Step 5, the bypass toggle (R276). -/
def State.bypassToggle (s : State) : State :=
  if s.RQB then
    let t := { s with RQB := false }
    match s.CHAIN with
    | .bypassed => { t with CHAIN := .active }.nnReset.convClear
    | .active => { t with CHAIN := .bypassed }
  else s

/-- `ROOMCUR != A.ROOM`, with `NUM.eq`; NONE differs from everything (R277). -/
def State.roomChanged (s : State) : Bool :=
  match s.ROOMCUR with
  | none => true
  | some r => !s.cfg.arith.eq r s.A.ROOM

/-- Step 6, per-block setup (R277). -/
def State.blockSetup (s : State) : State :=
  let t := s.mixSet.toneSet.dlySet
  (if t.roomChanged then t.revRoom else t).revDecay

/-- A step of the boundary action after a step that may have halted the CORE (R272, 60 R314). -/
def State.unlessHalted (f : State → State) (s : State) : State :=
  if s.PHASE = .halt then s else f s

/-- `CTL.BOUND` (R272): the six steps in this order; a fatal fault ends the command there. -/
def State.ctlBound (s : State) : State :=
  if s.blen ≠ s.cfg.L then s.fatal .configurationMismatch
  else
    State.unlessHalted (fun t => t.bypassToggle.blockSetup)
      (State.unlessHalted State.irReload s.takeSnapshot.modelReload)

/-- `CTL.PRE n` (R280). -/
def State.ctlPre (n : Nat) (s : State) : State :=
  let v := s.cfg.arith.mul (s.X.read n) s.A.GAIN
  s.storeW n (s.cfg.arith.finite (s.X.read n) && s.cfg.arith.finite v) v

/-- `CTL.BYP n` (R281): the bit pattern is copied. -/
def State.ctlByp (n : Nat) (s : State) : State := s.storeOut n (s.X.read n)

/-- A per-sample pass of the schedule: the body for `n` in `0..L-1`, `n` of `SEQ` the loop variable and
0 again at the end (R283, 10_state.md R32). -/
def State.forSamples (body : Nat → State → State) (s : State) : State :=
  { (List.range s.cfg.L).foldl (fun t i => body i { t with n := i }) s with n := 0 }

/-- The four commands of the last pass on one sample (R283). -/
def State.postSample (n : Nat) (s : State) : State :=
  State.mixProc n (State.revProc n (State.dlyProc n (State.toneProc n s)))

/-- The active branch of the schedule after `CTL.BOUND` (R283). -/
def State.activeBlock (s : State) : State :=
  State.forSamples State.postSample
    (State.forSamples State.nnFwd (State.forSamples State.ctlPre s)).convBlock

/-- The bypassed branch of the schedule after `CTL.BOUND` (R283). -/
def State.bypassedBlock (s : State) : State := State.forSamples State.ctlByp s

/-- Every index register the active branch uses is in range (20_memory.md R70; log 14). -/
def State.chainInRange (s : State) : Bool :=
  s.ringInRange && s.dlyInRange && (!s.A.revEn || s.revInRange)

/-- `CTL.BLOCK` (R283): after a fatal fault of `CTL.BOUND` the rest is not issued. -/
def State.ctlBlock (s : State) : Result :=
  let t := s.ctlBound
  if t.PHASE = .halt then .next t
  else
    match t.CHAIN with
    | .active => inSpace t.chainInRange t.activeBlock
    | .bypassed => .next t.bypassedBlock

/-- `CTL.BOUND` (R272). -/
def execCtlBound (s : State) : Result := issue true (fun s => .next s.ctlBound) s

/-- `CTL.PRE n` (R280). -/
def execCtlPre (n : BitVec 24) (s : State) : Result :=
  issue (sampleOk s.cfg n) (fun s => .next (s.ctlPre n.toNat)) s

/-- `CTL.BYP n` (R281). -/
def execCtlByp (n : BitVec 24) (s : State) : Result :=
  issue (sampleOk s.cfg n) (fun s => .next (s.ctlByp n.toNat)) s

/-- `CTL.BLOCK` (R283). -/
def execCtlBlock (s : State) : Result := issue true State.ctlBlock s

end Sys2Proof.Machine
end

