-- ==== Sys2Proof/Machine/Boot.lean ====
section
/-! DEFINITION. `RESET` and the boot sequence (70_reset_and_hazards.md R350, R357): the only return
from `HALT` (60_exceptions.md R321). -/

namespace Sys2Proof.Machine

/-- The boot sequence (R357). A fatal fault ends it in `HALT`, where a command changes nothing. -/
def State.boot (s : State) : State :=
  State.unlessHalted
    (fun t => t.revRoom.revDecay.mixSet.toneSet.dlySet)
    (State.unlessHalted (State.convInit 0) (State.unlessHalted State.nnReset (s.nnLoad 0)))

/-- `RESET` (R350): reset values, then the boot sequence. The configuration survives; what the outside
has still to send stays (log 19). -/
def State.resetEvent (s : State) : State :=
  { (State.cold s.cfg).boot with inbox := s.inbox, readyM := s.readyM, readyI := s.readyI }

end Sys2Proof.Machine
end

