-- ==== Sys2Proof/Machine/Dispatch.lean ====
section
/-! DEFINITION. Which meaning each command has. -/

namespace Sys2Proof.Machine

def exec (i : Instr) (s : State) : Host.Outcome State Fault Refusal :=
  match i with
  | .ctlBound => Sys2Proof.Machine.execCtlBound s
  | .ctlPre n => Sys2Proof.Machine.execCtlPre n s
  | .ctlByp n => Sys2Proof.Machine.execCtlByp n s
  | .ctlBlock => Sys2Proof.Machine.execCtlBlock s
  | .fftBrev => Sys2Proof.Machine.execFftBrev s
  | .fftBfly inv st q => Sys2Proof.Machine.execFftBfly inv st q s
  | .fftFwd => Sys2Proof.Machine.execFftFwd s
  | .fftInv => Sys2Proof.Machine.execFftInv s
  | .convInit idx => Sys2Proof.Machine.execConvInit idx s
  | .convClear => Sys2Proof.Machine.execConvClear s
  | .convBlock => Sys2Proof.Machine.execConvBlock s
  | .convFrame => Sys2Proof.Machine.execConvFrame s
  | .convPush => Sys2Proof.Machine.execConvPush s
  | .convMac => Sys2Proof.Machine.execConvMac s
  | .convOut => Sys2Proof.Machine.execConvOut s
  | .nnLoad idx => Sys2Proof.Machine.execNnLoad idx s
  | .nnReset => Sys2Proof.Machine.execNnReset s
  | .nnFwd n => Sys2Proof.Machine.execNnFwd n s
  | .toneSet => Sys2Proof.Machine.execToneSet s
  | .toneProc n => Sys2Proof.Machine.execToneProc n s
  | .dlySet => Sys2Proof.Machine.execDlySet s
  | .dlyProc n => Sys2Proof.Machine.execDlyProc n s
  | .revRoom => Sys2Proof.Machine.execRevRoom s
  | .revDecay => Sys2Proof.Machine.execRevDecay s
  | .revProc n => Sys2Proof.Machine.execRevProc n s
  | .mixSet => Sys2Proof.Machine.execMixSet s
  | .mixProc n => Sys2Proof.Machine.execMixProc n s

end Sys2Proof.Machine
end

