-- ==== Sys2Proof/Machine/Port.lean ====
section
/-! DEFINITION. The control port (30_encoding.md R110; 47_control.md R290 to R296; 20_memory.md R72). -/

namespace Sys2Proof.Machine

/-- The access is one the port answers: 32 bits wide, aligned, at most `0x3C` (20_memory.md R72). -/
def portAccessOk (addr width : Nat) : Bool :=
  decide (addr % 4 = 0) && decide (addr ≤ 0x3C) && decide (width = 32)

/-- The write effect of an answered access (R290 to R296; 30_encoding.md R110). -/
def State.portStore (addr : Nat) (w : BitVec 32) (s : State) : State :=
  if addr ≤ 0x24 then { s with S := s.S.set (addr / 4) (s.cfg.arith.ofBits w) }
  else if addr = 0x28 then { s with S := { s.S with FLAGS := flagsOfWord w } }
  else if addr = 0x2C then { s with M := s.S, MV := true }
  else if addr = 0x30 then { s with RQM := ⟨true, w⟩ }
  else if addr = 0x34 then { s with RQI := ⟨true, w⟩ }
  else if addr = 0x38 then { s with RQB := s.RQB || w.getLsbD 0 }
  else s

/-- `PortWrite(addr, w)`: a refused access changes nothing (20_memory.md R72, R80). -/
def State.portWrite (addr width : Nat) (w : BitVec 32) (s : State) : State :=
  if portAccessOk addr width then s.portStore addr w else s

/-- The read value of an answered access (R290 to R296; 30_encoding.md R110). -/
def State.portLoad (addr : Nat) (s : State) : BitVec 32 :=
  if addr ≤ 0x24 then s.cfg.arith.toBits (s.S.get (addr / 4))
  else if addr = 0x28 then s.S.flagsWord
  else if addr = 0x3C then statWord s.CHAIN
  else 0

/-- The value `PortRead(addr)` returns; a refused access returns 0 (20_memory.md R72). -/
def State.portValue (addr width : Nat) (s : State) : BitVec 32 :=
  if portAccessOk addr width then s.portLoad addr else 0

/-- `PortRead(addr)`: no side effect on the CORE; the value is left in `portOut` (20_memory.md R74). -/
def State.portRead (addr width : Nat) (s : State) : State :=
  { s with portOut := s.portValue addr width }

end Sys2Proof.Machine
end

