-- ==== Sys2Proof/Machine/Tick.lean ====
section
/-! DEFINITION. The event `TICK(blen, in)` (47_control.md R284). -/

namespace Sys2Proof.Machine

/-- The patterns of a block on the audio block port: `toBits` of each of its `L` samples (30_encoding.md
R111). -/
def State.audioBlock (s : State) (m : Memory NumWord) : List (BitVec 32) :=
  (m.readBlock 0 s.cfg.L).map s.cfg.arith.toBits

/-- `deliver OUTL, OUTR to the transport` (R284). -/
def State.deliver (s : State) : State :=
  { s with audioOut := some (s.audioBlock s.OUTL, s.audioBlock s.OUTR) }

/-- `PHASE <- RUN`, the input block into `X` if its length is `L`, `blen` noted (R284, R272). A sample
crosses the audio block port as a pattern, read by `ofBits` as on the control port (30_encoding.md R111;
log 3 for a pattern outside the range of `NUM_FIX`). -/
def State.beginBlock (block : List (BitVec 32)) (s : State) : State :=
  { s with
    PHASE := .run
    X := if block.length = s.cfg.L then Memory.ofWords 0 (block.map s.cfg.arith.ofBits) else s.X
    tickLen := some block.length }

/-- The end of the schedule: `IDLE`, or silence after a fatal fault; then the delivery (R284). -/
def State.endBlock (s : State) : State :=
  let t := { s with tickLen := none }
  if t.PHASE = .halt then t.silenceOut.deliver else { t with PHASE := .idle }.deliver

/-- `TICK` (R284): in `HALT` the block is silence and nothing else changes. -/
def State.tick (block : List (BitVec 32)) (s : State) : Result :=
  if s.PHASE = .halt then .next s.silenceOut.deliver
  else
    match (s.beginBlock block).ctlBlock with
    | .next t => .next t.endBlock
    | .fault r => .fault r
    | .refused r => .refused r

end Sys2Proof.Machine
end

