-- ==== Sys2Proof/Machine/Events.lean ====
section
/-! DEFINITION. What each event of the outside does (00_scope.md R19; log 8). -/

namespace Sys2Proof.Machine

/-- A command word on the command port (30_encoding.md R100, R106, R107): decoded and run; a reserved
word is an IllegalCommand; in `RUN` the model does not accept it (93 U22). -/
def runWord (w : BitVec 32) (s : State) : Result :=
  if s.PHASE = .run then .refused .commandInRun
  else
    match decode s.cfg w with
    | .ok i => exec i s
    | .error _ => issue false (fun t => .next t) s

/-- One event. A `TICK` in `RUN` is not enabled (47_control.md R285). -/
def runEvent (e : Event) (s : State) : Result :=
  match e with
  | .reset => .next s.resetEvent
  | .tick block => if s.PHASE = .run then .refused .tickInRun else s.tick block
  | .portWrite addr width w => .next (s.portWrite addr width w)
  | .portRead addr width => .next (s.portRead addr width)
  | .command w => runWord w s

/-- The next event of the outside, taken from the inbox; without one the CORE waits (47 R288). -/
def runNext (s : State) : Result :=
  match s.inbox with
  | [] => .next s
  | e :: rest => runEvent e { s with inbox := rest }

end Sys2Proof.Machine
end

