-- ==== Sys2Proof/Machine/Step.lean ====
section
/-! DEFINITION. One step of the machine: one event (20_memory.md R90 takes a block as one step). -/

namespace Sys2Proof.Machine

/-- One step. A configuration that is not well-formed is refused (00_scope.md R9). -/
def step (s : State) : Host.Outcome State Fault Refusal :=
  if s.cfg.wf then runNext s else .refused .illFormedConfig

/-- `s` with the command word of a table entry as the next event, so that `step` runs it (log 9). -/
def State.withFetchWord (s : State) (nbits w : Nat) : State :=
  { s with inbox := .command (tableCommandWord nbits w) :: s.inbox }

end Sys2Proof.Machine
end

