-- ==== Sys2Proof/Machine/Schedule.lean ====
section
/-! DEFINITION. Sequences of commands: the pseudo-instructions (30_encoding.md R114), the sequences that
`FFT.FWD`, `FFT.INV`, `CONV.BLOCK` and `CTL.BLOCK` are the same state change as, and the boot
sequence. The meanings do not use them; statements compare the meanings with them. -/

namespace Sys2Proof.Machine

/-- The commands one after another, up to the first that is no next state. -/
def execAll : List Instr → State → Result
  | [], s => .next s
  | i :: rest, s =>
    match exec i s with
    | .next t => execAll rest t
    | .fault r => .fault r
    | .refused r => .refused r

/-- `ENGAGE` (R114). -/
def pseudoEngage : List Instr := [.nnReset, .convClear]

/-- `FFT.PASS inv, s` (R114). -/
def pseudoFftPass (c : Cfg) (inv : Bool) (st : Nat) : List Instr :=
  (List.range (c.N / 2)).map (fun q => .fftBfly inv (BitVec.ofNat 5 st) (BitVec.ofNat 18 q))

/-- `POST n` (R114). -/
def pseudoPost (n : BitVec 24) : List Instr := [.toneProc n, .dlyProc n, .revProc n, .mixProc n]

/-- `SETUP` (R114). -/
def pseudoSetup : List Instr := [.mixSet, .toneSet, .dlySet, .revDecay]

/-- The sequence of `FFT.FWD` and `FFT.INV` (40_fft.md R136, R137). -/
def transformSequence (c : Cfg) (inv : Bool) : List Instr :=
  .fftBrev :: (List.range c.M).flatMap (fun i => pseudoFftPass c inv (i + 1))

/-- The six steps of `CONV.BLOCK` (41_convolution.md R158). -/
def convSequence : List Instr := [.convFrame, .fftFwd, .convPush, .convMac, .fftInv, .convOut]

/-- One command for each sample of the block, ascending. -/
def samplePass (c : Cfg) (mk : BitVec 24 → Instr) : List Instr :=
  (List.range c.L).map (fun n => mk (BitVec.ofNat 24 n))

/-- The block schedule after `CTL.BOUND` (47_control.md R283). -/
def blockSequence (c : Cfg) (chain : ChainState) : List Instr :=
  match chain with
  | .active =>
    samplePass c .ctlPre ++ samplePass c .nnFwd ++ [.convBlock]
      ++ (List.range c.L).flatMap (fun n => pseudoPost (BitVec.ofNat 24 n))
  | .bypassed => samplePass c .ctlByp

/-- A model request is served at this boundary (47_control.md R274, R278). -/
def State.servesModel (s : State) : Bool := s.RQM.pend && s.readyM.headD true

/-- An impulse-response request is served at this boundary (47_control.md R275, R278). -/
def State.servesIr (s : State) : Bool := s.RQI.pend && s.readyI.headD true

/-- The state with every mailbox that a boundary serves taken, and the chain state toggled on request
(47_control.md R273 to R276, R278). -/
def State.mailboxesTaken (s : State) : State :=
  { s with
    A := if s.MV then Params.accept s.cfg s.A s.M else s.A
    MV := false
    RQM := ⟨s.RQM.pend && !s.servesModel, s.RQM.idx⟩
    RQI := ⟨s.RQI.pend && !s.servesIr, s.RQI.idx⟩
    RQB := false
    readyM := if s.RQM.pend then s.readyM.tail else s.readyM
    readyI := if s.RQI.pend then s.readyI.tail else s.readyI
    CHAIN := match s.RQB, s.CHAIN with
      | false, c => c
      | true, .bypassed => .active
      | true, .active => .bypassed }

/-- The commands a boundary issues (47_control.md R274 to R277). -/
def boundSequence (s : State) : List Instr :=
  (if s.servesModel = true ∧ s.RQM.idx ≠ s.CURM.setWidth 32
    then [.nnLoad (s.RQM.idx.setWidth 24), .nnReset] else [])
  ++ (if s.servesIr = true ∧ s.RQI.idx ≠ s.CURI.setWidth 32
    then [.convInit (s.RQI.idx.setWidth 24)] else [])
  ++ (if s.RQB = true ∧ s.CHAIN = .bypassed then pseudoEngage else [])
  ++ [.mixSet, .toneSet, .dlySet]
  ++ (if s.mailboxesTaken.roomChanged = true then [.revRoom] else [])
  ++ [.revDecay]

/-- The delay after `m` calls of `DlyProcess` on the inputs `x 0, x 1, ...` (44_delay.md R215). -/
def delayRun (x : Nat → NumWord) (s : State) : Nat → State
  | 0 => s
  | m + 1 => (delayRun x s m).dlyAdvance (x m)

/-- The reverb after `m` calls of `RevProcess` on silence (45_reverb.md R241). -/
def silentReverb (s : State) : Nat → State
  | 0 => s
  | m + 1 => (silentReverb s m).revAdvance silence

/-- The boot sequence (70_reset_and_hazards.md R357). -/
def bootSequence : List Instr :=
  [.nnLoad 0, .nnReset, .convInit 0, .revRoom, .revDecay, .mixSet, .toneSet, .dlySet]

end Sys2Proof.Machine
end

