-- ==== Sys2Proof/Machine/NumReal.lean ====
section
/-! DEFINITION. The reference instance `NUM_REAL` (00_scope.md R15): the real numbers, every operation
exact. It is no chip, so no state holds it; the arithmetic of every unit is written over any record, and
claims within a tolerance compare a chip with it. -/

namespace Sys2Proof.Machine

open Classical in
/-- `NUM_REAL` (R15), with the ideal `sigmoid` and `tanh` of R14 and the ideal twiddle factors of
40_fft.md R131. What the spec leaves open of it is free: log 3, and log 6 for `floor` below 0. -/
noncomputable def NUM_REAL : NUM ℝ where
  add := fun a b => a + b
  sub := fun a b => a - b
  mul := fun a b => a * b
  div := fun a b => if b = 0 then Config.realDivFree a else a / b
  sqrt := fun a => if a < 0 then Config.realSqrtFree a else Real.sqrt a
  sigmoid := fun a => 1 / (1 + Real.exp (-a))
  tanh := Real.tanh
  const := fun q => (q : ℝ)
  num := fun i => (i : ℝ)
  floor := fun a => if a < 0 then Config.realFloorFree a else ⌊a⌋
  finite := fun _ => true
  lt := fun a b => decide (a < b)
  le := fun a b => decide (a ≤ b)
  eq := fun a b => decide (a = b)
  ofBits := Config.realOfBits
  toBits := Config.realToBits
  neg := fun a => 0 - a
  TW := fun N k => ⟨Real.cos (2 * Real.pi * k / N), -Real.sin (2 * Real.pi * k / N)⟩

/-- The rational a binary32 pattern that is finite stands for (R13). No claim reads it of another pattern:
a result that is not finite agrees with no number (log 26). -/
def F32.value (a : Num32) : Rat :=
  (if F32.sign a then -1 else 1) * (F32.mag a : Rat) / ((2 ^ 149 : Nat) : Rat)

/-- The rational a word of a chip stands for. -/
def numValue (k : NumFormat) (a : NumWord) : Rat :=
  match k with
  | .f32 => F32.value (F32.pattern a)
  | .fix w f => (Fix.value w a : Rat) / ((2 ^ f : Nat) : Rat)

/-- The number a word of a chip stands for. -/
noncomputable def realValue (k : NumFormat) (a : NumWord) : ℝ := ((numValue k a : Rat) : ℝ)

/-- The largest magnitude among the values of one comparison. -/
noncomputable def largestCompared (vs : List (ℝ × ℝ)) : ℝ :=
  vs.foldr (fun v m => max (max |v.1| |v.2|) m) 0

/-- The values of one comparison agree pair by pair "within floating tolerance": `TOL` relative to the
largest magnitude compared (R8). That this is the largest over the whole comparison, all samples of a
sequence in 41_convolution.md R160, is DESIGN CHOICE (log 26). -/
def agreeWithin (c : Cfg) (vs : List (ℝ × ℝ)) : Prop :=
  ∀ v ∈ vs, |v.1 - v.2| ≤ ((c.TOL : Rat) : ℝ) * largestCompared vs

/-- Results of a chip agree with their values in `NUM_REAL` "within floating tolerance" (R8, R15). A result
that is not finite, an infinity, a NaN or a saturated one, agrees with no number: DESIGN CHOICE (log 26). -/
def agreesWithReal (c : Cfg) (vs : List (NumWord × ℝ)) : Prop :=
  (∀ v ∈ vs, c.arith.finite v.1 = true) ∧
  agreeWithin c (vs.map (fun v => (realValue c.NUM v.1, v.2)))

/-- Results of a chip agree with each other "within floating tolerance" (R8); none that is not finite does
(log 26). -/
def resultsAgree (c : Cfg) (vs : List (NumWord × NumWord)) : Prop :=
  (∀ v ∈ vs, c.arith.finite v.1 = true ∧ c.arith.finite v.2 = true) ∧
  agreeWithin c (vs.map (fun v => (realValue c.NUM v.1, realValue c.NUM v.2)))

end Sys2Proof.Machine
end

