-- ==== Sys2Proof/Safety.lean ====
section
/-! DEFINITION. What the claims call a good state and a good configuration. -/

namespace Sys2Proof.Machine

/-- Index registers are in their ranges (00_scope.md R17; 10_state.md R26, R32, R38, R40, R46, R48). -/
structure State.IndexInv (s : State) : Prop where
  cfgOk : s.cfg.wf = true
  ring : 1 ≤ s.K ∧ s.K ≤ s.cfg.KMAX ∧ s.WIDX < s.K
  delay : s.WP < s.cfg.DMAX
  lineCount : s.REV.length = s.cfg.NREV
  lines : ∀ l ∈ s.REV, l.RLEN ≤ s.cfg.RMAX ∧ l.RP < l.RLEN
  sample : s.n < s.cfg.L
  tables : s.CURM.toNat < s.cfg.NMODEL ∧ s.CURI.toNat < s.cfg.NIR

/-- Between steps no block runs, and the CORE is halted exactly when a fatal code is recorded
(10_state.md R29, R32; 47_control.md R285; 60_exceptions.md R316). -/
structure State.PhaseInv (s : State) : Prop where
  notRunning : s.PHASE ≠ .run
  noTick : s.tickLen = none
  sampleZero : s.n = 0
  haltCode : s.PHASE = .halt ↔ s.HCAUSE ≠ 0
  codes : s.HCAUSE = 0 ∨ s.HCAUSE = 2 ∨ s.HCAUSE = 4

/-- A memory is in canonical form and inside its space (20_memory.md R70; log 15). -/
def goodMemory (m : Memory NumWord) (size : Nat) : Prop := m.wf = true ∧ m.inSize size = true

/-- Every memory is in canonical form and inside its space (10_state.md R51). -/
structure State.MemoryInv (s : State) : Prop where
  x : goodMemory s.X s.cfg.L
  w : goodMemory s.W s.cfg.L
  outl : goodMemory s.OUTL s.cfg.L
  outr : goodMemory s.OUTR s.cfg.L
  z : goodMemory s.Z (2 * s.cfg.N)
  part : goodMemory s.PART (s.cfg.KMAX * (2 * s.cfg.N))
  hist : goodMemory s.HIST (s.cfg.KMAX * (2 * s.cfg.N))
  ovl : goodMemory s.OVL s.cfg.L
  wt : goodMemory s.WT modelWords
  h : goodMemory s.h hiddenSize
  dbuf : goodMemory s.DBUF s.cfg.DMAX
  lines : ∀ l ∈ s.REV, goodMemory l.RB s.cfg.RMAX

/-- Every word of a memory is finite. -/
def allFinite (N : NUM NumWord) (m : Memory NumWord) : Prop := ∀ e ∈ m, N.finite e.2 = true

/-- The state words of a tone filter are finite. -/
def ToneFilter.isFinite (N : NUM NumWord) (f : ToneFilter NumWord) : Prop :=
  N.finite f.TLP = true ∧ N.finite f.TQ = true ∧ N.finite f.TR = true

/-- Every feedback word, and the working block, is finite (60_exceptions.md R312). -/
structure State.FeedbackFinite (s : State) : Prop where
  w : allFinite s.cfg.arith s.W
  h : allFinite s.cfg.arith s.h
  tone : s.TF0.isFinite s.cfg.arith ∧ s.TF1.isFinite s.cfg.arith
  dbuf : allFinite s.cfg.arith s.DBUF
  lines : ∀ l ∈ s.REV, allFinite s.cfg.arith l.RB ∧ s.cfg.arith.finite l.LP = true

/-- The format has the integer `i` as a value, of those of at most `2^24` that the spec converts
(00_scope.md R11; log 34): a premise of claims that hold where `num(i)` is exact. -/
def hasInt (k : NumFormat) (i : Int) : Bool :=
  match k with
  | .f32 => decide (i.natAbs ≤ 2 ^ 24)
  | .fix w f => decide (fixMin w ≤ i * 2 ^ f) && decide (i * 2 ^ f ≤ fixMax w)

/-- A value is finite and between two bounds. -/
def inRange (N : NUM NumWord) (lo hi v : NumWord) : Prop :=
  N.finite v = true ∧ N.le lo v = true ∧ N.le v hi = true

/-- A bank is finite and in the ranges of 10_state.md R21. -/
structure Params.InRanges (c : Cfg) (p : Params) : Prop where
  gain : inRange c.arith silence (c.arith.const c.GAIN_MAX) p.GAIN
  mix : inRange c.arith silence (c.arith.const 1) p.MIX
  level : inRange c.arith silence (c.arith.const c.LEVEL_MAX) p.LEVEL
  tone : inRange c.arith silence (c.arith.const 1) p.TONE
  dtime : inRange c.arith (c.arith.num 1) (c.arith.num (c.DMAX - 1 : Nat)) p.DTIME
  dfb : inRange c.arith silence (c.arith.const c.FB_MAX) p.DFB
  dlevel : inRange c.arith silence (c.arith.const c.LEVEL_MAX) p.DLEVEL
  t2ofs : inRange c.arith (c.arith.num 1) (c.arith.num (c.DMAX - 1 : Nat)) p.T2OFS
  room : inRange c.arith silence (c.arith.const 1) p.ROOM
  decay : inRange c.arith silence (c.arith.const c.FB_MAX) p.DECAY

/-- The active bank is finite and in range (10_state.md R22). -/
def State.BankInv (s : State) : Prop := s.A.InRanges s.cfg

/-- A delay length is finite and in `[1, DMAX-1]` (10_state.md R21). -/
def delayInRange (c : Cfg) (v : NumWord) : Prop :=
  inRange c.arith (c.arith.num 1) (c.arith.num (c.DMAX - 1 : Nat)) v

/-- The delay lengths are in `[1, DMAX-1]` (10_state.md R21; 44_delay.md R218). -/
structure State.DelayInv (s : State) : Prop where
  cur : delayInRange s.cfg s.CUR
  tgt : delayInRange s.cfg s.TGT
  t2 : delayInRange s.cfg s.T2

/-- The reset values of the bank and the ends of its ranges are finite and in the ranges of 10_state.md
R21, which R9 does not ask (a `GAIN_MAX` below 1), and the delay lengths are integers that R11 states
`num` for (log 34, log 37): a premise of claims about the active bank on configurations other than the default one. -/
def rangesHoldReset (c : Cfg) : Prop :=
  (Params.atReset c).InRanges c ∧ (pmin c).InRanges c ∧ (pmax c).InRanges c ∧ c.DMAX ≤ 2 ^ 24

/-- `v` is the finite value nearest to `x`, a tie going to the even pattern (00_scope.md R13). -/
def isNearest (x : ℝ) (v : Num32) : Prop :=
  F32.finite v = true ∧ ∀ c, F32.finite c = true →
    |((F32.value v : Rat) : ℝ) - x| ≤ |((F32.value c : Rat) : ℝ) - x|
    ∧ (|((F32.value v : Rat) : ℝ) - x| = |((F32.value c : Rat) : ℝ) - x| →
        F32.value c = F32.value v ∨ v.toNat % 2 = 0)

/-- `v` is `x` rounded to binary32: the nearest finite value below the overflow threshold, an infinity
of the sign of `x` from it on (00_scope.md R13). -/
def isRounded (x : ℝ) (v : Num32) : Prop :=
  (|x| < 2 ^ 128 - 2 ^ 103 → isNearest x v)
  ∧ (2 ^ 128 - 2 ^ 103 ≤ |x| → F32.isInf v = true ∧ (F32.sign v = true ↔ x < 0))

/-- What R14 says of `sigmoid` over `NUM_F32`: it is non-decreasing and within `SIGTOL` of its ideal
value. -/
def sigmoidFaithful (c : Cfg) : Prop :=
  (∀ a b, F32.finite a = true → F32.finite b = true → F32.le a b = true →
    F32.le (F32.sigmoid c.SIGTOL a) (F32.sigmoid c.SIGTOL b) = true)
  ∧ ∀ a, F32.finite a = true →
    |((F32.value (F32.sigmoid c.SIGTOL a) : Rat) : ℝ) - NUM_REAL.sigmoid ((F32.value a : Rat) : ℝ)|
      ≤ ((c.SIGTOL : Rat) : ℝ)

/-- What R14 says of `tanh` over `NUM_F32`. -/
def tanhFaithful (c : Cfg) : Prop :=
  (∀ a b, F32.finite a = true → F32.finite b = true → F32.le a b = true →
    F32.le (F32.tanh c.SIGTOL a) (F32.tanh c.SIGTOL b) = true)
  ∧ ∀ a, F32.finite a = true →
    |((F32.value (F32.tanh c.SIGTOL a) : Rat) : ℝ) - NUM_REAL.tanh ((F32.value a : Rat) : ℝ)|
      ≤ ((c.SIGTOL : Rat) : ℝ)

section

variable {α : Type} [Inhabited α] [DecidableEq α] (N : NUM α)

/-- The hidden state after `t` calls of `Forward` on silence from `h = 0` under the weights `wt`, the
guard of 42_neural.md R182 included. -/
def silentHidden (wt : Memory α) : Nat → Memory α
  | 0 => []
  | t + 1 => (nnStep N wt (silentHidden wt t) silence).h

/-- The output of call `t` of `Forward` on silence (42_neural.md R180 to R182). -/
def silentOutput (wt : Memory α) (t : Nat) : α := (nnStep N wt (silentHidden N wt t) silence).y

end

/-- `TableStable(MTAB)` (42_neural.md R185): with silent input after `Reset` the output of `Forward`
tends to zero for every model of the table. It is a property of the contents of the table, taken in
`NUM_REAL`, the reference of the document's properties (00_scope.md R15): DEDUCED (log 28). A premise a
claim may assume; the hardware does not check it. -/
def tableStable (c : Cfg) : Prop :=
  ∀ row ∈ c.MTAB,
    Filter.Tendsto (silentOutput NUM_REAL (row.map (fun e => (e.1, realValue c.NUM e.2))))
      Filter.atTop (nhds 0)

/-- The same in the arithmetic of the chip itself: a stronger premise, since the values of a chip tend to
zero only by reaching it (log 28). -/
def tableStableOnChip (c : Cfg) : Prop :=
  ∀ row ∈ c.MTAB,
    Filter.Tendsto (fun t => realValue c.NUM (silentOutput c.arith row t)) Filter.atTop (nhds 0)

/-- The lower and the upper ends of the ranges of the parameters 0 to 9 (10_state.md R21). -/
def rangeLow (N : NUM NumWord) : List NumWord :=
  [silence, silence, silence, silence, N.num 1, silence, silence, N.num 1, silence, silence]

/-- See `rangeLow`; how `NUM` holds a bound that is a rational is log 24. -/
def rangeHigh (c : Cfg) : List NumWord :=
  let N := c.arith
  [N.const c.GAIN_MAX, N.const 1, N.const c.LEVEL_MAX, N.const 1, N.num (c.DMAX - 1 : Nat),
    N.const c.FB_MAX, N.const c.LEVEL_MAX, N.num (c.DMAX - 1 : Nat), N.const 1, N.const c.FB_MAX]

/-- What a boundary leaves of a committed snapshot (47_control.md R273): parameter `i` of the active bank
is the committed value, the end of its range that the value is past, or as it was if the value is not
finite; `FLAGS` is copied. With `MV = 0` the active bank is as it was. -/
def snapshotTaken (s t : State) : Prop :=
  t.MV = false ∧ (s.MV = false → t.A = s.A)
  ∧ (s.MV = true → t.A.FLAGS = s.M.FLAGS ∧ ∀ i < 10,
      let N := s.cfg.arith
      let v := s.M.get i
      let lo := (rangeLow N).getD i silence
      let hi := (rangeHigh s.cfg).getD i silence
      t.A.get i =
        if N.finite v = false then s.A.get i
        else if N.lt hi v = true then hi
        else if N.lt v lo = true then lo
        else v)

/-- The same outcome with `f` applied to the next state. -/
def mapNext (f : State → State) : Result → Result
  | .next t => .next (f t)
  | .fault r => .fault r
  | .refused r => .refused r

end Sys2Proof.Machine
end

