-- ==== Sys2Proof/Certificates/Slice0/Obligations.lean ====
section
/-! DEFINITION. The statements about the Altair CORE for the provers. A frame is written
`t = { s with F := t.F, ... }`: every field of the state but those named is unchanged. -/

open Sys2Proof Sys2Proof.Machine

/-! ### Encoding -/

/-- 30_encoding.md R101 to R106: every well-formed command decodes from its own word. -/
def Obligations.DecodeEncodeAgree : Prop :=
  ∀ (c : Cfg) (i : Instr), i.wf c = true → decode c (encode i) = .ok i

/-- 30_encoding.md R106: a word is a command exactly when its unit and function have a row and its
`arg` is one the row's format allows; it is then that row's command with that operand. -/
def Obligations.CommandWordsAreTheOpcodeMap : Prop :=
  ∀ (c : Cfg) (w : BitVec 32),
    ((∃ i, decode c w = .ok i) ↔
      ∃ r ∈ opcodeRows, w.toNat / 2 ^ 28 = r.unit ∧ w.toNat / 2 ^ 24 % 16 = r.func
        ∧ r.format.accepts c w = true)
    ∧ ∀ i, decode c w = .ok i → i.wf c = true ∧ encode i = w
        ∧ ∃ r ∈ opcodeRows, w.toNat / 2 ^ 28 = r.unit ∧ w.toNat / 2 ^ 24 % 16 = r.func
          ∧ r.mnemonic = i.mnemonic

/-- The worked encodings of 30_encoding.md R105 and the two illegal words of R107. -/
def Obligations.SpecWordsDecode : Prop :=
  decode Config.default 0x33000005 = .ok (.nnFwd 5)
  ∧ decode Config.default 0x21000002 = .ok (.convInit 2)
  ∧ decode Config.default 0x720000FF = .ok (.mixProc 255)
  ∧ decode Config.default 0x12040000 = .ok (.fftBfly false 1 0)
  ∧ decode Config.default 0x12880001 = .ok (.fftBfly true 2 1)
  ∧ decode Config.default 0x120C0003 = .ok (.fftBfly false 3 3)
  ∧ decode Config.default 0x00000000 = .error .reservedRow
  ∧ decode Config.default 0xFFFFFFFF = .error .reservedRow

/-! ### Issuing a command -/

/-- A step whose next event is a command word runs the command it decodes to; `withFetchWord` puts a
word there (model's convention, log 8 and log 9; 30_encoding.md R100). -/
def Obligations.StepRunsIssuedCommand : Prop :=
  (∀ (s : State) (w : BitVec 32) (rest : List Event) (i : Instr),
    s.cfg.wf = true → s.PHASE ≠ .run → s.inbox = .command w :: rest → decode s.cfg w = .ok i →
    step s = exec i { s with inbox := rest })
  ∧ ∀ (s : State) (nbits w : Nat) (i : Instr),
    s.cfg.wf = true → s.PHASE ≠ .run → decode s.cfg (tableCommandWord nbits w) = .ok i →
    step (s.withFetchWord nbits w) = exec i s

/-- A reserved word, and an operand no word encodes, raise IllegalCommand, which changes `HCAUSE` and
`PHASE` only. That the outputs stay is the model's choice between R107 with R315 and R316 (log 12);
that an ill-formed operand given to `exec` does the same is log 13. -/
def Obligations.ReservedCommandHalts : Prop :=
  (∀ (s : State) (w : BitVec 32) (rest : List Event) (e : DecodeError),
    s.cfg.wf = true → s.PHASE = .idle → s.inbox = .command w :: rest → decode s.cfg w = .error e →
    step s = .next { s with inbox := rest, HCAUSE := 4, PHASE := .halt })
  ∧ ∀ (s : State) (i : Instr), s.PHASE ≠ .halt → i.wf s.cfg = false →
    exec i s = .next { s with HCAUSE := 4, PHASE := .halt }

/-- A command in `HALT` changes nothing (30_encoding.md R100); in `RUN` the model refuses a `TICK`
(47_control.md R285) and a command of the verification environment (93 U22). -/
def Obligations.NothingIssuedInHaltOrRun : Prop :=
  (∀ (i : Instr) (s : State), s.PHASE = .halt → exec i s = .next s)
  ∧ (∀ (s : State) (block : List (BitVec 32)) (rest : List Event), s.cfg.wf = true → s.PHASE = .run →
      s.inbox = .tick block :: rest → step s = .refused .tickInRun)
  ∧ ∀ (s : State) (w : BitVec 32) (rest : List Event), s.cfg.wf = true → s.PHASE = .run →
      s.inbox = .command w :: rest → step s = .refused .commandInRun

/-! ### The control port -/

/-- 47_control.md R290: a write to a parameter address sets that shadow parameter, any pattern, and
nothing else; a read returns it, in `NUM_F32` as written. -/
def Obligations.PortWritesParameter : Prop :=
  ∀ (s : State) (i : Nat) (w : BitVec 32) (rest : List Event),
    s.cfg.wf = true → i < 10 → s.inbox = .portWrite (4 * i) 32 w :: rest →
    ∃ t, step s = .next t ∧ t = { s with inbox := rest, S := t.S } ∧ t.S.get i = s.cfg.arith.ofBits w
      ∧ (∀ j < 10, j ≠ i → t.S.get j = s.S.get j) ∧ t.S.FLAGS = s.S.FLAGS
      ∧ t.portValue (4 * i) 32 = s.cfg.arith.toBits (s.cfg.arith.ofBits w)
      ∧ (s.cfg.NUM = .f32 → t.S.get i = w.toNat ∧ t.portValue (4 * i) 32 = w)

/-- 47_control.md R291 to R295, with the write of R296: what a write to each other port address does,
and what a read of it returns. -/
def Obligations.PortWritesControl : Prop :=
  (∀ s : State, s.portValue 0x28 32 = s.S.FLAGS.setWidth 32 ∧ s.portValue 0x2C 32 = 0
    ∧ s.portValue 0x30 32 = 0 ∧ s.portValue 0x34 32 = 0 ∧ s.portValue 0x38 32 = 0)
  ∧ ∀ (s : State) (a : Nat) (w : BitVec 32) (rest : List Event),
    s.cfg.wf = true → s.inbox = .portWrite a 32 w :: rest →
    (a = 0x28 → step s = .next { s with inbox := rest, S := { s.S with FLAGS := w.extractLsb' 0 3 } })
    ∧ (a = 0x2C → step s = .next { s with inbox := rest, M := s.S, MV := true })
    ∧ (a = 0x30 → step s = .next { s with inbox := rest, RQM := ⟨true, w⟩ })
    ∧ (a = 0x34 → step s = .next { s with inbox := rest, RQI := ⟨true, w⟩ })
    ∧ (a = 0x38 → w.getLsbD 0 = true → step s = .next { s with inbox := rest, RQB := true })
    ∧ (a = 0x38 → w.getLsbD 0 = false → step s = .next { s with inbox := rest })
    ∧ (a = 0x3C → step s = .next { s with inbox := rest })

/-- 47_control.md R290 to R296, 20_memory.md R74: a port read changes nothing but the value returned,
which `portOut` holds (log 18). -/
def Obligations.PortReads : Prop :=
  ∀ (s : State) (a : Nat) (rest : List Event),
    s.cfg.wf = true → s.inbox = .portRead a 32 :: rest →
    ∃ t, (∃ v, t = { s with inbox := rest, portOut := v })
      ∧ (a % 4 = 0 → a ≤ 0x3C →
          (a ≤ 0x24 → t.portOut = s.cfg.arith.toBits (s.S.get (a / 4)))
          ∧ (a = 0x28 → t.portOut = s.S.FLAGS.setWidth 32)
          ∧ (a = 0x2C ∨ a = 0x30 ∨ a = 0x34 ∨ a = 0x38 → t.portOut = 0)
          ∧ (a = 0x3C → t.portOut = if s.CHAIN = .active then 1 else 0))
      ∧ step s = .next t

/-- 20_memory.md R72: a misaligned, out-of-range or narrow access changes nothing and reads 0. -/
def Obligations.PortRefusesBadAccess : Prop :=
  ∀ (s : State) (a width : Nat) (w : BitVec 32) (rest : List Event),
    s.cfg.wf = true → (a % 4 ≠ 0 ∨ 0x3C < a ∨ width ≠ 32) →
    (s.inbox = .portWrite a width w :: rest → step s = .next { s with inbox := rest })
    ∧ (s.inbox = .portRead a width :: rest → step s = .next { s with inbox := rest, portOut := 0 })

/-! ### The transform unit -/

/-- 40_fft.md R132: `rev_M(i)` has the bits of `i` in the opposite order and is its own inverse; the
tables for `M` in 1 to 4. -/
def Obligations.BitReversal : Prop :=
  (∀ m i, i < 2 ^ m → bitRev m i < 2 ^ m ∧ bitRev m (bitRev m i) = i
    ∧ ∀ b < m, (bitRev m i).testBit b = i.testBit (m - 1 - b))
  ∧ (∀ m, bitRev m 0 = 0 ∧ bitRev m (2 ^ m - 1) = 2 ^ m - 1)
  ∧ (List.range 2).map (bitRev 1) = [0, 1]
  ∧ (List.range 4).map (bitRev 2) = [0, 2, 1, 3]
  ∧ (List.range 8).map (bitRev 3) = [0, 4, 2, 6, 1, 5, 3, 7]
  ∧ (List.range 16).map (bitRev 4) = [0, 8, 4, 12, 2, 10, 6, 14, 1, 9, 5, 13, 3, 11, 7, 15]

/-- 40_fft.md R134: the pair and the twiddle index of butterfly `q`; the pairs of one stage are
disjoint and cover `0..N-1` once. -/
def Obligations.ButterflyPairs : Prop :=
  ∀ (c : Cfg) (st : Nat), c.wf = true → 1 ≤ st → st ≤ c.M →
    (∀ q < c.N / 2,
      bflyTop st q = q / 2 ^ (st - 1) * 2 ^ st + q % 2 ^ (st - 1)
      ∧ bflyBottom st q = bflyTop st q + 2 ^ (st - 1) ∧ bflyBottom st q < c.N
      ∧ bflyTwiddle c.N st q = q % 2 ^ (st - 1) * (c.N / 2 ^ st)
      ∧ bflyTwiddle c.N st q < c.N / 2)
    ∧ ∀ k < c.N, ∃! q, q < c.N / 2 ∧ (k = bflyTop st q ∨ k = bflyBottom st q)

/-- 40_fft.md R131: the entries that are exact in every `NUM` of a chip, and the whole table for `N = 8`
in `NUM_F32`. In a `NUM_FIX` without the value 1 the 1 is the nearest value (log 3). The other
entries of `NUM_F32` are computed and not proved nearest (log 7). -/
def Obligations.TwiddleEntries : Prop :=
  (∀ (c : Cfg) (N : Nat), c.arith.TW N 0 = ⟨c.arith.const 1, silence⟩)
  ∧ (∀ (c : Cfg) (N : Nat), 4 ≤ N → N % 4 = 0 → c.arith.TW N (N / 4) = ⟨silence, c.arith.const (-1)⟩)
  ∧ ∀ tol, (List.range 4).map ((NUM_F32 tol).TW 8)
      = [⟨0x3F800000, 0x00000000⟩, ⟨0x3F3504F3, 0xBF3504F3⟩, ⟨0x00000000, 0xBF800000⟩,
         ⟨0xBF3504F3, 0xBF3504F3⟩]

/-- 40_fft.md R133: `FFT.BREV` permutes the entries of `Z` by `rev_M` and changes nothing else; twice
restores `Z`. -/
def Obligations.FftBrevPermutes : Prop :=
  encode .fftBrev = 0x11000000
  ∧ (∀ s : State, s.PHASE ≠ .halt →
      ∃ t, exec .fftBrev s = .next t ∧ t = { s with Z := t.Z }
        ∧ ∀ i < s.cfg.N, t.Z.readC i = s.Z.readC (bitRev s.cfg.M i))
  ∧ ∀ s : State, s.PHASE ≠ .halt → s.cfg.wf = true → goodMemory s.Z (2 * s.cfg.N) →
      ∃ t, exec .fftBrev s = .next t ∧ exec .fftBrev t = .next s

/-- 40_fft.md R135: `FFT.BFLY` replaces its pair by the sum and the difference of the upper entry and
the twiddled lower entry; every other word of `Z` and all other state is unchanged. The sign of a zero
in the conjugate is the model's reading (log 20). -/
def Obligations.FftBflyOnePair : Prop :=
  ∀ (inv : Bool) (st : BitVec 5) (q : BitVec 18) (s : State),
    s.PHASE ≠ .halt → 1 ≤ st.toNat → st.toNat ≤ s.cfg.M → q.toNat < s.cfg.N / 2 →
    let N := s.cfg.arith
    let top := bflyTop st.toNat q.toNat
    let bottom := bflyBottom st.toNat q.toNat
    let tw := N.TW s.cfg.N (bflyTwiddle s.cfg.N st.toNat q.toNat)
    let a := s.Z.readC top
    let b := N.cmul (s.Z.readC bottom) (if inv then N.conj tw else tw)
    (encode (.fftBfly inv st q)).toNat
        = 0x12000000 + inv.toNat * 2 ^ 23 + st.toNat * 2 ^ 18 + q.toNat
    ∧ ∃ t, exec (.fftBfly inv st q) s = .next t ∧ t = { s with Z := t.Z }
      ∧ t.Z.readC top = ⟨N.add a.re b.re, N.add a.im b.im⟩
      ∧ t.Z.readC bottom = ⟨N.sub a.re b.re, N.sub a.im b.im⟩
      ∧ ∀ k, k ≠ 2 * top → k ≠ 2 * top + 1 → k ≠ 2 * bottom → k ≠ 2 * bottom + 1 →
          t.Z.read k = s.Z.read k

/-- 40_fft.md R136, R137: `FFT.FWD` and `FFT.INV` are the bit reversal and the butterflies of the
stages in order, and write `Z` only. -/
def Obligations.TransformIsItsSequence : Prop :=
  ∀ s : State, s.PHASE ≠ .halt → s.cfg.wf = true →
    (∃ t, exec .fftFwd s = .next t ∧ t = { s with Z := t.Z }
      ∧ execAll (transformSequence s.cfg false) s = .next t)
    ∧ ∃ t, exec .fftInv s = .next t ∧ t = { s with Z := t.Z }
      ∧ execAll (transformSequence s.cfg true) s = .next t

/-- 40_fft.md R138: the butterflies of one stage may be run in any order. -/
def Obligations.ButterflyOrderFree : Prop :=
  ∀ (s : State) (inv : Bool) (st : Nat) (order : List Instr),
    s.PHASE ≠ .halt → s.cfg.wf = true → goodMemory s.Z (2 * s.cfg.N) → 1 ≤ st → st ≤ s.cfg.M →
    order.Perm (pseudoFftPass s.cfg inv st) →
    ∃ t, execAll order s = .next t ∧ execAll (pseudoFftPass s.cfg inv st) s = .next t

/-! ### The convolution engine -/

/-- 41_convolution.md R151, R152: `CONV.INIT idx` of a row that exists and fits sets the partition
count, stores in `PART[p]` what `FFT.FWD` makes of the zero-padded partition `p`, clears the ring and
the overlap, and notes the index; rows from `K` on keep their content. -/
def Obligations.ConvInitLoads : Prop :=
  ∀ (s : State) (idx : BitVec 24), s.PHASE ≠ .halt → s.cfg.wf = true → idx.toNat < s.cfg.NIR →
    let ir := s.cfg.ir idx.toNat
    let k := max 1 ((ir.length + s.cfg.L - 1) / s.cfg.L)
    k ≤ s.cfg.KMAX →
    (encode (.convInit idx)).toNat = 0x21000000 + idx.toNat
    ∧ ∃ t, exec (.convInit idx) s = .next t
      ∧ t = { s with
          K := k, PART := t.PART, Z := t.Z, HIST := [], OVL := [], WIDX := 0, CURI := idx }
      ∧ (∀ p < k, ∀ u : State, u.cfg = s.cfg → u.PHASE ≠ .halt →
          (∀ m < s.cfg.N, u.Z.readC m
            = ⟨if m < s.cfg.L ∧ p * s.cfg.L + m < ir.length
                then ir.getD (p * s.cfg.L + m) silence else silence, silence⟩) →
          ∃ v, exec .fftFwd u = .next v
            ∧ (∀ m < s.cfg.N, t.PART.readC (p * s.cfg.N + m) = v.Z.readC m)
            ∧ (p + 1 = k → ∀ m < s.cfg.N, t.Z.readC m = v.Z.readC m))
      ∧ ∀ a, k * (2 * s.cfg.N) ≤ a → t.PART.read a = s.PART.read a

/-- 41_convolution.md R152: a row outside the table, or an impulse response of more than `KMAX`
partitions, is a ConfigurationMismatch (60_exceptions.md R314, R316), and nothing else is written. -/
def Obligations.ConvInitFaults : Prop :=
  ∀ (s : State) (idx : BitVec 24), s.PHASE ≠ .halt →
    (s.cfg.NIR ≤ idx.toNat ∨
      s.cfg.KMAX < max 1 (((s.cfg.ir idx.toNat).length + s.cfg.L - 1) / s.cfg.L)) →
    exec (.convInit idx) s = .next { s with HCAUSE := 2, PHASE := .halt, OUTL := [], OUTR := [] }

/-- 41_convolution.md R153, 42_neural.md R178: `CONV.CLEAR` sets the history, the overlap and the ring
index to zero; `NN.RESET` sets the hidden state to zero; nothing else changes. -/
def Obligations.ClearsToSilence : Prop :=
  encode .convClear = 0x22000000 ∧ encode .nnReset = 0x32000000
  ∧ ∀ s : State, s.PHASE ≠ .halt →
    (∃ t, exec .convClear s = .next t
      ∧ t = { s with HIST := t.HIST, OVL := t.OVL, WIDX := 0 }
      ∧ (∀ a, t.HIST.read a = silence) ∧ ∀ a, t.OVL.read a = silence)
    ∧ ∃ t, exec .nnReset s = .next t ∧ t = { s with h := t.h } ∧ ∀ a, t.h.read a = silence

/-- 41_convolution.md R154: `CONV.FRAME` builds the frame from the previous block and the current one
and saves the current one. -/
def Obligations.ConvFrameBuilds : Prop :=
  encode .convFrame = 0x24000000
  ∧ ∀ s : State, s.PHASE ≠ .halt →
    ∃ t, exec .convFrame s = .next t ∧ t = { s with Z := t.Z, OVL := t.OVL }
      ∧ ∀ m < s.cfg.L, t.Z.readC m = ⟨s.OVL.read m, silence⟩
        ∧ t.Z.readC (s.cfg.L + m) = ⟨s.W.read m, silence⟩
        ∧ t.OVL.read m = s.W.read m

/-- 41_convolution.md R155: `CONV.PUSH` stores `Z` in the row `WIDX` of the history and changes no
other word. -/
def Obligations.ConvPushStores : Prop :=
  encode .convPush = 0x25000000
  ∧ ∀ s : State, s.PHASE ≠ .halt → s.WIDX < s.K → s.K ≤ s.cfg.KMAX →
    ∃ t, exec .convPush s = .next t ∧ t = { s with HIST := t.HIST }
      ∧ (∀ k < s.cfg.N, t.HIST.readC (rowEntry s.cfg s.WIDX k) = s.Z.readC k)
      ∧ ∀ a, a < rowBase s.cfg s.WIDX ∨ rowBase s.cfg s.WIDX + 2 * s.cfg.N ≤ a →
          t.HIST.read a = s.HIST.read a

/-- 41_convolution.md R156: `CONV.MAC` leaves in lane `k` of `Z` the sum, partition 0 first, of the
history of `p` blocks ago times partition `p`, the index taken modulo `K`. -/
def Obligations.ConvMacAccumulates : Prop :=
  encode .convMac = 0x26000000
  ∧ ∀ s : State, s.PHASE ≠ .halt → s.WIDX < s.K → s.K ≤ s.cfg.KMAX →
    let N := s.cfg.arith
    ∃ t, exec .convMac s = .next t ∧ t = { s with Z := t.Z }
      ∧ ∀ k < s.cfg.N, ∃ acc : Nat → Cplx NumWord, acc 0 = ⟨silence, silence⟩
        ∧ (∀ p < s.K, ∀ r : Nat, (r : Int) = ((s.WIDX : Int) - p) % s.K →
            let pr := N.cmul (s.HIST.readC (r * s.cfg.N + k)) (s.PART.readC (p * s.cfg.N + k))
            acc (p + 1) = ⟨N.add (acc p).re pr.re, N.add (acc p).im pr.im⟩)
        ∧ t.Z.readC k = acc s.K

/-- 41_convolution.md R157: `CONV.OUT` leaves in `W` the scaled second half of `Z`, silence where that
is not finite, and advances the ring index modulo `K`. In a `NUM_FIX` without the value `1/N`, which R157
calls exact, the factor is the nearest value, the model's choice (log 33). -/
def Obligations.ConvOutScales : Prop :=
  encode .convOut = 0x27000000
  ∧ ∀ s : State, s.PHASE ≠ .halt → s.WIDX < s.K → s.K ≤ s.cfg.KMAX →
    let N := s.cfg.arith
    ∃ t, exec .convOut s = .next t
      ∧ t = { s with W := t.W, WIDX := (s.WIDX + 1) % s.K, NFAULT := t.NFAULT }
      ∧ ∀ m < s.cfg.L,
        let v := N.mul (s.Z.readC (s.cfg.L + m)).re (N.const (mkRat 1 s.cfg.N))
        t.W.read m = if N.finite v then v else silence

/-- 41_convolution.md R158: `CONV.BLOCK` is the same state change as its six steps. -/
def Obligations.ConvBlockIsSixSteps : Prop :=
  encode .convBlock = 0x23000000
  ∧ ∀ s : State, s.PHASE ≠ .halt → s.WIDX < s.K → s.K ≤ s.cfg.KMAX →
    ∃ t, exec .convBlock s = .next t
      ∧ t = { s with
          Z := t.Z, OVL := t.OVL, HIST := t.HIST, W := t.W, WIDX := t.WIDX, NFAULT := t.NFAULT }
      ∧ execAll [.convFrame, .fftFwd, .convPush, .convMac, .fftInv, .convOut] s = .next t

/-- 41_convolution.md R161: the spectrum of the single-sample impulse response 1 is `(1, +0)` in every
bin, exactly, in every `NUM` of a chip that has the value 1. -/
def Obligations.UnitImpulseSpectrum : Prop :=
  ∀ (s : State) (idx : BitVec 24), s.PHASE ≠ .halt → s.cfg.wf = true → idx.toNat < s.cfg.NIR →
    let one := s.cfg.arith.num 1
    hasInt s.cfg.NUM 1 = true → s.cfg.ir idx.toNat = [one] →
    ∃ t, exec (.convInit idx) s = .next t ∧ t.K = 1
      ∧ ∀ k < s.cfg.N, t.PART.readC k = ⟨one, silence⟩

/-! ### The neural stage -/

/-- 42_neural.md R177: `NN.LOAD idx` of a row that exists replaces all 335 weight words and notes the
index, and the hidden state is not touched; a row outside the table is a ConfigurationMismatch
(60_exceptions.md R314, R316), with nothing else written. -/
def Obligations.NnLoadReplaces : Prop :=
  ∀ (s : State) (idx : BitVec 24), s.PHASE ≠ .halt →
    (encode (.nnLoad idx)).toNat = 0x31000000 + idx.toNat
    ∧ (idx.toNat < s.cfg.NMODEL →
        ∃ t, exec (.nnLoad idx) s = .next t ∧ t = { s with WT := t.WT, CURM := idx }
          ∧ ∀ a < 335, t.WT.read a = (s.cfg.model idx.toNat).read a)
    ∧ (s.cfg.NMODEL ≤ idx.toNat →
        exec (.nnLoad idx) s
          = .next { s with HCAUSE := 2, PHASE := .halt, OUTL := [], OUTR := [] })

/-- 42_neural.md R179 to R182, with the layout of R176: one inference step; if one of the ten values
is not finite, the sample is silence and the hidden state is left untouched. That a sample which is not
finite itself is committed when the ten values are finite, where R182 has it silenced, is the model's
reading (log 27). -/
def Obligations.NnFwdStep : Prop :=
  ∀ (s : State) (n : BitVec 24), s.PHASE ≠ .halt → n.toNat < s.cfg.L →
    let N := s.cfg.arith
    let x := s.W.read n.toNat
    let inp := fun g i => N.add (N.mul (s.WT.read (g * 9 + i)) x) (s.WT.read (270 + g * 9 + i))
    let rcr := fun g i => (List.range 9).foldl
      (fun acc j => N.add acc (N.mul (s.WT.read (27 + (g * 9 + i) * 9 + j)) (s.h.read j)))
      (s.WT.read (297 + g * 9 + i))
    let r := fun i => N.sigmoid (N.add (inp 0 i) (rcr 0 i))
    let z := fun i => N.sigmoid (N.add (inp 1 i) (rcr 1 i))
    let c := fun i => N.tanh (N.add (inp 2 i) (N.mul (r i) (rcr 2 i)))
    let hn := fun i => N.add (N.mul (N.sub (N.const 1) (z i)) (c i)) (N.mul (z i) (s.h.read i))
    let y := N.mul ((List.range 9).foldl
      (fun acc i => N.add acc (N.mul (s.WT.read (324 + i)) (hn i))) (s.WT.read 333))
      (s.WT.read 334)
    (encode (.nnFwd n)).toNat = 0x33000000 + n.toNat
    ∧ ∃ t, exec (.nnFwd n) s = .next t ∧ t = { s with W := t.W, h := t.h, NFAULT := t.NFAULT }
      ∧ (∀ a, a ≠ n.toNat → t.W.read a = s.W.read a)
      ∧ (N.finite y = true ∧ (∀ i < 9, N.finite (hn i) = true) →
          t.W.read n.toNat = y ∧ ∀ i < 9, t.h.read i = hn i)
      ∧ (¬(N.finite y = true ∧ ∀ i < 9, N.finite (hn i) = true) →
          t.W.read n.toNat = silence ∧ t.h = s.h)

/-- 42_neural.md R184: with all recurrent weights and biases zero, a dense bias of 1 and a level of 1,
every finite sample gives 1 and the zero hidden state stays zero, in every `NUM` of a chip that has the
value 1. -/
def Obligations.ConstantModel : Prop :=
  ∀ (s : State) (n : BitVec 24), s.PHASE ≠ .halt → s.cfg.wf = true → n.toNat < s.cfg.L →
    let N := s.cfg.arith
    hasInt s.cfg.NUM 1 = true → N.finite (s.W.read n.toNat) = true →
    (∀ a < 324, s.WT.read a = silence) → (∀ i < 9, N.finite (s.WT.read (324 + i)) = true) →
    s.WT.read 333 = N.num 1 → s.WT.read 334 = N.num 1 → (∀ i < 9, s.h.read i = silence) →
    ∃ t, exec (.nnFwd n) s = .next t ∧ t.W.read n.toNat = N.num 1 ∧ ∀ i < 9, t.h.read i = silence

/-! ### The tone stage -/

/-- 43_tone.md R201: `TONE.SET` selects the filter and its coefficient from `A.TONE`. -/
def Obligations.ToneSetSelects : Prop :=
  encode .toneSet = 0x41000000
  ∧ ∀ s : State, s.PHASE ≠ .halt →
    let N := s.cfg.arith
    let mid := N.const s.cfg.TONE_MID
    let lo := N.const s.cfg.ALPHA_LO
    (N.le s.A.TONE mid = true →
      exec .toneSet s = .next { s with
        TMODE := .lowPass
        TALPHA := N.add lo (N.mul (N.sub (N.const 1) lo) (N.div s.A.TONE mid)) })
    ∧ (N.le s.A.TONE mid = false →
      exec .toneSet s = .next { s with
        TMODE := .highPass
        TALPHA := N.mul (N.const s.cfg.AHP_MAX)
          (N.div (N.sub s.A.TONE mid) (N.sub (N.const 1) mid)) })
    ∧ (s.cfg = Config.default → ∃ t, exec .toneSet s = .next t
      ∧ (s.A.TONE = silence → t.TMODE = .lowPass ∧ t.TALPHA = N.const (mkRat 1 32))
      ∧ (s.A.TONE = N.const (mkRat 1 4) → t.TMODE = .lowPass ∧ t.TALPHA = N.const (mkRat 33 64))
      ∧ (s.A.TONE = N.const (mkRat 1 2) → t.TMODE = .lowPass ∧ t.TALPHA = N.const 1)
      ∧ (s.A.TONE = N.const (mkRat 3 4) → t.TMODE = .highPass ∧ t.TALPHA = N.const (mkRat 1 4))
      ∧ (s.A.TONE = N.const 1 → t.TMODE = .highPass ∧ t.TALPHA = N.const (mkRat 1 2)))

/-- 43_tone.md R202: one sample through the selected filter and its energy balance; the other filter
is untouched; on a non-finite value the sample is silence and the states keep their values. That the sample
is `f * sqrt(r)` for every `f` when `q = 0`, where R204 says that it is zero, is the model's reading
(log 31). -/
def Obligations.ToneProcBalances : Prop :=
  ∀ (s : State) (n : BitVec 24), s.PHASE ≠ .halt → n.toNat < s.cfg.L →
    let N := s.cfg.arith
    let x := s.W.read n.toNat
    let f0 := if s.TMODE = .lowPass then s.TF0 else s.TF1
    let lp := N.add f0.TLP (N.mul s.TALPHA (N.sub x f0.TLP))
    let f := if s.TMODE = .lowPass then lp else N.sub x lp
    let bc1 := N.sub (N.const 1) (N.const s.cfg.BC2)
    let q := N.add (N.mul bc1 (N.mul f f)) (N.mul (N.const s.cfg.BC2) f0.TQ)
    let r := N.add (N.mul bc1 (N.mul x x)) (N.mul (N.const s.cfg.BC2) f0.TR)
    let a := if N.eq q silence then N.sqrt r else N.sqrt (N.div r q)
    let y := N.mul f a
    let good := N.finite lp = true ∧ N.finite q = true ∧ N.finite r = true
      ∧ N.finite y = true
    (encode (.toneProc n)).toNat = 0x42000000 + n.toNat
    ∧ ∃ t, exec (.toneProc n) s = .next t
      ∧ t = { s with W := t.W, TF0 := t.TF0, TF1 := t.TF1, NFAULT := t.NFAULT }
      ∧ (∀ a, a ≠ n.toNat → t.W.read a = s.W.read a)
      ∧ (s.TMODE = .lowPass → t.TF1 = s.TF1) ∧ (s.TMODE = .highPass → t.TF0 = s.TF0)
      ∧ (good → t.W.read n.toNat = y ∧ (s.TMODE = .lowPass → t.TF0 = ⟨lp, q, r⟩)
          ∧ (s.TMODE = .highPass → t.TF1 = ⟨lp, q, r⟩))
      ∧ (¬good → t.W.read n.toNat = silence ∧ t.TF0 = s.TF0 ∧ t.TF1 = s.TF1)

/-! ### The delay network -/

/-- 44_delay.md R216, 45_reverb.md R237: `DLY.SET` and `REV.DECAY` copy the block's parameters from
the active bank and write nothing else. -/
def Obligations.ParameterCopies : Prop :=
  encode .dlySet = 0x51000000 ∧ encode .revDecay = 0x62000000
  ∧ ∀ s : State, s.PHASE ≠ .halt →
    exec .dlySet s = .next { s with
      TGT := s.A.DTIME, FB := s.A.DFB, DLV := s.A.DLEVEL, T2 := s.A.T2OFS
      ACT := s.A.FLAGS.getLsbD 0, TAP2 := s.A.FLAGS.getLsbD 1 }
    ∧ exec .revDecay s = .next { s with G := s.A.DECAY }

/-- 44_delay.md R217 to R221: one delay step. The smoothed length, the taps read before the write, the
write with the post-increment of `WP`, and the sum left in `W[n]`, each guarded. That the command runs
on a bypassed chain too, where R225 says that the delay is frozen, is the model's reading (log 25). -/
def Obligations.DlyProcStep : Prop :=
  ∀ (s : State) (n : BitVec 24), s.PHASE ≠ .halt → n.toNat < s.cfg.L → s.WP < s.cfg.DMAX →
    let N := s.cfg.arith
    let x := s.W.read n.toNat
    let c0 := N.add s.CUR (N.mul (N.const s.cfg.DLY_SMOOTH) (N.sub s.TGT s.CUR))
    let c1 := if N.lt c0 (N.num 1) then N.num 1 else c0
    let cur := if N.lt (N.num (s.cfg.DMAX - 1 : Nat)) c1 then N.num (s.cfg.DMAX - 1 : Nat) else c1
    let back := fun i : Int => s.DBUF.read (((s.WP : Int) - i) % s.cfg.DMAX).toNat
    let tap := fun d : NumWord =>
      N.add (back (N.floor d)) (N.mul (N.sub (back (N.floor d + 1)) (back (N.floor d)))
        (N.sub d (N.num (N.floor d))))
    let rd := tap cur
    let rd2 := if s.TAP2 then tap s.T2 else silence
    let wv := if s.ACT then N.add x (N.mul s.FB rd) else N.mul s.FB rd
    let y := N.mul (N.add rd rd2) s.DLV
    let d := if N.finite y then y else silence
    (encode (.dlyProc n)).toNat = 0x52000000 + n.toNat
    ∧ ∃ t, exec (.dlyProc n) s = .next t
      ∧ t = { s with
          CUR := cur, DBUF := t.DBUF, WP := (s.WP + 1) % s.cfg.DMAX, W := t.W, NFAULT := t.NFAULT }
      ∧ t.DBUF.read s.WP = (if N.finite wv then wv else silence)
      ∧ (∀ a, a ≠ s.WP → t.DBUF.read a = s.DBUF.read a)
      ∧ t.W.read n.toNat = (if N.finite (N.add x d) then N.add x d else silence)
      ∧ ∀ a, a ≠ n.toNat → t.W.read a = s.W.read a

/-- 44_delay.md R222: with feedback 0, active, one tap, level 1, a settled integer length `D` and an
empty buffer, `DlyProcess` returns the input of `D` calls earlier, and silence before, on a chip whose
`NUM` has the integers up to `D` (00_scope.md R11). The difference of two samples that the buffer can hold
does not overflow (R218). Equality is of values: the sign of a zero is not claimed. -/
def Obligations.IntegerDelayReproduces : Prop :=
  ∀ (s : State) (D : Nat) (x : Nat → NumWord),
    let N := s.cfg.arith
    s.cfg.wf = true → s.cfg.DMAX ≤ 2 ^ 24 → 1 ≤ D → D ≤ s.cfg.DMAX - 1 →
    hasInt s.cfg.NUM D = true → s.DBUF = [] → s.WP < s.cfg.DMAX →
    s.FB = silence → s.ACT = true → s.TAP2 = false → s.DLV = N.num 1 →
    s.TGT = N.num D → s.CUR = N.num D →
    (∀ m, N.finite (x m) = true) → (∀ m k, N.finite (N.sub (x m) (x k)) = true) →
    (∀ m, N.finite (N.sub (x m) silence) = true ∧ N.finite (N.sub silence (x m)) = true) →
    ∀ m, N.eq (delayRun x s m).dlyReturn (if m < D then silence else x (m - D)) = true

/-! ### The reverb network -/

/-- 45_reverb.md R236: `REV.ROOM` sets the line lengths from `A.ROOM`, clears every line and notes the
room value; the line lengths of the defaults at room 0, 0.5 and 1. -/
def Obligations.RevRoomLengths : Prop :=
  encode .revRoom = 0x61000000
  ∧ (∀ s : State, s.PHASE ≠ .halt →
      let N := s.cfg.arith
      ∃ t, exec .revRoom s = .next t ∧ t = { s with REV := t.REV, ROOMCUR := some s.A.ROOM }
        ∧ t.REV.length = s.cfg.NREV
        ∧ ∀ (j : Nat) (l : ReverbLine NumWord), t.REV[j]? = some l →
          let base : Int := s.cfg.RV_MIN
            + N.floor (N.mul s.A.ROOM (N.num (s.cfg.RV_MAX - s.cfg.RV_MIN : Nat)))
          (l.RLEN : Int) = min (max (base * (s.cfg.REV_P.getD j 0 : Nat) / 1024) 1) s.cfg.RMAX
            ∧ l.RP = 0 ∧ l.LP = silence ∧ ∀ a, l.RB.read a = silence)
  ∧ ∀ s : State, s.cfg = Config.default → s.PHASE ≠ .halt →
      ∀ t, exec .revRoom s = .next t →
        (s.A.ROOM = silence → t.REV.map ReverbLine.RLEN = [256, 290, 330, 374])
        ∧ (s.A.ROOM = s.cfg.arith.const (mkRat 1 2) → t.REV.map ReverbLine.RLEN = [2628, 2984, 3390, 3847])
        ∧ (s.A.ROOM = s.cfg.arith.const 1 → t.REV.map ReverbLine.RLEN = [5000, 5678, 6450, 7319])

/-- 45_reverb.md R238 to R240: with `REV_EN` clear nothing is read or written; with it set one sample goes
through every line, read before write, and the scaled sum of the reads is added to `W[n]`. That a single
command runs on a bypassed chain too, where R244 says that it changes nothing, is the model's reading
(log 25). -/
def Obligations.RevProcStep : Prop :=
  ∀ (s : State) (n : BitVec 24), s.PHASE ≠ .halt → n.toNat < s.cfg.L →
    (encode (.revProc n)).toNat = 0x63000000 + n.toNat
    ∧ (s.A.FLAGS.getLsbD 2 = false → exec (.revProc n) s = .next s)
    ∧ (s.A.FLAGS.getLsbD 2 = true →
      (∀ l ∈ s.REV, l.RP < l.RLEN ∧ l.RLEN ≤ s.cfg.RMAX) →
      let N := s.cfg.arith
      let x := s.W.read n.toNat
      let y := N.mul (N.const s.cfg.REV_GOUT)
        (s.REV.foldl (fun acc l => N.add acc (l.RB.read l.RP)) silence)
      let v := if N.finite y then y else silence
      ∃ t, exec (.revProc n) s = .next t
        ∧ t = { s with REV := t.REV, W := t.W, NFAULT := t.NFAULT }
        ∧ t.W.read n.toNat = (if N.finite (N.add x v) then N.add x v else silence)
        ∧ (∀ a, a ≠ n.toNat → t.W.read a = s.W.read a)
        ∧ t.REV.length = s.REV.length
        ∧ ∀ (j : Nat) (l u : ReverbLine NumWord), s.REV[j]? = some l → t.REV[j]? = some u →
          let rd := l.RB.read l.RP
          let lp := N.add l.LP
            (N.mul (N.sub (N.const 1) (N.const s.cfg.REV_DAMP)) (N.sub rd l.LP))
          let wv := N.add x (N.mul s.G lp)
          let good := N.finite lp = true ∧ N.finite wv = true
          u.RLEN = l.RLEN ∧ u.RP = (l.RP + 1) % l.RLEN
            ∧ (good → u.LP = lp ∧ u.RB.read l.RP = wv)
            ∧ (¬good → u.LP = silence ∧ u.RB.read l.RP = silence)
            ∧ ∀ a, a ≠ l.RP → u.RB.read a = l.RB.read a)

/-- 45_reverb.md R241: with decay 0, of either sign, and silent input the reverb returns silence, from one
traversal of the longest line on, whatever the lines hold. -/
def Obligations.ReverbReachesSilence : Prop :=
  ∀ (s : State) (m : Nat), let N := s.cfg.arith
    N.eq s.G silence = true → (∀ l ∈ s.REV, l.RP < l.RLEN) → (∀ l ∈ s.REV, l.RLEN ≤ m) →
    N.eq (silentReverb s m).revReturn silence = true

/-! ### The mixer -/

/-- 46_mixer.md R256, R257: `MIX.SET` computes the gain pair, in the order of operations written
there. -/
def Obligations.MixSetGains : Prop :=
  encode .mixSet = 0x71000000 ∧ F32.const Config.default.MIXC = 0x3FB594AF
  ∧ ∀ s : State, s.PHASE ≠ .halt →
    let N := s.cfg.arith
    let k := N.const s.cfg.MIXC
    let x := N.sub (N.const 1) s.A.MIX
    let a := N.mul s.A.MIX x
    let b := N.mul a (N.add (N.const 1) (N.mul k a))
    let wet := N.add b s.A.MIX
    let dry := N.add b x
    exec .mixSet s = .next { s with WETG := N.mul wet wet, DRYG := N.mul dry dry }

/-- 46_mixer.md R259: the endpoints of the gain pair are exact, and at mix 0.5 the gains are equal, in
every `NUM` of a chip that has the value 1, for every crossfade constant that is finite in `NUM_F32`. -/
def Obligations.MixEndpoints : Prop :=
  ∀ s : State, let N := s.cfg.arith
    s.PHASE ≠ .halt → s.cfg.wf = true → hasInt s.cfg.NUM 1 = true →
    (s.cfg.NUM = .f32 → F32.finite (F32.const s.cfg.MIXC) = true) →
    ∃ t, exec .mixSet s = .next t
      ∧ (s.A.MIX = silence → t.DRYG = N.const 1 ∧ t.WETG = silence)
      ∧ (s.A.MIX = N.const 1 → t.DRYG = silence ∧ t.WETG = N.const 1)
      ∧ (s.A.MIX = N.const (mkRat 1 2) → t.DRYG = t.WETG)

/-- 46_mixer.md R258: `MIX.PROC n` writes the mixed sample, silence if it is not finite, to both
output channels. -/
def Obligations.MixProcMixes : Prop :=
  ∀ (s : State) (n : BitVec 24), s.PHASE ≠ .halt → n.toNat < s.cfg.L →
    let N := s.cfg.arith
    let o := N.mul (N.add (N.mul s.DRYG (s.X.read n.toNat)) (N.mul s.WETG (s.W.read n.toNat)))
      s.A.LEVEL
    (encode (.mixProc n)).toNat = 0x72000000 + n.toNat
    ∧ ∃ t, exec (.mixProc n) s = .next t
      ∧ t = { s with OUTL := t.OUTL, OUTR := t.OUTR, NFAULT := t.NFAULT }
      ∧ t.OUTL.read n.toNat = (if N.finite o then o else silence)
      ∧ t.OUTR.read n.toNat = (if N.finite o then o else silence)
      ∧ ∀ a, a ≠ n.toNat → t.OUTL.read a = s.OUTL.read a ∧ t.OUTR.read a = s.OUTR.read a

/-! ### The controller -/

/-- 47_control.md R280, R281: `CTL.PRE n` applies the input gain and silences what is not finite;
`CTL.BYP n` copies the bit pattern of the input sample to both outputs. -/
def Obligations.CtlSampleCommands : Prop :=
  ∀ (s : State) (n : BitVec 24), s.PHASE ≠ .halt → n.toNat < s.cfg.L →
    let N := s.cfg.arith
    let x := s.X.read n.toNat
    let v := N.mul x s.A.GAIN
    (encode (.ctlPre n)).toNat = 0x02000000 + n.toNat
    ∧ (encode (.ctlByp n)).toNat = 0x03000000 + n.toNat
    ∧ (∃ t, exec (.ctlPre n) s = .next t ∧ t = { s with W := t.W, NFAULT := t.NFAULT }
      ∧ t.W.read n.toNat
          = (if N.finite x then (if N.finite v then v else silence) else silence)
      ∧ ∀ a, a ≠ n.toNat → t.W.read a = s.W.read a)
    ∧ ∃ t, exec (.ctlByp n) s = .next t ∧ t = { s with OUTL := t.OUTL, OUTR := t.OUTR }
      ∧ t.OUTL.read n.toNat = x ∧ t.OUTR.read n.toNat = x
      ∧ ∀ a, a ≠ n.toNat → t.OUTL.read a = s.OUTL.read a ∧ t.OUTR.read a = s.OUTR.read a

/-- 47_control.md R272 to R278: a boundary with the right block length and valid requests takes the
snapshot, each field into its range (`snapshotTaken`), and is otherwise the commands of `boundSequence`
on the state with the mailboxes taken. Whether a request is served is the head of the model's list of
readiness answers (log 10). That the ends of the ranges are `const` of the rationals of `CFG` is the
model's choice (log 24). -/
def Obligations.BoundaryIsItsSequence : Prop :=
  ∀ s : State, s.PHASE ≠ .halt → s.cfg.wf = true → s.blen = s.cfg.L →
    (s.servesModel = true → s.RQM.idx.toNat < s.cfg.NMODEL) →
    (s.servesIr = true → s.RQI.idx.toNat < s.cfg.NIR
      ∧ (s.RQI.idx.toNat ≠ s.CURI.toNat →
          partitionCount s.cfg (s.cfg.ir s.RQI.idx.toNat).length ≤ s.cfg.KMAX)) →
    ∃ t, exec .ctlBound s = .next t ∧ t.PHASE = s.PHASE ∧ snapshotTaken s t
      ∧ execAll (boundSequence s) s.mailboxesTaken = .next t

/-- 47_control.md R272 to R275, 60_exceptions.md R314, R320: the three faults of a boundary, each ending
the command with the steps before it done: nothing; the snapshot; the snapshot and the model reload, if
one is served. Whether a request is served is the model's list of readiness answers (log 10). That the
ends of the snapshot's ranges are `const` of the rationals of `CFG` is the model's choice (log 24). -/
def Obligations.BoundaryFaults : Prop :=
  ∀ s : State, s.PHASE ≠ .halt → s.cfg.wf = true →
    (s.blen ≠ s.cfg.L →
      exec .ctlBound s = .next { s with HCAUSE := 2, PHASE := .halt, OUTL := [], OUTR := [] })
    ∧ (s.blen = s.cfg.L → s.servesModel = true → s.cfg.NMODEL ≤ s.RQM.idx.toNat →
      ∃ t, exec .ctlBound s = .next t ∧ snapshotTaken s t
        ∧ t = { s with
            A := t.A, MV := false, RQM := ⟨false, s.RQM.idx⟩, readyM := s.readyM.tail
            HCAUSE := 2, PHASE := .halt, OUTL := [], OUTR := [] })
    ∧ (s.blen = s.cfg.L → (s.servesModel = true → s.RQM.idx.toNat < s.cfg.NMODEL) →
        s.servesIr = true →
        (s.cfg.NIR ≤ s.RQI.idx.toNat ∨ (s.RQI.idx.toNat ≠ s.CURI.toNat ∧
          s.cfg.KMAX < partitionCount s.cfg (s.cfg.ir s.RQI.idx.toNat).length)) →
      ∃ t, exec .ctlBound s = .next t ∧ snapshotTaken s t
        ∧ t = { s with
            A := t.A, MV := false
            RQM := ⟨s.RQM.pend && !s.servesModel, s.RQM.idx⟩
            readyM := if s.RQM.pend then s.readyM.tail else s.readyM
            WT := t.WT, CURM := t.CURM, h := t.h
            RQI := ⟨false, s.RQI.idx⟩, readyI := s.readyI.tail
            HCAUSE := 2, PHASE := .halt, OUTL := [], OUTR := [] }
        ∧ (s.servesModel = true ∧ s.RQM.idx.toNat ≠ s.CURM.toNat →
            t.CURM.toNat = s.RQM.idx.toNat ∧ (∀ a, t.h.read a = silence)
            ∧ ∀ a < 335, t.WT.read a = (s.cfg.model s.RQM.idx.toNat).read a)
        ∧ (¬(s.servesModel = true ∧ s.RQM.idx.toNat ≠ s.CURM.toNat) →
            t.CURM = s.CURM ∧ t.h = s.h ∧ t.WT = s.WT))

/-- 47_control.md R278: while a reload request waits, its mailbox keeps it and the old table stays in
use, whole. How readiness is answered is the model's list (log 10). -/
def Obligations.BoundaryWaitsForReload : Prop :=
  ∀ s : State, s.PHASE ≠ .halt → s.blen = s.cfg.L →
    (s.RQM.pend = true ∧ s.readyM.headD true = false ∧ s.RQI.pend = false →
      ∃ t, exec .ctlBound s = .next t ∧ t.PHASE = s.PHASE ∧ t.RQM = s.RQM
        ∧ t.readyM = s.readyM.tail ∧ t.WT = s.WT ∧ t.CURM = s.CURM)
    ∧ (s.RQI.pend = true ∧ s.readyI.headD true = false ∧ s.RQM.pend = false →
      ∃ t, exec .ctlBound s = .next t ∧ t.PHASE = s.PHASE ∧ t.RQI = s.RQI
        ∧ t.readyI = s.readyI.tail ∧ t.PART = s.PART ∧ t.K = s.K ∧ t.CURI = s.CURI)

/-- 47_control.md R270, R276: the bypass request toggles the chain state; engaging clears the hidden
state and the convolution history and no other memory; disengaging clears nothing.
The reverb lines stay unless the room size changes (R277). -/
def Obligations.BypassToggle : Prop :=
  ∀ s : State, s.PHASE ≠ .halt → s.blen = s.cfg.L → s.RQB = true → s.RQM.pend = false →
    s.RQI.pend = false →
    ∃ t, exec .ctlBound s = .next t ∧ t.PHASE = s.PHASE ∧ t.RQB = false
      ∧ t.TF0 = s.TF0 ∧ t.TF1 = s.TF1 ∧ t.DBUF = s.DBUF ∧ t.WP = s.WP ∧ t.CUR = s.CUR
      ∧ t.WT = s.WT ∧ t.PART = s.PART ∧ t.K = s.K ∧ t.CURM = s.CURM ∧ t.CURI = s.CURI
      ∧ (∀ r, s.ROOMCUR = some r → s.cfg.arith.eq r t.A.ROOM = true → t.REV = s.REV)
      ∧ (s.CHAIN = .bypassed → t.CHAIN = .active ∧ t.WIDX = 0
          ∧ ∀ a, t.h.read a = silence ∧ t.HIST.read a = silence ∧ t.OVL.read a = silence)
      ∧ (s.CHAIN = .active → t.CHAIN = .bypassed ∧ t.h = s.h ∧ t.HIST = s.HIST ∧ t.OVL = s.OVL
          ∧ t.WIDX = s.WIDX)

/-- 47_control.md R283: `CTL.BLOCK` is `CTL.BOUND` followed by the schedule of the chain state that
`CTL.BOUND` left, or by nothing after a fatal fault. -/
def Obligations.BlockIsItsSchedule : Prop :=
  ∀ s : State, s.IndexInv → s.PHASE ≠ .halt → s.n = 0 →
    ∃ t u, exec .ctlBound s = .next t ∧ exec .ctlBlock s = .next u
      ∧ (s.blen = s.cfg.L → s.RQM.pend = false → s.RQI.pend = false → t.PHASE = s.PHASE)
      ∧ (t.PHASE = .halt → u = t)
      ∧ (t.PHASE ≠ .halt → execAll (blockSequence s.cfg t.CHAIN) t = .next u ∧ u.PHASE = s.PHASE)

/-- 47_control.md R283, R284, R286: a `TICK` of the right length on a bypassed chain with no request
pending delivers the input on both channels, in `NUM_F32` bit for bit, and leaves every memory of the
chain as it was; the reverb lines too, unless the room size changes (R277; 45_reverb.md R244). A sample
crosses the audio block port as a pattern (30_encoding.md R111), so in `NUM_FIX` the pattern delivered is
`toBits` of what `ofBits` reads (log 3). `audioOut` is the model's (log 18). -/
def Obligations.BypassedTickPassesThrough : Prop :=
  ∀ (s : State) (block : List (BitVec 32)) (rest : List Event),
    s.cfg.wf = true → s.PHASE = .idle → s.inbox = .tick block :: rest → block.length = s.cfg.L →
    s.CHAIN = .bypassed → s.RQB = false → s.RQM.pend = false → s.RQI.pend = false →
    let N := s.cfg.arith
    let out := block.map (fun p => N.toBits (N.ofBits p))
    ∃ t, step s = .next t ∧ t.PHASE = .idle ∧ t.n = 0 ∧ t.inbox = rest
      ∧ t.audioOut = some (out, out) ∧ (s.cfg.NUM = .f32 → out = block)
      ∧ (∀ m < s.cfg.L, t.X.read m = N.ofBits (block.getD m 0)
          ∧ t.OUTL.read m = t.X.read m ∧ t.OUTR.read m = t.X.read m)
      ∧ t.CHAIN = .bypassed ∧ t.h = s.h ∧ t.HIST = s.HIST ∧ t.PART = s.PART ∧ t.OVL = s.OVL
      ∧ t.WIDX = s.WIDX ∧ t.Z = s.Z ∧ t.W = s.W ∧ t.TF0 = s.TF0 ∧ t.TF1 = s.TF1
      ∧ t.DBUF = s.DBUF ∧ t.WP = s.WP ∧ t.CUR = s.CUR
      ∧ t.WT = s.WT ∧ t.K = s.K ∧ t.CURM = s.CURM ∧ t.CURI = s.CURI
      ∧ ∀ r, s.ROOMCUR = some r → N.eq r t.A.ROOM = true → t.REV = s.REV

/-- 47_control.md R284, 60_exceptions.md R316: a `TICK` of another length halts the CORE and delivers
silence; a `TICK` in `HALT` delivers silence and changes no other state. What is delivered, the pattern
of `+0` for each sample, is held in `audioOut` (log 18, log 22). -/
def Obligations.TickFaults : Prop :=
  ∀ (s : State) (block : List (BitVec 32)) (rest : List Event),
    s.cfg.wf = true → s.inbox = .tick block :: rest →
    let quiet : List (BitVec 32) := List.replicate s.cfg.L 0
    (s.PHASE = .idle → block.length ≠ s.cfg.L →
      step s = .next { s with
        inbox := rest, tickLen := none, HCAUSE := 2, PHASE := .halt, OUTL := [], OUTR := []
        audioOut := some (quiet, quiet) })
    ∧ (s.PHASE = .halt →
      step s = .next { s with
        inbox := rest, OUTL := [], OUTR := [], audioOut := some (quiet, quiet) })

/-! ### `HALT` and reset -/

/-- 60_exceptions.md R316: in `HALT` every event but `RESET` leaves the phase, the cause and
everything but the control port's own registers and the outputs as they were. -/
def Obligations.HaltLeftByResetOnly : Prop :=
  ∀ (s : State) (e : Event) (rest : List Event),
    s.cfg.wf = true → s.PHASE = .halt → s.inbox = e :: rest → e ≠ .reset →
    ∃ t, step s = .next t
      ∧ t = { s with
          inbox := rest, S := t.S, M := t.M, MV := t.MV, RQM := t.RQM, RQI := t.RQI, RQB := t.RQB
          OUTL := t.OUTL, OUTR := t.OUTR, portOut := t.portOut, audioOut := t.audioOut }

/-- 70_reset_and_hazards.md R350, R357: `RESET`, in any phase, is the reset values followed by the
boot sequence. What the outside has still to send is kept (log 19). -/
def Obligations.ResetRunsBootSequence : Prop :=
  ∀ (s : State) (rest : List Event), s.cfg.wf = true → s.inbox = .reset :: rest →
    ∃ b, execAll bootSequence (State.cold s.cfg) = .next b
      ∧ step s = .next { b with inbox := rest, readyM := s.readyM, readyI := s.readyI }
      ∧ b.cfg = s.cfg ∧ b.CHAIN = .bypassed
      ∧ (partitionCount s.cfg (s.cfg.ir 0).length ≤ s.cfg.KMAX →
          b.PHASE = .idle ∧ b.HCAUSE = 0 ∧ b.CURM = 0 ∧ b.CURI = 0)
      ∧ (s.cfg.KMAX < partitionCount s.cfg (s.cfg.ir 0).length →
          b.PHASE = .halt ∧ b.HCAUSE = 2)

/-- `State.reset` is what the boot sequence makes of the reset values, and has the values 10_state.md
R54 lists. The blank tables of the default configuration are the model's choice (log 2). -/
def Obligations.ResetStateValues : Prop :=
  let N := Config.default.arith
  execAll bootSequence (State.cold Config.default) = .next State.reset
  ∧ State.reset.K = 1 ∧ State.reset.WIDX = 0 ∧ State.reset.CHAIN = .bypassed
  ∧ State.reset.PHASE = .idle ∧ State.reset.n = 0 ∧ State.reset.HCAUSE = 0
  ∧ State.reset.RQM.pend = false ∧ State.reset.RQI.pend = false ∧ State.reset.RQB = false
  ∧ State.reset.MV = false ∧ State.reset.A = Params.atReset Config.default
  ∧ State.reset.S = State.reset.A ∧ State.reset.M = State.reset.A
  ∧ State.reset.TMODE = .lowPass ∧ State.reset.TALPHA = N.const 1
  ∧ State.reset.TGT = N.num 24000 ∧ State.reset.CUR = N.num 24000
  ∧ State.reset.T2 = N.num 16000 ∧ State.reset.FB = silence ∧ State.reset.DLV = N.const 1
  ∧ State.reset.ACT = false ∧ State.reset.TAP2 = false
  ∧ State.reset.REV.map ReverbLine.RLEN = [2628, 2984, 3390, 3847]
  ∧ State.reset.G = N.const (mkRat 1 2) ∧ State.reset.ROOMCUR = some (N.const (mkRat 1 2))
  ∧ State.reset.WETG = N.const 1 ∧ State.reset.DRYG = silence

/-! ### Rules over all commands and all steps -/

/-- 60_exceptions.md R330, 10_state.md R26, R27, R31, R36, R40, 20_memory.md R88: no command writes the
shadow or the mailbox bank, the tables or the input block; only the boundary writes the active bank,
the mailboxes and the chain state; only the loads and the boundary replace a weight or a partition. -/
def Obligations.CommandOwnership : Prop :=
  ∀ (i : Instr) (s t : State), exec i s = .next t →
    t.cfg = s.cfg ∧ t.S = s.S ∧ t.M = s.M ∧ t.X = s.X ∧ t.inbox = s.inbox ∧ t.tickLen = s.tickLen
    ∧ t.portOut = s.portOut ∧ t.audioOut = s.audioOut
    ∧ (i ≠ .ctlBound → i ≠ .ctlBlock →
        t.A = s.A ∧ t.MV = s.MV ∧ t.RQM = s.RQM ∧ t.RQI = s.RQI ∧ t.RQB = s.RQB
        ∧ t.CHAIN = s.CHAIN ∧ t.readyM = s.readyM ∧ t.readyI = s.readyI
        ∧ ((∀ idx, i ≠ .nnLoad idx) → t.WT = s.WT ∧ t.CURM = s.CURM)
        ∧ ((∀ idx, i ≠ .convInit idx) → t.PART = s.PART ∧ t.K = s.K ∧ t.CURI = s.CURI))

/-- 20_memory.md R86: a parameter written but not committed is invisible to every command: two states
that differ in the shadow bank only stay so, with equal outcomes. -/
def Obligations.NoCommandReadsShadow : Prop :=
  ∀ (i : Instr) (s : State) (p : Params),
    exec i { s with S := p } = mapNext (fun t => { t with S := p }) (exec i s)

/-- 00_scope.md R17, 20_memory.md R70: from a state whose index registers are in range and in which no
block runs, every event is served: the step answers a next state, in range again. So neither the
model's fault nor a refusal ever stops the CORE. -/
def Obligations.EveryStepCompletes : Prop :=
  ∀ s : State, s.IndexInv → s.PhaseInv → ∃ t, step s = .next t ∧ t.IndexInv ∧ t.PhaseInv

/-- 20_memory.md R70: every step keeps every memory inside its space and in canonical form (log 15). -/
def Obligations.MemoryKept : Prop :=
  ∀ s t : State, s.MemoryInv → step s = .next t → t.MemoryInv

/-- 60_exceptions.md R312: every word of the feedback memories and of the working block is finite, and
every step keeps it so. -/
def Obligations.FeedbackStaysFinite : Prop :=
  ∀ s t : State, s.FeedbackFinite → step s = .next t → t.FeedbackFinite

/-- 10_state.md R22, 44_delay.md R218: the active bank is finite and in range and the delay lengths are
in `[1, DMAX-1]`, and every step keeps it so, on a configuration whose ranges hold the reset values and
whose delay lengths are integers that 00_scope.md R11 states `num` for. In range means at most `const` of
`GAIN_MAX`, `LEVEL_MAX` and `FB_MAX`, which is the model's choice (log 24): for an `FB_MAX` near 1 the
bound is 1. -/
def Obligations.ActiveBankStaysInRange : Prop :=
  ∀ s t : State, rangesHoldReset s.cfg → s.BankInv → s.DelayInv → step s = .next t →
    t.cfg = s.cfg ∧ t.BankInv ∧ t.DelayInv

/-- 47_control.md R286, 10_state.md R31: the two output channels stay equal over every step. -/
def Obligations.OutputChannelsStayEqual : Prop :=
  ∀ s t : State, s.OUTL = s.OUTR → step s = .next t → t.OUTL = t.OUTR

/-- The reset state has every invariant the statements above keep; the bounds of the ranges are the model's
choice (log 24), exact for the default configuration. -/
def Obligations.ResetHasTheInvariants : Prop :=
  State.reset.IndexInv ∧ State.reset.PhaseInv ∧ State.reset.MemoryInv ∧ State.reset.FeedbackFinite
  ∧ State.reset.BankInv ∧ State.reset.DelayInv ∧ rangesHoldReset State.reset.cfg
  ∧ State.reset.OUTL = State.reset.OUTR

/-! ### The arithmetic -/

/-- 00_scope.md R13: on finite operands `add`, `sub`, `mul`, `div` and `sqrt` are correctly rounded, to
nearest, ties to even, with gradual underflow and overflow to infinity; an exact zero sum is `+0`
unless both operands are negative. -/
def Obligations.ArithmeticIsCorrectlyRounded : Prop :=
  ∀ a b : Num32, F32.finite a = true → F32.finite b = true →
    let x : ℝ := ((F32.value a : Rat) : ℝ)
    let y : ℝ := ((F32.value b : Rat) : ℝ)
    isRounded (x + y) (F32.add a b) ∧ isRounded (x - y) (F32.sub a b)
    ∧ isRounded (x * y) (F32.mul a b) ∧ (y ≠ 0 → isRounded (x / y) (F32.div a b))
    ∧ (0 ≤ x → isRounded (Real.sqrt x) (F32.sqrt a))
    ∧ (x + y = 0 → F32.add a b = if F32.sign a && F32.sign b then F32.neg F32.zero else F32.zero)
    ∧ F32.sign (F32.mul a b) = (F32.sign a ^^ F32.sign b)
end

