-- ==== Sys2Proof/Laws/Memory.lean ====
section
/-! SUPPORT. What every memory operation of `Machine/Ops.lean` does to a read of one word, that each
keeps the canonical form and the size, and that canonical memories with equal words are equal. -/

namespace Sys2Proof

open Machine

open Memory

variable {α : Type} [Inhabited α]

/-- Silence in a word of a chip. -/
@[simp] theorem silence_word : (silence : NumWord) = 0 := rfl

/-! ### Reads -/

@[simp] theorem Memory.read_nil (a : Nat) : Memory.read ([] : Memory α) a = silence := rfl

theorem Memory.read_cons (e : Nat × α) (m : Memory α) (a : Nat) :
    Memory.read (e :: m) a = if a = e.1 then e.2 else Memory.read m a := rfl

/-- A word at an address that no entry lists is `+0`. -/
theorem Memory.read_of_absent {m : Memory α} {a : Nat} (h : ∀ e ∈ m, e.1 ≠ a) : Memory.read m a = silence := by
  induction m with
  | nil => rfl
  | cons e m ih =>
    rw [read_cons, if_neg (Ne.symm (h e (by simp)))]
    exact ih (fun e' he' => h e' (by simp [he']))

/-- A filter on addresses keeps the words it selects. -/
theorem Memory.read_filter (p : Nat → Bool) (m : Memory α) (a : Nat) :
    Memory.read (m.filter (fun e => p e.1)) a = if p a then Memory.read m a else silence := by
  induction m with
  | nil => simp
  | cons e m ih =>
    by_cases hp : p e.1 = true
    · rw [List.filter_cons_of_pos (p := fun e : Nat × α => p e.1) hp, read_cons, read_cons, ih]
      by_cases ha : a = e.1
      · subst ha; simp [hp]
      · simp [ha]
    · rw [List.filter_cons_of_neg (p := fun e : Nat × α => p e.1) hp, ih, read_cons]
      by_cases ha : a = e.1
      · subst ha; simp [hp]
      · simp [ha]

/-- If the first part lists nothing at `a`, the word comes from the second part. -/
theorem Memory.read_append_right {m n : Memory α} {a : Nat} (h : ∀ e ∈ m, e.1 ≠ a) :
    Memory.read (m ++ n) a = Memory.read n a := by
  induction m with
  | nil => rfl
  | cons e m ih =>
    rw [List.cons_append, read_cons, if_neg (Ne.symm (h e (by simp)))]
    exact ih (fun e' he' => h e' (by simp [he']))

/-- If the second part lists nothing at `a`, the word comes from the first part. -/
theorem Memory.read_append_left {m n : Memory α} {a : Nat} (h : ∀ e ∈ n, e.1 ≠ a) :
    Memory.read (m ++ n) a = Memory.read m a := by
  induction m with
  | nil => exact read_of_absent h
  | cons e m ih => rw [List.cons_append, read_cons, read_cons, ih]

variable [DecidableEq α]

/-- The addresses that `ofWords` lists. -/
theorem Memory.ofWords_keys {ws : List α} {base : Nat} {e : Nat × α} (h : e ∈ ofWords base ws) :
    base ≤ e.1 ∧ e.1 < base + ws.length ∧ e.2 ≠ silence := by
  induction ws generalizing base with
  | nil => simp [ofWords] at h
  | cons v ws ih =>
    rw [ofWords] at h
    split at h
    · obtain ⟨h1, h2, h3⟩ := ih h
      exact ⟨by omega, by rw [List.length_cons]; omega, h3⟩
    · rcases List.mem_cons.1 h with rfl | h
      · rename_i hv
        exact ⟨le_refl _, by rw [List.length_cons]; omega, hv⟩
      · obtain ⟨h1, h2, h3⟩ := ih h
        exact ⟨by omega, by rw [List.length_cons]; omega, h3⟩

/-- The words of `ofWords base ws`. -/
theorem Memory.read_ofWords (base : Nat) (ws : List α) (a : Nat) :
    Memory.read (ofWords base ws) a = if base ≤ a then ws.getD (a - base) silence else silence := by
  induction ws generalizing base with
  | nil => simp [ofWords]
  | cons v ws ih =>
    have hstep : Memory.read (ofWords base (v :: ws)) a
        = if a = base then v else Memory.read (ofWords (base + 1) ws) a := by
      rw [ofWords]
      split
      · rename_i hv
        by_cases ha : a = base
        · subst ha
          rw [if_pos rfl, hv]
          refine read_of_absent (fun e he => ?_)
          have := ofWords_keys he; omega
        · rw [if_neg ha]
      · rw [read_cons]
    rw [hstep, ih]
    by_cases ha : a = base
    · subst ha; simp
    · by_cases hb : base ≤ a
      · have h1 : base + 1 ≤ a := by omega
        have h2 : a - base = (a - (base + 1)) + 1 := by omega
        rw [if_neg ha, if_pos h1, if_pos hb, h2, List.getD_cons_succ]
      · rw [if_neg ha, if_neg (by omega), if_neg hb]

/-- `writeBlock` writes the words `ws` from `base` on and no other word. -/
theorem Memory.read_writeBlock (m : Memory α) (base : Nat) (ws : List α) (a : Nat) :
    Memory.read (m.writeBlock base ws) a
      = if base ≤ a ∧ a < base + ws.length then ws.getD (a - base) silence else Memory.read m a := by
  unfold writeBlock
  by_cases h1 : a < base
  · rw [if_neg (by omega), List.append_assoc, read_append_left, read_filter (fun k => decide (k < base))]
    · simp [h1]
    · intro e he
      rcases List.mem_append.1 he with h | h
      · have := ofWords_keys h; omega
      · have := (List.mem_filter.1 h).2; simp at this; omega
  · by_cases h2 : a < base + ws.length
    · rw [if_pos (by omega), List.append_assoc, read_append_right, read_append_left, read_ofWords,
        if_pos (by omega)]
      · intro e he
        have := (List.mem_filter.1 he).2; simp at this; omega
      · intro e he
        have := (List.mem_filter.1 he).2; simp at this; omega
    · rw [if_neg (by omega), read_append_right,
        read_filter (fun k => decide (base + ws.length ≤ k))]
      · simp [show base + ws.length ≤ a by omega]
      · intro e he
        rcases List.mem_append.1 he with h | h
        · have := (List.mem_filter.1 h).2; simp at this; omega
        · have := ofWords_keys h; omega

/-- `write` changes one word. -/
@[simp] theorem Memory.read_write (m : Memory α) (i : Nat) (v : α) (a : Nat) :
    Memory.read (m.write i v) a = if a = i then v else Memory.read m a := by
  rw [write, read_writeBlock]
  by_cases h : a = i
  · subst h; simp
  · rw [if_neg (by simp; omega), if_neg h]

/-- The words of `tabulate n f`. -/
@[simp] theorem Memory.read_tabulate (n : Nat) (f : Nat → α) (a : Nat) :
    Memory.read (tabulate n f) a = if a < n then f a else silence := by
  rw [tabulate, read_ofWords]
  by_cases h : a < n <;> simp [h]

omit [DecidableEq α] in
@[simp] theorem Memory.length_readBlock (m : Memory α) (base n : Nat) : (m.readBlock base n).length = n := by
  simp [readBlock]

omit [DecidableEq α] in
/-- Word `i` of `readBlock`. -/
theorem Memory.getD_readBlock (m : Memory α) (base n i : Nat) :
    (m.readBlock base n).getD i silence = if i < n then Memory.read m (base + i) else silence := by
  by_cases h : i < n <;> simp [readBlock, h]

omit [DecidableEq α] in
/-- Complex entries as a list of words: word `a` belongs to entry `a / 2`. -/
theorem Memory.getD_flatMap_cplxWords (ks : List Nat) (f : Nat → Cplx α) (a : Nat) :
    (ks.flatMap (fun k => cplxWords (f k))).getD a silence
      = if h : a / 2 < ks.length then
          (if a % 2 = 0 then (f ks[a / 2]).re else (f ks[a / 2]).im)
        else silence := by
  induction ks generalizing a with
  | nil => simp
  | cons k ks ih =>
    rw [List.flatMap_cons]
    match a with
    | 0 => simp [cplxWords]
    | 1 => simp [cplxWords]
    | a + 2 =>
      have h1 : (cplxWords (f k) ++ ks.flatMap (fun k => cplxWords (f k))).getD (a + 2) silence
          = (ks.flatMap (fun k => cplxWords (f k))).getD a silence := by
        simp [cplxWords]
      have h2 : (a + 2) / 2 = a / 2 + 1 := by omega
      have h3 : (a + 2) % 2 = a % 2 := by omega
      rw [h1, ih]
      simp [h2, h3]

/-- The words of `tabulateC n f`. -/
theorem Memory.read_tabulateC (n : Nat) (f : Nat → Cplx α) (a : Nat) :
    Memory.read (tabulateC n f) a
      = if a / 2 < n then (if a % 2 = 0 then (f (a / 2)).re else (f (a / 2)).im) else silence := by
  rw [tabulateC, read_ofWords, if_pos (Nat.zero_le _), Nat.sub_zero, getD_flatMap_cplxWords]
  by_cases h : a / 2 < n <;> simp [h]

/-- Entry `k` of `tabulateC n f`. -/
@[simp] theorem Memory.readC_tabulateC {n : Nat} (f : Nat → Cplx α) {k : Nat} (h : k < n) :
    (tabulateC n f).readC k = f k := by
  have h1 : (2 * k + 1) / 2 = k := by omega
  have h2 : (2 * k + 1) % 2 = 1 := by omega
  simp [readC, read_tabulateC, h, h1, h2]

/-- `writeC` changes the two words of one entry. -/
theorem Memory.read_writeC (m : Memory α) (i : Nat) (v : Cplx α) (a : Nat) :
    Memory.read (m.writeC i v) a
      = if a = 2 * i then v.re else if a = 2 * i + 1 then v.im else Memory.read m a := by
  rw [writeC, read_writeBlock]
  by_cases h0 : a = 2 * i
  · subst h0; simp [cplxWords]
  · by_cases h1 : a = 2 * i + 1
    · subst h1; simp [cplxWords]
    · rw [if_neg (by simp [cplxWords]; omega), if_neg h0, if_neg h1]

/-- `writeC` changes one entry. -/
@[simp] theorem Memory.readC_writeC (m : Memory α) (i : Nat) (v : Cplx α) (k : Nat) :
    (m.writeC i v).readC k = if k = i then v else m.readC k := by
  by_cases h : k = i
  · subst h; simp [readC, read_writeC]
  · have h1 : ¬ 2 * k = 2 * i := by omega
    have h2 : ¬ 2 * k = 2 * i + 1 := by omega
    have h3 : ¬ 2 * k + 1 = 2 * i := by omega
    simp [readC, read_writeC, h, h1, h2, h3]

/-! ### The canonical form -/

/-- The canonical form from `lo` on, as a statement about the entries. -/
theorem Memory.wfFrom_iff (lo : Nat) (m : Memory α) :
    wfFrom lo m = true ↔
      m.Pairwise (fun x y => x.1 < y.1) ∧ ∀ e ∈ m, lo ≤ e.1 ∧ e.2 ≠ silence := by
  induction m generalizing lo with
  | nil => simp [wfFrom]
  | cons e m ih =>
    obtain ⟨b, v⟩ := e
    simp only [wfFrom, Bool.and_eq_true, decide_eq_true_eq, ih, List.pairwise_cons,
      List.forall_mem_cons]
    constructor
    · rintro ⟨⟨h1, h2⟩, h3, h4⟩
      exact ⟨⟨fun y hy => (h4 y hy).1, h3⟩, ⟨h1, h2⟩,
        fun y hy => ⟨by have := (h4 y hy).1; omega, (h4 y hy).2⟩⟩
    · rintro ⟨⟨h1, h2⟩, ⟨h3, h4⟩, h5⟩
      exact ⟨⟨h3, h4⟩, h2, fun y hy => ⟨h1 y hy, (h5 y hy).2⟩⟩

/-- The canonical form, as a statement about the entries. -/
theorem Memory.wf_iff (m : Memory α) :
    m.wf = true ↔ m.Pairwise (fun x y => x.1 < y.1) ∧ ∀ e ∈ m, e.2 ≠ silence := by
  rw [wf, wfFrom_iff]; simp

theorem Memory.wfFrom_ofWords (base : Nat) (ws : List α) : wfFrom base (ofWords base ws) = true := by
  induction ws generalizing base with
  | nil => rfl
  | cons v ws ih =>
    rw [ofWords]
    split
    · rw [wfFrom_iff]
      have h := (wfFrom_iff _ _).1 (ih (base + 1))
      exact ⟨h.1, fun e he => ⟨by have := (h.2 e he).1; omega, (h.2 e he).2⟩⟩
    · rename_i hv
      simp [wfFrom, hv, ih]

@[simp] theorem Memory.wf_nil : Memory.wf ([] : Memory α) = true := rfl

@[simp] theorem Memory.wf_ofWords (base : Nat) (ws : List α) : (ofWords base ws).wf = true := by
  rw [wf_iff]
  have h := (wfFrom_iff _ _).1 (wfFrom_ofWords base ws)
  exact ⟨h.1, fun e he => (h.2 e he).2⟩

/-- `writeBlock` keeps the canonical form. -/
theorem Memory.wf_writeBlock {m : Memory α} (h : m.wf = true) (base : Nat) (ws : List α) :
    (m.writeBlock base ws).wf = true := by
  rw [wf_iff] at h ⊢
  have ho := (wfFrom_iff _ _).1 (wfFrom_ofWords base ws)
  refine ⟨?_, ?_⟩
  · unfold writeBlock
    rw [List.append_assoc, List.pairwise_append, List.pairwise_append]
    refine ⟨h.1.filter _, ⟨ho.1, h.1.filter _, ?_⟩, ?_⟩
    · intro x hx y hy
      have h1 := ofWords_keys hx
      have h2 := (List.mem_filter.1 hy).2
      simp at h2; omega
    · intro x hx y hy
      have h1 := (List.mem_filter.1 hx).2
      simp at h1
      rcases List.mem_append.1 hy with hy | hy
      · have := ofWords_keys hy; omega
      · have h2 := (List.mem_filter.1 hy).2
        simp at h2; omega
  · intro e he
    unfold writeBlock at he
    rcases List.mem_append.1 he with he | he
    · rcases List.mem_append.1 he with he | he
      · exact h.2 e (List.mem_of_mem_filter he)
      · exact (ofWords_keys he).2.2
    · exact h.2 e (List.mem_of_mem_filter he)

theorem Memory.wf_write {m : Memory α} (h : m.wf = true) (a : Nat) (v : α) : (m.write a v).wf = true :=
  wf_writeBlock h a [v]

theorem Memory.wf_writeC {m : Memory α} (h : m.wf = true) (k : Nat) (v : Cplx α) : (m.writeC k v).wf = true :=
  wf_writeBlock h (2 * k) (cplxWords v)

@[simp] theorem Memory.wf_tabulate (n : Nat) (f : Nat → α) : (tabulate n f).wf = true :=
  wf_ofWords 0 _

@[simp] theorem Memory.wf_tabulateC (n : Nat) (f : Nat → Cplx α) : (tabulateC n f).wf = true :=
  wf_ofWords 0 _

/-- In canonical form an address is listed exactly when its word is not `+0`. -/
theorem Memory.mem_iff_read {m : Memory α} (h : m.wf = true) (e : Nat × α) :
    e ∈ m ↔ Memory.read m e.1 = e.2 ∧ e.2 ≠ silence := by
  rw [wf_iff] at h
  induction m with
  | nil =>
    simp only [List.not_mem_nil, read_nil, false_iff, not_and, not_not]
    exact fun h => h.symm
  | cons d m ih =>
    obtain ⟨hp, hz⟩ := h
    rw [List.pairwise_cons] at hp
    have ih := ih ⟨hp.2, fun x hx => hz x (by simp [hx])⟩
    rw [List.mem_cons, read_cons]
    by_cases hk : e.1 = d.1
    · rw [if_pos hk]
      constructor
      · rintro (rfl | hm)
        · exact ⟨rfl, hz _ (by simp)⟩
        · have := hp.1 e hm; omega
      · rintro ⟨hv, _⟩
        exact .inl (Prod.ext hk hv.symm)
    · rw [if_neg hk, ← ih]
      constructor
      · rintro (rfl | hm)
        · exact absurd rfl hk
        · exact hm
      · exact .inr

/-- Canonical memories with equal words are equal (log 15). -/
theorem Memory.ext_of_wf {m n : Memory α} (hm : m.wf = true) (hn : n.wf = true)
    (h : ∀ a, Memory.read m a = Memory.read n a) : m = n := by
  have hmem : ∀ e, e ∈ m ↔ e ∈ n := fun e => by rw [mem_iff_read hm, mem_iff_read hn, h]
  have sm := ((wf_iff m).1 hm).1
  have sn := ((wf_iff n).1 hn).1
  have nd : ∀ {l : Memory α}, l.Pairwise (fun x y => x.1 < y.1) → l.Nodup := fun hl =>
    hl.imp (fun hxy he => by rw [he] at hxy; exact absurd hxy (lt_irrefl _))
  have hperm : m.Perm n := (List.perm_ext_iff_of_nodup (nd sm) (nd sn)).2 hmem
  exact hperm.eq_of_pairwise (fun a b _ _ hab hba => by omega) sm sn

/-! ### The size -/

omit [Inhabited α] [DecidableEq α] in
theorem Memory.inSize_iff (m : Memory α) (size : Nat) : m.inSize size = true ↔ ∀ e ∈ m, e.1 < size := by
  simp [inSize]

omit [Inhabited α] [DecidableEq α] in
@[simp] theorem Memory.inSize_nil (size : Nat) : Memory.inSize ([] : Memory α) size = true := rfl

theorem Memory.inSize_ofWords {base size : Nat} {ws : List α} (h : base + ws.length ≤ size) :
    (ofWords base ws).inSize size = true := by
  rw [inSize_iff]
  intro e he
  have := ofWords_keys he; omega

/-- `writeBlock` inside the size keeps the size. -/
theorem Memory.inSize_writeBlock {m : Memory α} {size : Nat} (h : m.inSize size = true) {base : Nat}
    {ws : List α} (hb : base + ws.length ≤ size) : (m.writeBlock base ws).inSize size = true := by
  rw [inSize_iff] at h ⊢
  intro e he
  unfold writeBlock at he
  rcases List.mem_append.1 he with he | he
  · rcases List.mem_append.1 he with he | he
    · exact h e (List.mem_of_mem_filter he)
    · have := ofWords_keys he; omega
  · exact h e (List.mem_of_mem_filter he)

theorem Memory.inSize_write {m : Memory α} {size : Nat} (h : m.inSize size = true) {a : Nat} (ha : a < size)
    (v : α) : (m.write a v).inSize size = true :=
  inSize_writeBlock h (by simpa using ha)

theorem Memory.inSize_writeC {m : Memory α} {n : Nat} (h : m.inSize (2 * n) = true) {k : Nat} (hk : k < n)
    (v : Cplx α) : (m.writeC k v).inSize (2 * n) = true :=
  inSize_writeBlock h (by simp [cplxWords]; omega)

theorem Memory.inSize_tabulate (n : Nat) (f : Nat → α) : (tabulate n f).inSize n = true :=
  inSize_ofWords (by simp)

omit [Inhabited α] [DecidableEq α] in
theorem Memory.length_flatMap_cplxWords (ks : List Nat) (f : Nat → Cplx α) :
    (ks.flatMap (fun k => cplxWords (f k))).length = 2 * ks.length := by
  induction ks with
  | nil => rfl
  | cons k ks ih =>
    rw [List.flatMap_cons, List.length_append, ih]
    simp only [cplxWords, List.length_cons, List.length_nil]; omega

theorem Memory.inSize_tabulateC (n : Nat) (f : Nat → Cplx α) : (tabulateC n f).inSize (2 * n) = true :=
  inSize_ofWords (by rw [length_flatMap_cplxWords]; simp)

omit [DecidableEq α] in
/-- A word past the size reads `+0`. -/
theorem Memory.read_of_inSize {m : Memory α} {size a : Nat} (h : m.inSize size = true) (ha : size ≤ a) :
    Memory.read m a = silence :=
  read_of_absent (fun e he => by have := (inSize_iff m size).1 h e he; omega)

end Sys2Proof
end

