-- ==== Sys2Proof/Laws/Num.lean ====
section
/-! SUPPORT. What 00_scope.md R14 says of `sigmoid` and `tanh` holds of `F32.sigmoid` and `F32.tanh`,
whatever the free thresholds are: their range on finite operands, that they do not decrease, and that
the clamp to the tolerance keeps to it (`withinTol_accurate`). -/

namespace Sys2Proof.Machine

/-! ### The search -/

theorem risingSearch_range (step : Nat → Int) (a : Int) (fuel lo : Nat) :
    lo ≤ risingSearch step a fuel lo ∧ risingSearch step a fuel lo < lo + 2 ^ fuel := by
  induction fuel generalizing lo with
  | zero => simp [risingSearch]
  | succ fuel ih =>
    have h := pow_succ 2 fuel
    rw [risingSearch]
    split
    · have := ih (lo + 2 ^ fuel); omega
    · have := ih lo; omega

/-- Whatever the thresholds, the search does not decrease as its argument grows. -/
theorem risingSearch_mono (step : Nat → Int) {a b : Int} (h : a ≤ b) (fuel lo : Nat) :
    risingSearch step a fuel lo ≤ risingSearch step b fuel lo := by
  induction fuel generalizing lo with
  | zero => exact le_refl _
  | succ fuel ih =>
    rw [risingSearch, risingSearch]
    by_cases ha : step (lo + 2 ^ fuel) ≤ a
    · rw [if_pos ha, if_pos (le_trans ha h)]; exact ih _
    · rw [if_neg ha]
      split
      · have h1 := (risingSearch_range step a fuel lo).2
        have h2 := (risingSearch_range step b fuel (lo + 2 ^ fuel)).1
        omega
      · exact ih _

/-! ### The ideal values -/

theorem expSeries_mono (fuel i : Nat) {t u x y : Nat} (ht : t ≤ u) (hx : x ≤ y) :
    expSeries fuel i t x ≤ expSeries fuel i u y := by
  induction fuel generalizing i t u with
  | zero => exact le_refl _
  | succ fuel ih =>
    exact Nat.add_le_add ht (ih _ (Nat.div_le_div_right (Nat.div_le_div_right (Nat.mul_le_mul ht hx))))

theorem squareTimes_mono (k : Nat) {x y : Nat} (h : x ≤ y) : squareTimes k x ≤ squareTimes k y := by
  induction k generalizing x y with
  | zero => exact h
  | succ k ih => exact ih (Nat.div_le_div_right (Nat.mul_le_mul h h))

theorem expScaled_mono {x y : Nat} (h : x ≤ y) : expScaled x ≤ expScaled y :=
  squareTimes_mono _ (expSeries_mono _ _ (le_refl _)
    (Nat.div_le_div_right (min_le_min h (le_refl _))))

theorem sigmoidIdeal_pos_mono {x y : Nat} (h : x ≤ y) : sigmoidIdeal false x ≤ sigmoidIdeal false y :=
  Nat.sub_le_sub_left (Nat.div_le_div_left (Nat.add_le_add_left (expScaled_mono h) _)
    (by simp [trigScale])) _

theorem sigmoidIdeal_neg_anti {x y : Nat} (h : x ≤ y) : sigmoidIdeal true y ≤ sigmoidIdeal true x :=
  Nat.div_le_div_left (Nat.add_le_add_left (expScaled_mono h) _) (by simp [trigScale])

theorem tanhIdeal_mono {x y : Nat} (h : x ≤ y) : tanhIdeal x ≤ tanhIdeal y :=
  Nat.sub_le_sub_left (Nat.div_le_div_left
    (Nat.add_le_add_right (expScaled_mono (Nat.mul_le_mul_left 2 h)) _) (by simp [trigScale])) _

namespace F32

/-! ### Patterns and magnitudes -/

/-- The quotient on its grid has at most 24 bits. -/
theorem grid_upper (q : Nat) : q < 2 ^ (Nat.log2 q - 23) * 2 ^ 24 := by
  have h : q < 2 ^ (Nat.log2 q + 1) := Nat.lt_log2_self
  rw [← pow_add]
  exact lt_of_lt_of_le h (Nat.pow_le_pow_right (by decide) (by omega))

/-- A quotient on a grid coarser than 1 has 24 bits. -/
theorem grid_lower {q : Nat} (h : 0 < Nat.log2 q - 23) : 2 ^ (Nat.log2 q - 23) * 2 ^ 23 ≤ q := by
  have h1 : q ≠ 0 := by rintro rfl; simp at h
  have h2 : 2 ^ Nat.log2 q ≤ q := Nat.log2_self_le h1
  rw [← pow_add]
  exact le_trans (Nat.pow_le_pow_right (by decide) (by omega)) h2

theorem log2_mono {p q : Nat} (h : p ≤ q) : Nat.log2 p ≤ Nat.log2 q := by
  rw [Nat.log2_eq_log_two, Nat.log2_eq_log_two]; exact Nat.log_mono_right h

/-- What makes a rounding onto the grids monotone: it is so on each grid, and between the grids its
values are kept apart. -/
theorem grid_mono {k l u v : Nat} (hk : k ≤ l) (heq : k = l → u ≤ v) (hu : u ≤ 2 ^ 24)
    (hv : 0 < l → 2 ^ 23 ≤ v) : k * 2 ^ 23 + u ≤ l * 2 ^ 23 + v := by
  rcases Nat.lt_or_eq_of_le hk with h | h
  · have := hv (by omega); omega
  · have := heq h; omega

theorem floorMag_mono {n m d : Nat} (h : n ≤ m) : floorMag n d ≤ floorMag m d := by
  have hq : n / d ≤ m / d := Nat.div_le_div_right h
  refine min_le_min (grid_mono (Nat.sub_le_sub_right (log2_mono hq) _) ?_ ?_ ?_) (le_refl _)
  · intro he; rw [he]; exact Nat.div_le_div_right h
  · rw [← Nat.div_div_eq_div_mul]
    exact le_of_lt (Nat.div_lt_of_lt_mul (grid_upper _))
  · intro hl
    rw [← Nat.div_div_eq_div_mul, Nat.le_div_iff_mul_le (Nat.pow_pos (by decide)), Nat.mul_comm]
    exact grid_lower hl

theorem ceilMag_mono {n m d : Nat} (hd : 0 < d) (h : n ≤ m) : ceilMag n d ≤ ceilMag m d := by
  have hq : n / d ≤ m / d := Nat.div_le_div_right h
  have hpos : ∀ k, 0 < d * 2 ^ k := fun k => Nat.mul_pos hd (Nat.pow_pos (by decide))
  refine min_le_min (grid_mono (Nat.sub_le_sub_right (log2_mono hq) _) ?_ ?_ ?_) (le_refl _)
  · intro he
    have he : gridBits n d = gridBits m d := he
    rw [he]; exact Nat.div_le_div_right (Nat.add_le_add_right h _)
  · have h1 := Nat.lt_mul_of_div_lt (grid_upper (n / d)) hd
    have h2 := hpos (gridBits n d)
    rw [← Nat.lt_succ_iff, Nat.div_lt_iff_lt_mul h2, Nat.succ_mul]
    have h3 : 2 ^ (Nat.log2 (n / d) - 23) * 2 ^ 24 * d = 2 ^ 24 * (d * 2 ^ gridBits n d) := by
      unfold gridBits; ring
    omega
  · intro hl
    rw [Nat.le_div_iff_mul_le (hpos _)]
    have h1 : d * (2 ^ gridBits m d * 2 ^ 23) ≤ d * (m / d) := Nat.mul_le_mul_left d (grid_lower hl)
    have h2 := Nat.mul_div_le m d
    have h3 : d * (2 ^ gridBits m d * 2 ^ 23) = 2 ^ 23 * (d * 2 ^ gridBits m d) := by ring
    omega

theorem withinTol_mono (t : Nat) {v w p q : Nat} (hv : v ≤ w) (hp : p ≤ q) :
    withinTol t v p ≤ withinTol t w q :=
  max_le_max
    (ceilMag_mono (by simp [trigScale]) (Nat.mul_le_mul_right _ (Nat.sub_le_sub_right hv t)))
    (min_le_min
      (floorMag_mono (Nat.mul_le_mul_right _ (Nat.add_le_add_right hv t))) hp)

/-! ### Packed patterns -/

/-- The magnitude of a sign-less pattern. -/
def magOf (m : Nat) : Nat :=
  if m / 2 ^ 23 = 0 then m % 2 ^ 23 else (2 ^ 23 + m % 2 ^ 23) * 2 ^ (m / 2 ^ 23 - 1)

theorem magOf_mono {m n : Nat} (h : m ≤ n) : magOf m ≤ magOf n := by
  have hm := Nat.mod_lt m (by decide : 0 < 2 ^ 23)
  have hn := Nat.mod_lt n (by decide : 0 < 2 ^ 23)
  have em := Nat.div_add_mod m (2 ^ 23)
  have en := Nat.div_add_mod n (2 ^ 23)
  have hq : m / 2 ^ 23 ≤ n / 2 ^ 23 := Nat.div_le_div_right h
  unfold magOf
  generalize m / 2 ^ 23 = e at *
  generalize n / 2 ^ 23 = f at *
  generalize m % 2 ^ 23 = a at *
  generalize n % 2 ^ 23 = b at *
  rcases Nat.lt_or_eq_of_le hq with hlt | heq
  · rw [if_neg (by omega : f ≠ 0)]
    have h1 : 1 ≤ 2 ^ (f - 1) := Nat.one_le_two_pow
    split
    · calc a ≤ (2 ^ 23 + b) * 1 := by omega
        _ ≤ _ := Nat.mul_le_mul_left _ h1
    · have h2 : 2 ^ (e - 1) * 2 ≤ 2 ^ (f - 1) := by
        rw [← pow_succ]; exact Nat.pow_le_pow_right (by decide) (by omega)
      calc (2 ^ 23 + a) * 2 ^ (e - 1) ≤ (2 ^ 24) * 2 ^ (e - 1) := Nat.mul_le_mul_right _ (by omega)
        _ = 2 ^ 23 * (2 ^ (e - 1) * 2) := by ring
        _ ≤ 2 ^ 23 * 2 ^ (f - 1) := Nat.mul_le_mul_left _ h2
        _ ≤ _ := Nat.mul_le_mul_right _ (by omega)
  · subst heq
    have : a ≤ b := by omega
    split
    · exact this
    · exact Nat.mul_le_mul_right _ (by omega)

/-- The magnitude of `u` steps of the grid `2^k`. -/
theorem magOf_grid {k u : Nat} (hu : u ≤ 2 ^ 24) (hk : 0 < k → 2 ^ 23 ≤ u) :
    magOf (k * 2 ^ 23 + u) = u * 2 ^ k := by
  unfold magOf
  by_cases h1 : u < 2 ^ 23
  · have hk0 : k = 0 := by by_contra h; have := hk (by omega); omega
    subst hk0
    rw [if_pos (by omega)]; omega
  · rcases Nat.lt_or_eq_of_le hu with h2 | h2
    · have e1 : (k * 2 ^ 23 + u) / 2 ^ 23 = k + 1 := by omega
      have e2 : (k * 2 ^ 23 + u) % 2 ^ 23 = u - 2 ^ 23 := by omega
      rw [e1, e2, if_neg (by omega), Nat.add_sub_cancel, Nat.add_sub_cancel' (by omega)]
    · subst h2
      have e1 : (k * 2 ^ 23 + 2 ^ 24) / 2 ^ 23 = k + 2 := by omega
      have e2 : (k * 2 ^ 23 + 2 ^ 24) % 2 ^ 23 = 0 := by omega
      rw [e1, e2, if_neg (by omega), show k + 2 - 1 = k + 1 from rfl, pow_succ]; ring

/-- `floorMag` is at most the exact value. -/
theorem magOf_floorMag {n d : Nat} : magOf (floorMag n d) * d ≤ n := by
  have hu : n / (d * 2 ^ gridBits n d) ≤ 2 ^ 24 := by
    rw [← Nat.div_div_eq_div_mul]
    exact le_of_lt (Nat.div_lt_of_lt_mul (grid_upper _))
  have hk : 0 < gridBits n d → 2 ^ 23 ≤ n / (d * 2 ^ gridBits n d) := fun hl => by
    rw [← Nat.div_div_eq_div_mul, Nat.le_div_iff_mul_le (Nat.pow_pos (by decide)), Nat.mul_comm]
    exact grid_lower hl
  have h1 : magOf (floorMag n d) ≤ n / (d * 2 ^ gridBits n d) * 2 ^ gridBits n d :=
    magOf_grid hu hk ▸ magOf_mono (min_le_left _ _)
  calc magOf (floorMag n d) * d
      ≤ n / (d * 2 ^ gridBits n d) * 2 ^ gridBits n d * d := Nat.mul_le_mul_right d h1
    _ = n / (d * 2 ^ gridBits n d) * (d * 2 ^ gridBits n d) := by ring
    _ ≤ n := Nat.div_mul_le_self _ _

/-- `ceilMag` is at least the exact value, unless that is past the largest finite one. -/
theorem magOf_ceilMag {n d : Nat} (hd : 0 < d) (h : ceilMag n d < infMag) :
    n ≤ magOf (ceilMag n d) * d := by
  have hg : 0 < d * 2 ^ gridBits n d := Nat.mul_pos hd (Nat.pow_pos (by decide))
  obtain ⟨u, hu⟩ : ∃ u, u = (n + (d * 2 ^ gridBits n d - 1)) / (d * 2 ^ gridBits n d) := ⟨_, rfl⟩
  have hc : ceilMag n d = gridBits n d * 2 ^ 23 + u := by
    unfold ceilMag at h ⊢; rw [← hu] at h ⊢; omega
  have hlow : n ≤ u * (d * 2 ^ gridBits n d) := by
    have h1 := Nat.div_add_mod (n + (d * 2 ^ gridBits n d - 1)) (d * 2 ^ gridBits n d)
    have h2 := Nat.mod_lt (n + (d * 2 ^ gridBits n d - 1)) hg
    rw [← hu, Nat.mul_comm] at h1
    omega
  have hq : n / d < 2 ^ gridBits n d * 2 ^ 24 := grid_upper _
  have hn : n < 2 ^ 24 * (d * 2 ^ gridBits n d) := by
    have := Nat.lt_mul_of_div_lt hq hd
    calc n < 2 ^ gridBits n d * 2 ^ 24 * d := this
      _ = _ := by ring
  have hup : u ≤ 2 ^ 24 := by
    rw [hu, ← Nat.lt_succ_iff, Nat.div_lt_iff_lt_mul hg, Nat.succ_mul]; omega
  have hk : 0 < gridBits n d → 2 ^ 23 ≤ u := fun hl => by
    rw [hu, Nat.le_div_iff_mul_le hg]
    have h1 : d * (2 ^ gridBits n d * 2 ^ 23) ≤ d * (n / d) := Nat.mul_le_mul_left d (grid_lower hl)
    have h2 := Nat.mul_div_le n d
    have h3 : d * (2 ^ gridBits n d * 2 ^ 23) = 2 ^ 23 * (d * 2 ^ gridBits n d) := by ring
    omega
  rw [hc, magOf_grid hup hk]
  calc n ≤ u * (d * 2 ^ gridBits n d) := hlow
    _ = u * 2 ^ gridBits n d * d := by ring

/-- R14: what `withinTol` answers is within `t` of the ideal value `v`, where some pattern is. A magnitude
counts units of `2^-149`, which are `2^43` of the scaled units. -/
theorem withinTol_accurate {t v p : Nat}
    (h : ceilMag ((v - t) * 2 ^ 149) trigScale ≤ floorMag ((v + t) * 2 ^ 149) trigScale)
    (hf : ceilMag ((v - t) * 2 ^ 149) trigScale < infMag) :
    v - t ≤ magOf (withinTol t v p) * 2 ^ 43 ∧ magOf (withinTol t v p) * 2 ^ 43 ≤ v + t := by
  have hs : trigScale = 2 ^ 43 * 2 ^ 149 := by decide
  have h0 : 0 < trigScale := by decide
  have h1 : ceilMag ((v - t) * 2 ^ 149) trigScale ≤ withinTol t v p := le_max_left _ _
  have h2 : withinTol t v p ≤ floorMag ((v + t) * 2 ^ 149) trigScale := max_le h (min_le_left _ _)
  have h3 := magOf_ceilMag h0 hf
  have h4 := @magOf_floorMag ((v + t) * 2 ^ 149) trigScale
  have h5 := Nat.mul_le_mul_right trigScale (magOf_mono h1)
  have h6 := Nat.mul_le_mul_right trigScale (magOf_mono h2)
  constructor
  · refine Nat.le_of_mul_le_mul_right (?_ : (v - t) * 2 ^ 149 ≤ _ * 2 ^ 149) (by decide)
    rw [Nat.mul_assoc, ← hs]; omega
  · refine Nat.le_of_mul_le_mul_right (?_ : _ * 2 ^ 149 ≤ (v + t) * 2 ^ 149) (by decide)
    rw [Nat.mul_assoc, ← hs]; omega

/-- The fields of a packed pattern that is finite. -/
theorem pack_fields (s : Bool) {m : Nat} (h : m < infMag) :
    sign (pack s m) = s ∧ finite (pack s m) = true ∧ isNaN (pack s m) = false
      ∧ mag (pack s m) = magOf m := by
  have hi : infMag = 255 * 2 ^ 23 := by decide
  have hn : (pack s m).toNat = (if s then 2 ^ 31 else 0) + m := by
    rw [pack, BitVec.toNat_ofNat]; exact Nat.mod_eq_of_lt (by split <;> omega)
  have he : expo (pack s m) = m / 2 ^ 23 := by unfold expo; rw [hn]; split <;> omega
  have hf : frac (pack s m) = m % 2 ^ 23 := by unfold frac; rw [hn]; split <;> omega
  have h255 : m / 2 ^ 23 ≠ 255 := by omega
  refine ⟨?_, ?_, ?_, ?_⟩
  · rw [sign, BitVec.getLsbD, hn, Nat.testBit_eq_decide_div_mod_eq]
    cases s
    · simp; omega
    · simp; omega
  · unfold finite; rw [he]; exact decide_eq_true h255
  · unfold isNaN; rw [he, decide_eq_false h255]; rfl
  · rw [mag, he, hf, magOf]

/-- The comparison of two finite values is the one of their keys. -/
theorem le_of_key {a b : Num32} (ha : isNaN a = false) (hb : isNaN b = false) (h : key a ≤ key b) :
    le a b = true := by simp [le, ha, hb, h]

theorem key_le_of_le {a b : Num32} (h : le a b = true) : key a ≤ key b := by
  simp only [le, Bool.and_eq_true, decide_eq_true_eq] at h; exact h.2

/-- The order of sign-less patterns is the order of the values. -/
theorem le_pack {m n : Nat} (s t : Bool) (hm : m < infMag) (hn : n < infMag) (h : m ≤ n)
    (hs : s = true → m = 0) (ht : t = true → n = 0) : le (pack s m) (pack t n) = true := by
  obtain ⟨s1, -, s3, s4⟩ := pack_fields s hm
  obtain ⟨t1, -, t3, t4⟩ := pack_fields t hn
  have h0 : magOf 0 = 0 := by decide
  have hmn := magOf_mono h
  refine le_of_key s3 t3 ?_
  unfold key
  rw [s1, t1, s4, t4]
  split <;> split
  · rename_i a b; rw [hs a, ht b]
  · rename_i a b; rw [hs a, h0]; omega
  · rename_i a b; rw [ht b] at hmn ⊢; rw [h0] at hmn ⊢; omega
  · omega

/-- A value whose sign-less part is not zero is not zero. -/
theorem mag_eq_zero {a : Num32} : isZero a = true ↔ mag a = 0 := by
  unfold isZero mag expo frac
  have h := a.isLt
  have hp : 0 < 2 ^ (a.toNat / 2 ^ 23 % 256 - 1) := Nat.pow_pos (by decide)
  simp only [decide_eq_true_eq]
  constructor
  · intro h0; rw [if_pos (by omega)]; omega
  · intro h0
    split at h0
    · omega
    · rcases Nat.mul_eq_zero.1 h0 with h1 | h1 <;> omega

/-! ### `sigmoid` -/

theorem sigmoidMag_le (tol : Rat) (a : Num32) : sigmoidMag tol a ≤ one.toNat := by
  have : half.toNat ≤ one.toNat := by decide
  unfold sigmoidMag
  dsimp only
  split
  · exact le_trans (min_le_right _ _) this
  · exact max_le this (min_le_right _ _)

/-- R14: `sigmoid` of a finite operand is finite and in `[0, 1]`. -/
theorem sigmoid_range (tol : Rat) {a : Num32} (ha : finite a = true) :
    finite (sigmoid tol a) = true ∧ le zero (sigmoid tol a) = true ∧ le (sigmoid tol a) one = true := by
  have h1 : one.toNat < infMag := by decide
  have hle := sigmoidMag_le tol a
  unfold sigmoid
  split
  · decide
  · rw [if_neg (by simp [ha])]
    refine ⟨(pack_fields _ (by omega)).2.1, ?_, ?_⟩
    · exact le_pack false _ (by decide) (by omega) (Nat.zero_le _) (by simp) (by simp; tauto)
    · exact le_pack _ false (by omega) h1 hle (by simp; tauto) (by simp)

/-- The search of `sigmoid` below `0.5` and above it. -/
theorem sigmoidMag_mono (tol : Rat) {a b : Num32} (h : key a ≤ key b) (hb : mag b ≠ 0) :
    sigmoidMag tol a ≤ sigmoidMag tol b := by
  have hs := risingSearch_mono (Config.sigmoidStep .f32) h 30 0
  unfold key at h
  unfold sigmoidMag
  dsimp only
  cases hsa : sign a <;> cases hsb : sign b <;> simp only [hsa, hsb, if_true, if_false, Bool.false_eq_true] at h ⊢
  · refine max_le_max (le_refl _) (min_le_min ?_ (le_refl _))
    exact withinTol_mono _ (sigmoidIdeal_pos_mono (Nat.mul_le_mul_right _ (by omega))) hs
  · omega
  · exact le_trans (min_le_right _ _) (le_max_left _ _)
  · refine min_le_min ?_ (le_refl _)
    exact withinTol_mono _ (sigmoidIdeal_neg_anti (Nat.mul_le_mul_right _ (by omega))) hs

/-- A negative operand gives at most `0.5`, a positive one at least. -/
theorem sigmoidMag_half (tol : Rat) (a : Num32) :
    (sign a = true → sigmoidMag tol a ≤ half.toNat) ∧ (sign a = false → half.toNat ≤ sigmoidMag tol a) := by
  unfold sigmoidMag
  constructor <;> intro h <;> simp only [h, if_true, if_false, Bool.false_eq_true]
  · exact min_le_right _ _
  · exact le_max_left _ _

/-- R14: `sigmoid` is non-decreasing on finite operands. -/
theorem sigmoid_mono (tol : Rat) {a b : Num32} (ha : finite a = true) (hb : finite b = true)
    (h : le a b = true) : le (sigmoid tol a) (sigmoid tol b) = true := by
  have h1 : one.toNat < infMag := by decide
  have hk := key_le_of_le h
  have la := sigmoidMag_le tol a
  have lb := sigmoidMag_le tol b
  have hhalf : half = pack false half.toNat := by decide
  have h2 : half.toNat < infMag := by decide
  unfold sigmoid
  simp only [ha, hb, Bool.not_true, Bool.false_eq_true, if_false]
  by_cases za : isZero a = true <;> by_cases zb : isZero b = true
  · simp only [za, zb, if_true]; decide
  · rw [if_pos za, if_neg zb, hhalf]
    have zb' : mag b ≠ 0 := fun e => zb (mag_eq_zero.2 e)
    have za' := mag_eq_zero.1 za
    have hsb : sign b = false := by
      cases hs : sign b
      · rfl
      · unfold key at hk; rw [hs, za'] at hk; simp at hk; omega
    exact le_pack _ _ h2 (by omega) ((sigmoidMag_half tol b).2 hsb) (by simp) (by simp; tauto)
  · rw [if_neg za, if_pos zb, hhalf]
    have za' : mag a ≠ 0 := fun e => za (mag_eq_zero.2 e)
    have zb' := mag_eq_zero.1 zb
    have hsa : sign a = true := by
      cases hs : sign a
      · unfold key at hk; rw [hs, zb'] at hk; simp at hk; omega
      · rfl
    exact le_pack _ _ (by omega) h2 ((sigmoidMag_half tol a).1 hsa) (by simp; tauto) (by simp)
  · rw [if_neg za, if_neg zb]
    exact le_pack _ _ (by omega) (by omega)
      (sigmoidMag_mono tol hk (fun e => zb (mag_eq_zero.2 e)))
      (by simp; tauto) (by simp; tauto)

/-! ### `tanh` -/

theorem tanhMag_le (tol : Rat) (a : Num32) : tanhMag tol a ≤ one.toNat := min_le_left _ _

/-- On each side of zero the magnitude of `tanh` does not decrease with that of the operand. -/
theorem tanhMag_mono (tol : Rat) {a b : Num32} (hs : sign a = sign b) (h : mag a ≤ mag b) :
    tanhMag tol a ≤ tanhMag tol b := by
  unfold tanhMag
  rw [hs]
  exact min_le_min (le_refl _) (withinTol_mono _ (tanhIdeal_mono (Nat.mul_le_mul_right _ h))
    (risingSearch_mono _ (by exact_mod_cast h) 30 0))

/-- `tanh` of a finite operand: a packed pattern of at most 1, with the sign of the operand unless it is
a zero. -/
theorem tanh_eq_pack (tol : Rat) {a : Num32} (ha : finite a = true) :
    ∃ s m, tanh tol a = pack s m ∧ m ≤ one.toNat ∧ (m ≠ 0 → s = sign a)
      ∧ (mag a = 0 → m = 0) ∧ (mag a ≠ 0 → m = tanhMag tol a) := by
  unfold tanh
  split
  · rename_i h0; subst h0
    exact ⟨false, 0, by decide, by decide, by simp, by simp, fun h => absurd (by decide) h⟩
  · split
    · rename_i hz
      exact ⟨_, 0, rfl, by decide, by simp, by simp, fun h => absurd (mag_eq_zero.1 hz) h⟩
    · rename_i hz
      rw [if_neg (by simp [ha])]
      refine ⟨_, _, rfl, tanhMag_le tol a, ?_, fun h => absurd (mag_eq_zero.2 h) hz, fun _ => rfl⟩
      intro h; rw [if_neg h]

/-- R14: `tanh` of a finite operand is finite and in `[-1, 1]`. -/
theorem tanh_range (tol : Rat) {a : Num32} (ha : finite a = true) :
    finite (tanh tol a) = true ∧ le negOne (tanh tol a) = true ∧ le (tanh tol a) one = true := by
  obtain ⟨s, m, h, hm, -⟩ := tanh_eq_pack tol ha
  have h1 : one.toNat < infMag := by decide
  obtain ⟨p1, p2, p3, p4⟩ := pack_fields s (lt_of_le_of_lt hm h1)
  have k1 : key one = (magOf one.toNat : Int) := by decide
  have k2 : key negOne = -(magOf one.toNat : Int) := by decide
  have hmm := magOf_mono hm
  rw [h]
  refine ⟨p2, le_of_key (by decide) p3 ?_, le_of_key p3 (by decide) ?_⟩
  · rw [k2]; unfold key; rw [p1, p4]; split <;> omega
  · rw [k1]; unfold key; rw [p1, p4]; split <;> omega

/-- R14: `tanh` is non-decreasing on finite operands. -/
theorem tanh_mono (tol : Rat) {a b : Num32} (ha : finite a = true) (hb : finite b = true)
    (h : le a b = true) : le (tanh tol a) (tanh tol b) = true := by
  obtain ⟨s, m, h1, hm, hs, z, nz⟩ := tanh_eq_pack tol ha
  obtain ⟨t, n, h2, hn, ht, y, ny⟩ := tanh_eq_pack tol hb
  have hi : one.toNat < infMag := by decide
  obtain ⟨p1, -, p3, p4⟩ := pack_fields s (lt_of_le_of_lt hm hi)
  obtain ⟨q1, -, q3, q4⟩ := pack_fields t (lt_of_le_of_lt hn hi)
  have hk := key_le_of_le h
  have h0 : magOf 0 = 0 := by decide
  have hmn : sign a = sign b → mag a ≤ mag b → magOf m ≤ magOf n := fun hs hab => by
    by_cases za : mag a = 0
    · rw [z za, h0]; exact Nat.zero_le _
    · rw [nz za, ny (by omega)]; exact magOf_mono (tanhMag_mono tol hs hab)
  have hnm : sign a = sign b → mag b ≤ mag a → magOf n ≤ magOf m := fun hs hab => by
    by_cases zb : mag b = 0
    · rw [y zb, h0]; exact Nat.zero_le _
    · rw [ny zb, nz (by omega)]; exact magOf_mono (tanhMag_mono tol hs.symm hab)
  rw [h1, h2]
  refine le_of_key p3 q3 ?_
  unfold key at hk ⊢
  rw [p1, q1, p4, q4]
  by_cases m0 : m = 0 <;> by_cases n0 : n = 0
  · subst m0 n0; rw [h0]; simp
  · subst m0
    rw [h0, ht n0]
    cases hsb : sign b
    · cases s <;> simp
    · exfalso
      rw [hsb] at hk
      have nb : mag b ≠ 0 := fun e => n0 (y e)
      cases hsa : sign a
      · rw [hsa] at hk; simp at hk; omega
      · rw [hsa] at hk; simp at hk
        have := hnm (hsa.trans hsb.symm) (by omega)
        rw [h0] at this
        have hp : 0 < magOf n := lt_of_lt_of_le (by decide : 0 < magOf 1) (magOf_mono (by omega))
        omega
  · subst n0
    rw [h0, hs m0]
    cases hsa : sign a
    · exfalso
      rw [hsa] at hk
      have na : mag a ≠ 0 := fun e => m0 (z e)
      cases hsb : sign b
      · rw [hsb] at hk; simp at hk
        have := hmn (hsa.trans hsb.symm) (by omega)
        rw [h0] at this
        have hp : 0 < magOf m := lt_of_lt_of_le (by decide : 0 < magOf 1) (magOf_mono (by omega))
        omega
      · rw [hsb] at hk; simp at hk; omega
    · cases t <;> simp
  · rw [hs m0, ht n0]
    have na : mag a ≠ 0 := fun e => m0 (z e)
    have nb : mag b ≠ 0 := fun e => n0 (y e)
    cases hsa : sign a <;> cases hsb : sign b <;> rw [hsa, hsb] at hk <;>
      simp only [if_true, if_false, Bool.false_eq_true] at hk ⊢
    · have := hmn (hsa.trans hsb.symm) (by omega); omega
    · omega
    · omega
    · have := hnm (hsa.trans hsb.symm) (by omega); omega

end F32

end Sys2Proof.Machine
end

