-- ==== Sys2Proof/Laws/State.lean ====
section
/-! SUPPORT. What each named update of the state leaves in each field: one lemma per field per update,
so that no later proof unfolds a record update. -/

namespace Sys2Proof.Machine

variable (s : State)

/-! ### `countFault` -/

@[simp] theorem State.countFault_cfg (ok : Bool) : (s.countFault ok).cfg = s.cfg := rfl
@[simp] theorem State.countFault_S (ok : Bool) : (s.countFault ok).S = s.S := rfl
@[simp] theorem State.countFault_M (ok : Bool) : (s.countFault ok).M = s.M := rfl
@[simp] theorem State.countFault_A (ok : Bool) : (s.countFault ok).A = s.A := rfl
@[simp] theorem State.countFault_MV (ok : Bool) : (s.countFault ok).MV = s.MV := rfl
@[simp] theorem State.countFault_RQM (ok : Bool) : (s.countFault ok).RQM = s.RQM := rfl
@[simp] theorem State.countFault_RQI (ok : Bool) : (s.countFault ok).RQI = s.RQI := rfl
@[simp] theorem State.countFault_RQB (ok : Bool) : (s.countFault ok).RQB = s.RQB := rfl
@[simp] theorem State.countFault_CURM (ok : Bool) : (s.countFault ok).CURM = s.CURM := rfl
@[simp] theorem State.countFault_CURI (ok : Bool) : (s.countFault ok).CURI = s.CURI := rfl
@[simp] theorem State.countFault_CHAIN (ok : Bool) : (s.countFault ok).CHAIN = s.CHAIN := rfl
@[simp] theorem State.countFault_HCAUSE (ok : Bool) : (s.countFault ok).HCAUSE = s.HCAUSE := rfl
@[simp] theorem State.countFault_PHASE (ok : Bool) : (s.countFault ok).PHASE = s.PHASE := rfl
@[simp] theorem State.countFault_n (ok : Bool) : (s.countFault ok).n = s.n := rfl
@[simp] theorem State.countFault_X (ok : Bool) : (s.countFault ok).X = s.X := rfl
@[simp] theorem State.countFault_W (ok : Bool) : (s.countFault ok).W = s.W := rfl
@[simp] theorem State.countFault_OUTL (ok : Bool) : (s.countFault ok).OUTL = s.OUTL := rfl
@[simp] theorem State.countFault_OUTR (ok : Bool) : (s.countFault ok).OUTR = s.OUTR := rfl
@[simp] theorem State.countFault_Z (ok : Bool) : (s.countFault ok).Z = s.Z := rfl
@[simp] theorem State.countFault_PART (ok : Bool) : (s.countFault ok).PART = s.PART := rfl
@[simp] theorem State.countFault_HIST (ok : Bool) : (s.countFault ok).HIST = s.HIST := rfl
@[simp] theorem State.countFault_WIDX (ok : Bool) : (s.countFault ok).WIDX = s.WIDX := rfl
@[simp] theorem State.countFault_OVL (ok : Bool) : (s.countFault ok).OVL = s.OVL := rfl
@[simp] theorem State.countFault_K (ok : Bool) : (s.countFault ok).K = s.K := rfl
@[simp] theorem State.countFault_WT (ok : Bool) : (s.countFault ok).WT = s.WT := rfl
@[simp] theorem State.countFault_h (ok : Bool) : (s.countFault ok).h = s.h := rfl
@[simp] theorem State.countFault_TMODE (ok : Bool) : (s.countFault ok).TMODE = s.TMODE := rfl
@[simp] theorem State.countFault_TALPHA (ok : Bool) : (s.countFault ok).TALPHA = s.TALPHA := rfl
@[simp] theorem State.countFault_TF0 (ok : Bool) : (s.countFault ok).TF0 = s.TF0 := rfl
@[simp] theorem State.countFault_TF1 (ok : Bool) : (s.countFault ok).TF1 = s.TF1 := rfl
@[simp] theorem State.countFault_DBUF (ok : Bool) : (s.countFault ok).DBUF = s.DBUF := rfl
@[simp] theorem State.countFault_WP (ok : Bool) : (s.countFault ok).WP = s.WP := rfl
@[simp] theorem State.countFault_CUR (ok : Bool) : (s.countFault ok).CUR = s.CUR := rfl
@[simp] theorem State.countFault_TGT (ok : Bool) : (s.countFault ok).TGT = s.TGT := rfl
@[simp] theorem State.countFault_FB (ok : Bool) : (s.countFault ok).FB = s.FB := rfl
@[simp] theorem State.countFault_ACT (ok : Bool) : (s.countFault ok).ACT = s.ACT := rfl
@[simp] theorem State.countFault_DLV (ok : Bool) : (s.countFault ok).DLV = s.DLV := rfl
@[simp] theorem State.countFault_TAP2 (ok : Bool) : (s.countFault ok).TAP2 = s.TAP2 := rfl
@[simp] theorem State.countFault_T2 (ok : Bool) : (s.countFault ok).T2 = s.T2 := rfl
@[simp] theorem State.countFault_REV (ok : Bool) : (s.countFault ok).REV = s.REV := rfl
@[simp] theorem State.countFault_G (ok : Bool) : (s.countFault ok).G = s.G := rfl
@[simp] theorem State.countFault_ROOMCUR (ok : Bool) : (s.countFault ok).ROOMCUR = s.ROOMCUR := rfl
@[simp] theorem State.countFault_WETG (ok : Bool) : (s.countFault ok).WETG = s.WETG := rfl
@[simp] theorem State.countFault_DRYG (ok : Bool) : (s.countFault ok).DRYG = s.DRYG := rfl
@[simp] theorem State.countFault_NFAULT (ok : Bool) : (s.countFault ok).NFAULT = s.NFAULT + (if ok then 0 else 1) := rfl
@[simp] theorem State.countFault_inbox (ok : Bool) : (s.countFault ok).inbox = s.inbox := rfl
@[simp] theorem State.countFault_tickLen (ok : Bool) : (s.countFault ok).tickLen = s.tickLen := rfl
@[simp] theorem State.countFault_readyM (ok : Bool) : (s.countFault ok).readyM = s.readyM := rfl
@[simp] theorem State.countFault_readyI (ok : Bool) : (s.countFault ok).readyI = s.readyI := rfl
@[simp] theorem State.countFault_portOut (ok : Bool) : (s.countFault ok).portOut = s.portOut := rfl
@[simp] theorem State.countFault_audioOut (ok : Bool) : (s.countFault ok).audioOut = s.audioOut := rfl

/-! ### `storeW` -/

@[simp] theorem State.storeW_cfg (i : Nat) (ok : Bool) (v : NumWord) : (s.storeW i ok v).cfg = s.cfg := rfl
@[simp] theorem State.storeW_S (i : Nat) (ok : Bool) (v : NumWord) : (s.storeW i ok v).S = s.S := rfl
@[simp] theorem State.storeW_M (i : Nat) (ok : Bool) (v : NumWord) : (s.storeW i ok v).M = s.M := rfl
@[simp] theorem State.storeW_A (i : Nat) (ok : Bool) (v : NumWord) : (s.storeW i ok v).A = s.A := rfl
@[simp] theorem State.storeW_MV (i : Nat) (ok : Bool) (v : NumWord) : (s.storeW i ok v).MV = s.MV := rfl
@[simp] theorem State.storeW_RQM (i : Nat) (ok : Bool) (v : NumWord) : (s.storeW i ok v).RQM = s.RQM := rfl
@[simp] theorem State.storeW_RQI (i : Nat) (ok : Bool) (v : NumWord) : (s.storeW i ok v).RQI = s.RQI := rfl
@[simp] theorem State.storeW_RQB (i : Nat) (ok : Bool) (v : NumWord) : (s.storeW i ok v).RQB = s.RQB := rfl
@[simp] theorem State.storeW_CURM (i : Nat) (ok : Bool) (v : NumWord) : (s.storeW i ok v).CURM = s.CURM := rfl
@[simp] theorem State.storeW_CURI (i : Nat) (ok : Bool) (v : NumWord) : (s.storeW i ok v).CURI = s.CURI := rfl
@[simp] theorem State.storeW_CHAIN (i : Nat) (ok : Bool) (v : NumWord) : (s.storeW i ok v).CHAIN = s.CHAIN := rfl
@[simp] theorem State.storeW_HCAUSE (i : Nat) (ok : Bool) (v : NumWord) : (s.storeW i ok v).HCAUSE = s.HCAUSE := rfl
@[simp] theorem State.storeW_PHASE (i : Nat) (ok : Bool) (v : NumWord) : (s.storeW i ok v).PHASE = s.PHASE := rfl
@[simp] theorem State.storeW_n (i : Nat) (ok : Bool) (v : NumWord) : (s.storeW i ok v).n = s.n := rfl
@[simp] theorem State.storeW_X (i : Nat) (ok : Bool) (v : NumWord) : (s.storeW i ok v).X = s.X := rfl
@[simp] theorem State.storeW_W (i : Nat) (ok : Bool) (v : NumWord) : (s.storeW i ok v).W = s.W.write i (orSilence ok v) := rfl
@[simp] theorem State.storeW_OUTL (i : Nat) (ok : Bool) (v : NumWord) : (s.storeW i ok v).OUTL = s.OUTL := rfl
@[simp] theorem State.storeW_OUTR (i : Nat) (ok : Bool) (v : NumWord) : (s.storeW i ok v).OUTR = s.OUTR := rfl
@[simp] theorem State.storeW_Z (i : Nat) (ok : Bool) (v : NumWord) : (s.storeW i ok v).Z = s.Z := rfl
@[simp] theorem State.storeW_PART (i : Nat) (ok : Bool) (v : NumWord) : (s.storeW i ok v).PART = s.PART := rfl
@[simp] theorem State.storeW_HIST (i : Nat) (ok : Bool) (v : NumWord) : (s.storeW i ok v).HIST = s.HIST := rfl
@[simp] theorem State.storeW_WIDX (i : Nat) (ok : Bool) (v : NumWord) : (s.storeW i ok v).WIDX = s.WIDX := rfl
@[simp] theorem State.storeW_OVL (i : Nat) (ok : Bool) (v : NumWord) : (s.storeW i ok v).OVL = s.OVL := rfl
@[simp] theorem State.storeW_K (i : Nat) (ok : Bool) (v : NumWord) : (s.storeW i ok v).K = s.K := rfl
@[simp] theorem State.storeW_WT (i : Nat) (ok : Bool) (v : NumWord) : (s.storeW i ok v).WT = s.WT := rfl
@[simp] theorem State.storeW_h (i : Nat) (ok : Bool) (v : NumWord) : (s.storeW i ok v).h = s.h := rfl
@[simp] theorem State.storeW_TMODE (i : Nat) (ok : Bool) (v : NumWord) : (s.storeW i ok v).TMODE = s.TMODE := rfl
@[simp] theorem State.storeW_TALPHA (i : Nat) (ok : Bool) (v : NumWord) : (s.storeW i ok v).TALPHA = s.TALPHA := rfl
@[simp] theorem State.storeW_TF0 (i : Nat) (ok : Bool) (v : NumWord) : (s.storeW i ok v).TF0 = s.TF0 := rfl
@[simp] theorem State.storeW_TF1 (i : Nat) (ok : Bool) (v : NumWord) : (s.storeW i ok v).TF1 = s.TF1 := rfl
@[simp] theorem State.storeW_DBUF (i : Nat) (ok : Bool) (v : NumWord) : (s.storeW i ok v).DBUF = s.DBUF := rfl
@[simp] theorem State.storeW_WP (i : Nat) (ok : Bool) (v : NumWord) : (s.storeW i ok v).WP = s.WP := rfl
@[simp] theorem State.storeW_CUR (i : Nat) (ok : Bool) (v : NumWord) : (s.storeW i ok v).CUR = s.CUR := rfl
@[simp] theorem State.storeW_TGT (i : Nat) (ok : Bool) (v : NumWord) : (s.storeW i ok v).TGT = s.TGT := rfl
@[simp] theorem State.storeW_FB (i : Nat) (ok : Bool) (v : NumWord) : (s.storeW i ok v).FB = s.FB := rfl
@[simp] theorem State.storeW_ACT (i : Nat) (ok : Bool) (v : NumWord) : (s.storeW i ok v).ACT = s.ACT := rfl
@[simp] theorem State.storeW_DLV (i : Nat) (ok : Bool) (v : NumWord) : (s.storeW i ok v).DLV = s.DLV := rfl
@[simp] theorem State.storeW_TAP2 (i : Nat) (ok : Bool) (v : NumWord) : (s.storeW i ok v).TAP2 = s.TAP2 := rfl
@[simp] theorem State.storeW_T2 (i : Nat) (ok : Bool) (v : NumWord) : (s.storeW i ok v).T2 = s.T2 := rfl
@[simp] theorem State.storeW_REV (i : Nat) (ok : Bool) (v : NumWord) : (s.storeW i ok v).REV = s.REV := rfl
@[simp] theorem State.storeW_G (i : Nat) (ok : Bool) (v : NumWord) : (s.storeW i ok v).G = s.G := rfl
@[simp] theorem State.storeW_ROOMCUR (i : Nat) (ok : Bool) (v : NumWord) : (s.storeW i ok v).ROOMCUR = s.ROOMCUR := rfl
@[simp] theorem State.storeW_WETG (i : Nat) (ok : Bool) (v : NumWord) : (s.storeW i ok v).WETG = s.WETG := rfl
@[simp] theorem State.storeW_DRYG (i : Nat) (ok : Bool) (v : NumWord) : (s.storeW i ok v).DRYG = s.DRYG := rfl
@[simp] theorem State.storeW_NFAULT (i : Nat) (ok : Bool) (v : NumWord) : (s.storeW i ok v).NFAULT = s.NFAULT + (if ok then 0 else 1) := rfl
@[simp] theorem State.storeW_inbox (i : Nat) (ok : Bool) (v : NumWord) : (s.storeW i ok v).inbox = s.inbox := rfl
@[simp] theorem State.storeW_tickLen (i : Nat) (ok : Bool) (v : NumWord) : (s.storeW i ok v).tickLen = s.tickLen := rfl
@[simp] theorem State.storeW_readyM (i : Nat) (ok : Bool) (v : NumWord) : (s.storeW i ok v).readyM = s.readyM := rfl
@[simp] theorem State.storeW_readyI (i : Nat) (ok : Bool) (v : NumWord) : (s.storeW i ok v).readyI = s.readyI := rfl
@[simp] theorem State.storeW_portOut (i : Nat) (ok : Bool) (v : NumWord) : (s.storeW i ok v).portOut = s.portOut := rfl
@[simp] theorem State.storeW_audioOut (i : Nat) (ok : Bool) (v : NumWord) : (s.storeW i ok v).audioOut = s.audioOut := rfl

/-! ### `storeOut` -/

@[simp] theorem State.storeOut_cfg (i : Nat) (v : NumWord) : (s.storeOut i v).cfg = s.cfg := rfl
@[simp] theorem State.storeOut_S (i : Nat) (v : NumWord) : (s.storeOut i v).S = s.S := rfl
@[simp] theorem State.storeOut_M (i : Nat) (v : NumWord) : (s.storeOut i v).M = s.M := rfl
@[simp] theorem State.storeOut_A (i : Nat) (v : NumWord) : (s.storeOut i v).A = s.A := rfl
@[simp] theorem State.storeOut_MV (i : Nat) (v : NumWord) : (s.storeOut i v).MV = s.MV := rfl
@[simp] theorem State.storeOut_RQM (i : Nat) (v : NumWord) : (s.storeOut i v).RQM = s.RQM := rfl
@[simp] theorem State.storeOut_RQI (i : Nat) (v : NumWord) : (s.storeOut i v).RQI = s.RQI := rfl
@[simp] theorem State.storeOut_RQB (i : Nat) (v : NumWord) : (s.storeOut i v).RQB = s.RQB := rfl
@[simp] theorem State.storeOut_CURM (i : Nat) (v : NumWord) : (s.storeOut i v).CURM = s.CURM := rfl
@[simp] theorem State.storeOut_CURI (i : Nat) (v : NumWord) : (s.storeOut i v).CURI = s.CURI := rfl
@[simp] theorem State.storeOut_CHAIN (i : Nat) (v : NumWord) : (s.storeOut i v).CHAIN = s.CHAIN := rfl
@[simp] theorem State.storeOut_HCAUSE (i : Nat) (v : NumWord) : (s.storeOut i v).HCAUSE = s.HCAUSE := rfl
@[simp] theorem State.storeOut_PHASE (i : Nat) (v : NumWord) : (s.storeOut i v).PHASE = s.PHASE := rfl
@[simp] theorem State.storeOut_n (i : Nat) (v : NumWord) : (s.storeOut i v).n = s.n := rfl
@[simp] theorem State.storeOut_X (i : Nat) (v : NumWord) : (s.storeOut i v).X = s.X := rfl
@[simp] theorem State.storeOut_W (i : Nat) (v : NumWord) : (s.storeOut i v).W = s.W := rfl
@[simp] theorem State.storeOut_OUTL (i : Nat) (v : NumWord) : (s.storeOut i v).OUTL = s.OUTL.write i v := rfl
@[simp] theorem State.storeOut_OUTR (i : Nat) (v : NumWord) : (s.storeOut i v).OUTR = s.OUTR.write i v := rfl
@[simp] theorem State.storeOut_Z (i : Nat) (v : NumWord) : (s.storeOut i v).Z = s.Z := rfl
@[simp] theorem State.storeOut_PART (i : Nat) (v : NumWord) : (s.storeOut i v).PART = s.PART := rfl
@[simp] theorem State.storeOut_HIST (i : Nat) (v : NumWord) : (s.storeOut i v).HIST = s.HIST := rfl
@[simp] theorem State.storeOut_WIDX (i : Nat) (v : NumWord) : (s.storeOut i v).WIDX = s.WIDX := rfl
@[simp] theorem State.storeOut_OVL (i : Nat) (v : NumWord) : (s.storeOut i v).OVL = s.OVL := rfl
@[simp] theorem State.storeOut_K (i : Nat) (v : NumWord) : (s.storeOut i v).K = s.K := rfl
@[simp] theorem State.storeOut_WT (i : Nat) (v : NumWord) : (s.storeOut i v).WT = s.WT := rfl
@[simp] theorem State.storeOut_h (i : Nat) (v : NumWord) : (s.storeOut i v).h = s.h := rfl
@[simp] theorem State.storeOut_TMODE (i : Nat) (v : NumWord) : (s.storeOut i v).TMODE = s.TMODE := rfl
@[simp] theorem State.storeOut_TALPHA (i : Nat) (v : NumWord) : (s.storeOut i v).TALPHA = s.TALPHA := rfl
@[simp] theorem State.storeOut_TF0 (i : Nat) (v : NumWord) : (s.storeOut i v).TF0 = s.TF0 := rfl
@[simp] theorem State.storeOut_TF1 (i : Nat) (v : NumWord) : (s.storeOut i v).TF1 = s.TF1 := rfl
@[simp] theorem State.storeOut_DBUF (i : Nat) (v : NumWord) : (s.storeOut i v).DBUF = s.DBUF := rfl
@[simp] theorem State.storeOut_WP (i : Nat) (v : NumWord) : (s.storeOut i v).WP = s.WP := rfl
@[simp] theorem State.storeOut_CUR (i : Nat) (v : NumWord) : (s.storeOut i v).CUR = s.CUR := rfl
@[simp] theorem State.storeOut_TGT (i : Nat) (v : NumWord) : (s.storeOut i v).TGT = s.TGT := rfl
@[simp] theorem State.storeOut_FB (i : Nat) (v : NumWord) : (s.storeOut i v).FB = s.FB := rfl
@[simp] theorem State.storeOut_ACT (i : Nat) (v : NumWord) : (s.storeOut i v).ACT = s.ACT := rfl
@[simp] theorem State.storeOut_DLV (i : Nat) (v : NumWord) : (s.storeOut i v).DLV = s.DLV := rfl
@[simp] theorem State.storeOut_TAP2 (i : Nat) (v : NumWord) : (s.storeOut i v).TAP2 = s.TAP2 := rfl
@[simp] theorem State.storeOut_T2 (i : Nat) (v : NumWord) : (s.storeOut i v).T2 = s.T2 := rfl
@[simp] theorem State.storeOut_REV (i : Nat) (v : NumWord) : (s.storeOut i v).REV = s.REV := rfl
@[simp] theorem State.storeOut_G (i : Nat) (v : NumWord) : (s.storeOut i v).G = s.G := rfl
@[simp] theorem State.storeOut_ROOMCUR (i : Nat) (v : NumWord) : (s.storeOut i v).ROOMCUR = s.ROOMCUR := rfl
@[simp] theorem State.storeOut_WETG (i : Nat) (v : NumWord) : (s.storeOut i v).WETG = s.WETG := rfl
@[simp] theorem State.storeOut_DRYG (i : Nat) (v : NumWord) : (s.storeOut i v).DRYG = s.DRYG := rfl
@[simp] theorem State.storeOut_NFAULT (i : Nat) (v : NumWord) : (s.storeOut i v).NFAULT = s.NFAULT := rfl
@[simp] theorem State.storeOut_inbox (i : Nat) (v : NumWord) : (s.storeOut i v).inbox = s.inbox := rfl
@[simp] theorem State.storeOut_tickLen (i : Nat) (v : NumWord) : (s.storeOut i v).tickLen = s.tickLen := rfl
@[simp] theorem State.storeOut_readyM (i : Nat) (v : NumWord) : (s.storeOut i v).readyM = s.readyM := rfl
@[simp] theorem State.storeOut_readyI (i : Nat) (v : NumWord) : (s.storeOut i v).readyI = s.readyI := rfl
@[simp] theorem State.storeOut_portOut (i : Nat) (v : NumWord) : (s.storeOut i v).portOut = s.portOut := rfl
@[simp] theorem State.storeOut_audioOut (i : Nat) (v : NumWord) : (s.storeOut i v).audioOut = s.audioOut := rfl

/-! ### `silenceOut` -/

@[simp] theorem State.silenceOut_cfg : (s.silenceOut).cfg = s.cfg := rfl
@[simp] theorem State.silenceOut_S : (s.silenceOut).S = s.S := rfl
@[simp] theorem State.silenceOut_M : (s.silenceOut).M = s.M := rfl
@[simp] theorem State.silenceOut_A : (s.silenceOut).A = s.A := rfl
@[simp] theorem State.silenceOut_MV : (s.silenceOut).MV = s.MV := rfl
@[simp] theorem State.silenceOut_RQM : (s.silenceOut).RQM = s.RQM := rfl
@[simp] theorem State.silenceOut_RQI : (s.silenceOut).RQI = s.RQI := rfl
@[simp] theorem State.silenceOut_RQB : (s.silenceOut).RQB = s.RQB := rfl
@[simp] theorem State.silenceOut_CURM : (s.silenceOut).CURM = s.CURM := rfl
@[simp] theorem State.silenceOut_CURI : (s.silenceOut).CURI = s.CURI := rfl
@[simp] theorem State.silenceOut_CHAIN : (s.silenceOut).CHAIN = s.CHAIN := rfl
@[simp] theorem State.silenceOut_HCAUSE : (s.silenceOut).HCAUSE = s.HCAUSE := rfl
@[simp] theorem State.silenceOut_PHASE : (s.silenceOut).PHASE = s.PHASE := rfl
@[simp] theorem State.silenceOut_n : (s.silenceOut).n = s.n := rfl
@[simp] theorem State.silenceOut_X : (s.silenceOut).X = s.X := rfl
@[simp] theorem State.silenceOut_W : (s.silenceOut).W = s.W := rfl
@[simp] theorem State.silenceOut_OUTL : (s.silenceOut).OUTL = [] := rfl
@[simp] theorem State.silenceOut_OUTR : (s.silenceOut).OUTR = [] := rfl
@[simp] theorem State.silenceOut_Z : (s.silenceOut).Z = s.Z := rfl
@[simp] theorem State.silenceOut_PART : (s.silenceOut).PART = s.PART := rfl
@[simp] theorem State.silenceOut_HIST : (s.silenceOut).HIST = s.HIST := rfl
@[simp] theorem State.silenceOut_WIDX : (s.silenceOut).WIDX = s.WIDX := rfl
@[simp] theorem State.silenceOut_OVL : (s.silenceOut).OVL = s.OVL := rfl
@[simp] theorem State.silenceOut_K : (s.silenceOut).K = s.K := rfl
@[simp] theorem State.silenceOut_WT : (s.silenceOut).WT = s.WT := rfl
@[simp] theorem State.silenceOut_h : (s.silenceOut).h = s.h := rfl
@[simp] theorem State.silenceOut_TMODE : (s.silenceOut).TMODE = s.TMODE := rfl
@[simp] theorem State.silenceOut_TALPHA : (s.silenceOut).TALPHA = s.TALPHA := rfl
@[simp] theorem State.silenceOut_TF0 : (s.silenceOut).TF0 = s.TF0 := rfl
@[simp] theorem State.silenceOut_TF1 : (s.silenceOut).TF1 = s.TF1 := rfl
@[simp] theorem State.silenceOut_DBUF : (s.silenceOut).DBUF = s.DBUF := rfl
@[simp] theorem State.silenceOut_WP : (s.silenceOut).WP = s.WP := rfl
@[simp] theorem State.silenceOut_CUR : (s.silenceOut).CUR = s.CUR := rfl
@[simp] theorem State.silenceOut_TGT : (s.silenceOut).TGT = s.TGT := rfl
@[simp] theorem State.silenceOut_FB : (s.silenceOut).FB = s.FB := rfl
@[simp] theorem State.silenceOut_ACT : (s.silenceOut).ACT = s.ACT := rfl
@[simp] theorem State.silenceOut_DLV : (s.silenceOut).DLV = s.DLV := rfl
@[simp] theorem State.silenceOut_TAP2 : (s.silenceOut).TAP2 = s.TAP2 := rfl
@[simp] theorem State.silenceOut_T2 : (s.silenceOut).T2 = s.T2 := rfl
@[simp] theorem State.silenceOut_REV : (s.silenceOut).REV = s.REV := rfl
@[simp] theorem State.silenceOut_G : (s.silenceOut).G = s.G := rfl
@[simp] theorem State.silenceOut_ROOMCUR : (s.silenceOut).ROOMCUR = s.ROOMCUR := rfl
@[simp] theorem State.silenceOut_WETG : (s.silenceOut).WETG = s.WETG := rfl
@[simp] theorem State.silenceOut_DRYG : (s.silenceOut).DRYG = s.DRYG := rfl
@[simp] theorem State.silenceOut_NFAULT : (s.silenceOut).NFAULT = s.NFAULT := rfl
@[simp] theorem State.silenceOut_inbox : (s.silenceOut).inbox = s.inbox := rfl
@[simp] theorem State.silenceOut_tickLen : (s.silenceOut).tickLen = s.tickLen := rfl
@[simp] theorem State.silenceOut_readyM : (s.silenceOut).readyM = s.readyM := rfl
@[simp] theorem State.silenceOut_readyI : (s.silenceOut).readyI = s.readyI := rfl
@[simp] theorem State.silenceOut_portOut : (s.silenceOut).portOut = s.portOut := rfl
@[simp] theorem State.silenceOut_audioOut : (s.silenceOut).audioOut = s.audioOut := rfl

/-! ### `fatal` -/

@[simp] theorem State.fatal_cfg (c : FaultCause) : (s.fatal c).cfg = s.cfg := by cases c <;> rfl
@[simp] theorem State.fatal_S (c : FaultCause) : (s.fatal c).S = s.S := by cases c <;> rfl
@[simp] theorem State.fatal_M (c : FaultCause) : (s.fatal c).M = s.M := by cases c <;> rfl
@[simp] theorem State.fatal_A (c : FaultCause) : (s.fatal c).A = s.A := by cases c <;> rfl
@[simp] theorem State.fatal_MV (c : FaultCause) : (s.fatal c).MV = s.MV := by cases c <;> rfl
@[simp] theorem State.fatal_RQM (c : FaultCause) : (s.fatal c).RQM = s.RQM := by cases c <;> rfl
@[simp] theorem State.fatal_RQI (c : FaultCause) : (s.fatal c).RQI = s.RQI := by cases c <;> rfl
@[simp] theorem State.fatal_RQB (c : FaultCause) : (s.fatal c).RQB = s.RQB := by cases c <;> rfl
@[simp] theorem State.fatal_CURM (c : FaultCause) : (s.fatal c).CURM = s.CURM := by cases c <;> rfl
@[simp] theorem State.fatal_CURI (c : FaultCause) : (s.fatal c).CURI = s.CURI := by cases c <;> rfl
@[simp] theorem State.fatal_CHAIN (c : FaultCause) : (s.fatal c).CHAIN = s.CHAIN := by cases c <;> rfl
@[simp] theorem State.fatal_HCAUSE (c : FaultCause) : (s.fatal c).HCAUSE = c.code := by cases c <;> rfl
@[simp] theorem State.fatal_PHASE (c : FaultCause) : (s.fatal c).PHASE = .halt := by cases c <;> rfl
@[simp] theorem State.fatal_n (c : FaultCause) : (s.fatal c).n = s.n := by cases c <;> rfl
@[simp] theorem State.fatal_X (c : FaultCause) : (s.fatal c).X = s.X := by cases c <;> rfl
@[simp] theorem State.fatal_W (c : FaultCause) : (s.fatal c).W = s.W := by cases c <;> rfl
@[simp] theorem State.fatal_Z (c : FaultCause) : (s.fatal c).Z = s.Z := by cases c <;> rfl
@[simp] theorem State.fatal_PART (c : FaultCause) : (s.fatal c).PART = s.PART := by cases c <;> rfl
@[simp] theorem State.fatal_HIST (c : FaultCause) : (s.fatal c).HIST = s.HIST := by cases c <;> rfl
@[simp] theorem State.fatal_WIDX (c : FaultCause) : (s.fatal c).WIDX = s.WIDX := by cases c <;> rfl
@[simp] theorem State.fatal_OVL (c : FaultCause) : (s.fatal c).OVL = s.OVL := by cases c <;> rfl
@[simp] theorem State.fatal_K (c : FaultCause) : (s.fatal c).K = s.K := by cases c <;> rfl
@[simp] theorem State.fatal_WT (c : FaultCause) : (s.fatal c).WT = s.WT := by cases c <;> rfl
@[simp] theorem State.fatal_h (c : FaultCause) : (s.fatal c).h = s.h := by cases c <;> rfl
@[simp] theorem State.fatal_TMODE (c : FaultCause) : (s.fatal c).TMODE = s.TMODE := by cases c <;> rfl
@[simp] theorem State.fatal_TALPHA (c : FaultCause) : (s.fatal c).TALPHA = s.TALPHA := by cases c <;> rfl
@[simp] theorem State.fatal_TF0 (c : FaultCause) : (s.fatal c).TF0 = s.TF0 := by cases c <;> rfl
@[simp] theorem State.fatal_TF1 (c : FaultCause) : (s.fatal c).TF1 = s.TF1 := by cases c <;> rfl
@[simp] theorem State.fatal_DBUF (c : FaultCause) : (s.fatal c).DBUF = s.DBUF := by cases c <;> rfl
@[simp] theorem State.fatal_WP (c : FaultCause) : (s.fatal c).WP = s.WP := by cases c <;> rfl
@[simp] theorem State.fatal_CUR (c : FaultCause) : (s.fatal c).CUR = s.CUR := by cases c <;> rfl
@[simp] theorem State.fatal_TGT (c : FaultCause) : (s.fatal c).TGT = s.TGT := by cases c <;> rfl
@[simp] theorem State.fatal_FB (c : FaultCause) : (s.fatal c).FB = s.FB := by cases c <;> rfl
@[simp] theorem State.fatal_ACT (c : FaultCause) : (s.fatal c).ACT = s.ACT := by cases c <;> rfl
@[simp] theorem State.fatal_DLV (c : FaultCause) : (s.fatal c).DLV = s.DLV := by cases c <;> rfl
@[simp] theorem State.fatal_TAP2 (c : FaultCause) : (s.fatal c).TAP2 = s.TAP2 := by cases c <;> rfl
@[simp] theorem State.fatal_T2 (c : FaultCause) : (s.fatal c).T2 = s.T2 := by cases c <;> rfl
@[simp] theorem State.fatal_REV (c : FaultCause) : (s.fatal c).REV = s.REV := by cases c <;> rfl
@[simp] theorem State.fatal_G (c : FaultCause) : (s.fatal c).G = s.G := by cases c <;> rfl
@[simp] theorem State.fatal_ROOMCUR (c : FaultCause) : (s.fatal c).ROOMCUR = s.ROOMCUR := by cases c <;> rfl
@[simp] theorem State.fatal_WETG (c : FaultCause) : (s.fatal c).WETG = s.WETG := by cases c <;> rfl
@[simp] theorem State.fatal_DRYG (c : FaultCause) : (s.fatal c).DRYG = s.DRYG := by cases c <;> rfl
@[simp] theorem State.fatal_NFAULT (c : FaultCause) : (s.fatal c).NFAULT = s.NFAULT := by cases c <;> rfl
@[simp] theorem State.fatal_inbox (c : FaultCause) : (s.fatal c).inbox = s.inbox := by cases c <;> rfl
@[simp] theorem State.fatal_tickLen (c : FaultCause) : (s.fatal c).tickLen = s.tickLen := by cases c <;> rfl
@[simp] theorem State.fatal_readyM (c : FaultCause) : (s.fatal c).readyM = s.readyM := by cases c <;> rfl
@[simp] theorem State.fatal_readyI (c : FaultCause) : (s.fatal c).readyI = s.readyI := by cases c <;> rfl
@[simp] theorem State.fatal_portOut (c : FaultCause) : (s.fatal c).portOut = s.portOut := by cases c <;> rfl
@[simp] theorem State.fatal_audioOut (c : FaultCause) : (s.fatal c).audioOut = s.audioOut := by cases c <;> rfl

/-! ### `fftBrev` -/

@[simp] theorem State.fftBrev_cfg : (s.fftBrev).cfg = s.cfg := rfl
@[simp] theorem State.fftBrev_S : (s.fftBrev).S = s.S := rfl
@[simp] theorem State.fftBrev_M : (s.fftBrev).M = s.M := rfl
@[simp] theorem State.fftBrev_A : (s.fftBrev).A = s.A := rfl
@[simp] theorem State.fftBrev_MV : (s.fftBrev).MV = s.MV := rfl
@[simp] theorem State.fftBrev_RQM : (s.fftBrev).RQM = s.RQM := rfl
@[simp] theorem State.fftBrev_RQI : (s.fftBrev).RQI = s.RQI := rfl
@[simp] theorem State.fftBrev_RQB : (s.fftBrev).RQB = s.RQB := rfl
@[simp] theorem State.fftBrev_CURM : (s.fftBrev).CURM = s.CURM := rfl
@[simp] theorem State.fftBrev_CURI : (s.fftBrev).CURI = s.CURI := rfl
@[simp] theorem State.fftBrev_CHAIN : (s.fftBrev).CHAIN = s.CHAIN := rfl
@[simp] theorem State.fftBrev_HCAUSE : (s.fftBrev).HCAUSE = s.HCAUSE := rfl
@[simp] theorem State.fftBrev_PHASE : (s.fftBrev).PHASE = s.PHASE := rfl
@[simp] theorem State.fftBrev_n : (s.fftBrev).n = s.n := rfl
@[simp] theorem State.fftBrev_X : (s.fftBrev).X = s.X := rfl
@[simp] theorem State.fftBrev_W : (s.fftBrev).W = s.W := rfl
@[simp] theorem State.fftBrev_OUTL : (s.fftBrev).OUTL = s.OUTL := rfl
@[simp] theorem State.fftBrev_OUTR : (s.fftBrev).OUTR = s.OUTR := rfl
@[simp] theorem State.fftBrev_PART : (s.fftBrev).PART = s.PART := rfl
@[simp] theorem State.fftBrev_HIST : (s.fftBrev).HIST = s.HIST := rfl
@[simp] theorem State.fftBrev_WIDX : (s.fftBrev).WIDX = s.WIDX := rfl
@[simp] theorem State.fftBrev_OVL : (s.fftBrev).OVL = s.OVL := rfl
@[simp] theorem State.fftBrev_K : (s.fftBrev).K = s.K := rfl
@[simp] theorem State.fftBrev_WT : (s.fftBrev).WT = s.WT := rfl
@[simp] theorem State.fftBrev_h : (s.fftBrev).h = s.h := rfl
@[simp] theorem State.fftBrev_TMODE : (s.fftBrev).TMODE = s.TMODE := rfl
@[simp] theorem State.fftBrev_TALPHA : (s.fftBrev).TALPHA = s.TALPHA := rfl
@[simp] theorem State.fftBrev_TF0 : (s.fftBrev).TF0 = s.TF0 := rfl
@[simp] theorem State.fftBrev_TF1 : (s.fftBrev).TF1 = s.TF1 := rfl
@[simp] theorem State.fftBrev_DBUF : (s.fftBrev).DBUF = s.DBUF := rfl
@[simp] theorem State.fftBrev_WP : (s.fftBrev).WP = s.WP := rfl
@[simp] theorem State.fftBrev_CUR : (s.fftBrev).CUR = s.CUR := rfl
@[simp] theorem State.fftBrev_TGT : (s.fftBrev).TGT = s.TGT := rfl
@[simp] theorem State.fftBrev_FB : (s.fftBrev).FB = s.FB := rfl
@[simp] theorem State.fftBrev_ACT : (s.fftBrev).ACT = s.ACT := rfl
@[simp] theorem State.fftBrev_DLV : (s.fftBrev).DLV = s.DLV := rfl
@[simp] theorem State.fftBrev_TAP2 : (s.fftBrev).TAP2 = s.TAP2 := rfl
@[simp] theorem State.fftBrev_T2 : (s.fftBrev).T2 = s.T2 := rfl
@[simp] theorem State.fftBrev_REV : (s.fftBrev).REV = s.REV := rfl
@[simp] theorem State.fftBrev_G : (s.fftBrev).G = s.G := rfl
@[simp] theorem State.fftBrev_ROOMCUR : (s.fftBrev).ROOMCUR = s.ROOMCUR := rfl
@[simp] theorem State.fftBrev_WETG : (s.fftBrev).WETG = s.WETG := rfl
@[simp] theorem State.fftBrev_DRYG : (s.fftBrev).DRYG = s.DRYG := rfl
@[simp] theorem State.fftBrev_NFAULT : (s.fftBrev).NFAULT = s.NFAULT := rfl
@[simp] theorem State.fftBrev_inbox : (s.fftBrev).inbox = s.inbox := rfl
@[simp] theorem State.fftBrev_tickLen : (s.fftBrev).tickLen = s.tickLen := rfl
@[simp] theorem State.fftBrev_readyM : (s.fftBrev).readyM = s.readyM := rfl
@[simp] theorem State.fftBrev_readyI : (s.fftBrev).readyI = s.readyI := rfl
@[simp] theorem State.fftBrev_portOut : (s.fftBrev).portOut = s.portOut := rfl
@[simp] theorem State.fftBrev_audioOut : (s.fftBrev).audioOut = s.audioOut := rfl

/-! ### `fftBfly` -/

@[simp] theorem State.fftBfly_cfg (inv : Bool) (st q : Nat) : (s.fftBfly inv st q).cfg = s.cfg := rfl
@[simp] theorem State.fftBfly_S (inv : Bool) (st q : Nat) : (s.fftBfly inv st q).S = s.S := rfl
@[simp] theorem State.fftBfly_M (inv : Bool) (st q : Nat) : (s.fftBfly inv st q).M = s.M := rfl
@[simp] theorem State.fftBfly_A (inv : Bool) (st q : Nat) : (s.fftBfly inv st q).A = s.A := rfl
@[simp] theorem State.fftBfly_MV (inv : Bool) (st q : Nat) : (s.fftBfly inv st q).MV = s.MV := rfl
@[simp] theorem State.fftBfly_RQM (inv : Bool) (st q : Nat) : (s.fftBfly inv st q).RQM = s.RQM := rfl
@[simp] theorem State.fftBfly_RQI (inv : Bool) (st q : Nat) : (s.fftBfly inv st q).RQI = s.RQI := rfl
@[simp] theorem State.fftBfly_RQB (inv : Bool) (st q : Nat) : (s.fftBfly inv st q).RQB = s.RQB := rfl
@[simp] theorem State.fftBfly_CURM (inv : Bool) (st q : Nat) : (s.fftBfly inv st q).CURM = s.CURM := rfl
@[simp] theorem State.fftBfly_CURI (inv : Bool) (st q : Nat) : (s.fftBfly inv st q).CURI = s.CURI := rfl
@[simp] theorem State.fftBfly_CHAIN (inv : Bool) (st q : Nat) : (s.fftBfly inv st q).CHAIN = s.CHAIN := rfl
@[simp] theorem State.fftBfly_HCAUSE (inv : Bool) (st q : Nat) : (s.fftBfly inv st q).HCAUSE = s.HCAUSE := rfl
@[simp] theorem State.fftBfly_PHASE (inv : Bool) (st q : Nat) : (s.fftBfly inv st q).PHASE = s.PHASE := rfl
@[simp] theorem State.fftBfly_n (inv : Bool) (st q : Nat) : (s.fftBfly inv st q).n = s.n := rfl
@[simp] theorem State.fftBfly_X (inv : Bool) (st q : Nat) : (s.fftBfly inv st q).X = s.X := rfl
@[simp] theorem State.fftBfly_W (inv : Bool) (st q : Nat) : (s.fftBfly inv st q).W = s.W := rfl
@[simp] theorem State.fftBfly_OUTL (inv : Bool) (st q : Nat) : (s.fftBfly inv st q).OUTL = s.OUTL := rfl
@[simp] theorem State.fftBfly_OUTR (inv : Bool) (st q : Nat) : (s.fftBfly inv st q).OUTR = s.OUTR := rfl
@[simp] theorem State.fftBfly_PART (inv : Bool) (st q : Nat) : (s.fftBfly inv st q).PART = s.PART := rfl
@[simp] theorem State.fftBfly_HIST (inv : Bool) (st q : Nat) : (s.fftBfly inv st q).HIST = s.HIST := rfl
@[simp] theorem State.fftBfly_WIDX (inv : Bool) (st q : Nat) : (s.fftBfly inv st q).WIDX = s.WIDX := rfl
@[simp] theorem State.fftBfly_OVL (inv : Bool) (st q : Nat) : (s.fftBfly inv st q).OVL = s.OVL := rfl
@[simp] theorem State.fftBfly_K (inv : Bool) (st q : Nat) : (s.fftBfly inv st q).K = s.K := rfl
@[simp] theorem State.fftBfly_WT (inv : Bool) (st q : Nat) : (s.fftBfly inv st q).WT = s.WT := rfl
@[simp] theorem State.fftBfly_h (inv : Bool) (st q : Nat) : (s.fftBfly inv st q).h = s.h := rfl
@[simp] theorem State.fftBfly_TMODE (inv : Bool) (st q : Nat) : (s.fftBfly inv st q).TMODE = s.TMODE := rfl
@[simp] theorem State.fftBfly_TALPHA (inv : Bool) (st q : Nat) : (s.fftBfly inv st q).TALPHA = s.TALPHA := rfl
@[simp] theorem State.fftBfly_TF0 (inv : Bool) (st q : Nat) : (s.fftBfly inv st q).TF0 = s.TF0 := rfl
@[simp] theorem State.fftBfly_TF1 (inv : Bool) (st q : Nat) : (s.fftBfly inv st q).TF1 = s.TF1 := rfl
@[simp] theorem State.fftBfly_DBUF (inv : Bool) (st q : Nat) : (s.fftBfly inv st q).DBUF = s.DBUF := rfl
@[simp] theorem State.fftBfly_WP (inv : Bool) (st q : Nat) : (s.fftBfly inv st q).WP = s.WP := rfl
@[simp] theorem State.fftBfly_CUR (inv : Bool) (st q : Nat) : (s.fftBfly inv st q).CUR = s.CUR := rfl
@[simp] theorem State.fftBfly_TGT (inv : Bool) (st q : Nat) : (s.fftBfly inv st q).TGT = s.TGT := rfl
@[simp] theorem State.fftBfly_FB (inv : Bool) (st q : Nat) : (s.fftBfly inv st q).FB = s.FB := rfl
@[simp] theorem State.fftBfly_ACT (inv : Bool) (st q : Nat) : (s.fftBfly inv st q).ACT = s.ACT := rfl
@[simp] theorem State.fftBfly_DLV (inv : Bool) (st q : Nat) : (s.fftBfly inv st q).DLV = s.DLV := rfl
@[simp] theorem State.fftBfly_TAP2 (inv : Bool) (st q : Nat) : (s.fftBfly inv st q).TAP2 = s.TAP2 := rfl
@[simp] theorem State.fftBfly_T2 (inv : Bool) (st q : Nat) : (s.fftBfly inv st q).T2 = s.T2 := rfl
@[simp] theorem State.fftBfly_REV (inv : Bool) (st q : Nat) : (s.fftBfly inv st q).REV = s.REV := rfl
@[simp] theorem State.fftBfly_G (inv : Bool) (st q : Nat) : (s.fftBfly inv st q).G = s.G := rfl
@[simp] theorem State.fftBfly_ROOMCUR (inv : Bool) (st q : Nat) : (s.fftBfly inv st q).ROOMCUR = s.ROOMCUR := rfl
@[simp] theorem State.fftBfly_WETG (inv : Bool) (st q : Nat) : (s.fftBfly inv st q).WETG = s.WETG := rfl
@[simp] theorem State.fftBfly_DRYG (inv : Bool) (st q : Nat) : (s.fftBfly inv st q).DRYG = s.DRYG := rfl
@[simp] theorem State.fftBfly_NFAULT (inv : Bool) (st q : Nat) : (s.fftBfly inv st q).NFAULT = s.NFAULT := rfl
@[simp] theorem State.fftBfly_inbox (inv : Bool) (st q : Nat) : (s.fftBfly inv st q).inbox = s.inbox := rfl
@[simp] theorem State.fftBfly_tickLen (inv : Bool) (st q : Nat) : (s.fftBfly inv st q).tickLen = s.tickLen := rfl
@[simp] theorem State.fftBfly_readyM (inv : Bool) (st q : Nat) : (s.fftBfly inv st q).readyM = s.readyM := rfl
@[simp] theorem State.fftBfly_readyI (inv : Bool) (st q : Nat) : (s.fftBfly inv st q).readyI = s.readyI := rfl
@[simp] theorem State.fftBfly_portOut (inv : Bool) (st q : Nat) : (s.fftBfly inv st q).portOut = s.portOut := rfl
@[simp] theorem State.fftBfly_audioOut (inv : Bool) (st q : Nat) : (s.fftBfly inv st q).audioOut = s.audioOut := rfl

/-! ### `fftTransform` -/

@[simp] theorem State.fftTransform_cfg (inv : Bool) : (s.fftTransform inv).cfg = s.cfg := rfl
@[simp] theorem State.fftTransform_S (inv : Bool) : (s.fftTransform inv).S = s.S := rfl
@[simp] theorem State.fftTransform_M (inv : Bool) : (s.fftTransform inv).M = s.M := rfl
@[simp] theorem State.fftTransform_A (inv : Bool) : (s.fftTransform inv).A = s.A := rfl
@[simp] theorem State.fftTransform_MV (inv : Bool) : (s.fftTransform inv).MV = s.MV := rfl
@[simp] theorem State.fftTransform_RQM (inv : Bool) : (s.fftTransform inv).RQM = s.RQM := rfl
@[simp] theorem State.fftTransform_RQI (inv : Bool) : (s.fftTransform inv).RQI = s.RQI := rfl
@[simp] theorem State.fftTransform_RQB (inv : Bool) : (s.fftTransform inv).RQB = s.RQB := rfl
@[simp] theorem State.fftTransform_CURM (inv : Bool) : (s.fftTransform inv).CURM = s.CURM := rfl
@[simp] theorem State.fftTransform_CURI (inv : Bool) : (s.fftTransform inv).CURI = s.CURI := rfl
@[simp] theorem State.fftTransform_CHAIN (inv : Bool) : (s.fftTransform inv).CHAIN = s.CHAIN := rfl
@[simp] theorem State.fftTransform_HCAUSE (inv : Bool) : (s.fftTransform inv).HCAUSE = s.HCAUSE := rfl
@[simp] theorem State.fftTransform_PHASE (inv : Bool) : (s.fftTransform inv).PHASE = s.PHASE := rfl
@[simp] theorem State.fftTransform_n (inv : Bool) : (s.fftTransform inv).n = s.n := rfl
@[simp] theorem State.fftTransform_X (inv : Bool) : (s.fftTransform inv).X = s.X := rfl
@[simp] theorem State.fftTransform_W (inv : Bool) : (s.fftTransform inv).W = s.W := rfl
@[simp] theorem State.fftTransform_OUTL (inv : Bool) : (s.fftTransform inv).OUTL = s.OUTL := rfl
@[simp] theorem State.fftTransform_OUTR (inv : Bool) : (s.fftTransform inv).OUTR = s.OUTR := rfl
@[simp] theorem State.fftTransform_PART (inv : Bool) : (s.fftTransform inv).PART = s.PART := rfl
@[simp] theorem State.fftTransform_HIST (inv : Bool) : (s.fftTransform inv).HIST = s.HIST := rfl
@[simp] theorem State.fftTransform_WIDX (inv : Bool) : (s.fftTransform inv).WIDX = s.WIDX := rfl
@[simp] theorem State.fftTransform_OVL (inv : Bool) : (s.fftTransform inv).OVL = s.OVL := rfl
@[simp] theorem State.fftTransform_K (inv : Bool) : (s.fftTransform inv).K = s.K := rfl
@[simp] theorem State.fftTransform_WT (inv : Bool) : (s.fftTransform inv).WT = s.WT := rfl
@[simp] theorem State.fftTransform_h (inv : Bool) : (s.fftTransform inv).h = s.h := rfl
@[simp] theorem State.fftTransform_TMODE (inv : Bool) : (s.fftTransform inv).TMODE = s.TMODE := rfl
@[simp] theorem State.fftTransform_TALPHA (inv : Bool) : (s.fftTransform inv).TALPHA = s.TALPHA := rfl
@[simp] theorem State.fftTransform_TF0 (inv : Bool) : (s.fftTransform inv).TF0 = s.TF0 := rfl
@[simp] theorem State.fftTransform_TF1 (inv : Bool) : (s.fftTransform inv).TF1 = s.TF1 := rfl
@[simp] theorem State.fftTransform_DBUF (inv : Bool) : (s.fftTransform inv).DBUF = s.DBUF := rfl
@[simp] theorem State.fftTransform_WP (inv : Bool) : (s.fftTransform inv).WP = s.WP := rfl
@[simp] theorem State.fftTransform_CUR (inv : Bool) : (s.fftTransform inv).CUR = s.CUR := rfl
@[simp] theorem State.fftTransform_TGT (inv : Bool) : (s.fftTransform inv).TGT = s.TGT := rfl
@[simp] theorem State.fftTransform_FB (inv : Bool) : (s.fftTransform inv).FB = s.FB := rfl
@[simp] theorem State.fftTransform_ACT (inv : Bool) : (s.fftTransform inv).ACT = s.ACT := rfl
@[simp] theorem State.fftTransform_DLV (inv : Bool) : (s.fftTransform inv).DLV = s.DLV := rfl
@[simp] theorem State.fftTransform_TAP2 (inv : Bool) : (s.fftTransform inv).TAP2 = s.TAP2 := rfl
@[simp] theorem State.fftTransform_T2 (inv : Bool) : (s.fftTransform inv).T2 = s.T2 := rfl
@[simp] theorem State.fftTransform_REV (inv : Bool) : (s.fftTransform inv).REV = s.REV := rfl
@[simp] theorem State.fftTransform_G (inv : Bool) : (s.fftTransform inv).G = s.G := rfl
@[simp] theorem State.fftTransform_ROOMCUR (inv : Bool) : (s.fftTransform inv).ROOMCUR = s.ROOMCUR := rfl
@[simp] theorem State.fftTransform_WETG (inv : Bool) : (s.fftTransform inv).WETG = s.WETG := rfl
@[simp] theorem State.fftTransform_DRYG (inv : Bool) : (s.fftTransform inv).DRYG = s.DRYG := rfl
@[simp] theorem State.fftTransform_NFAULT (inv : Bool) : (s.fftTransform inv).NFAULT = s.NFAULT := rfl
@[simp] theorem State.fftTransform_inbox (inv : Bool) : (s.fftTransform inv).inbox = s.inbox := rfl
@[simp] theorem State.fftTransform_tickLen (inv : Bool) : (s.fftTransform inv).tickLen = s.tickLen := rfl
@[simp] theorem State.fftTransform_readyM (inv : Bool) : (s.fftTransform inv).readyM = s.readyM := rfl
@[simp] theorem State.fftTransform_readyI (inv : Bool) : (s.fftTransform inv).readyI = s.readyI := rfl
@[simp] theorem State.fftTransform_portOut (inv : Bool) : (s.fftTransform inv).portOut = s.portOut := rfl
@[simp] theorem State.fftTransform_audioOut (inv : Bool) : (s.fftTransform inv).audioOut = s.audioOut := rfl

/-! ### `convClear` -/

@[simp] theorem State.convClear_cfg : (s.convClear).cfg = s.cfg := rfl
@[simp] theorem State.convClear_S : (s.convClear).S = s.S := rfl
@[simp] theorem State.convClear_M : (s.convClear).M = s.M := rfl
@[simp] theorem State.convClear_A : (s.convClear).A = s.A := rfl
@[simp] theorem State.convClear_MV : (s.convClear).MV = s.MV := rfl
@[simp] theorem State.convClear_RQM : (s.convClear).RQM = s.RQM := rfl
@[simp] theorem State.convClear_RQI : (s.convClear).RQI = s.RQI := rfl
@[simp] theorem State.convClear_RQB : (s.convClear).RQB = s.RQB := rfl
@[simp] theorem State.convClear_CURM : (s.convClear).CURM = s.CURM := rfl
@[simp] theorem State.convClear_CURI : (s.convClear).CURI = s.CURI := rfl
@[simp] theorem State.convClear_CHAIN : (s.convClear).CHAIN = s.CHAIN := rfl
@[simp] theorem State.convClear_HCAUSE : (s.convClear).HCAUSE = s.HCAUSE := rfl
@[simp] theorem State.convClear_PHASE : (s.convClear).PHASE = s.PHASE := rfl
@[simp] theorem State.convClear_n : (s.convClear).n = s.n := rfl
@[simp] theorem State.convClear_X : (s.convClear).X = s.X := rfl
@[simp] theorem State.convClear_W : (s.convClear).W = s.W := rfl
@[simp] theorem State.convClear_OUTL : (s.convClear).OUTL = s.OUTL := rfl
@[simp] theorem State.convClear_OUTR : (s.convClear).OUTR = s.OUTR := rfl
@[simp] theorem State.convClear_Z : (s.convClear).Z = s.Z := rfl
@[simp] theorem State.convClear_PART : (s.convClear).PART = s.PART := rfl
@[simp] theorem State.convClear_HIST : (s.convClear).HIST = [] := rfl
@[simp] theorem State.convClear_WIDX : (s.convClear).WIDX = 0 := rfl
@[simp] theorem State.convClear_OVL : (s.convClear).OVL = [] := rfl
@[simp] theorem State.convClear_K : (s.convClear).K = s.K := rfl
@[simp] theorem State.convClear_WT : (s.convClear).WT = s.WT := rfl
@[simp] theorem State.convClear_h : (s.convClear).h = s.h := rfl
@[simp] theorem State.convClear_TMODE : (s.convClear).TMODE = s.TMODE := rfl
@[simp] theorem State.convClear_TALPHA : (s.convClear).TALPHA = s.TALPHA := rfl
@[simp] theorem State.convClear_TF0 : (s.convClear).TF0 = s.TF0 := rfl
@[simp] theorem State.convClear_TF1 : (s.convClear).TF1 = s.TF1 := rfl
@[simp] theorem State.convClear_DBUF : (s.convClear).DBUF = s.DBUF := rfl
@[simp] theorem State.convClear_WP : (s.convClear).WP = s.WP := rfl
@[simp] theorem State.convClear_CUR : (s.convClear).CUR = s.CUR := rfl
@[simp] theorem State.convClear_TGT : (s.convClear).TGT = s.TGT := rfl
@[simp] theorem State.convClear_FB : (s.convClear).FB = s.FB := rfl
@[simp] theorem State.convClear_ACT : (s.convClear).ACT = s.ACT := rfl
@[simp] theorem State.convClear_DLV : (s.convClear).DLV = s.DLV := rfl
@[simp] theorem State.convClear_TAP2 : (s.convClear).TAP2 = s.TAP2 := rfl
@[simp] theorem State.convClear_T2 : (s.convClear).T2 = s.T2 := rfl
@[simp] theorem State.convClear_REV : (s.convClear).REV = s.REV := rfl
@[simp] theorem State.convClear_G : (s.convClear).G = s.G := rfl
@[simp] theorem State.convClear_ROOMCUR : (s.convClear).ROOMCUR = s.ROOMCUR := rfl
@[simp] theorem State.convClear_WETG : (s.convClear).WETG = s.WETG := rfl
@[simp] theorem State.convClear_DRYG : (s.convClear).DRYG = s.DRYG := rfl
@[simp] theorem State.convClear_NFAULT : (s.convClear).NFAULT = s.NFAULT := rfl
@[simp] theorem State.convClear_inbox : (s.convClear).inbox = s.inbox := rfl
@[simp] theorem State.convClear_tickLen : (s.convClear).tickLen = s.tickLen := rfl
@[simp] theorem State.convClear_readyM : (s.convClear).readyM = s.readyM := rfl
@[simp] theorem State.convClear_readyI : (s.convClear).readyI = s.readyI := rfl
@[simp] theorem State.convClear_portOut : (s.convClear).portOut = s.portOut := rfl
@[simp] theorem State.convClear_audioOut : (s.convClear).audioOut = s.audioOut := rfl

/-! ### `loadPartition` -/

@[simp] theorem State.loadPartition_cfg (ir : List NumWord) (p : Nat) : (s.loadPartition ir p).cfg = s.cfg := rfl
@[simp] theorem State.loadPartition_S (ir : List NumWord) (p : Nat) : (s.loadPartition ir p).S = s.S := rfl
@[simp] theorem State.loadPartition_M (ir : List NumWord) (p : Nat) : (s.loadPartition ir p).M = s.M := rfl
@[simp] theorem State.loadPartition_A (ir : List NumWord) (p : Nat) : (s.loadPartition ir p).A = s.A := rfl
@[simp] theorem State.loadPartition_MV (ir : List NumWord) (p : Nat) : (s.loadPartition ir p).MV = s.MV := rfl
@[simp] theorem State.loadPartition_RQM (ir : List NumWord) (p : Nat) : (s.loadPartition ir p).RQM = s.RQM := rfl
@[simp] theorem State.loadPartition_RQI (ir : List NumWord) (p : Nat) : (s.loadPartition ir p).RQI = s.RQI := rfl
@[simp] theorem State.loadPartition_RQB (ir : List NumWord) (p : Nat) : (s.loadPartition ir p).RQB = s.RQB := rfl
@[simp] theorem State.loadPartition_CURM (ir : List NumWord) (p : Nat) : (s.loadPartition ir p).CURM = s.CURM := rfl
@[simp] theorem State.loadPartition_CURI (ir : List NumWord) (p : Nat) : (s.loadPartition ir p).CURI = s.CURI := rfl
@[simp] theorem State.loadPartition_CHAIN (ir : List NumWord) (p : Nat) : (s.loadPartition ir p).CHAIN = s.CHAIN := rfl
@[simp] theorem State.loadPartition_HCAUSE (ir : List NumWord) (p : Nat) : (s.loadPartition ir p).HCAUSE = s.HCAUSE := rfl
@[simp] theorem State.loadPartition_PHASE (ir : List NumWord) (p : Nat) : (s.loadPartition ir p).PHASE = s.PHASE := rfl
@[simp] theorem State.loadPartition_n (ir : List NumWord) (p : Nat) : (s.loadPartition ir p).n = s.n := rfl
@[simp] theorem State.loadPartition_X (ir : List NumWord) (p : Nat) : (s.loadPartition ir p).X = s.X := rfl
@[simp] theorem State.loadPartition_W (ir : List NumWord) (p : Nat) : (s.loadPartition ir p).W = s.W := rfl
@[simp] theorem State.loadPartition_OUTL (ir : List NumWord) (p : Nat) : (s.loadPartition ir p).OUTL = s.OUTL := rfl
@[simp] theorem State.loadPartition_OUTR (ir : List NumWord) (p : Nat) : (s.loadPartition ir p).OUTR = s.OUTR := rfl
@[simp] theorem State.loadPartition_HIST (ir : List NumWord) (p : Nat) : (s.loadPartition ir p).HIST = s.HIST := rfl
@[simp] theorem State.loadPartition_WIDX (ir : List NumWord) (p : Nat) : (s.loadPartition ir p).WIDX = s.WIDX := rfl
@[simp] theorem State.loadPartition_OVL (ir : List NumWord) (p : Nat) : (s.loadPartition ir p).OVL = s.OVL := rfl
@[simp] theorem State.loadPartition_K (ir : List NumWord) (p : Nat) : (s.loadPartition ir p).K = s.K := rfl
@[simp] theorem State.loadPartition_WT (ir : List NumWord) (p : Nat) : (s.loadPartition ir p).WT = s.WT := rfl
@[simp] theorem State.loadPartition_h (ir : List NumWord) (p : Nat) : (s.loadPartition ir p).h = s.h := rfl
@[simp] theorem State.loadPartition_TMODE (ir : List NumWord) (p : Nat) : (s.loadPartition ir p).TMODE = s.TMODE := rfl
@[simp] theorem State.loadPartition_TALPHA (ir : List NumWord) (p : Nat) : (s.loadPartition ir p).TALPHA = s.TALPHA := rfl
@[simp] theorem State.loadPartition_TF0 (ir : List NumWord) (p : Nat) : (s.loadPartition ir p).TF0 = s.TF0 := rfl
@[simp] theorem State.loadPartition_TF1 (ir : List NumWord) (p : Nat) : (s.loadPartition ir p).TF1 = s.TF1 := rfl
@[simp] theorem State.loadPartition_DBUF (ir : List NumWord) (p : Nat) : (s.loadPartition ir p).DBUF = s.DBUF := rfl
@[simp] theorem State.loadPartition_WP (ir : List NumWord) (p : Nat) : (s.loadPartition ir p).WP = s.WP := rfl
@[simp] theorem State.loadPartition_CUR (ir : List NumWord) (p : Nat) : (s.loadPartition ir p).CUR = s.CUR := rfl
@[simp] theorem State.loadPartition_TGT (ir : List NumWord) (p : Nat) : (s.loadPartition ir p).TGT = s.TGT := rfl
@[simp] theorem State.loadPartition_FB (ir : List NumWord) (p : Nat) : (s.loadPartition ir p).FB = s.FB := rfl
@[simp] theorem State.loadPartition_ACT (ir : List NumWord) (p : Nat) : (s.loadPartition ir p).ACT = s.ACT := rfl
@[simp] theorem State.loadPartition_DLV (ir : List NumWord) (p : Nat) : (s.loadPartition ir p).DLV = s.DLV := rfl
@[simp] theorem State.loadPartition_TAP2 (ir : List NumWord) (p : Nat) : (s.loadPartition ir p).TAP2 = s.TAP2 := rfl
@[simp] theorem State.loadPartition_T2 (ir : List NumWord) (p : Nat) : (s.loadPartition ir p).T2 = s.T2 := rfl
@[simp] theorem State.loadPartition_REV (ir : List NumWord) (p : Nat) : (s.loadPartition ir p).REV = s.REV := rfl
@[simp] theorem State.loadPartition_G (ir : List NumWord) (p : Nat) : (s.loadPartition ir p).G = s.G := rfl
@[simp] theorem State.loadPartition_ROOMCUR (ir : List NumWord) (p : Nat) : (s.loadPartition ir p).ROOMCUR = s.ROOMCUR := rfl
@[simp] theorem State.loadPartition_WETG (ir : List NumWord) (p : Nat) : (s.loadPartition ir p).WETG = s.WETG := rfl
@[simp] theorem State.loadPartition_DRYG (ir : List NumWord) (p : Nat) : (s.loadPartition ir p).DRYG = s.DRYG := rfl
@[simp] theorem State.loadPartition_NFAULT (ir : List NumWord) (p : Nat) : (s.loadPartition ir p).NFAULT = s.NFAULT := rfl
@[simp] theorem State.loadPartition_inbox (ir : List NumWord) (p : Nat) : (s.loadPartition ir p).inbox = s.inbox := rfl
@[simp] theorem State.loadPartition_tickLen (ir : List NumWord) (p : Nat) : (s.loadPartition ir p).tickLen = s.tickLen := rfl
@[simp] theorem State.loadPartition_readyM (ir : List NumWord) (p : Nat) : (s.loadPartition ir p).readyM = s.readyM := rfl
@[simp] theorem State.loadPartition_readyI (ir : List NumWord) (p : Nat) : (s.loadPartition ir p).readyI = s.readyI := rfl
@[simp] theorem State.loadPartition_portOut (ir : List NumWord) (p : Nat) : (s.loadPartition ir p).portOut = s.portOut := rfl
@[simp] theorem State.loadPartition_audioOut (ir : List NumWord) (p : Nat) : (s.loadPartition ir p).audioOut = s.audioOut := rfl

/-! ### `convFrame` -/

@[simp] theorem State.convFrame_cfg : (s.convFrame).cfg = s.cfg := rfl
@[simp] theorem State.convFrame_S : (s.convFrame).S = s.S := rfl
@[simp] theorem State.convFrame_M : (s.convFrame).M = s.M := rfl
@[simp] theorem State.convFrame_A : (s.convFrame).A = s.A := rfl
@[simp] theorem State.convFrame_MV : (s.convFrame).MV = s.MV := rfl
@[simp] theorem State.convFrame_RQM : (s.convFrame).RQM = s.RQM := rfl
@[simp] theorem State.convFrame_RQI : (s.convFrame).RQI = s.RQI := rfl
@[simp] theorem State.convFrame_RQB : (s.convFrame).RQB = s.RQB := rfl
@[simp] theorem State.convFrame_CURM : (s.convFrame).CURM = s.CURM := rfl
@[simp] theorem State.convFrame_CURI : (s.convFrame).CURI = s.CURI := rfl
@[simp] theorem State.convFrame_CHAIN : (s.convFrame).CHAIN = s.CHAIN := rfl
@[simp] theorem State.convFrame_HCAUSE : (s.convFrame).HCAUSE = s.HCAUSE := rfl
@[simp] theorem State.convFrame_PHASE : (s.convFrame).PHASE = s.PHASE := rfl
@[simp] theorem State.convFrame_n : (s.convFrame).n = s.n := rfl
@[simp] theorem State.convFrame_X : (s.convFrame).X = s.X := rfl
@[simp] theorem State.convFrame_W : (s.convFrame).W = s.W := rfl
@[simp] theorem State.convFrame_OUTL : (s.convFrame).OUTL = s.OUTL := rfl
@[simp] theorem State.convFrame_OUTR : (s.convFrame).OUTR = s.OUTR := rfl
@[simp] theorem State.convFrame_PART : (s.convFrame).PART = s.PART := rfl
@[simp] theorem State.convFrame_HIST : (s.convFrame).HIST = s.HIST := rfl
@[simp] theorem State.convFrame_WIDX : (s.convFrame).WIDX = s.WIDX := rfl
@[simp] theorem State.convFrame_K : (s.convFrame).K = s.K := rfl
@[simp] theorem State.convFrame_WT : (s.convFrame).WT = s.WT := rfl
@[simp] theorem State.convFrame_h : (s.convFrame).h = s.h := rfl
@[simp] theorem State.convFrame_TMODE : (s.convFrame).TMODE = s.TMODE := rfl
@[simp] theorem State.convFrame_TALPHA : (s.convFrame).TALPHA = s.TALPHA := rfl
@[simp] theorem State.convFrame_TF0 : (s.convFrame).TF0 = s.TF0 := rfl
@[simp] theorem State.convFrame_TF1 : (s.convFrame).TF1 = s.TF1 := rfl
@[simp] theorem State.convFrame_DBUF : (s.convFrame).DBUF = s.DBUF := rfl
@[simp] theorem State.convFrame_WP : (s.convFrame).WP = s.WP := rfl
@[simp] theorem State.convFrame_CUR : (s.convFrame).CUR = s.CUR := rfl
@[simp] theorem State.convFrame_TGT : (s.convFrame).TGT = s.TGT := rfl
@[simp] theorem State.convFrame_FB : (s.convFrame).FB = s.FB := rfl
@[simp] theorem State.convFrame_ACT : (s.convFrame).ACT = s.ACT := rfl
@[simp] theorem State.convFrame_DLV : (s.convFrame).DLV = s.DLV := rfl
@[simp] theorem State.convFrame_TAP2 : (s.convFrame).TAP2 = s.TAP2 := rfl
@[simp] theorem State.convFrame_T2 : (s.convFrame).T2 = s.T2 := rfl
@[simp] theorem State.convFrame_REV : (s.convFrame).REV = s.REV := rfl
@[simp] theorem State.convFrame_G : (s.convFrame).G = s.G := rfl
@[simp] theorem State.convFrame_ROOMCUR : (s.convFrame).ROOMCUR = s.ROOMCUR := rfl
@[simp] theorem State.convFrame_WETG : (s.convFrame).WETG = s.WETG := rfl
@[simp] theorem State.convFrame_DRYG : (s.convFrame).DRYG = s.DRYG := rfl
@[simp] theorem State.convFrame_NFAULT : (s.convFrame).NFAULT = s.NFAULT := rfl
@[simp] theorem State.convFrame_inbox : (s.convFrame).inbox = s.inbox := rfl
@[simp] theorem State.convFrame_tickLen : (s.convFrame).tickLen = s.tickLen := rfl
@[simp] theorem State.convFrame_readyM : (s.convFrame).readyM = s.readyM := rfl
@[simp] theorem State.convFrame_readyI : (s.convFrame).readyI = s.readyI := rfl
@[simp] theorem State.convFrame_portOut : (s.convFrame).portOut = s.portOut := rfl
@[simp] theorem State.convFrame_audioOut : (s.convFrame).audioOut = s.audioOut := rfl

/-! ### `convPush` -/

@[simp] theorem State.convPush_cfg : (s.convPush).cfg = s.cfg := rfl
@[simp] theorem State.convPush_S : (s.convPush).S = s.S := rfl
@[simp] theorem State.convPush_M : (s.convPush).M = s.M := rfl
@[simp] theorem State.convPush_A : (s.convPush).A = s.A := rfl
@[simp] theorem State.convPush_MV : (s.convPush).MV = s.MV := rfl
@[simp] theorem State.convPush_RQM : (s.convPush).RQM = s.RQM := rfl
@[simp] theorem State.convPush_RQI : (s.convPush).RQI = s.RQI := rfl
@[simp] theorem State.convPush_RQB : (s.convPush).RQB = s.RQB := rfl
@[simp] theorem State.convPush_CURM : (s.convPush).CURM = s.CURM := rfl
@[simp] theorem State.convPush_CURI : (s.convPush).CURI = s.CURI := rfl
@[simp] theorem State.convPush_CHAIN : (s.convPush).CHAIN = s.CHAIN := rfl
@[simp] theorem State.convPush_HCAUSE : (s.convPush).HCAUSE = s.HCAUSE := rfl
@[simp] theorem State.convPush_PHASE : (s.convPush).PHASE = s.PHASE := rfl
@[simp] theorem State.convPush_n : (s.convPush).n = s.n := rfl
@[simp] theorem State.convPush_X : (s.convPush).X = s.X := rfl
@[simp] theorem State.convPush_W : (s.convPush).W = s.W := rfl
@[simp] theorem State.convPush_OUTL : (s.convPush).OUTL = s.OUTL := rfl
@[simp] theorem State.convPush_OUTR : (s.convPush).OUTR = s.OUTR := rfl
@[simp] theorem State.convPush_Z : (s.convPush).Z = s.Z := rfl
@[simp] theorem State.convPush_PART : (s.convPush).PART = s.PART := rfl
@[simp] theorem State.convPush_WIDX : (s.convPush).WIDX = s.WIDX := rfl
@[simp] theorem State.convPush_OVL : (s.convPush).OVL = s.OVL := rfl
@[simp] theorem State.convPush_K : (s.convPush).K = s.K := rfl
@[simp] theorem State.convPush_WT : (s.convPush).WT = s.WT := rfl
@[simp] theorem State.convPush_h : (s.convPush).h = s.h := rfl
@[simp] theorem State.convPush_TMODE : (s.convPush).TMODE = s.TMODE := rfl
@[simp] theorem State.convPush_TALPHA : (s.convPush).TALPHA = s.TALPHA := rfl
@[simp] theorem State.convPush_TF0 : (s.convPush).TF0 = s.TF0 := rfl
@[simp] theorem State.convPush_TF1 : (s.convPush).TF1 = s.TF1 := rfl
@[simp] theorem State.convPush_DBUF : (s.convPush).DBUF = s.DBUF := rfl
@[simp] theorem State.convPush_WP : (s.convPush).WP = s.WP := rfl
@[simp] theorem State.convPush_CUR : (s.convPush).CUR = s.CUR := rfl
@[simp] theorem State.convPush_TGT : (s.convPush).TGT = s.TGT := rfl
@[simp] theorem State.convPush_FB : (s.convPush).FB = s.FB := rfl
@[simp] theorem State.convPush_ACT : (s.convPush).ACT = s.ACT := rfl
@[simp] theorem State.convPush_DLV : (s.convPush).DLV = s.DLV := rfl
@[simp] theorem State.convPush_TAP2 : (s.convPush).TAP2 = s.TAP2 := rfl
@[simp] theorem State.convPush_T2 : (s.convPush).T2 = s.T2 := rfl
@[simp] theorem State.convPush_REV : (s.convPush).REV = s.REV := rfl
@[simp] theorem State.convPush_G : (s.convPush).G = s.G := rfl
@[simp] theorem State.convPush_ROOMCUR : (s.convPush).ROOMCUR = s.ROOMCUR := rfl
@[simp] theorem State.convPush_WETG : (s.convPush).WETG = s.WETG := rfl
@[simp] theorem State.convPush_DRYG : (s.convPush).DRYG = s.DRYG := rfl
@[simp] theorem State.convPush_NFAULT : (s.convPush).NFAULT = s.NFAULT := rfl
@[simp] theorem State.convPush_inbox : (s.convPush).inbox = s.inbox := rfl
@[simp] theorem State.convPush_tickLen : (s.convPush).tickLen = s.tickLen := rfl
@[simp] theorem State.convPush_readyM : (s.convPush).readyM = s.readyM := rfl
@[simp] theorem State.convPush_readyI : (s.convPush).readyI = s.readyI := rfl
@[simp] theorem State.convPush_portOut : (s.convPush).portOut = s.portOut := rfl
@[simp] theorem State.convPush_audioOut : (s.convPush).audioOut = s.audioOut := rfl

/-! ### `convMac` -/

@[simp] theorem State.convMac_cfg : (s.convMac).cfg = s.cfg := rfl
@[simp] theorem State.convMac_S : (s.convMac).S = s.S := rfl
@[simp] theorem State.convMac_M : (s.convMac).M = s.M := rfl
@[simp] theorem State.convMac_A : (s.convMac).A = s.A := rfl
@[simp] theorem State.convMac_MV : (s.convMac).MV = s.MV := rfl
@[simp] theorem State.convMac_RQM : (s.convMac).RQM = s.RQM := rfl
@[simp] theorem State.convMac_RQI : (s.convMac).RQI = s.RQI := rfl
@[simp] theorem State.convMac_RQB : (s.convMac).RQB = s.RQB := rfl
@[simp] theorem State.convMac_CURM : (s.convMac).CURM = s.CURM := rfl
@[simp] theorem State.convMac_CURI : (s.convMac).CURI = s.CURI := rfl
@[simp] theorem State.convMac_CHAIN : (s.convMac).CHAIN = s.CHAIN := rfl
@[simp] theorem State.convMac_HCAUSE : (s.convMac).HCAUSE = s.HCAUSE := rfl
@[simp] theorem State.convMac_PHASE : (s.convMac).PHASE = s.PHASE := rfl
@[simp] theorem State.convMac_n : (s.convMac).n = s.n := rfl
@[simp] theorem State.convMac_X : (s.convMac).X = s.X := rfl
@[simp] theorem State.convMac_W : (s.convMac).W = s.W := rfl
@[simp] theorem State.convMac_OUTL : (s.convMac).OUTL = s.OUTL := rfl
@[simp] theorem State.convMac_OUTR : (s.convMac).OUTR = s.OUTR := rfl
@[simp] theorem State.convMac_PART : (s.convMac).PART = s.PART := rfl
@[simp] theorem State.convMac_HIST : (s.convMac).HIST = s.HIST := rfl
@[simp] theorem State.convMac_WIDX : (s.convMac).WIDX = s.WIDX := rfl
@[simp] theorem State.convMac_OVL : (s.convMac).OVL = s.OVL := rfl
@[simp] theorem State.convMac_K : (s.convMac).K = s.K := rfl
@[simp] theorem State.convMac_WT : (s.convMac).WT = s.WT := rfl
@[simp] theorem State.convMac_h : (s.convMac).h = s.h := rfl
@[simp] theorem State.convMac_TMODE : (s.convMac).TMODE = s.TMODE := rfl
@[simp] theorem State.convMac_TALPHA : (s.convMac).TALPHA = s.TALPHA := rfl
@[simp] theorem State.convMac_TF0 : (s.convMac).TF0 = s.TF0 := rfl
@[simp] theorem State.convMac_TF1 : (s.convMac).TF1 = s.TF1 := rfl
@[simp] theorem State.convMac_DBUF : (s.convMac).DBUF = s.DBUF := rfl
@[simp] theorem State.convMac_WP : (s.convMac).WP = s.WP := rfl
@[simp] theorem State.convMac_CUR : (s.convMac).CUR = s.CUR := rfl
@[simp] theorem State.convMac_TGT : (s.convMac).TGT = s.TGT := rfl
@[simp] theorem State.convMac_FB : (s.convMac).FB = s.FB := rfl
@[simp] theorem State.convMac_ACT : (s.convMac).ACT = s.ACT := rfl
@[simp] theorem State.convMac_DLV : (s.convMac).DLV = s.DLV := rfl
@[simp] theorem State.convMac_TAP2 : (s.convMac).TAP2 = s.TAP2 := rfl
@[simp] theorem State.convMac_T2 : (s.convMac).T2 = s.T2 := rfl
@[simp] theorem State.convMac_REV : (s.convMac).REV = s.REV := rfl
@[simp] theorem State.convMac_G : (s.convMac).G = s.G := rfl
@[simp] theorem State.convMac_ROOMCUR : (s.convMac).ROOMCUR = s.ROOMCUR := rfl
@[simp] theorem State.convMac_WETG : (s.convMac).WETG = s.WETG := rfl
@[simp] theorem State.convMac_DRYG : (s.convMac).DRYG = s.DRYG := rfl
@[simp] theorem State.convMac_NFAULT : (s.convMac).NFAULT = s.NFAULT := rfl
@[simp] theorem State.convMac_inbox : (s.convMac).inbox = s.inbox := rfl
@[simp] theorem State.convMac_tickLen : (s.convMac).tickLen = s.tickLen := rfl
@[simp] theorem State.convMac_readyM : (s.convMac).readyM = s.readyM := rfl
@[simp] theorem State.convMac_readyI : (s.convMac).readyI = s.readyI := rfl
@[simp] theorem State.convMac_portOut : (s.convMac).portOut = s.portOut := rfl
@[simp] theorem State.convMac_audioOut : (s.convMac).audioOut = s.audioOut := rfl

/-! ### `convOut` -/

@[simp] theorem State.convOut_cfg : (s.convOut).cfg = s.cfg := rfl
@[simp] theorem State.convOut_S : (s.convOut).S = s.S := rfl
@[simp] theorem State.convOut_M : (s.convOut).M = s.M := rfl
@[simp] theorem State.convOut_A : (s.convOut).A = s.A := rfl
@[simp] theorem State.convOut_MV : (s.convOut).MV = s.MV := rfl
@[simp] theorem State.convOut_RQM : (s.convOut).RQM = s.RQM := rfl
@[simp] theorem State.convOut_RQI : (s.convOut).RQI = s.RQI := rfl
@[simp] theorem State.convOut_RQB : (s.convOut).RQB = s.RQB := rfl
@[simp] theorem State.convOut_CURM : (s.convOut).CURM = s.CURM := rfl
@[simp] theorem State.convOut_CURI : (s.convOut).CURI = s.CURI := rfl
@[simp] theorem State.convOut_CHAIN : (s.convOut).CHAIN = s.CHAIN := rfl
@[simp] theorem State.convOut_HCAUSE : (s.convOut).HCAUSE = s.HCAUSE := rfl
@[simp] theorem State.convOut_PHASE : (s.convOut).PHASE = s.PHASE := rfl
@[simp] theorem State.convOut_n : (s.convOut).n = s.n := rfl
@[simp] theorem State.convOut_X : (s.convOut).X = s.X := rfl
@[simp] theorem State.convOut_OUTL : (s.convOut).OUTL = s.OUTL := rfl
@[simp] theorem State.convOut_OUTR : (s.convOut).OUTR = s.OUTR := rfl
@[simp] theorem State.convOut_Z : (s.convOut).Z = s.Z := rfl
@[simp] theorem State.convOut_PART : (s.convOut).PART = s.PART := rfl
@[simp] theorem State.convOut_HIST : (s.convOut).HIST = s.HIST := rfl
@[simp] theorem State.convOut_OVL : (s.convOut).OVL = s.OVL := rfl
@[simp] theorem State.convOut_K : (s.convOut).K = s.K := rfl
@[simp] theorem State.convOut_WT : (s.convOut).WT = s.WT := rfl
@[simp] theorem State.convOut_h : (s.convOut).h = s.h := rfl
@[simp] theorem State.convOut_TMODE : (s.convOut).TMODE = s.TMODE := rfl
@[simp] theorem State.convOut_TALPHA : (s.convOut).TALPHA = s.TALPHA := rfl
@[simp] theorem State.convOut_TF0 : (s.convOut).TF0 = s.TF0 := rfl
@[simp] theorem State.convOut_TF1 : (s.convOut).TF1 = s.TF1 := rfl
@[simp] theorem State.convOut_DBUF : (s.convOut).DBUF = s.DBUF := rfl
@[simp] theorem State.convOut_WP : (s.convOut).WP = s.WP := rfl
@[simp] theorem State.convOut_CUR : (s.convOut).CUR = s.CUR := rfl
@[simp] theorem State.convOut_TGT : (s.convOut).TGT = s.TGT := rfl
@[simp] theorem State.convOut_FB : (s.convOut).FB = s.FB := rfl
@[simp] theorem State.convOut_ACT : (s.convOut).ACT = s.ACT := rfl
@[simp] theorem State.convOut_DLV : (s.convOut).DLV = s.DLV := rfl
@[simp] theorem State.convOut_TAP2 : (s.convOut).TAP2 = s.TAP2 := rfl
@[simp] theorem State.convOut_T2 : (s.convOut).T2 = s.T2 := rfl
@[simp] theorem State.convOut_REV : (s.convOut).REV = s.REV := rfl
@[simp] theorem State.convOut_G : (s.convOut).G = s.G := rfl
@[simp] theorem State.convOut_ROOMCUR : (s.convOut).ROOMCUR = s.ROOMCUR := rfl
@[simp] theorem State.convOut_WETG : (s.convOut).WETG = s.WETG := rfl
@[simp] theorem State.convOut_DRYG : (s.convOut).DRYG = s.DRYG := rfl
@[simp] theorem State.convOut_inbox : (s.convOut).inbox = s.inbox := rfl
@[simp] theorem State.convOut_tickLen : (s.convOut).tickLen = s.tickLen := rfl
@[simp] theorem State.convOut_readyM : (s.convOut).readyM = s.readyM := rfl
@[simp] theorem State.convOut_readyI : (s.convOut).readyI = s.readyI := rfl
@[simp] theorem State.convOut_portOut : (s.convOut).portOut = s.portOut := rfl
@[simp] theorem State.convOut_audioOut : (s.convOut).audioOut = s.audioOut := rfl

/-! ### `nnReset` -/

@[simp] theorem State.nnReset_cfg : (s.nnReset).cfg = s.cfg := rfl
@[simp] theorem State.nnReset_S : (s.nnReset).S = s.S := rfl
@[simp] theorem State.nnReset_M : (s.nnReset).M = s.M := rfl
@[simp] theorem State.nnReset_A : (s.nnReset).A = s.A := rfl
@[simp] theorem State.nnReset_MV : (s.nnReset).MV = s.MV := rfl
@[simp] theorem State.nnReset_RQM : (s.nnReset).RQM = s.RQM := rfl
@[simp] theorem State.nnReset_RQI : (s.nnReset).RQI = s.RQI := rfl
@[simp] theorem State.nnReset_RQB : (s.nnReset).RQB = s.RQB := rfl
@[simp] theorem State.nnReset_CURM : (s.nnReset).CURM = s.CURM := rfl
@[simp] theorem State.nnReset_CURI : (s.nnReset).CURI = s.CURI := rfl
@[simp] theorem State.nnReset_CHAIN : (s.nnReset).CHAIN = s.CHAIN := rfl
@[simp] theorem State.nnReset_HCAUSE : (s.nnReset).HCAUSE = s.HCAUSE := rfl
@[simp] theorem State.nnReset_PHASE : (s.nnReset).PHASE = s.PHASE := rfl
@[simp] theorem State.nnReset_n : (s.nnReset).n = s.n := rfl
@[simp] theorem State.nnReset_X : (s.nnReset).X = s.X := rfl
@[simp] theorem State.nnReset_W : (s.nnReset).W = s.W := rfl
@[simp] theorem State.nnReset_OUTL : (s.nnReset).OUTL = s.OUTL := rfl
@[simp] theorem State.nnReset_OUTR : (s.nnReset).OUTR = s.OUTR := rfl
@[simp] theorem State.nnReset_Z : (s.nnReset).Z = s.Z := rfl
@[simp] theorem State.nnReset_PART : (s.nnReset).PART = s.PART := rfl
@[simp] theorem State.nnReset_HIST : (s.nnReset).HIST = s.HIST := rfl
@[simp] theorem State.nnReset_WIDX : (s.nnReset).WIDX = s.WIDX := rfl
@[simp] theorem State.nnReset_OVL : (s.nnReset).OVL = s.OVL := rfl
@[simp] theorem State.nnReset_K : (s.nnReset).K = s.K := rfl
@[simp] theorem State.nnReset_WT : (s.nnReset).WT = s.WT := rfl
@[simp] theorem State.nnReset_h : (s.nnReset).h = [] := rfl
@[simp] theorem State.nnReset_TMODE : (s.nnReset).TMODE = s.TMODE := rfl
@[simp] theorem State.nnReset_TALPHA : (s.nnReset).TALPHA = s.TALPHA := rfl
@[simp] theorem State.nnReset_TF0 : (s.nnReset).TF0 = s.TF0 := rfl
@[simp] theorem State.nnReset_TF1 : (s.nnReset).TF1 = s.TF1 := rfl
@[simp] theorem State.nnReset_DBUF : (s.nnReset).DBUF = s.DBUF := rfl
@[simp] theorem State.nnReset_WP : (s.nnReset).WP = s.WP := rfl
@[simp] theorem State.nnReset_CUR : (s.nnReset).CUR = s.CUR := rfl
@[simp] theorem State.nnReset_TGT : (s.nnReset).TGT = s.TGT := rfl
@[simp] theorem State.nnReset_FB : (s.nnReset).FB = s.FB := rfl
@[simp] theorem State.nnReset_ACT : (s.nnReset).ACT = s.ACT := rfl
@[simp] theorem State.nnReset_DLV : (s.nnReset).DLV = s.DLV := rfl
@[simp] theorem State.nnReset_TAP2 : (s.nnReset).TAP2 = s.TAP2 := rfl
@[simp] theorem State.nnReset_T2 : (s.nnReset).T2 = s.T2 := rfl
@[simp] theorem State.nnReset_REV : (s.nnReset).REV = s.REV := rfl
@[simp] theorem State.nnReset_G : (s.nnReset).G = s.G := rfl
@[simp] theorem State.nnReset_ROOMCUR : (s.nnReset).ROOMCUR = s.ROOMCUR := rfl
@[simp] theorem State.nnReset_WETG : (s.nnReset).WETG = s.WETG := rfl
@[simp] theorem State.nnReset_DRYG : (s.nnReset).DRYG = s.DRYG := rfl
@[simp] theorem State.nnReset_NFAULT : (s.nnReset).NFAULT = s.NFAULT := rfl
@[simp] theorem State.nnReset_inbox : (s.nnReset).inbox = s.inbox := rfl
@[simp] theorem State.nnReset_tickLen : (s.nnReset).tickLen = s.tickLen := rfl
@[simp] theorem State.nnReset_readyM : (s.nnReset).readyM = s.readyM := rfl
@[simp] theorem State.nnReset_readyI : (s.nnReset).readyI = s.readyI := rfl
@[simp] theorem State.nnReset_portOut : (s.nnReset).portOut = s.portOut := rfl
@[simp] theorem State.nnReset_audioOut : (s.nnReset).audioOut = s.audioOut := rfl

/-! ### `nnFwd` -/

@[simp] theorem State.nnFwd_cfg (i : Nat) : (s.nnFwd i).cfg = s.cfg := rfl
@[simp] theorem State.nnFwd_S (i : Nat) : (s.nnFwd i).S = s.S := rfl
@[simp] theorem State.nnFwd_M (i : Nat) : (s.nnFwd i).M = s.M := rfl
@[simp] theorem State.nnFwd_A (i : Nat) : (s.nnFwd i).A = s.A := rfl
@[simp] theorem State.nnFwd_MV (i : Nat) : (s.nnFwd i).MV = s.MV := rfl
@[simp] theorem State.nnFwd_RQM (i : Nat) : (s.nnFwd i).RQM = s.RQM := rfl
@[simp] theorem State.nnFwd_RQI (i : Nat) : (s.nnFwd i).RQI = s.RQI := rfl
@[simp] theorem State.nnFwd_RQB (i : Nat) : (s.nnFwd i).RQB = s.RQB := rfl
@[simp] theorem State.nnFwd_CURM (i : Nat) : (s.nnFwd i).CURM = s.CURM := rfl
@[simp] theorem State.nnFwd_CURI (i : Nat) : (s.nnFwd i).CURI = s.CURI := rfl
@[simp] theorem State.nnFwd_CHAIN (i : Nat) : (s.nnFwd i).CHAIN = s.CHAIN := rfl
@[simp] theorem State.nnFwd_HCAUSE (i : Nat) : (s.nnFwd i).HCAUSE = s.HCAUSE := rfl
@[simp] theorem State.nnFwd_PHASE (i : Nat) : (s.nnFwd i).PHASE = s.PHASE := rfl
@[simp] theorem State.nnFwd_n (i : Nat) : (s.nnFwd i).n = s.n := rfl
@[simp] theorem State.nnFwd_X (i : Nat) : (s.nnFwd i).X = s.X := rfl
@[simp] theorem State.nnFwd_OUTL (i : Nat) : (s.nnFwd i).OUTL = s.OUTL := rfl
@[simp] theorem State.nnFwd_OUTR (i : Nat) : (s.nnFwd i).OUTR = s.OUTR := rfl
@[simp] theorem State.nnFwd_Z (i : Nat) : (s.nnFwd i).Z = s.Z := rfl
@[simp] theorem State.nnFwd_PART (i : Nat) : (s.nnFwd i).PART = s.PART := rfl
@[simp] theorem State.nnFwd_HIST (i : Nat) : (s.nnFwd i).HIST = s.HIST := rfl
@[simp] theorem State.nnFwd_WIDX (i : Nat) : (s.nnFwd i).WIDX = s.WIDX := rfl
@[simp] theorem State.nnFwd_OVL (i : Nat) : (s.nnFwd i).OVL = s.OVL := rfl
@[simp] theorem State.nnFwd_K (i : Nat) : (s.nnFwd i).K = s.K := rfl
@[simp] theorem State.nnFwd_WT (i : Nat) : (s.nnFwd i).WT = s.WT := rfl
@[simp] theorem State.nnFwd_TMODE (i : Nat) : (s.nnFwd i).TMODE = s.TMODE := rfl
@[simp] theorem State.nnFwd_TALPHA (i : Nat) : (s.nnFwd i).TALPHA = s.TALPHA := rfl
@[simp] theorem State.nnFwd_TF0 (i : Nat) : (s.nnFwd i).TF0 = s.TF0 := rfl
@[simp] theorem State.nnFwd_TF1 (i : Nat) : (s.nnFwd i).TF1 = s.TF1 := rfl
@[simp] theorem State.nnFwd_DBUF (i : Nat) : (s.nnFwd i).DBUF = s.DBUF := rfl
@[simp] theorem State.nnFwd_WP (i : Nat) : (s.nnFwd i).WP = s.WP := rfl
@[simp] theorem State.nnFwd_CUR (i : Nat) : (s.nnFwd i).CUR = s.CUR := rfl
@[simp] theorem State.nnFwd_TGT (i : Nat) : (s.nnFwd i).TGT = s.TGT := rfl
@[simp] theorem State.nnFwd_FB (i : Nat) : (s.nnFwd i).FB = s.FB := rfl
@[simp] theorem State.nnFwd_ACT (i : Nat) : (s.nnFwd i).ACT = s.ACT := rfl
@[simp] theorem State.nnFwd_DLV (i : Nat) : (s.nnFwd i).DLV = s.DLV := rfl
@[simp] theorem State.nnFwd_TAP2 (i : Nat) : (s.nnFwd i).TAP2 = s.TAP2 := rfl
@[simp] theorem State.nnFwd_T2 (i : Nat) : (s.nnFwd i).T2 = s.T2 := rfl
@[simp] theorem State.nnFwd_REV (i : Nat) : (s.nnFwd i).REV = s.REV := rfl
@[simp] theorem State.nnFwd_G (i : Nat) : (s.nnFwd i).G = s.G := rfl
@[simp] theorem State.nnFwd_ROOMCUR (i : Nat) : (s.nnFwd i).ROOMCUR = s.ROOMCUR := rfl
@[simp] theorem State.nnFwd_WETG (i : Nat) : (s.nnFwd i).WETG = s.WETG := rfl
@[simp] theorem State.nnFwd_DRYG (i : Nat) : (s.nnFwd i).DRYG = s.DRYG := rfl
@[simp] theorem State.nnFwd_inbox (i : Nat) : (s.nnFwd i).inbox = s.inbox := rfl
@[simp] theorem State.nnFwd_tickLen (i : Nat) : (s.nnFwd i).tickLen = s.tickLen := rfl
@[simp] theorem State.nnFwd_readyM (i : Nat) : (s.nnFwd i).readyM = s.readyM := rfl
@[simp] theorem State.nnFwd_readyI (i : Nat) : (s.nnFwd i).readyI = s.readyI := rfl
@[simp] theorem State.nnFwd_portOut (i : Nat) : (s.nnFwd i).portOut = s.portOut := rfl
@[simp] theorem State.nnFwd_audioOut (i : Nat) : (s.nnFwd i).audioOut = s.audioOut := rfl

/-! ### `toneSet` -/

@[simp] theorem State.toneSet_cfg : (s.toneSet).cfg = s.cfg := by unfold State.toneSet; dsimp only; split <;> rfl
@[simp] theorem State.toneSet_S : (s.toneSet).S = s.S := by unfold State.toneSet; dsimp only; split <;> rfl
@[simp] theorem State.toneSet_M : (s.toneSet).M = s.M := by unfold State.toneSet; dsimp only; split <;> rfl
@[simp] theorem State.toneSet_A : (s.toneSet).A = s.A := by unfold State.toneSet; dsimp only; split <;> rfl
@[simp] theorem State.toneSet_MV : (s.toneSet).MV = s.MV := by unfold State.toneSet; dsimp only; split <;> rfl
@[simp] theorem State.toneSet_RQM : (s.toneSet).RQM = s.RQM := by unfold State.toneSet; dsimp only; split <;> rfl
@[simp] theorem State.toneSet_RQI : (s.toneSet).RQI = s.RQI := by unfold State.toneSet; dsimp only; split <;> rfl
@[simp] theorem State.toneSet_RQB : (s.toneSet).RQB = s.RQB := by unfold State.toneSet; dsimp only; split <;> rfl
@[simp] theorem State.toneSet_CURM : (s.toneSet).CURM = s.CURM := by unfold State.toneSet; dsimp only; split <;> rfl
@[simp] theorem State.toneSet_CURI : (s.toneSet).CURI = s.CURI := by unfold State.toneSet; dsimp only; split <;> rfl
@[simp] theorem State.toneSet_CHAIN : (s.toneSet).CHAIN = s.CHAIN := by unfold State.toneSet; dsimp only; split <;> rfl
@[simp] theorem State.toneSet_HCAUSE : (s.toneSet).HCAUSE = s.HCAUSE := by unfold State.toneSet; dsimp only; split <;> rfl
@[simp] theorem State.toneSet_PHASE : (s.toneSet).PHASE = s.PHASE := by unfold State.toneSet; dsimp only; split <;> rfl
@[simp] theorem State.toneSet_n : (s.toneSet).n = s.n := by unfold State.toneSet; dsimp only; split <;> rfl
@[simp] theorem State.toneSet_X : (s.toneSet).X = s.X := by unfold State.toneSet; dsimp only; split <;> rfl
@[simp] theorem State.toneSet_W : (s.toneSet).W = s.W := by unfold State.toneSet; dsimp only; split <;> rfl
@[simp] theorem State.toneSet_OUTL : (s.toneSet).OUTL = s.OUTL := by unfold State.toneSet; dsimp only; split <;> rfl
@[simp] theorem State.toneSet_OUTR : (s.toneSet).OUTR = s.OUTR := by unfold State.toneSet; dsimp only; split <;> rfl
@[simp] theorem State.toneSet_Z : (s.toneSet).Z = s.Z := by unfold State.toneSet; dsimp only; split <;> rfl
@[simp] theorem State.toneSet_PART : (s.toneSet).PART = s.PART := by unfold State.toneSet; dsimp only; split <;> rfl
@[simp] theorem State.toneSet_HIST : (s.toneSet).HIST = s.HIST := by unfold State.toneSet; dsimp only; split <;> rfl
@[simp] theorem State.toneSet_WIDX : (s.toneSet).WIDX = s.WIDX := by unfold State.toneSet; dsimp only; split <;> rfl
@[simp] theorem State.toneSet_OVL : (s.toneSet).OVL = s.OVL := by unfold State.toneSet; dsimp only; split <;> rfl
@[simp] theorem State.toneSet_K : (s.toneSet).K = s.K := by unfold State.toneSet; dsimp only; split <;> rfl
@[simp] theorem State.toneSet_WT : (s.toneSet).WT = s.WT := by unfold State.toneSet; dsimp only; split <;> rfl
@[simp] theorem State.toneSet_h : (s.toneSet).h = s.h := by unfold State.toneSet; dsimp only; split <;> rfl
@[simp] theorem State.toneSet_TF0 : (s.toneSet).TF0 = s.TF0 := by unfold State.toneSet; dsimp only; split <;> rfl
@[simp] theorem State.toneSet_TF1 : (s.toneSet).TF1 = s.TF1 := by unfold State.toneSet; dsimp only; split <;> rfl
@[simp] theorem State.toneSet_DBUF : (s.toneSet).DBUF = s.DBUF := by unfold State.toneSet; dsimp only; split <;> rfl
@[simp] theorem State.toneSet_WP : (s.toneSet).WP = s.WP := by unfold State.toneSet; dsimp only; split <;> rfl
@[simp] theorem State.toneSet_CUR : (s.toneSet).CUR = s.CUR := by unfold State.toneSet; dsimp only; split <;> rfl
@[simp] theorem State.toneSet_TGT : (s.toneSet).TGT = s.TGT := by unfold State.toneSet; dsimp only; split <;> rfl
@[simp] theorem State.toneSet_FB : (s.toneSet).FB = s.FB := by unfold State.toneSet; dsimp only; split <;> rfl
@[simp] theorem State.toneSet_ACT : (s.toneSet).ACT = s.ACT := by unfold State.toneSet; dsimp only; split <;> rfl
@[simp] theorem State.toneSet_DLV : (s.toneSet).DLV = s.DLV := by unfold State.toneSet; dsimp only; split <;> rfl
@[simp] theorem State.toneSet_TAP2 : (s.toneSet).TAP2 = s.TAP2 := by unfold State.toneSet; dsimp only; split <;> rfl
@[simp] theorem State.toneSet_T2 : (s.toneSet).T2 = s.T2 := by unfold State.toneSet; dsimp only; split <;> rfl
@[simp] theorem State.toneSet_REV : (s.toneSet).REV = s.REV := by unfold State.toneSet; dsimp only; split <;> rfl
@[simp] theorem State.toneSet_G : (s.toneSet).G = s.G := by unfold State.toneSet; dsimp only; split <;> rfl
@[simp] theorem State.toneSet_ROOMCUR : (s.toneSet).ROOMCUR = s.ROOMCUR := by unfold State.toneSet; dsimp only; split <;> rfl
@[simp] theorem State.toneSet_WETG : (s.toneSet).WETG = s.WETG := by unfold State.toneSet; dsimp only; split <;> rfl
@[simp] theorem State.toneSet_DRYG : (s.toneSet).DRYG = s.DRYG := by unfold State.toneSet; dsimp only; split <;> rfl
@[simp] theorem State.toneSet_NFAULT : (s.toneSet).NFAULT = s.NFAULT := by unfold State.toneSet; dsimp only; split <;> rfl
@[simp] theorem State.toneSet_inbox : (s.toneSet).inbox = s.inbox := by unfold State.toneSet; dsimp only; split <;> rfl
@[simp] theorem State.toneSet_tickLen : (s.toneSet).tickLen = s.tickLen := by unfold State.toneSet; dsimp only; split <;> rfl
@[simp] theorem State.toneSet_readyM : (s.toneSet).readyM = s.readyM := by unfold State.toneSet; dsimp only; split <;> rfl
@[simp] theorem State.toneSet_readyI : (s.toneSet).readyI = s.readyI := by unfold State.toneSet; dsimp only; split <;> rfl
@[simp] theorem State.toneSet_portOut : (s.toneSet).portOut = s.portOut := by unfold State.toneSet; dsimp only; split <;> rfl
@[simp] theorem State.toneSet_audioOut : (s.toneSet).audioOut = s.audioOut := by unfold State.toneSet; dsimp only; split <;> rfl

/-! ### `toneProc` -/

@[simp] theorem State.toneProc_cfg (i : Nat) : (s.toneProc i).cfg = s.cfg := rfl
@[simp] theorem State.toneProc_S (i : Nat) : (s.toneProc i).S = s.S := rfl
@[simp] theorem State.toneProc_M (i : Nat) : (s.toneProc i).M = s.M := rfl
@[simp] theorem State.toneProc_A (i : Nat) : (s.toneProc i).A = s.A := rfl
@[simp] theorem State.toneProc_MV (i : Nat) : (s.toneProc i).MV = s.MV := rfl
@[simp] theorem State.toneProc_RQM (i : Nat) : (s.toneProc i).RQM = s.RQM := rfl
@[simp] theorem State.toneProc_RQI (i : Nat) : (s.toneProc i).RQI = s.RQI := rfl
@[simp] theorem State.toneProc_RQB (i : Nat) : (s.toneProc i).RQB = s.RQB := rfl
@[simp] theorem State.toneProc_CURM (i : Nat) : (s.toneProc i).CURM = s.CURM := rfl
@[simp] theorem State.toneProc_CURI (i : Nat) : (s.toneProc i).CURI = s.CURI := rfl
@[simp] theorem State.toneProc_CHAIN (i : Nat) : (s.toneProc i).CHAIN = s.CHAIN := rfl
@[simp] theorem State.toneProc_HCAUSE (i : Nat) : (s.toneProc i).HCAUSE = s.HCAUSE := rfl
@[simp] theorem State.toneProc_PHASE (i : Nat) : (s.toneProc i).PHASE = s.PHASE := rfl
@[simp] theorem State.toneProc_n (i : Nat) : (s.toneProc i).n = s.n := rfl
@[simp] theorem State.toneProc_X (i : Nat) : (s.toneProc i).X = s.X := rfl
@[simp] theorem State.toneProc_OUTL (i : Nat) : (s.toneProc i).OUTL = s.OUTL := rfl
@[simp] theorem State.toneProc_OUTR (i : Nat) : (s.toneProc i).OUTR = s.OUTR := rfl
@[simp] theorem State.toneProc_Z (i : Nat) : (s.toneProc i).Z = s.Z := rfl
@[simp] theorem State.toneProc_PART (i : Nat) : (s.toneProc i).PART = s.PART := rfl
@[simp] theorem State.toneProc_HIST (i : Nat) : (s.toneProc i).HIST = s.HIST := rfl
@[simp] theorem State.toneProc_WIDX (i : Nat) : (s.toneProc i).WIDX = s.WIDX := rfl
@[simp] theorem State.toneProc_OVL (i : Nat) : (s.toneProc i).OVL = s.OVL := rfl
@[simp] theorem State.toneProc_K (i : Nat) : (s.toneProc i).K = s.K := rfl
@[simp] theorem State.toneProc_WT (i : Nat) : (s.toneProc i).WT = s.WT := rfl
@[simp] theorem State.toneProc_h (i : Nat) : (s.toneProc i).h = s.h := rfl
@[simp] theorem State.toneProc_TMODE (i : Nat) : (s.toneProc i).TMODE = s.TMODE := rfl
@[simp] theorem State.toneProc_TALPHA (i : Nat) : (s.toneProc i).TALPHA = s.TALPHA := rfl
@[simp] theorem State.toneProc_DBUF (i : Nat) : (s.toneProc i).DBUF = s.DBUF := rfl
@[simp] theorem State.toneProc_WP (i : Nat) : (s.toneProc i).WP = s.WP := rfl
@[simp] theorem State.toneProc_CUR (i : Nat) : (s.toneProc i).CUR = s.CUR := rfl
@[simp] theorem State.toneProc_TGT (i : Nat) : (s.toneProc i).TGT = s.TGT := rfl
@[simp] theorem State.toneProc_FB (i : Nat) : (s.toneProc i).FB = s.FB := rfl
@[simp] theorem State.toneProc_ACT (i : Nat) : (s.toneProc i).ACT = s.ACT := rfl
@[simp] theorem State.toneProc_DLV (i : Nat) : (s.toneProc i).DLV = s.DLV := rfl
@[simp] theorem State.toneProc_TAP2 (i : Nat) : (s.toneProc i).TAP2 = s.TAP2 := rfl
@[simp] theorem State.toneProc_T2 (i : Nat) : (s.toneProc i).T2 = s.T2 := rfl
@[simp] theorem State.toneProc_REV (i : Nat) : (s.toneProc i).REV = s.REV := rfl
@[simp] theorem State.toneProc_G (i : Nat) : (s.toneProc i).G = s.G := rfl
@[simp] theorem State.toneProc_ROOMCUR (i : Nat) : (s.toneProc i).ROOMCUR = s.ROOMCUR := rfl
@[simp] theorem State.toneProc_WETG (i : Nat) : (s.toneProc i).WETG = s.WETG := rfl
@[simp] theorem State.toneProc_DRYG (i : Nat) : (s.toneProc i).DRYG = s.DRYG := rfl
@[simp] theorem State.toneProc_inbox (i : Nat) : (s.toneProc i).inbox = s.inbox := rfl
@[simp] theorem State.toneProc_tickLen (i : Nat) : (s.toneProc i).tickLen = s.tickLen := rfl
@[simp] theorem State.toneProc_readyM (i : Nat) : (s.toneProc i).readyM = s.readyM := rfl
@[simp] theorem State.toneProc_readyI (i : Nat) : (s.toneProc i).readyI = s.readyI := rfl
@[simp] theorem State.toneProc_portOut (i : Nat) : (s.toneProc i).portOut = s.portOut := rfl
@[simp] theorem State.toneProc_audioOut (i : Nat) : (s.toneProc i).audioOut = s.audioOut := rfl

/-! ### `dlySet` -/

@[simp] theorem State.dlySet_cfg : (s.dlySet).cfg = s.cfg := rfl
@[simp] theorem State.dlySet_S : (s.dlySet).S = s.S := rfl
@[simp] theorem State.dlySet_M : (s.dlySet).M = s.M := rfl
@[simp] theorem State.dlySet_A : (s.dlySet).A = s.A := rfl
@[simp] theorem State.dlySet_MV : (s.dlySet).MV = s.MV := rfl
@[simp] theorem State.dlySet_RQM : (s.dlySet).RQM = s.RQM := rfl
@[simp] theorem State.dlySet_RQI : (s.dlySet).RQI = s.RQI := rfl
@[simp] theorem State.dlySet_RQB : (s.dlySet).RQB = s.RQB := rfl
@[simp] theorem State.dlySet_CURM : (s.dlySet).CURM = s.CURM := rfl
@[simp] theorem State.dlySet_CURI : (s.dlySet).CURI = s.CURI := rfl
@[simp] theorem State.dlySet_CHAIN : (s.dlySet).CHAIN = s.CHAIN := rfl
@[simp] theorem State.dlySet_HCAUSE : (s.dlySet).HCAUSE = s.HCAUSE := rfl
@[simp] theorem State.dlySet_PHASE : (s.dlySet).PHASE = s.PHASE := rfl
@[simp] theorem State.dlySet_n : (s.dlySet).n = s.n := rfl
@[simp] theorem State.dlySet_X : (s.dlySet).X = s.X := rfl
@[simp] theorem State.dlySet_W : (s.dlySet).W = s.W := rfl
@[simp] theorem State.dlySet_OUTL : (s.dlySet).OUTL = s.OUTL := rfl
@[simp] theorem State.dlySet_OUTR : (s.dlySet).OUTR = s.OUTR := rfl
@[simp] theorem State.dlySet_Z : (s.dlySet).Z = s.Z := rfl
@[simp] theorem State.dlySet_PART : (s.dlySet).PART = s.PART := rfl
@[simp] theorem State.dlySet_HIST : (s.dlySet).HIST = s.HIST := rfl
@[simp] theorem State.dlySet_WIDX : (s.dlySet).WIDX = s.WIDX := rfl
@[simp] theorem State.dlySet_OVL : (s.dlySet).OVL = s.OVL := rfl
@[simp] theorem State.dlySet_K : (s.dlySet).K = s.K := rfl
@[simp] theorem State.dlySet_WT : (s.dlySet).WT = s.WT := rfl
@[simp] theorem State.dlySet_h : (s.dlySet).h = s.h := rfl
@[simp] theorem State.dlySet_TMODE : (s.dlySet).TMODE = s.TMODE := rfl
@[simp] theorem State.dlySet_TALPHA : (s.dlySet).TALPHA = s.TALPHA := rfl
@[simp] theorem State.dlySet_TF0 : (s.dlySet).TF0 = s.TF0 := rfl
@[simp] theorem State.dlySet_TF1 : (s.dlySet).TF1 = s.TF1 := rfl
@[simp] theorem State.dlySet_DBUF : (s.dlySet).DBUF = s.DBUF := rfl
@[simp] theorem State.dlySet_WP : (s.dlySet).WP = s.WP := rfl
@[simp] theorem State.dlySet_CUR : (s.dlySet).CUR = s.CUR := rfl
@[simp] theorem State.dlySet_TGT : (s.dlySet).TGT = s.A.DTIME := rfl
@[simp] theorem State.dlySet_FB : (s.dlySet).FB = s.A.DFB := rfl
@[simp] theorem State.dlySet_ACT : (s.dlySet).ACT = s.A.dlyActive := rfl
@[simp] theorem State.dlySet_DLV : (s.dlySet).DLV = s.A.DLEVEL := rfl
@[simp] theorem State.dlySet_TAP2 : (s.dlySet).TAP2 = s.A.dlyTap2 := rfl
@[simp] theorem State.dlySet_T2 : (s.dlySet).T2 = s.A.T2OFS := rfl
@[simp] theorem State.dlySet_REV : (s.dlySet).REV = s.REV := rfl
@[simp] theorem State.dlySet_G : (s.dlySet).G = s.G := rfl
@[simp] theorem State.dlySet_ROOMCUR : (s.dlySet).ROOMCUR = s.ROOMCUR := rfl
@[simp] theorem State.dlySet_WETG : (s.dlySet).WETG = s.WETG := rfl
@[simp] theorem State.dlySet_DRYG : (s.dlySet).DRYG = s.DRYG := rfl
@[simp] theorem State.dlySet_NFAULT : (s.dlySet).NFAULT = s.NFAULT := rfl
@[simp] theorem State.dlySet_inbox : (s.dlySet).inbox = s.inbox := rfl
@[simp] theorem State.dlySet_tickLen : (s.dlySet).tickLen = s.tickLen := rfl
@[simp] theorem State.dlySet_readyM : (s.dlySet).readyM = s.readyM := rfl
@[simp] theorem State.dlySet_readyI : (s.dlySet).readyI = s.readyI := rfl
@[simp] theorem State.dlySet_portOut : (s.dlySet).portOut = s.portOut := rfl
@[simp] theorem State.dlySet_audioOut : (s.dlySet).audioOut = s.audioOut := rfl

/-! ### `dlyAdvance` -/

@[simp] theorem State.dlyAdvance_cfg (x : NumWord) : (s.dlyAdvance x).cfg = s.cfg := rfl
@[simp] theorem State.dlyAdvance_S (x : NumWord) : (s.dlyAdvance x).S = s.S := rfl
@[simp] theorem State.dlyAdvance_M (x : NumWord) : (s.dlyAdvance x).M = s.M := rfl
@[simp] theorem State.dlyAdvance_A (x : NumWord) : (s.dlyAdvance x).A = s.A := rfl
@[simp] theorem State.dlyAdvance_MV (x : NumWord) : (s.dlyAdvance x).MV = s.MV := rfl
@[simp] theorem State.dlyAdvance_RQM (x : NumWord) : (s.dlyAdvance x).RQM = s.RQM := rfl
@[simp] theorem State.dlyAdvance_RQI (x : NumWord) : (s.dlyAdvance x).RQI = s.RQI := rfl
@[simp] theorem State.dlyAdvance_RQB (x : NumWord) : (s.dlyAdvance x).RQB = s.RQB := rfl
@[simp] theorem State.dlyAdvance_CURM (x : NumWord) : (s.dlyAdvance x).CURM = s.CURM := rfl
@[simp] theorem State.dlyAdvance_CURI (x : NumWord) : (s.dlyAdvance x).CURI = s.CURI := rfl
@[simp] theorem State.dlyAdvance_CHAIN (x : NumWord) : (s.dlyAdvance x).CHAIN = s.CHAIN := rfl
@[simp] theorem State.dlyAdvance_HCAUSE (x : NumWord) : (s.dlyAdvance x).HCAUSE = s.HCAUSE := rfl
@[simp] theorem State.dlyAdvance_PHASE (x : NumWord) : (s.dlyAdvance x).PHASE = s.PHASE := rfl
@[simp] theorem State.dlyAdvance_n (x : NumWord) : (s.dlyAdvance x).n = s.n := rfl
@[simp] theorem State.dlyAdvance_X (x : NumWord) : (s.dlyAdvance x).X = s.X := rfl
@[simp] theorem State.dlyAdvance_W (x : NumWord) : (s.dlyAdvance x).W = s.W := rfl
@[simp] theorem State.dlyAdvance_OUTL (x : NumWord) : (s.dlyAdvance x).OUTL = s.OUTL := rfl
@[simp] theorem State.dlyAdvance_OUTR (x : NumWord) : (s.dlyAdvance x).OUTR = s.OUTR := rfl
@[simp] theorem State.dlyAdvance_Z (x : NumWord) : (s.dlyAdvance x).Z = s.Z := rfl
@[simp] theorem State.dlyAdvance_PART (x : NumWord) : (s.dlyAdvance x).PART = s.PART := rfl
@[simp] theorem State.dlyAdvance_HIST (x : NumWord) : (s.dlyAdvance x).HIST = s.HIST := rfl
@[simp] theorem State.dlyAdvance_WIDX (x : NumWord) : (s.dlyAdvance x).WIDX = s.WIDX := rfl
@[simp] theorem State.dlyAdvance_OVL (x : NumWord) : (s.dlyAdvance x).OVL = s.OVL := rfl
@[simp] theorem State.dlyAdvance_K (x : NumWord) : (s.dlyAdvance x).K = s.K := rfl
@[simp] theorem State.dlyAdvance_WT (x : NumWord) : (s.dlyAdvance x).WT = s.WT := rfl
@[simp] theorem State.dlyAdvance_h (x : NumWord) : (s.dlyAdvance x).h = s.h := rfl
@[simp] theorem State.dlyAdvance_TMODE (x : NumWord) : (s.dlyAdvance x).TMODE = s.TMODE := rfl
@[simp] theorem State.dlyAdvance_TALPHA (x : NumWord) : (s.dlyAdvance x).TALPHA = s.TALPHA := rfl
@[simp] theorem State.dlyAdvance_TF0 (x : NumWord) : (s.dlyAdvance x).TF0 = s.TF0 := rfl
@[simp] theorem State.dlyAdvance_TF1 (x : NumWord) : (s.dlyAdvance x).TF1 = s.TF1 := rfl
@[simp] theorem State.dlyAdvance_TGT (x : NumWord) : (s.dlyAdvance x).TGT = s.TGT := rfl
@[simp] theorem State.dlyAdvance_FB (x : NumWord) : (s.dlyAdvance x).FB = s.FB := rfl
@[simp] theorem State.dlyAdvance_ACT (x : NumWord) : (s.dlyAdvance x).ACT = s.ACT := rfl
@[simp] theorem State.dlyAdvance_DLV (x : NumWord) : (s.dlyAdvance x).DLV = s.DLV := rfl
@[simp] theorem State.dlyAdvance_TAP2 (x : NumWord) : (s.dlyAdvance x).TAP2 = s.TAP2 := rfl
@[simp] theorem State.dlyAdvance_T2 (x : NumWord) : (s.dlyAdvance x).T2 = s.T2 := rfl
@[simp] theorem State.dlyAdvance_REV (x : NumWord) : (s.dlyAdvance x).REV = s.REV := rfl
@[simp] theorem State.dlyAdvance_G (x : NumWord) : (s.dlyAdvance x).G = s.G := rfl
@[simp] theorem State.dlyAdvance_ROOMCUR (x : NumWord) : (s.dlyAdvance x).ROOMCUR = s.ROOMCUR := rfl
@[simp] theorem State.dlyAdvance_WETG (x : NumWord) : (s.dlyAdvance x).WETG = s.WETG := rfl
@[simp] theorem State.dlyAdvance_DRYG (x : NumWord) : (s.dlyAdvance x).DRYG = s.DRYG := rfl
@[simp] theorem State.dlyAdvance_inbox (x : NumWord) : (s.dlyAdvance x).inbox = s.inbox := rfl
@[simp] theorem State.dlyAdvance_tickLen (x : NumWord) : (s.dlyAdvance x).tickLen = s.tickLen := rfl
@[simp] theorem State.dlyAdvance_readyM (x : NumWord) : (s.dlyAdvance x).readyM = s.readyM := rfl
@[simp] theorem State.dlyAdvance_readyI (x : NumWord) : (s.dlyAdvance x).readyI = s.readyI := rfl
@[simp] theorem State.dlyAdvance_portOut (x : NumWord) : (s.dlyAdvance x).portOut = s.portOut := rfl
@[simp] theorem State.dlyAdvance_audioOut (x : NumWord) : (s.dlyAdvance x).audioOut = s.audioOut := rfl

/-! ### `dlyProc` -/

@[simp] theorem State.dlyProc_cfg (i : Nat) : (s.dlyProc i).cfg = s.cfg := rfl
@[simp] theorem State.dlyProc_S (i : Nat) : (s.dlyProc i).S = s.S := rfl
@[simp] theorem State.dlyProc_M (i : Nat) : (s.dlyProc i).M = s.M := rfl
@[simp] theorem State.dlyProc_A (i : Nat) : (s.dlyProc i).A = s.A := rfl
@[simp] theorem State.dlyProc_MV (i : Nat) : (s.dlyProc i).MV = s.MV := rfl
@[simp] theorem State.dlyProc_RQM (i : Nat) : (s.dlyProc i).RQM = s.RQM := rfl
@[simp] theorem State.dlyProc_RQI (i : Nat) : (s.dlyProc i).RQI = s.RQI := rfl
@[simp] theorem State.dlyProc_RQB (i : Nat) : (s.dlyProc i).RQB = s.RQB := rfl
@[simp] theorem State.dlyProc_CURM (i : Nat) : (s.dlyProc i).CURM = s.CURM := rfl
@[simp] theorem State.dlyProc_CURI (i : Nat) : (s.dlyProc i).CURI = s.CURI := rfl
@[simp] theorem State.dlyProc_CHAIN (i : Nat) : (s.dlyProc i).CHAIN = s.CHAIN := rfl
@[simp] theorem State.dlyProc_HCAUSE (i : Nat) : (s.dlyProc i).HCAUSE = s.HCAUSE := rfl
@[simp] theorem State.dlyProc_PHASE (i : Nat) : (s.dlyProc i).PHASE = s.PHASE := rfl
@[simp] theorem State.dlyProc_n (i : Nat) : (s.dlyProc i).n = s.n := rfl
@[simp] theorem State.dlyProc_X (i : Nat) : (s.dlyProc i).X = s.X := rfl
@[simp] theorem State.dlyProc_OUTL (i : Nat) : (s.dlyProc i).OUTL = s.OUTL := rfl
@[simp] theorem State.dlyProc_OUTR (i : Nat) : (s.dlyProc i).OUTR = s.OUTR := rfl
@[simp] theorem State.dlyProc_Z (i : Nat) : (s.dlyProc i).Z = s.Z := rfl
@[simp] theorem State.dlyProc_PART (i : Nat) : (s.dlyProc i).PART = s.PART := rfl
@[simp] theorem State.dlyProc_HIST (i : Nat) : (s.dlyProc i).HIST = s.HIST := rfl
@[simp] theorem State.dlyProc_WIDX (i : Nat) : (s.dlyProc i).WIDX = s.WIDX := rfl
@[simp] theorem State.dlyProc_OVL (i : Nat) : (s.dlyProc i).OVL = s.OVL := rfl
@[simp] theorem State.dlyProc_K (i : Nat) : (s.dlyProc i).K = s.K := rfl
@[simp] theorem State.dlyProc_WT (i : Nat) : (s.dlyProc i).WT = s.WT := rfl
@[simp] theorem State.dlyProc_h (i : Nat) : (s.dlyProc i).h = s.h := rfl
@[simp] theorem State.dlyProc_TMODE (i : Nat) : (s.dlyProc i).TMODE = s.TMODE := rfl
@[simp] theorem State.dlyProc_TALPHA (i : Nat) : (s.dlyProc i).TALPHA = s.TALPHA := rfl
@[simp] theorem State.dlyProc_TF0 (i : Nat) : (s.dlyProc i).TF0 = s.TF0 := rfl
@[simp] theorem State.dlyProc_TF1 (i : Nat) : (s.dlyProc i).TF1 = s.TF1 := rfl
@[simp] theorem State.dlyProc_TGT (i : Nat) : (s.dlyProc i).TGT = s.TGT := rfl
@[simp] theorem State.dlyProc_FB (i : Nat) : (s.dlyProc i).FB = s.FB := rfl
@[simp] theorem State.dlyProc_ACT (i : Nat) : (s.dlyProc i).ACT = s.ACT := rfl
@[simp] theorem State.dlyProc_DLV (i : Nat) : (s.dlyProc i).DLV = s.DLV := rfl
@[simp] theorem State.dlyProc_TAP2 (i : Nat) : (s.dlyProc i).TAP2 = s.TAP2 := rfl
@[simp] theorem State.dlyProc_T2 (i : Nat) : (s.dlyProc i).T2 = s.T2 := rfl
@[simp] theorem State.dlyProc_REV (i : Nat) : (s.dlyProc i).REV = s.REV := rfl
@[simp] theorem State.dlyProc_G (i : Nat) : (s.dlyProc i).G = s.G := rfl
@[simp] theorem State.dlyProc_ROOMCUR (i : Nat) : (s.dlyProc i).ROOMCUR = s.ROOMCUR := rfl
@[simp] theorem State.dlyProc_WETG (i : Nat) : (s.dlyProc i).WETG = s.WETG := rfl
@[simp] theorem State.dlyProc_DRYG (i : Nat) : (s.dlyProc i).DRYG = s.DRYG := rfl
@[simp] theorem State.dlyProc_inbox (i : Nat) : (s.dlyProc i).inbox = s.inbox := rfl
@[simp] theorem State.dlyProc_tickLen (i : Nat) : (s.dlyProc i).tickLen = s.tickLen := rfl
@[simp] theorem State.dlyProc_readyM (i : Nat) : (s.dlyProc i).readyM = s.readyM := rfl
@[simp] theorem State.dlyProc_readyI (i : Nat) : (s.dlyProc i).readyI = s.readyI := rfl
@[simp] theorem State.dlyProc_portOut (i : Nat) : (s.dlyProc i).portOut = s.portOut := rfl
@[simp] theorem State.dlyProc_audioOut (i : Nat) : (s.dlyProc i).audioOut = s.audioOut := rfl

/-! ### `revRoom` -/

@[simp] theorem State.revRoom_cfg : (s.revRoom).cfg = s.cfg := rfl
@[simp] theorem State.revRoom_S : (s.revRoom).S = s.S := rfl
@[simp] theorem State.revRoom_M : (s.revRoom).M = s.M := rfl
@[simp] theorem State.revRoom_A : (s.revRoom).A = s.A := rfl
@[simp] theorem State.revRoom_MV : (s.revRoom).MV = s.MV := rfl
@[simp] theorem State.revRoom_RQM : (s.revRoom).RQM = s.RQM := rfl
@[simp] theorem State.revRoom_RQI : (s.revRoom).RQI = s.RQI := rfl
@[simp] theorem State.revRoom_RQB : (s.revRoom).RQB = s.RQB := rfl
@[simp] theorem State.revRoom_CURM : (s.revRoom).CURM = s.CURM := rfl
@[simp] theorem State.revRoom_CURI : (s.revRoom).CURI = s.CURI := rfl
@[simp] theorem State.revRoom_CHAIN : (s.revRoom).CHAIN = s.CHAIN := rfl
@[simp] theorem State.revRoom_HCAUSE : (s.revRoom).HCAUSE = s.HCAUSE := rfl
@[simp] theorem State.revRoom_PHASE : (s.revRoom).PHASE = s.PHASE := rfl
@[simp] theorem State.revRoom_n : (s.revRoom).n = s.n := rfl
@[simp] theorem State.revRoom_X : (s.revRoom).X = s.X := rfl
@[simp] theorem State.revRoom_W : (s.revRoom).W = s.W := rfl
@[simp] theorem State.revRoom_OUTL : (s.revRoom).OUTL = s.OUTL := rfl
@[simp] theorem State.revRoom_OUTR : (s.revRoom).OUTR = s.OUTR := rfl
@[simp] theorem State.revRoom_Z : (s.revRoom).Z = s.Z := rfl
@[simp] theorem State.revRoom_PART : (s.revRoom).PART = s.PART := rfl
@[simp] theorem State.revRoom_HIST : (s.revRoom).HIST = s.HIST := rfl
@[simp] theorem State.revRoom_WIDX : (s.revRoom).WIDX = s.WIDX := rfl
@[simp] theorem State.revRoom_OVL : (s.revRoom).OVL = s.OVL := rfl
@[simp] theorem State.revRoom_K : (s.revRoom).K = s.K := rfl
@[simp] theorem State.revRoom_WT : (s.revRoom).WT = s.WT := rfl
@[simp] theorem State.revRoom_h : (s.revRoom).h = s.h := rfl
@[simp] theorem State.revRoom_TMODE : (s.revRoom).TMODE = s.TMODE := rfl
@[simp] theorem State.revRoom_TALPHA : (s.revRoom).TALPHA = s.TALPHA := rfl
@[simp] theorem State.revRoom_TF0 : (s.revRoom).TF0 = s.TF0 := rfl
@[simp] theorem State.revRoom_TF1 : (s.revRoom).TF1 = s.TF1 := rfl
@[simp] theorem State.revRoom_DBUF : (s.revRoom).DBUF = s.DBUF := rfl
@[simp] theorem State.revRoom_WP : (s.revRoom).WP = s.WP := rfl
@[simp] theorem State.revRoom_CUR : (s.revRoom).CUR = s.CUR := rfl
@[simp] theorem State.revRoom_TGT : (s.revRoom).TGT = s.TGT := rfl
@[simp] theorem State.revRoom_FB : (s.revRoom).FB = s.FB := rfl
@[simp] theorem State.revRoom_ACT : (s.revRoom).ACT = s.ACT := rfl
@[simp] theorem State.revRoom_DLV : (s.revRoom).DLV = s.DLV := rfl
@[simp] theorem State.revRoom_TAP2 : (s.revRoom).TAP2 = s.TAP2 := rfl
@[simp] theorem State.revRoom_T2 : (s.revRoom).T2 = s.T2 := rfl
@[simp] theorem State.revRoom_G : (s.revRoom).G = s.G := rfl
@[simp] theorem State.revRoom_ROOMCUR : (s.revRoom).ROOMCUR = some s.A.ROOM := rfl
@[simp] theorem State.revRoom_WETG : (s.revRoom).WETG = s.WETG := rfl
@[simp] theorem State.revRoom_DRYG : (s.revRoom).DRYG = s.DRYG := rfl
@[simp] theorem State.revRoom_NFAULT : (s.revRoom).NFAULT = s.NFAULT := rfl
@[simp] theorem State.revRoom_inbox : (s.revRoom).inbox = s.inbox := rfl
@[simp] theorem State.revRoom_tickLen : (s.revRoom).tickLen = s.tickLen := rfl
@[simp] theorem State.revRoom_readyM : (s.revRoom).readyM = s.readyM := rfl
@[simp] theorem State.revRoom_readyI : (s.revRoom).readyI = s.readyI := rfl
@[simp] theorem State.revRoom_portOut : (s.revRoom).portOut = s.portOut := rfl
@[simp] theorem State.revRoom_audioOut : (s.revRoom).audioOut = s.audioOut := rfl

/-! ### `revDecay` -/

@[simp] theorem State.revDecay_cfg : (s.revDecay).cfg = s.cfg := rfl
@[simp] theorem State.revDecay_S : (s.revDecay).S = s.S := rfl
@[simp] theorem State.revDecay_M : (s.revDecay).M = s.M := rfl
@[simp] theorem State.revDecay_A : (s.revDecay).A = s.A := rfl
@[simp] theorem State.revDecay_MV : (s.revDecay).MV = s.MV := rfl
@[simp] theorem State.revDecay_RQM : (s.revDecay).RQM = s.RQM := rfl
@[simp] theorem State.revDecay_RQI : (s.revDecay).RQI = s.RQI := rfl
@[simp] theorem State.revDecay_RQB : (s.revDecay).RQB = s.RQB := rfl
@[simp] theorem State.revDecay_CURM : (s.revDecay).CURM = s.CURM := rfl
@[simp] theorem State.revDecay_CURI : (s.revDecay).CURI = s.CURI := rfl
@[simp] theorem State.revDecay_CHAIN : (s.revDecay).CHAIN = s.CHAIN := rfl
@[simp] theorem State.revDecay_HCAUSE : (s.revDecay).HCAUSE = s.HCAUSE := rfl
@[simp] theorem State.revDecay_PHASE : (s.revDecay).PHASE = s.PHASE := rfl
@[simp] theorem State.revDecay_n : (s.revDecay).n = s.n := rfl
@[simp] theorem State.revDecay_X : (s.revDecay).X = s.X := rfl
@[simp] theorem State.revDecay_W : (s.revDecay).W = s.W := rfl
@[simp] theorem State.revDecay_OUTL : (s.revDecay).OUTL = s.OUTL := rfl
@[simp] theorem State.revDecay_OUTR : (s.revDecay).OUTR = s.OUTR := rfl
@[simp] theorem State.revDecay_Z : (s.revDecay).Z = s.Z := rfl
@[simp] theorem State.revDecay_PART : (s.revDecay).PART = s.PART := rfl
@[simp] theorem State.revDecay_HIST : (s.revDecay).HIST = s.HIST := rfl
@[simp] theorem State.revDecay_WIDX : (s.revDecay).WIDX = s.WIDX := rfl
@[simp] theorem State.revDecay_OVL : (s.revDecay).OVL = s.OVL := rfl
@[simp] theorem State.revDecay_K : (s.revDecay).K = s.K := rfl
@[simp] theorem State.revDecay_WT : (s.revDecay).WT = s.WT := rfl
@[simp] theorem State.revDecay_h : (s.revDecay).h = s.h := rfl
@[simp] theorem State.revDecay_TMODE : (s.revDecay).TMODE = s.TMODE := rfl
@[simp] theorem State.revDecay_TALPHA : (s.revDecay).TALPHA = s.TALPHA := rfl
@[simp] theorem State.revDecay_TF0 : (s.revDecay).TF0 = s.TF0 := rfl
@[simp] theorem State.revDecay_TF1 : (s.revDecay).TF1 = s.TF1 := rfl
@[simp] theorem State.revDecay_DBUF : (s.revDecay).DBUF = s.DBUF := rfl
@[simp] theorem State.revDecay_WP : (s.revDecay).WP = s.WP := rfl
@[simp] theorem State.revDecay_CUR : (s.revDecay).CUR = s.CUR := rfl
@[simp] theorem State.revDecay_TGT : (s.revDecay).TGT = s.TGT := rfl
@[simp] theorem State.revDecay_FB : (s.revDecay).FB = s.FB := rfl
@[simp] theorem State.revDecay_ACT : (s.revDecay).ACT = s.ACT := rfl
@[simp] theorem State.revDecay_DLV : (s.revDecay).DLV = s.DLV := rfl
@[simp] theorem State.revDecay_TAP2 : (s.revDecay).TAP2 = s.TAP2 := rfl
@[simp] theorem State.revDecay_T2 : (s.revDecay).T2 = s.T2 := rfl
@[simp] theorem State.revDecay_REV : (s.revDecay).REV = s.REV := rfl
@[simp] theorem State.revDecay_G : (s.revDecay).G = s.A.DECAY := rfl
@[simp] theorem State.revDecay_ROOMCUR : (s.revDecay).ROOMCUR = s.ROOMCUR := rfl
@[simp] theorem State.revDecay_WETG : (s.revDecay).WETG = s.WETG := rfl
@[simp] theorem State.revDecay_DRYG : (s.revDecay).DRYG = s.DRYG := rfl
@[simp] theorem State.revDecay_NFAULT : (s.revDecay).NFAULT = s.NFAULT := rfl
@[simp] theorem State.revDecay_inbox : (s.revDecay).inbox = s.inbox := rfl
@[simp] theorem State.revDecay_tickLen : (s.revDecay).tickLen = s.tickLen := rfl
@[simp] theorem State.revDecay_readyM : (s.revDecay).readyM = s.readyM := rfl
@[simp] theorem State.revDecay_readyI : (s.revDecay).readyI = s.readyI := rfl
@[simp] theorem State.revDecay_portOut : (s.revDecay).portOut = s.portOut := rfl
@[simp] theorem State.revDecay_audioOut : (s.revDecay).audioOut = s.audioOut := rfl

/-! ### `revAdvance` -/

@[simp] theorem State.revAdvance_cfg (x : NumWord) : (s.revAdvance x).cfg = s.cfg := rfl
@[simp] theorem State.revAdvance_S (x : NumWord) : (s.revAdvance x).S = s.S := rfl
@[simp] theorem State.revAdvance_M (x : NumWord) : (s.revAdvance x).M = s.M := rfl
@[simp] theorem State.revAdvance_A (x : NumWord) : (s.revAdvance x).A = s.A := rfl
@[simp] theorem State.revAdvance_MV (x : NumWord) : (s.revAdvance x).MV = s.MV := rfl
@[simp] theorem State.revAdvance_RQM (x : NumWord) : (s.revAdvance x).RQM = s.RQM := rfl
@[simp] theorem State.revAdvance_RQI (x : NumWord) : (s.revAdvance x).RQI = s.RQI := rfl
@[simp] theorem State.revAdvance_RQB (x : NumWord) : (s.revAdvance x).RQB = s.RQB := rfl
@[simp] theorem State.revAdvance_CURM (x : NumWord) : (s.revAdvance x).CURM = s.CURM := rfl
@[simp] theorem State.revAdvance_CURI (x : NumWord) : (s.revAdvance x).CURI = s.CURI := rfl
@[simp] theorem State.revAdvance_CHAIN (x : NumWord) : (s.revAdvance x).CHAIN = s.CHAIN := rfl
@[simp] theorem State.revAdvance_HCAUSE (x : NumWord) : (s.revAdvance x).HCAUSE = s.HCAUSE := rfl
@[simp] theorem State.revAdvance_PHASE (x : NumWord) : (s.revAdvance x).PHASE = s.PHASE := rfl
@[simp] theorem State.revAdvance_n (x : NumWord) : (s.revAdvance x).n = s.n := rfl
@[simp] theorem State.revAdvance_X (x : NumWord) : (s.revAdvance x).X = s.X := rfl
@[simp] theorem State.revAdvance_W (x : NumWord) : (s.revAdvance x).W = s.W := rfl
@[simp] theorem State.revAdvance_OUTL (x : NumWord) : (s.revAdvance x).OUTL = s.OUTL := rfl
@[simp] theorem State.revAdvance_OUTR (x : NumWord) : (s.revAdvance x).OUTR = s.OUTR := rfl
@[simp] theorem State.revAdvance_Z (x : NumWord) : (s.revAdvance x).Z = s.Z := rfl
@[simp] theorem State.revAdvance_PART (x : NumWord) : (s.revAdvance x).PART = s.PART := rfl
@[simp] theorem State.revAdvance_HIST (x : NumWord) : (s.revAdvance x).HIST = s.HIST := rfl
@[simp] theorem State.revAdvance_WIDX (x : NumWord) : (s.revAdvance x).WIDX = s.WIDX := rfl
@[simp] theorem State.revAdvance_OVL (x : NumWord) : (s.revAdvance x).OVL = s.OVL := rfl
@[simp] theorem State.revAdvance_K (x : NumWord) : (s.revAdvance x).K = s.K := rfl
@[simp] theorem State.revAdvance_WT (x : NumWord) : (s.revAdvance x).WT = s.WT := rfl
@[simp] theorem State.revAdvance_h (x : NumWord) : (s.revAdvance x).h = s.h := rfl
@[simp] theorem State.revAdvance_TMODE (x : NumWord) : (s.revAdvance x).TMODE = s.TMODE := rfl
@[simp] theorem State.revAdvance_TALPHA (x : NumWord) : (s.revAdvance x).TALPHA = s.TALPHA := rfl
@[simp] theorem State.revAdvance_TF0 (x : NumWord) : (s.revAdvance x).TF0 = s.TF0 := rfl
@[simp] theorem State.revAdvance_TF1 (x : NumWord) : (s.revAdvance x).TF1 = s.TF1 := rfl
@[simp] theorem State.revAdvance_DBUF (x : NumWord) : (s.revAdvance x).DBUF = s.DBUF := rfl
@[simp] theorem State.revAdvance_WP (x : NumWord) : (s.revAdvance x).WP = s.WP := rfl
@[simp] theorem State.revAdvance_CUR (x : NumWord) : (s.revAdvance x).CUR = s.CUR := rfl
@[simp] theorem State.revAdvance_TGT (x : NumWord) : (s.revAdvance x).TGT = s.TGT := rfl
@[simp] theorem State.revAdvance_FB (x : NumWord) : (s.revAdvance x).FB = s.FB := rfl
@[simp] theorem State.revAdvance_ACT (x : NumWord) : (s.revAdvance x).ACT = s.ACT := rfl
@[simp] theorem State.revAdvance_DLV (x : NumWord) : (s.revAdvance x).DLV = s.DLV := rfl
@[simp] theorem State.revAdvance_TAP2 (x : NumWord) : (s.revAdvance x).TAP2 = s.TAP2 := rfl
@[simp] theorem State.revAdvance_T2 (x : NumWord) : (s.revAdvance x).T2 = s.T2 := rfl
@[simp] theorem State.revAdvance_G (x : NumWord) : (s.revAdvance x).G = s.G := rfl
@[simp] theorem State.revAdvance_ROOMCUR (x : NumWord) : (s.revAdvance x).ROOMCUR = s.ROOMCUR := rfl
@[simp] theorem State.revAdvance_WETG (x : NumWord) : (s.revAdvance x).WETG = s.WETG := rfl
@[simp] theorem State.revAdvance_DRYG (x : NumWord) : (s.revAdvance x).DRYG = s.DRYG := rfl
@[simp] theorem State.revAdvance_inbox (x : NumWord) : (s.revAdvance x).inbox = s.inbox := rfl
@[simp] theorem State.revAdvance_tickLen (x : NumWord) : (s.revAdvance x).tickLen = s.tickLen := rfl
@[simp] theorem State.revAdvance_readyM (x : NumWord) : (s.revAdvance x).readyM = s.readyM := rfl
@[simp] theorem State.revAdvance_readyI (x : NumWord) : (s.revAdvance x).readyI = s.readyI := rfl
@[simp] theorem State.revAdvance_portOut (x : NumWord) : (s.revAdvance x).portOut = s.portOut := rfl
@[simp] theorem State.revAdvance_audioOut (x : NumWord) : (s.revAdvance x).audioOut = s.audioOut := rfl

/-! ### `revProc` -/

@[simp] theorem State.revProc_cfg (i : Nat) : (s.revProc i).cfg = s.cfg := by unfold State.revProc; split <;> rfl
@[simp] theorem State.revProc_S (i : Nat) : (s.revProc i).S = s.S := by unfold State.revProc; split <;> rfl
@[simp] theorem State.revProc_M (i : Nat) : (s.revProc i).M = s.M := by unfold State.revProc; split <;> rfl
@[simp] theorem State.revProc_A (i : Nat) : (s.revProc i).A = s.A := by unfold State.revProc; split <;> rfl
@[simp] theorem State.revProc_MV (i : Nat) : (s.revProc i).MV = s.MV := by unfold State.revProc; split <;> rfl
@[simp] theorem State.revProc_RQM (i : Nat) : (s.revProc i).RQM = s.RQM := by unfold State.revProc; split <;> rfl
@[simp] theorem State.revProc_RQI (i : Nat) : (s.revProc i).RQI = s.RQI := by unfold State.revProc; split <;> rfl
@[simp] theorem State.revProc_RQB (i : Nat) : (s.revProc i).RQB = s.RQB := by unfold State.revProc; split <;> rfl
@[simp] theorem State.revProc_CURM (i : Nat) : (s.revProc i).CURM = s.CURM := by unfold State.revProc; split <;> rfl
@[simp] theorem State.revProc_CURI (i : Nat) : (s.revProc i).CURI = s.CURI := by unfold State.revProc; split <;> rfl
@[simp] theorem State.revProc_CHAIN (i : Nat) : (s.revProc i).CHAIN = s.CHAIN := by unfold State.revProc; split <;> rfl
@[simp] theorem State.revProc_HCAUSE (i : Nat) : (s.revProc i).HCAUSE = s.HCAUSE := by unfold State.revProc; split <;> rfl
@[simp] theorem State.revProc_PHASE (i : Nat) : (s.revProc i).PHASE = s.PHASE := by unfold State.revProc; split <;> rfl
@[simp] theorem State.revProc_n (i : Nat) : (s.revProc i).n = s.n := by unfold State.revProc; split <;> rfl
@[simp] theorem State.revProc_X (i : Nat) : (s.revProc i).X = s.X := by unfold State.revProc; split <;> rfl
@[simp] theorem State.revProc_OUTL (i : Nat) : (s.revProc i).OUTL = s.OUTL := by unfold State.revProc; split <;> rfl
@[simp] theorem State.revProc_OUTR (i : Nat) : (s.revProc i).OUTR = s.OUTR := by unfold State.revProc; split <;> rfl
@[simp] theorem State.revProc_Z (i : Nat) : (s.revProc i).Z = s.Z := by unfold State.revProc; split <;> rfl
@[simp] theorem State.revProc_PART (i : Nat) : (s.revProc i).PART = s.PART := by unfold State.revProc; split <;> rfl
@[simp] theorem State.revProc_HIST (i : Nat) : (s.revProc i).HIST = s.HIST := by unfold State.revProc; split <;> rfl
@[simp] theorem State.revProc_WIDX (i : Nat) : (s.revProc i).WIDX = s.WIDX := by unfold State.revProc; split <;> rfl
@[simp] theorem State.revProc_OVL (i : Nat) : (s.revProc i).OVL = s.OVL := by unfold State.revProc; split <;> rfl
@[simp] theorem State.revProc_K (i : Nat) : (s.revProc i).K = s.K := by unfold State.revProc; split <;> rfl
@[simp] theorem State.revProc_WT (i : Nat) : (s.revProc i).WT = s.WT := by unfold State.revProc; split <;> rfl
@[simp] theorem State.revProc_h (i : Nat) : (s.revProc i).h = s.h := by unfold State.revProc; split <;> rfl
@[simp] theorem State.revProc_TMODE (i : Nat) : (s.revProc i).TMODE = s.TMODE := by unfold State.revProc; split <;> rfl
@[simp] theorem State.revProc_TALPHA (i : Nat) : (s.revProc i).TALPHA = s.TALPHA := by unfold State.revProc; split <;> rfl
@[simp] theorem State.revProc_TF0 (i : Nat) : (s.revProc i).TF0 = s.TF0 := by unfold State.revProc; split <;> rfl
@[simp] theorem State.revProc_TF1 (i : Nat) : (s.revProc i).TF1 = s.TF1 := by unfold State.revProc; split <;> rfl
@[simp] theorem State.revProc_DBUF (i : Nat) : (s.revProc i).DBUF = s.DBUF := by unfold State.revProc; split <;> rfl
@[simp] theorem State.revProc_WP (i : Nat) : (s.revProc i).WP = s.WP := by unfold State.revProc; split <;> rfl
@[simp] theorem State.revProc_CUR (i : Nat) : (s.revProc i).CUR = s.CUR := by unfold State.revProc; split <;> rfl
@[simp] theorem State.revProc_TGT (i : Nat) : (s.revProc i).TGT = s.TGT := by unfold State.revProc; split <;> rfl
@[simp] theorem State.revProc_FB (i : Nat) : (s.revProc i).FB = s.FB := by unfold State.revProc; split <;> rfl
@[simp] theorem State.revProc_ACT (i : Nat) : (s.revProc i).ACT = s.ACT := by unfold State.revProc; split <;> rfl
@[simp] theorem State.revProc_DLV (i : Nat) : (s.revProc i).DLV = s.DLV := by unfold State.revProc; split <;> rfl
@[simp] theorem State.revProc_TAP2 (i : Nat) : (s.revProc i).TAP2 = s.TAP2 := by unfold State.revProc; split <;> rfl
@[simp] theorem State.revProc_T2 (i : Nat) : (s.revProc i).T2 = s.T2 := by unfold State.revProc; split <;> rfl
@[simp] theorem State.revProc_G (i : Nat) : (s.revProc i).G = s.G := by unfold State.revProc; split <;> rfl
@[simp] theorem State.revProc_ROOMCUR (i : Nat) : (s.revProc i).ROOMCUR = s.ROOMCUR := by unfold State.revProc; split <;> rfl
@[simp] theorem State.revProc_WETG (i : Nat) : (s.revProc i).WETG = s.WETG := by unfold State.revProc; split <;> rfl
@[simp] theorem State.revProc_DRYG (i : Nat) : (s.revProc i).DRYG = s.DRYG := by unfold State.revProc; split <;> rfl
@[simp] theorem State.revProc_inbox (i : Nat) : (s.revProc i).inbox = s.inbox := by unfold State.revProc; split <;> rfl
@[simp] theorem State.revProc_tickLen (i : Nat) : (s.revProc i).tickLen = s.tickLen := by unfold State.revProc; split <;> rfl
@[simp] theorem State.revProc_readyM (i : Nat) : (s.revProc i).readyM = s.readyM := by unfold State.revProc; split <;> rfl
@[simp] theorem State.revProc_readyI (i : Nat) : (s.revProc i).readyI = s.readyI := by unfold State.revProc; split <;> rfl
@[simp] theorem State.revProc_portOut (i : Nat) : (s.revProc i).portOut = s.portOut := by unfold State.revProc; split <;> rfl
@[simp] theorem State.revProc_audioOut (i : Nat) : (s.revProc i).audioOut = s.audioOut := by unfold State.revProc; split <;> rfl

/-! ### `mixSet` -/

@[simp] theorem State.mixSet_cfg : (s.mixSet).cfg = s.cfg := rfl
@[simp] theorem State.mixSet_S : (s.mixSet).S = s.S := rfl
@[simp] theorem State.mixSet_M : (s.mixSet).M = s.M := rfl
@[simp] theorem State.mixSet_A : (s.mixSet).A = s.A := rfl
@[simp] theorem State.mixSet_MV : (s.mixSet).MV = s.MV := rfl
@[simp] theorem State.mixSet_RQM : (s.mixSet).RQM = s.RQM := rfl
@[simp] theorem State.mixSet_RQI : (s.mixSet).RQI = s.RQI := rfl
@[simp] theorem State.mixSet_RQB : (s.mixSet).RQB = s.RQB := rfl
@[simp] theorem State.mixSet_CURM : (s.mixSet).CURM = s.CURM := rfl
@[simp] theorem State.mixSet_CURI : (s.mixSet).CURI = s.CURI := rfl
@[simp] theorem State.mixSet_CHAIN : (s.mixSet).CHAIN = s.CHAIN := rfl
@[simp] theorem State.mixSet_HCAUSE : (s.mixSet).HCAUSE = s.HCAUSE := rfl
@[simp] theorem State.mixSet_PHASE : (s.mixSet).PHASE = s.PHASE := rfl
@[simp] theorem State.mixSet_n : (s.mixSet).n = s.n := rfl
@[simp] theorem State.mixSet_X : (s.mixSet).X = s.X := rfl
@[simp] theorem State.mixSet_W : (s.mixSet).W = s.W := rfl
@[simp] theorem State.mixSet_OUTL : (s.mixSet).OUTL = s.OUTL := rfl
@[simp] theorem State.mixSet_OUTR : (s.mixSet).OUTR = s.OUTR := rfl
@[simp] theorem State.mixSet_Z : (s.mixSet).Z = s.Z := rfl
@[simp] theorem State.mixSet_PART : (s.mixSet).PART = s.PART := rfl
@[simp] theorem State.mixSet_HIST : (s.mixSet).HIST = s.HIST := rfl
@[simp] theorem State.mixSet_WIDX : (s.mixSet).WIDX = s.WIDX := rfl
@[simp] theorem State.mixSet_OVL : (s.mixSet).OVL = s.OVL := rfl
@[simp] theorem State.mixSet_K : (s.mixSet).K = s.K := rfl
@[simp] theorem State.mixSet_WT : (s.mixSet).WT = s.WT := rfl
@[simp] theorem State.mixSet_h : (s.mixSet).h = s.h := rfl
@[simp] theorem State.mixSet_TMODE : (s.mixSet).TMODE = s.TMODE := rfl
@[simp] theorem State.mixSet_TALPHA : (s.mixSet).TALPHA = s.TALPHA := rfl
@[simp] theorem State.mixSet_TF0 : (s.mixSet).TF0 = s.TF0 := rfl
@[simp] theorem State.mixSet_TF1 : (s.mixSet).TF1 = s.TF1 := rfl
@[simp] theorem State.mixSet_DBUF : (s.mixSet).DBUF = s.DBUF := rfl
@[simp] theorem State.mixSet_WP : (s.mixSet).WP = s.WP := rfl
@[simp] theorem State.mixSet_CUR : (s.mixSet).CUR = s.CUR := rfl
@[simp] theorem State.mixSet_TGT : (s.mixSet).TGT = s.TGT := rfl
@[simp] theorem State.mixSet_FB : (s.mixSet).FB = s.FB := rfl
@[simp] theorem State.mixSet_ACT : (s.mixSet).ACT = s.ACT := rfl
@[simp] theorem State.mixSet_DLV : (s.mixSet).DLV = s.DLV := rfl
@[simp] theorem State.mixSet_TAP2 : (s.mixSet).TAP2 = s.TAP2 := rfl
@[simp] theorem State.mixSet_T2 : (s.mixSet).T2 = s.T2 := rfl
@[simp] theorem State.mixSet_REV : (s.mixSet).REV = s.REV := rfl
@[simp] theorem State.mixSet_G : (s.mixSet).G = s.G := rfl
@[simp] theorem State.mixSet_ROOMCUR : (s.mixSet).ROOMCUR = s.ROOMCUR := rfl
@[simp] theorem State.mixSet_NFAULT : (s.mixSet).NFAULT = s.NFAULT := rfl
@[simp] theorem State.mixSet_inbox : (s.mixSet).inbox = s.inbox := rfl
@[simp] theorem State.mixSet_tickLen : (s.mixSet).tickLen = s.tickLen := rfl
@[simp] theorem State.mixSet_readyM : (s.mixSet).readyM = s.readyM := rfl
@[simp] theorem State.mixSet_readyI : (s.mixSet).readyI = s.readyI := rfl
@[simp] theorem State.mixSet_portOut : (s.mixSet).portOut = s.portOut := rfl
@[simp] theorem State.mixSet_audioOut : (s.mixSet).audioOut = s.audioOut := rfl

/-! ### `mixProc` -/

@[simp] theorem State.mixProc_cfg (i : Nat) : (s.mixProc i).cfg = s.cfg := rfl
@[simp] theorem State.mixProc_S (i : Nat) : (s.mixProc i).S = s.S := rfl
@[simp] theorem State.mixProc_M (i : Nat) : (s.mixProc i).M = s.M := rfl
@[simp] theorem State.mixProc_A (i : Nat) : (s.mixProc i).A = s.A := rfl
@[simp] theorem State.mixProc_MV (i : Nat) : (s.mixProc i).MV = s.MV := rfl
@[simp] theorem State.mixProc_RQM (i : Nat) : (s.mixProc i).RQM = s.RQM := rfl
@[simp] theorem State.mixProc_RQI (i : Nat) : (s.mixProc i).RQI = s.RQI := rfl
@[simp] theorem State.mixProc_RQB (i : Nat) : (s.mixProc i).RQB = s.RQB := rfl
@[simp] theorem State.mixProc_CURM (i : Nat) : (s.mixProc i).CURM = s.CURM := rfl
@[simp] theorem State.mixProc_CURI (i : Nat) : (s.mixProc i).CURI = s.CURI := rfl
@[simp] theorem State.mixProc_CHAIN (i : Nat) : (s.mixProc i).CHAIN = s.CHAIN := rfl
@[simp] theorem State.mixProc_HCAUSE (i : Nat) : (s.mixProc i).HCAUSE = s.HCAUSE := rfl
@[simp] theorem State.mixProc_PHASE (i : Nat) : (s.mixProc i).PHASE = s.PHASE := rfl
@[simp] theorem State.mixProc_n (i : Nat) : (s.mixProc i).n = s.n := rfl
@[simp] theorem State.mixProc_X (i : Nat) : (s.mixProc i).X = s.X := rfl
@[simp] theorem State.mixProc_W (i : Nat) : (s.mixProc i).W = s.W := rfl
@[simp] theorem State.mixProc_Z (i : Nat) : (s.mixProc i).Z = s.Z := rfl
@[simp] theorem State.mixProc_PART (i : Nat) : (s.mixProc i).PART = s.PART := rfl
@[simp] theorem State.mixProc_HIST (i : Nat) : (s.mixProc i).HIST = s.HIST := rfl
@[simp] theorem State.mixProc_WIDX (i : Nat) : (s.mixProc i).WIDX = s.WIDX := rfl
@[simp] theorem State.mixProc_OVL (i : Nat) : (s.mixProc i).OVL = s.OVL := rfl
@[simp] theorem State.mixProc_K (i : Nat) : (s.mixProc i).K = s.K := rfl
@[simp] theorem State.mixProc_WT (i : Nat) : (s.mixProc i).WT = s.WT := rfl
@[simp] theorem State.mixProc_h (i : Nat) : (s.mixProc i).h = s.h := rfl
@[simp] theorem State.mixProc_TMODE (i : Nat) : (s.mixProc i).TMODE = s.TMODE := rfl
@[simp] theorem State.mixProc_TALPHA (i : Nat) : (s.mixProc i).TALPHA = s.TALPHA := rfl
@[simp] theorem State.mixProc_TF0 (i : Nat) : (s.mixProc i).TF0 = s.TF0 := rfl
@[simp] theorem State.mixProc_TF1 (i : Nat) : (s.mixProc i).TF1 = s.TF1 := rfl
@[simp] theorem State.mixProc_DBUF (i : Nat) : (s.mixProc i).DBUF = s.DBUF := rfl
@[simp] theorem State.mixProc_WP (i : Nat) : (s.mixProc i).WP = s.WP := rfl
@[simp] theorem State.mixProc_CUR (i : Nat) : (s.mixProc i).CUR = s.CUR := rfl
@[simp] theorem State.mixProc_TGT (i : Nat) : (s.mixProc i).TGT = s.TGT := rfl
@[simp] theorem State.mixProc_FB (i : Nat) : (s.mixProc i).FB = s.FB := rfl
@[simp] theorem State.mixProc_ACT (i : Nat) : (s.mixProc i).ACT = s.ACT := rfl
@[simp] theorem State.mixProc_DLV (i : Nat) : (s.mixProc i).DLV = s.DLV := rfl
@[simp] theorem State.mixProc_TAP2 (i : Nat) : (s.mixProc i).TAP2 = s.TAP2 := rfl
@[simp] theorem State.mixProc_T2 (i : Nat) : (s.mixProc i).T2 = s.T2 := rfl
@[simp] theorem State.mixProc_REV (i : Nat) : (s.mixProc i).REV = s.REV := rfl
@[simp] theorem State.mixProc_G (i : Nat) : (s.mixProc i).G = s.G := rfl
@[simp] theorem State.mixProc_ROOMCUR (i : Nat) : (s.mixProc i).ROOMCUR = s.ROOMCUR := rfl
@[simp] theorem State.mixProc_WETG (i : Nat) : (s.mixProc i).WETG = s.WETG := rfl
@[simp] theorem State.mixProc_DRYG (i : Nat) : (s.mixProc i).DRYG = s.DRYG := rfl
@[simp] theorem State.mixProc_inbox (i : Nat) : (s.mixProc i).inbox = s.inbox := rfl
@[simp] theorem State.mixProc_tickLen (i : Nat) : (s.mixProc i).tickLen = s.tickLen := rfl
@[simp] theorem State.mixProc_readyM (i : Nat) : (s.mixProc i).readyM = s.readyM := rfl
@[simp] theorem State.mixProc_readyI (i : Nat) : (s.mixProc i).readyI = s.readyI := rfl
@[simp] theorem State.mixProc_portOut (i : Nat) : (s.mixProc i).portOut = s.portOut := rfl
@[simp] theorem State.mixProc_audioOut (i : Nat) : (s.mixProc i).audioOut = s.audioOut := rfl

/-! ### `ctlPre` -/

@[simp] theorem State.ctlPre_cfg (i : Nat) : (s.ctlPre i).cfg = s.cfg := rfl
@[simp] theorem State.ctlPre_S (i : Nat) : (s.ctlPre i).S = s.S := rfl
@[simp] theorem State.ctlPre_M (i : Nat) : (s.ctlPre i).M = s.M := rfl
@[simp] theorem State.ctlPre_A (i : Nat) : (s.ctlPre i).A = s.A := rfl
@[simp] theorem State.ctlPre_MV (i : Nat) : (s.ctlPre i).MV = s.MV := rfl
@[simp] theorem State.ctlPre_RQM (i : Nat) : (s.ctlPre i).RQM = s.RQM := rfl
@[simp] theorem State.ctlPre_RQI (i : Nat) : (s.ctlPre i).RQI = s.RQI := rfl
@[simp] theorem State.ctlPre_RQB (i : Nat) : (s.ctlPre i).RQB = s.RQB := rfl
@[simp] theorem State.ctlPre_CURM (i : Nat) : (s.ctlPre i).CURM = s.CURM := rfl
@[simp] theorem State.ctlPre_CURI (i : Nat) : (s.ctlPre i).CURI = s.CURI := rfl
@[simp] theorem State.ctlPre_CHAIN (i : Nat) : (s.ctlPre i).CHAIN = s.CHAIN := rfl
@[simp] theorem State.ctlPre_HCAUSE (i : Nat) : (s.ctlPre i).HCAUSE = s.HCAUSE := rfl
@[simp] theorem State.ctlPre_PHASE (i : Nat) : (s.ctlPre i).PHASE = s.PHASE := rfl
@[simp] theorem State.ctlPre_n (i : Nat) : (s.ctlPre i).n = s.n := rfl
@[simp] theorem State.ctlPre_X (i : Nat) : (s.ctlPre i).X = s.X := rfl
@[simp] theorem State.ctlPre_OUTL (i : Nat) : (s.ctlPre i).OUTL = s.OUTL := rfl
@[simp] theorem State.ctlPre_OUTR (i : Nat) : (s.ctlPre i).OUTR = s.OUTR := rfl
@[simp] theorem State.ctlPre_Z (i : Nat) : (s.ctlPre i).Z = s.Z := rfl
@[simp] theorem State.ctlPre_PART (i : Nat) : (s.ctlPre i).PART = s.PART := rfl
@[simp] theorem State.ctlPre_HIST (i : Nat) : (s.ctlPre i).HIST = s.HIST := rfl
@[simp] theorem State.ctlPre_WIDX (i : Nat) : (s.ctlPre i).WIDX = s.WIDX := rfl
@[simp] theorem State.ctlPre_OVL (i : Nat) : (s.ctlPre i).OVL = s.OVL := rfl
@[simp] theorem State.ctlPre_K (i : Nat) : (s.ctlPre i).K = s.K := rfl
@[simp] theorem State.ctlPre_WT (i : Nat) : (s.ctlPre i).WT = s.WT := rfl
@[simp] theorem State.ctlPre_h (i : Nat) : (s.ctlPre i).h = s.h := rfl
@[simp] theorem State.ctlPre_TMODE (i : Nat) : (s.ctlPre i).TMODE = s.TMODE := rfl
@[simp] theorem State.ctlPre_TALPHA (i : Nat) : (s.ctlPre i).TALPHA = s.TALPHA := rfl
@[simp] theorem State.ctlPre_TF0 (i : Nat) : (s.ctlPre i).TF0 = s.TF0 := rfl
@[simp] theorem State.ctlPre_TF1 (i : Nat) : (s.ctlPre i).TF1 = s.TF1 := rfl
@[simp] theorem State.ctlPre_DBUF (i : Nat) : (s.ctlPre i).DBUF = s.DBUF := rfl
@[simp] theorem State.ctlPre_WP (i : Nat) : (s.ctlPre i).WP = s.WP := rfl
@[simp] theorem State.ctlPre_CUR (i : Nat) : (s.ctlPre i).CUR = s.CUR := rfl
@[simp] theorem State.ctlPre_TGT (i : Nat) : (s.ctlPre i).TGT = s.TGT := rfl
@[simp] theorem State.ctlPre_FB (i : Nat) : (s.ctlPre i).FB = s.FB := rfl
@[simp] theorem State.ctlPre_ACT (i : Nat) : (s.ctlPre i).ACT = s.ACT := rfl
@[simp] theorem State.ctlPre_DLV (i : Nat) : (s.ctlPre i).DLV = s.DLV := rfl
@[simp] theorem State.ctlPre_TAP2 (i : Nat) : (s.ctlPre i).TAP2 = s.TAP2 := rfl
@[simp] theorem State.ctlPre_T2 (i : Nat) : (s.ctlPre i).T2 = s.T2 := rfl
@[simp] theorem State.ctlPre_REV (i : Nat) : (s.ctlPre i).REV = s.REV := rfl
@[simp] theorem State.ctlPre_G (i : Nat) : (s.ctlPre i).G = s.G := rfl
@[simp] theorem State.ctlPre_ROOMCUR (i : Nat) : (s.ctlPre i).ROOMCUR = s.ROOMCUR := rfl
@[simp] theorem State.ctlPre_WETG (i : Nat) : (s.ctlPre i).WETG = s.WETG := rfl
@[simp] theorem State.ctlPre_DRYG (i : Nat) : (s.ctlPre i).DRYG = s.DRYG := rfl
@[simp] theorem State.ctlPre_inbox (i : Nat) : (s.ctlPre i).inbox = s.inbox := rfl
@[simp] theorem State.ctlPre_tickLen (i : Nat) : (s.ctlPre i).tickLen = s.tickLen := rfl
@[simp] theorem State.ctlPre_readyM (i : Nat) : (s.ctlPre i).readyM = s.readyM := rfl
@[simp] theorem State.ctlPre_readyI (i : Nat) : (s.ctlPre i).readyI = s.readyI := rfl
@[simp] theorem State.ctlPre_portOut (i : Nat) : (s.ctlPre i).portOut = s.portOut := rfl
@[simp] theorem State.ctlPre_audioOut (i : Nat) : (s.ctlPre i).audioOut = s.audioOut := rfl

/-! ### `ctlByp` -/

@[simp] theorem State.ctlByp_cfg (i : Nat) : (s.ctlByp i).cfg = s.cfg := rfl
@[simp] theorem State.ctlByp_S (i : Nat) : (s.ctlByp i).S = s.S := rfl
@[simp] theorem State.ctlByp_M (i : Nat) : (s.ctlByp i).M = s.M := rfl
@[simp] theorem State.ctlByp_A (i : Nat) : (s.ctlByp i).A = s.A := rfl
@[simp] theorem State.ctlByp_MV (i : Nat) : (s.ctlByp i).MV = s.MV := rfl
@[simp] theorem State.ctlByp_RQM (i : Nat) : (s.ctlByp i).RQM = s.RQM := rfl
@[simp] theorem State.ctlByp_RQI (i : Nat) : (s.ctlByp i).RQI = s.RQI := rfl
@[simp] theorem State.ctlByp_RQB (i : Nat) : (s.ctlByp i).RQB = s.RQB := rfl
@[simp] theorem State.ctlByp_CURM (i : Nat) : (s.ctlByp i).CURM = s.CURM := rfl
@[simp] theorem State.ctlByp_CURI (i : Nat) : (s.ctlByp i).CURI = s.CURI := rfl
@[simp] theorem State.ctlByp_CHAIN (i : Nat) : (s.ctlByp i).CHAIN = s.CHAIN := rfl
@[simp] theorem State.ctlByp_HCAUSE (i : Nat) : (s.ctlByp i).HCAUSE = s.HCAUSE := rfl
@[simp] theorem State.ctlByp_PHASE (i : Nat) : (s.ctlByp i).PHASE = s.PHASE := rfl
@[simp] theorem State.ctlByp_n (i : Nat) : (s.ctlByp i).n = s.n := rfl
@[simp] theorem State.ctlByp_X (i : Nat) : (s.ctlByp i).X = s.X := rfl
@[simp] theorem State.ctlByp_W (i : Nat) : (s.ctlByp i).W = s.W := rfl
@[simp] theorem State.ctlByp_Z (i : Nat) : (s.ctlByp i).Z = s.Z := rfl
@[simp] theorem State.ctlByp_PART (i : Nat) : (s.ctlByp i).PART = s.PART := rfl
@[simp] theorem State.ctlByp_HIST (i : Nat) : (s.ctlByp i).HIST = s.HIST := rfl
@[simp] theorem State.ctlByp_WIDX (i : Nat) : (s.ctlByp i).WIDX = s.WIDX := rfl
@[simp] theorem State.ctlByp_OVL (i : Nat) : (s.ctlByp i).OVL = s.OVL := rfl
@[simp] theorem State.ctlByp_K (i : Nat) : (s.ctlByp i).K = s.K := rfl
@[simp] theorem State.ctlByp_WT (i : Nat) : (s.ctlByp i).WT = s.WT := rfl
@[simp] theorem State.ctlByp_h (i : Nat) : (s.ctlByp i).h = s.h := rfl
@[simp] theorem State.ctlByp_TMODE (i : Nat) : (s.ctlByp i).TMODE = s.TMODE := rfl
@[simp] theorem State.ctlByp_TALPHA (i : Nat) : (s.ctlByp i).TALPHA = s.TALPHA := rfl
@[simp] theorem State.ctlByp_TF0 (i : Nat) : (s.ctlByp i).TF0 = s.TF0 := rfl
@[simp] theorem State.ctlByp_TF1 (i : Nat) : (s.ctlByp i).TF1 = s.TF1 := rfl
@[simp] theorem State.ctlByp_DBUF (i : Nat) : (s.ctlByp i).DBUF = s.DBUF := rfl
@[simp] theorem State.ctlByp_WP (i : Nat) : (s.ctlByp i).WP = s.WP := rfl
@[simp] theorem State.ctlByp_CUR (i : Nat) : (s.ctlByp i).CUR = s.CUR := rfl
@[simp] theorem State.ctlByp_TGT (i : Nat) : (s.ctlByp i).TGT = s.TGT := rfl
@[simp] theorem State.ctlByp_FB (i : Nat) : (s.ctlByp i).FB = s.FB := rfl
@[simp] theorem State.ctlByp_ACT (i : Nat) : (s.ctlByp i).ACT = s.ACT := rfl
@[simp] theorem State.ctlByp_DLV (i : Nat) : (s.ctlByp i).DLV = s.DLV := rfl
@[simp] theorem State.ctlByp_TAP2 (i : Nat) : (s.ctlByp i).TAP2 = s.TAP2 := rfl
@[simp] theorem State.ctlByp_T2 (i : Nat) : (s.ctlByp i).T2 = s.T2 := rfl
@[simp] theorem State.ctlByp_REV (i : Nat) : (s.ctlByp i).REV = s.REV := rfl
@[simp] theorem State.ctlByp_G (i : Nat) : (s.ctlByp i).G = s.G := rfl
@[simp] theorem State.ctlByp_ROOMCUR (i : Nat) : (s.ctlByp i).ROOMCUR = s.ROOMCUR := rfl
@[simp] theorem State.ctlByp_WETG (i : Nat) : (s.ctlByp i).WETG = s.WETG := rfl
@[simp] theorem State.ctlByp_DRYG (i : Nat) : (s.ctlByp i).DRYG = s.DRYG := rfl
@[simp] theorem State.ctlByp_NFAULT (i : Nat) : (s.ctlByp i).NFAULT = s.NFAULT := rfl
@[simp] theorem State.ctlByp_inbox (i : Nat) : (s.ctlByp i).inbox = s.inbox := rfl
@[simp] theorem State.ctlByp_tickLen (i : Nat) : (s.ctlByp i).tickLen = s.tickLen := rfl
@[simp] theorem State.ctlByp_readyM (i : Nat) : (s.ctlByp i).readyM = s.readyM := rfl
@[simp] theorem State.ctlByp_readyI (i : Nat) : (s.ctlByp i).readyI = s.readyI := rfl
@[simp] theorem State.ctlByp_portOut (i : Nat) : (s.ctlByp i).portOut = s.portOut := rfl
@[simp] theorem State.ctlByp_audioOut (i : Nat) : (s.ctlByp i).audioOut = s.audioOut := rfl

/-! ### `deliver` -/

@[simp] theorem State.deliver_cfg : (s.deliver).cfg = s.cfg := rfl
@[simp] theorem State.deliver_S : (s.deliver).S = s.S := rfl
@[simp] theorem State.deliver_M : (s.deliver).M = s.M := rfl
@[simp] theorem State.deliver_A : (s.deliver).A = s.A := rfl
@[simp] theorem State.deliver_MV : (s.deliver).MV = s.MV := rfl
@[simp] theorem State.deliver_RQM : (s.deliver).RQM = s.RQM := rfl
@[simp] theorem State.deliver_RQI : (s.deliver).RQI = s.RQI := rfl
@[simp] theorem State.deliver_RQB : (s.deliver).RQB = s.RQB := rfl
@[simp] theorem State.deliver_CURM : (s.deliver).CURM = s.CURM := rfl
@[simp] theorem State.deliver_CURI : (s.deliver).CURI = s.CURI := rfl
@[simp] theorem State.deliver_CHAIN : (s.deliver).CHAIN = s.CHAIN := rfl
@[simp] theorem State.deliver_HCAUSE : (s.deliver).HCAUSE = s.HCAUSE := rfl
@[simp] theorem State.deliver_PHASE : (s.deliver).PHASE = s.PHASE := rfl
@[simp] theorem State.deliver_n : (s.deliver).n = s.n := rfl
@[simp] theorem State.deliver_X : (s.deliver).X = s.X := rfl
@[simp] theorem State.deliver_W : (s.deliver).W = s.W := rfl
@[simp] theorem State.deliver_OUTL : (s.deliver).OUTL = s.OUTL := rfl
@[simp] theorem State.deliver_OUTR : (s.deliver).OUTR = s.OUTR := rfl
@[simp] theorem State.deliver_Z : (s.deliver).Z = s.Z := rfl
@[simp] theorem State.deliver_PART : (s.deliver).PART = s.PART := rfl
@[simp] theorem State.deliver_HIST : (s.deliver).HIST = s.HIST := rfl
@[simp] theorem State.deliver_WIDX : (s.deliver).WIDX = s.WIDX := rfl
@[simp] theorem State.deliver_OVL : (s.deliver).OVL = s.OVL := rfl
@[simp] theorem State.deliver_K : (s.deliver).K = s.K := rfl
@[simp] theorem State.deliver_WT : (s.deliver).WT = s.WT := rfl
@[simp] theorem State.deliver_h : (s.deliver).h = s.h := rfl
@[simp] theorem State.deliver_TMODE : (s.deliver).TMODE = s.TMODE := rfl
@[simp] theorem State.deliver_TALPHA : (s.deliver).TALPHA = s.TALPHA := rfl
@[simp] theorem State.deliver_TF0 : (s.deliver).TF0 = s.TF0 := rfl
@[simp] theorem State.deliver_TF1 : (s.deliver).TF1 = s.TF1 := rfl
@[simp] theorem State.deliver_DBUF : (s.deliver).DBUF = s.DBUF := rfl
@[simp] theorem State.deliver_WP : (s.deliver).WP = s.WP := rfl
@[simp] theorem State.deliver_CUR : (s.deliver).CUR = s.CUR := rfl
@[simp] theorem State.deliver_TGT : (s.deliver).TGT = s.TGT := rfl
@[simp] theorem State.deliver_FB : (s.deliver).FB = s.FB := rfl
@[simp] theorem State.deliver_ACT : (s.deliver).ACT = s.ACT := rfl
@[simp] theorem State.deliver_DLV : (s.deliver).DLV = s.DLV := rfl
@[simp] theorem State.deliver_TAP2 : (s.deliver).TAP2 = s.TAP2 := rfl
@[simp] theorem State.deliver_T2 : (s.deliver).T2 = s.T2 := rfl
@[simp] theorem State.deliver_REV : (s.deliver).REV = s.REV := rfl
@[simp] theorem State.deliver_G : (s.deliver).G = s.G := rfl
@[simp] theorem State.deliver_ROOMCUR : (s.deliver).ROOMCUR = s.ROOMCUR := rfl
@[simp] theorem State.deliver_WETG : (s.deliver).WETG = s.WETG := rfl
@[simp] theorem State.deliver_DRYG : (s.deliver).DRYG = s.DRYG := rfl
@[simp] theorem State.deliver_NFAULT : (s.deliver).NFAULT = s.NFAULT := rfl
@[simp] theorem State.deliver_inbox : (s.deliver).inbox = s.inbox := rfl
@[simp] theorem State.deliver_tickLen : (s.deliver).tickLen = s.tickLen := rfl
@[simp] theorem State.deliver_readyM : (s.deliver).readyM = s.readyM := rfl
@[simp] theorem State.deliver_readyI : (s.deliver).readyI = s.readyI := rfl
@[simp] theorem State.deliver_portOut : (s.deliver).portOut = s.portOut := rfl
@[simp] theorem State.deliver_audioOut : (s.deliver).audioOut = some (s.audioBlock s.OUTL, s.audioBlock s.OUTR) := rfl

/-! ### `beginBlock` -/

@[simp] theorem State.beginBlock_cfg (b : List (BitVec 32)) : (s.beginBlock b).cfg = s.cfg := rfl
@[simp] theorem State.beginBlock_S (b : List (BitVec 32)) : (s.beginBlock b).S = s.S := rfl
@[simp] theorem State.beginBlock_M (b : List (BitVec 32)) : (s.beginBlock b).M = s.M := rfl
@[simp] theorem State.beginBlock_A (b : List (BitVec 32)) : (s.beginBlock b).A = s.A := rfl
@[simp] theorem State.beginBlock_MV (b : List (BitVec 32)) : (s.beginBlock b).MV = s.MV := rfl
@[simp] theorem State.beginBlock_RQM (b : List (BitVec 32)) : (s.beginBlock b).RQM = s.RQM := rfl
@[simp] theorem State.beginBlock_RQI (b : List (BitVec 32)) : (s.beginBlock b).RQI = s.RQI := rfl
@[simp] theorem State.beginBlock_RQB (b : List (BitVec 32)) : (s.beginBlock b).RQB = s.RQB := rfl
@[simp] theorem State.beginBlock_CURM (b : List (BitVec 32)) : (s.beginBlock b).CURM = s.CURM := rfl
@[simp] theorem State.beginBlock_CURI (b : List (BitVec 32)) : (s.beginBlock b).CURI = s.CURI := rfl
@[simp] theorem State.beginBlock_CHAIN (b : List (BitVec 32)) : (s.beginBlock b).CHAIN = s.CHAIN := rfl
@[simp] theorem State.beginBlock_HCAUSE (b : List (BitVec 32)) : (s.beginBlock b).HCAUSE = s.HCAUSE := rfl
@[simp] theorem State.beginBlock_n (b : List (BitVec 32)) : (s.beginBlock b).n = s.n := rfl
@[simp] theorem State.beginBlock_W (b : List (BitVec 32)) : (s.beginBlock b).W = s.W := rfl
@[simp] theorem State.beginBlock_OUTL (b : List (BitVec 32)) : (s.beginBlock b).OUTL = s.OUTL := rfl
@[simp] theorem State.beginBlock_OUTR (b : List (BitVec 32)) : (s.beginBlock b).OUTR = s.OUTR := rfl
@[simp] theorem State.beginBlock_Z (b : List (BitVec 32)) : (s.beginBlock b).Z = s.Z := rfl
@[simp] theorem State.beginBlock_PART (b : List (BitVec 32)) : (s.beginBlock b).PART = s.PART := rfl
@[simp] theorem State.beginBlock_HIST (b : List (BitVec 32)) : (s.beginBlock b).HIST = s.HIST := rfl
@[simp] theorem State.beginBlock_WIDX (b : List (BitVec 32)) : (s.beginBlock b).WIDX = s.WIDX := rfl
@[simp] theorem State.beginBlock_OVL (b : List (BitVec 32)) : (s.beginBlock b).OVL = s.OVL := rfl
@[simp] theorem State.beginBlock_K (b : List (BitVec 32)) : (s.beginBlock b).K = s.K := rfl
@[simp] theorem State.beginBlock_WT (b : List (BitVec 32)) : (s.beginBlock b).WT = s.WT := rfl
@[simp] theorem State.beginBlock_h (b : List (BitVec 32)) : (s.beginBlock b).h = s.h := rfl
@[simp] theorem State.beginBlock_TMODE (b : List (BitVec 32)) : (s.beginBlock b).TMODE = s.TMODE := rfl
@[simp] theorem State.beginBlock_TALPHA (b : List (BitVec 32)) : (s.beginBlock b).TALPHA = s.TALPHA := rfl
@[simp] theorem State.beginBlock_TF0 (b : List (BitVec 32)) : (s.beginBlock b).TF0 = s.TF0 := rfl
@[simp] theorem State.beginBlock_TF1 (b : List (BitVec 32)) : (s.beginBlock b).TF1 = s.TF1 := rfl
@[simp] theorem State.beginBlock_DBUF (b : List (BitVec 32)) : (s.beginBlock b).DBUF = s.DBUF := rfl
@[simp] theorem State.beginBlock_WP (b : List (BitVec 32)) : (s.beginBlock b).WP = s.WP := rfl
@[simp] theorem State.beginBlock_CUR (b : List (BitVec 32)) : (s.beginBlock b).CUR = s.CUR := rfl
@[simp] theorem State.beginBlock_TGT (b : List (BitVec 32)) : (s.beginBlock b).TGT = s.TGT := rfl
@[simp] theorem State.beginBlock_FB (b : List (BitVec 32)) : (s.beginBlock b).FB = s.FB := rfl
@[simp] theorem State.beginBlock_ACT (b : List (BitVec 32)) : (s.beginBlock b).ACT = s.ACT := rfl
@[simp] theorem State.beginBlock_DLV (b : List (BitVec 32)) : (s.beginBlock b).DLV = s.DLV := rfl
@[simp] theorem State.beginBlock_TAP2 (b : List (BitVec 32)) : (s.beginBlock b).TAP2 = s.TAP2 := rfl
@[simp] theorem State.beginBlock_T2 (b : List (BitVec 32)) : (s.beginBlock b).T2 = s.T2 := rfl
@[simp] theorem State.beginBlock_REV (b : List (BitVec 32)) : (s.beginBlock b).REV = s.REV := rfl
@[simp] theorem State.beginBlock_G (b : List (BitVec 32)) : (s.beginBlock b).G = s.G := rfl
@[simp] theorem State.beginBlock_ROOMCUR (b : List (BitVec 32)) : (s.beginBlock b).ROOMCUR = s.ROOMCUR := rfl
@[simp] theorem State.beginBlock_WETG (b : List (BitVec 32)) : (s.beginBlock b).WETG = s.WETG := rfl
@[simp] theorem State.beginBlock_DRYG (b : List (BitVec 32)) : (s.beginBlock b).DRYG = s.DRYG := rfl
@[simp] theorem State.beginBlock_NFAULT (b : List (BitVec 32)) : (s.beginBlock b).NFAULT = s.NFAULT := rfl
@[simp] theorem State.beginBlock_inbox (b : List (BitVec 32)) : (s.beginBlock b).inbox = s.inbox := rfl
@[simp] theorem State.beginBlock_readyM (b : List (BitVec 32)) : (s.beginBlock b).readyM = s.readyM := rfl
@[simp] theorem State.beginBlock_readyI (b : List (BitVec 32)) : (s.beginBlock b).readyI = s.readyI := rfl
@[simp] theorem State.beginBlock_portOut (b : List (BitVec 32)) : (s.beginBlock b).portOut = s.portOut := rfl
@[simp] theorem State.beginBlock_audioOut (b : List (BitVec 32)) : (s.beginBlock b).audioOut = s.audioOut := rfl

/-! ### `portRead` -/

@[simp] theorem State.portRead_cfg (a w : Nat) : (s.portRead a w).cfg = s.cfg := rfl
@[simp] theorem State.portRead_S (a w : Nat) : (s.portRead a w).S = s.S := rfl
@[simp] theorem State.portRead_M (a w : Nat) : (s.portRead a w).M = s.M := rfl
@[simp] theorem State.portRead_A (a w : Nat) : (s.portRead a w).A = s.A := rfl
@[simp] theorem State.portRead_MV (a w : Nat) : (s.portRead a w).MV = s.MV := rfl
@[simp] theorem State.portRead_RQM (a w : Nat) : (s.portRead a w).RQM = s.RQM := rfl
@[simp] theorem State.portRead_RQI (a w : Nat) : (s.portRead a w).RQI = s.RQI := rfl
@[simp] theorem State.portRead_RQB (a w : Nat) : (s.portRead a w).RQB = s.RQB := rfl
@[simp] theorem State.portRead_CURM (a w : Nat) : (s.portRead a w).CURM = s.CURM := rfl
@[simp] theorem State.portRead_CURI (a w : Nat) : (s.portRead a w).CURI = s.CURI := rfl
@[simp] theorem State.portRead_CHAIN (a w : Nat) : (s.portRead a w).CHAIN = s.CHAIN := rfl
@[simp] theorem State.portRead_HCAUSE (a w : Nat) : (s.portRead a w).HCAUSE = s.HCAUSE := rfl
@[simp] theorem State.portRead_PHASE (a w : Nat) : (s.portRead a w).PHASE = s.PHASE := rfl
@[simp] theorem State.portRead_n (a w : Nat) : (s.portRead a w).n = s.n := rfl
@[simp] theorem State.portRead_X (a w : Nat) : (s.portRead a w).X = s.X := rfl
@[simp] theorem State.portRead_W (a w : Nat) : (s.portRead a w).W = s.W := rfl
@[simp] theorem State.portRead_OUTL (a w : Nat) : (s.portRead a w).OUTL = s.OUTL := rfl
@[simp] theorem State.portRead_OUTR (a w : Nat) : (s.portRead a w).OUTR = s.OUTR := rfl
@[simp] theorem State.portRead_Z (a w : Nat) : (s.portRead a w).Z = s.Z := rfl
@[simp] theorem State.portRead_PART (a w : Nat) : (s.portRead a w).PART = s.PART := rfl
@[simp] theorem State.portRead_HIST (a w : Nat) : (s.portRead a w).HIST = s.HIST := rfl
@[simp] theorem State.portRead_WIDX (a w : Nat) : (s.portRead a w).WIDX = s.WIDX := rfl
@[simp] theorem State.portRead_OVL (a w : Nat) : (s.portRead a w).OVL = s.OVL := rfl
@[simp] theorem State.portRead_K (a w : Nat) : (s.portRead a w).K = s.K := rfl
@[simp] theorem State.portRead_WT (a w : Nat) : (s.portRead a w).WT = s.WT := rfl
@[simp] theorem State.portRead_h (a w : Nat) : (s.portRead a w).h = s.h := rfl
@[simp] theorem State.portRead_TMODE (a w : Nat) : (s.portRead a w).TMODE = s.TMODE := rfl
@[simp] theorem State.portRead_TALPHA (a w : Nat) : (s.portRead a w).TALPHA = s.TALPHA := rfl
@[simp] theorem State.portRead_TF0 (a w : Nat) : (s.portRead a w).TF0 = s.TF0 := rfl
@[simp] theorem State.portRead_TF1 (a w : Nat) : (s.portRead a w).TF1 = s.TF1 := rfl
@[simp] theorem State.portRead_DBUF (a w : Nat) : (s.portRead a w).DBUF = s.DBUF := rfl
@[simp] theorem State.portRead_WP (a w : Nat) : (s.portRead a w).WP = s.WP := rfl
@[simp] theorem State.portRead_CUR (a w : Nat) : (s.portRead a w).CUR = s.CUR := rfl
@[simp] theorem State.portRead_TGT (a w : Nat) : (s.portRead a w).TGT = s.TGT := rfl
@[simp] theorem State.portRead_FB (a w : Nat) : (s.portRead a w).FB = s.FB := rfl
@[simp] theorem State.portRead_ACT (a w : Nat) : (s.portRead a w).ACT = s.ACT := rfl
@[simp] theorem State.portRead_DLV (a w : Nat) : (s.portRead a w).DLV = s.DLV := rfl
@[simp] theorem State.portRead_TAP2 (a w : Nat) : (s.portRead a w).TAP2 = s.TAP2 := rfl
@[simp] theorem State.portRead_T2 (a w : Nat) : (s.portRead a w).T2 = s.T2 := rfl
@[simp] theorem State.portRead_REV (a w : Nat) : (s.portRead a w).REV = s.REV := rfl
@[simp] theorem State.portRead_G (a w : Nat) : (s.portRead a w).G = s.G := rfl
@[simp] theorem State.portRead_ROOMCUR (a w : Nat) : (s.portRead a w).ROOMCUR = s.ROOMCUR := rfl
@[simp] theorem State.portRead_WETG (a w : Nat) : (s.portRead a w).WETG = s.WETG := rfl
@[simp] theorem State.portRead_DRYG (a w : Nat) : (s.portRead a w).DRYG = s.DRYG := rfl
@[simp] theorem State.portRead_NFAULT (a w : Nat) : (s.portRead a w).NFAULT = s.NFAULT := rfl
@[simp] theorem State.portRead_inbox (a w : Nat) : (s.portRead a w).inbox = s.inbox := rfl
@[simp] theorem State.portRead_tickLen (a w : Nat) : (s.portRead a w).tickLen = s.tickLen := rfl
@[simp] theorem State.portRead_readyM (a w : Nat) : (s.portRead a w).readyM = s.readyM := rfl
@[simp] theorem State.portRead_readyI (a w : Nat) : (s.portRead a w).readyI = s.readyI := rfl
@[simp] theorem State.portRead_audioOut (a w : Nat) : (s.portRead a w).audioOut = s.audioOut := rfl

end Sys2Proof.Machine
end

