-- ==== Sys2Proof/Laws/Ops.lean ====
section
/-! SUPPORT. What each shared operation can do, said once, for later proofs to cite. -/

namespace Sys2Proof.Machine

/-! ### Values -/

@[simp] theorem orSilence_true {α : Type} [Inhabited α] (v : α) : orSilence true v = v := rfl

@[simp] theorem orSilence_false {α : Type} [Inhabited α] (v : α) : orSilence false v = silence := rfl

@[simp] theorem F32.finite_zero : F32.finite F32.zero = true := by decide

@[simp] theorem F32.finite_one : F32.finite F32.one = true := by decide

@[simp] theorem F32.finite_half : F32.finite F32.half = true := by decide

/-- A word holds its pattern. -/
@[simp] theorem F32.pattern_word (p : Num32) : F32.pattern (F32.word p) = p := by
  simp [F32.pattern, F32.word]

/-- The word of a pattern is below `2^32`. -/
theorem F32.word_range (p : Num32) : 0 ≤ F32.word p ∧ F32.word p < 2 ^ 32 := by
  have := p.isLt
  show (0 : Int) ≤ (p.toNat : Int) ∧ (p.toNat : Int) < 2 ^ 32
  omega

/-- A word that is a pattern is the word of its pattern. -/
theorem F32.word_pattern {v : Int} (h0 : 0 ≤ v) (h1 : v < 2 ^ 32) :
    F32.word (F32.pattern v) = v := by
  show ((BitVec.ofInt 32 v).toNat : Int) = v
  rw [BitVec.toNat_ofInt]
  omega

/-- The record of a chip built with `NUM_F32`. -/
@[simp] theorem arith_f32 {c : Cfg} (h : c.NUM = .f32) : c.arith = (NUM_F32 c.SIGTOL).onWords := by
  simp [Cfg.arith, arithOf, h]

/-- The record of a chip built with `NUM_FIX(w, f)`. -/
@[simp] theorem arith_fix {c : Cfg} {w f : Nat} (h : c.NUM = .fix w f) : c.arith = NUM_FIX w f := by
  simp [Cfg.arith, arithOf, h]

/-- `finite` of a chip's record is the test that the well-formedness of the tables uses (R9). -/
theorem arith_finite (c : Cfg) (v : NumWord) : c.arith.finite v = c.NUM.finite v := by
  cases h : c.NUM with
  | f32 => rw [arith_f32 h]; rfl
  | fix w f => rw [arith_fix h]; rfl

/-- The two's-complement range contains zero (R15). -/
theorem fix_range (w : Nat) : fixSatLow w < 0 ∧ 0 < fixSatHigh w := by
  have h : (1 : Int) ≤ 2 ^ (w - 1) := one_le_pow₀ (by norm_num)
  unfold fixSatLow fixSatHigh fixMin fixMax
  omega

/-- R15: an exact result is finite exactly if it did not saturate, at every width. -/
theorem Fix.finite_saturate (w f : Nat) (v : Int) :
    Fix.finite w f (Fix.saturate w v) = true ↔ fixMin w ≤ v ∧ v ≤ fixMax w := by
  have h : (1 : Int) ≤ 2 ^ (w - 1) := one_le_pow₀ (by norm_num)
  have e : Fix.finite w f (Fix.saturate w v)
      = (decide (fixMin w - 1 < Fix.saturate w v) && decide (Fix.saturate w v < fixMax w + 1)) := rfl
  rw [e, Bool.and_eq_true, decide_eq_true_iff, decide_eq_true_iff]
  unfold Fix.saturate fixSatLow fixSatHigh fixMin fixMax
  omega

/-- R15: a result that did not saturate is the exact one. -/
theorem Fix.saturate_of_range {w : Nat} {v : Int} (h0 : fixMin w ≤ v) (h1 : v ≤ fixMax w) :
    Fix.saturate w v = v := by
  unfold Fix.saturate fixSatLow fixSatHigh; omega

/-- A result is finite exactly if the operands are and it did not saturate. -/
theorem Fix.finite_result (w f : Nat) (op : Config.NumOp) (a b v : Int) :
    Fix.finite w f (Fix.result w f op a b v)
      = (Fix.finite w f a && Fix.finite w f b && Fix.finite w f (Fix.saturate w v)) := by
  have hi : Fix.finite w f (fixSatHigh w) = false := by simp [Fix.finite, NumFormat.finite]
  have lo : Fix.finite w f (fixSatLow w) = false := by simp [Fix.finite, NumFormat.finite]
  unfold Fix.result
  split
  · rename_i h; rw [h, Bool.true_and]
  · rename_i h
    rw [Bool.eq_false_of_not_eq_true h, Bool.false_and]
    split
    · exact hi
    · exact lo

/-- 40_fft.md R135: an operation on a saturated word gives a saturated word. -/
theorem Fix.finite_result_mark {w f : Nat} {op : Config.NumOp} {a b v : Int}
    (h : (Fix.finite w f a && Fix.finite w f b) = false) :
    Fix.finite w f (Fix.result w f op a b v) = false := by
  rw [Fix.finite_result, h, Bool.false_and]

/-- R15: an operation on finite words whose exact result is in the range gives it. -/
theorem Fix.result_of_range {w f : Nat} {op : Config.NumOp} {a b v : Int} (ha : Fix.finite w f a = true)
    (hb : Fix.finite w f b = true) (h0 : fixMin w ≤ v) (h1 : v ≤ fixMax w) :
    Fix.result w f op a b v = v := by
  rw [Fix.result, ha, hb, Bool.and_self, if_pos rfl, Fix.saturate_of_range h0 h1]

/-- Silence is finite in every record of a chip. -/
@[simp] theorem finite_silence (c : Cfg) : c.arith.finite 0 = true := by
  rw [arith_finite]
  cases c.NUM with
  | f32 => decide
  | fix w f => have := fix_range w; simp [NumFormat.finite, this.1, this.2]

/-- What passes the test or is silenced is finite (60_exceptions.md R311). -/
theorem finite_orSilence {c : Cfg} {ok : Bool} {v : NumWord} (h : ok = true → c.arith.finite v = true) :
    c.arith.finite (orSilence ok v) = true := by
  cases ok
  · exact finite_silence c
  · exact h rfl

/-- A value that is finite is no NaN and no infinity, and the other way round. -/
theorem F32.finite_iff (a : Num32) : F32.finite a = true ↔ F32.isNaN a = false ∧ F32.isInf a = false := by
  by_cases h1 : F32.expo a = 255 <;> by_cases h2 : F32.frac a = 0 <;>
    simp [F32.finite, F32.isNaN, F32.isInf, h1, h2]

theorem F32.isNaN_nan (op : Config.NumOp) (a b : Num32) : F32.isNaN (F32.nan op a b) = true := by
  unfold F32.nan
  dsimp only
  split
  · assumption
  · decide

/-- The rounded magnitude is a pattern up to infinity. -/
theorem F32.roundMag_le (n d : Nat) : F32.roundMag n d ≤ F32.infMag := by
  unfold F32.roundMag; exact Nat.min_le_right _ _

/-- The exact zero rounds to zero. -/
@[simp] theorem F32.roundMag_zero (d : Nat) : F32.roundMag 0 d = 0 := by
  simp [F32.roundMag, F32.roundHalfEven]

/-! ### Memories whose words are finite -/

section

variable {c : Cfg} {m : Memory NumWord} {base n : Nat} {ws : List NumWord}

@[simp] theorem allFinite_nil (N : NUM NumWord) : allFinite N [] := by simp [allFinite]

theorem allFinite_ofWords (h : ∀ v ∈ ws, c.arith.finite v = true) :
    allFinite c.arith (Memory.ofWords base ws) := by
  induction ws generalizing base with
  | nil => simp [Memory.ofWords]
  | cons v ws ih =>
    rw [Memory.ofWords]
    have hv := h v (by simp)
    have ih := ih (base := base + 1) (fun x hx => h x (by simp [hx]))
    split
    · exact ih
    · intro e he
      rcases List.mem_cons.1 he with rfl | he
      · exact hv
      · exact ih e he

theorem allFinite_writeBlock (hm : allFinite c.arith m)
    (h : ∀ v ∈ ws, c.arith.finite v = true) : allFinite c.arith (m.writeBlock base ws) := by
  intro e he
  unfold Memory.writeBlock at he
  rcases List.mem_append.1 he with he | he
  · rcases List.mem_append.1 he with he | he
    · exact hm e (List.mem_of_mem_filter he)
    · exact allFinite_ofWords h e he
  · exact hm e (List.mem_of_mem_filter he)

theorem allFinite_write (hm : allFinite c.arith m) (a : Nat) {v : NumWord}
    (h : c.arith.finite v = true) : allFinite c.arith (m.write a v) :=
  allFinite_writeBlock hm (by simpa using h)

theorem allFinite_tabulate {f : Nat → NumWord} (h : ∀ i < n, c.arith.finite (f i) = true) :
    allFinite c.arith (Memory.tabulate n f) := by
  refine allFinite_ofWords (fun v hv => ?_)
  obtain ⟨i, hi, rfl⟩ := List.mem_map.1 hv
  exact h i (List.mem_range.1 hi)

/-- Every read of a finite memory is finite. -/
theorem finite_read (hm : allFinite c.arith m) (a : Nat) : c.arith.finite (m.read a) = true := by
  induction m with
  | nil => exact finite_silence c
  | cons e m ih =>
    rw [Memory.read_cons]
    split
    · exact hm e (by simp)
    · exact ih (fun x hx => hm x (by simp [hx]))

end

/-! ### Index computations -/

theorem ringIndex_lt (ptr : Nat) (off : Int) {size : Nat} (h : 0 < size) : ringIndex ptr off size < size := by
  unfold ringIndex
  have h1 := Int.emod_nonneg ((ptr : Int) - off) (by omega : (size : Int) ≠ 0)
  have h2 := Int.emod_lt_of_pos ((ptr : Int) - off) (by omega : (0 : Int) < size)
  omega

theorem ringNext_lt (ptr : Nat) {size : Nat} (h : 0 < size) : ringNext ptr size < size :=
  Nat.mod_lt _ h

theorem bflyHalf_pos (st : Nat) : 0 < bflyHalf st := Nat.pow_pos (by decide)

theorem bflyTop_ne_bottom (st q : Nat) : bflyTop st q ≠ bflyBottom st q := by
  have := bflyHalf_pos st
  unfold bflyBottom; omega

/-! ### Fatal faults and the issue of a command -/

theorem State.fatal_illegalCommand (s : State) :
    s.fatal .illegalCommand = { s with HCAUSE := 4, PHASE := .halt } := rfl

theorem State.fatal_configurationMismatch (s : State) :
    s.fatal .configurationMismatch
      = { s with HCAUSE := 2, PHASE := .halt, OUTL := [], OUTR := [] } := rfl

/-- A command in `HALT` changes nothing. -/
@[simp] theorem issue_of_halt {legal : Bool} {f : State → Result} {s : State} (h : s.PHASE = .halt) :
    issue legal f s = .next s := by simp [issue, h]

/-- A legal command has its effect. -/
@[simp] theorem issue_of_legal {f : State → Result} {s : State} (h : s.PHASE ≠ .halt) :
    issue true f s = f s := by simp [issue, h]

/-- An illegal command is an IllegalCommand. -/
@[simp] theorem issue_of_illegal {f : State → Result} {s : State} (h : s.PHASE ≠ .halt) :
    issue false f s = .next (s.fatal .illegalCommand) := by simp [issue, h]

/-- Everything the issue of a command can do. -/
theorem issue_next {legal : Bool} {f : State → Result} {s t : State} (h : issue legal f s = .next t) :
    (s.PHASE = .halt ∧ t = s)
      ∨ (s.PHASE ≠ .halt ∧ legal = true ∧ f s = .next t)
      ∨ (s.PHASE ≠ .halt ∧ legal = false ∧ t = s.fatal .illegalCommand) := by
  unfold issue at h
  split at h
  · rename_i hp; exact .inl ⟨hp, by cases h; rfl⟩
  · rename_i hp
    split at h
    · rename_i hl; exact .inr (.inl ⟨hp, hl, h⟩)
    · rename_i hl; exact .inr (.inr ⟨hp, by simpa using hl, by cases h; rfl⟩)

/-- Everything the range check can do. -/
theorem inSpace_next {ok : Bool} {t u : State} (h : inSpace ok t = .next u) : ok = true ∧ u = t := by
  cases ok <;> simp_all [inSpace]

@[simp] theorem inSpace_true (t : State) : inSpace true t = .next t := rfl

/-- The effect of a command that is legal and not issued in `HALT`. -/
def effect (i : Instr) (s : State) : Result :=
  match i with
  | .ctlBound => .next s.ctlBound
  | .ctlPre n => .next (s.ctlPre n.toNat)
  | .ctlByp n => .next (s.ctlByp n.toNat)
  | .ctlBlock => s.ctlBlock
  | .fftBrev => .next s.fftBrev
  | .fftBfly inv st q => .next (s.fftBfly inv st.toNat q.toNat)
  | .fftFwd => .next (s.fftTransform false)
  | .fftInv => .next (s.fftTransform true)
  | .convInit idx => .next (s.convInit idx)
  | .convClear => .next s.convClear
  | .convBlock => inSpace s.ringInRange s.convBlock
  | .convFrame => .next s.convFrame
  | .convPush => inSpace s.ringInRange s.convPush
  | .convMac => inSpace s.ringInRange s.convMac
  | .convOut => inSpace s.ringInRange s.convOut
  | .nnLoad idx => .next (s.nnLoad idx)
  | .nnReset => .next s.nnReset
  | .nnFwd n => .next (s.nnFwd n.toNat)
  | .toneSet => .next s.toneSet
  | .toneProc n => .next (s.toneProc n.toNat)
  | .dlySet => .next s.dlySet
  | .dlyProc n => inSpace s.dlyInRange (s.dlyProc n.toNat)
  | .revRoom => .next s.revRoom
  | .revDecay => .next s.revDecay
  | .revProc n => inSpace (!s.A.revEn || s.revInRange) (s.revProc n.toNat)
  | .mixSet => .next s.mixSet
  | .mixProc n => .next (s.mixProc n.toNat)

/-- Every command is the issue of its effect, legal exactly when it is well-formed. -/
theorem exec_eq_issue (i : Instr) (s : State) : exec i s = issue (i.wf s.cfg) (effect i) s := by
  cases i <;> rfl

/-- Everything a command can do when it answers a next state. -/
theorem exec_next {i : Instr} {s t : State} (h : exec i s = .next t) :
    (s.PHASE = .halt ∧ t = s)
      ∨ (s.PHASE ≠ .halt ∧ i.wf s.cfg = true ∧ effect i s = .next t)
      ∨ (s.PHASE ≠ .halt ∧ i.wf s.cfg = false ∧ t = s.fatal .illegalCommand) :=
  issue_next (exec_eq_issue i s ▸ h)

@[simp] theorem State.unlessHalted_halt {f : State → State} {s : State} (h : s.PHASE = .halt) :
    State.unlessHalted f s = s := by simp [State.unlessHalted, h]

@[simp] theorem State.unlessHalted_run {f : State → State} {s : State} (h : s.PHASE ≠ .halt) :
    State.unlessHalted f s = f s := by simp [State.unlessHalted, h]

/-! ### Sequences and loops -/

@[simp] theorem execAll_nil (s : State) : execAll [] s = .next s := rfl

theorem execAll_cons (i : Instr) (is : List Instr) (s t : State) (h : exec i s = .next t) :
    execAll (i :: is) s = execAll is t := by simp [execAll, h]

theorem execAll_append (is js : List Instr) (s t : State) (h : execAll is s = .next t) :
    execAll (is ++ js) s = execAll js t := by
  induction is generalizing s with
  | nil => cases h; rfl
  | cons i is ih =>
    rw [execAll] at h
    rw [List.cons_append, execAll]
    split at h <;> simp_all

/-- A loop keeps what its body keeps. -/
theorem foldl_keeps {α : Type} (P : State → Prop) (f : State → α → State) (l : List α) (s : State)
    (hs : P s) (h : ∀ t a, a ∈ l → P t → P (f t a)) : P (l.foldl f s) := by
  induction l generalizing s with
  | nil => exact hs
  | cons a l ih =>
    exact ih (f s a) (h s a (by simp) hs) (fun t b hb => h t b (by simp [hb]))

/-- A per-sample pass keeps what its body keeps at every sample of the block, and ends with `n = 0`. -/
theorem State.forSamples_keeps (P : State → Prop) (body : Nat → State → State) (s : State) (hs : P s)
    (hn : ∀ t i, P t → P { t with n := i })
    (h : ∀ t i, i < s.cfg.L → P t → P (body i t)) : P (State.forSamples body s) :=
  hn _ 0 (foldl_keeps P _ _ s hs
    (fun t i hi ht => h _ i (List.mem_range.1 hi) (hn t i ht)))

@[simp] theorem State.forSamples_n (body : Nat → State → State) (s : State) :
    (State.forSamples body s).n = 0 := rfl

section

variable {α : Type} [Inhabited α] [DecidableEq α]

/-- A transform keeps what a bit reversal gives and every butterfly keeps. -/
theorem transformZ_keeps (P : Memory α → Prop) (N : NUM α) (c : Cfg) (inv : Bool) (z : Memory α)
    (hb : P (bitReverseZ c z))
    (hf : ∀ m st q, 1 ≤ st → st ≤ c.M → q < c.N / 2 → P m → P (butterflyZ N c inv st q m)) :
    P (transformZ N c inv z) := by
  have fold : ∀ (β : Type) (f : Memory α → β → Memory α) (l : List β) (m : Memory α), P m →
      (∀ m a, a ∈ l → P m → P (f m a)) → P (l.foldl f m) := by
    intro β f l
    induction l with
    | nil => intro m hm _; exact hm
    | cons a l ih =>
      intro m hm h
      exact ih (f m a) (h m a (by simp) hm) (fun m b hb => h m b (by simp [hb]))
  refine fold _ _ _ _ hb (fun m i hi hm => ?_)
  refine fold _ _ _ _ hm (fun m q hq hm => ?_)
  have := List.mem_range.1 hi
  exact hf m (i + 1) q (by omega) (by omega) (List.mem_range.1 hq) hm

/-- Every transform is in canonical form. -/
theorem wf_transformZ (N : NUM α) (c : Cfg) (inv : Bool) (z : Memory α) :
    (transformZ N c inv z).wf = true :=
  transformZ_keeps (fun m => m.wf = true) N c inv z (by simp [bitReverseZ])
    (fun _ _ _ _ _ _ hm => Memory.wf_writeC (Memory.wf_writeC hm _ _) _ _)

end

/-! ### Events -/

/-- Everything a step can do when it answers a next state. -/
theorem step_next {s t : State} (h : step s = .next t) :
    s.cfg.wf = true ∧ ((s.inbox = [] ∧ t = s)
      ∨ ∃ e rest, s.inbox = e :: rest ∧ runEvent e { s with inbox := rest } = .next t) := by
  unfold step at h
  split at h
  · rename_i hc
    refine ⟨hc, ?_⟩
    unfold runNext at h
    split at h
    · rename_i hi; exact .inl ⟨hi, by cases h; rfl⟩
    · rename_i e rest hi; exact .inr ⟨e, rest, hi, h⟩
  · cases h

/-- Everything a command word can do when it answers a next state. -/
theorem runWord_next {w : BitVec 32} {s t : State} (h : runWord w s = .next t) :
    s.PHASE ≠ .run ∧ ((∃ i, decode s.cfg w = .ok i ∧ exec i s = .next t)
      ∨ (∃ e, decode s.cfg w = .error e ∧ issue false (fun u => .next u) s = .next t)) := by
  unfold runWord at h
  split at h
  · cases h
  · rename_i hp
    refine ⟨hp, ?_⟩
    split at h
    · rename_i i hd; exact .inl ⟨i, hd, h⟩
    · rename_i e hd; exact .inr ⟨e, hd, h⟩

/-- Everything a `TICK` can do when it answers a next state. -/
theorem State.tick_next {block : List (BitVec 32)} {s t : State} (h : s.tick block = .next t) :
    (s.PHASE = .halt ∧ t = s.silenceOut.deliver)
      ∨ (s.PHASE ≠ .halt ∧ ∃ u, (s.beginBlock block).ctlBlock = .next u ∧ t = u.endBlock) := by
  unfold State.tick at h
  split at h
  · rename_i hp; exact .inl ⟨hp, by cases h; rfl⟩
  · rename_i hp
    split at h
    · rename_i u hu; exact .inr ⟨hp, u, hu, by cases h; rfl⟩
    · cases h
    · cases h

/-- What a port write may change: the shadow bank, the mailbox bank and the requests
(60_exceptions.md R330). -/
theorem State.portWrite_frame (addr width : Nat) (w : BitVec 32) (s : State) :
    s.portWrite addr width w
      = { s with
          S := (s.portWrite addr width w).S
          M := (s.portWrite addr width w).M
          MV := (s.portWrite addr width w).MV
          RQM := (s.portWrite addr width w).RQM
          RQI := (s.portWrite addr width w).RQI
          RQB := (s.portWrite addr width w).RQB } := by
  unfold State.portWrite State.portStore
  repeat' split
  all_goals rfl

/-! ### Reset -/

/-- Every memory is in canonical form and empty before the boot sequence (70_reset_and_hazards.md
R351). -/
theorem State.cold_memoryInv (c : Cfg) : (State.cold c).MemoryInv where
  x := ⟨rfl, rfl⟩
  w := ⟨rfl, rfl⟩
  outl := ⟨rfl, rfl⟩
  outr := ⟨rfl, rfl⟩
  z := ⟨rfl, rfl⟩
  part := ⟨rfl, rfl⟩
  hist := ⟨rfl, rfl⟩
  ovl := ⟨rfl, rfl⟩
  wt := ⟨rfl, rfl⟩
  h := ⟨rfl, rfl⟩
  dbuf := ⟨rfl, rfl⟩
  lines := by
    intro l hl
    rw [List.eq_of_mem_replicate hl]
    exact ⟨rfl, rfl⟩

/-- The memories of the reset state are in canonical form. -/
theorem State.reset_wf :
    State.reset.X.wf ∧ State.reset.W.wf ∧ State.reset.OUTL.wf ∧ State.reset.OUTR.wf
      ∧ State.reset.Z.wf ∧ State.reset.PART.wf ∧ State.reset.HIST.wf ∧ State.reset.OVL.wf
      ∧ State.reset.WT.wf ∧ State.reset.h.wf ∧ State.reset.DBUF.wf
      ∧ ∀ l ∈ State.reset.REV, l.RB.wf :=
  ⟨rfl, rfl, rfl, rfl, rfl, rfl, rfl, rfl, rfl, rfl, rfl, by simp [State.reset]⟩

end Sys2Proof.Machine
end

