-- ==== Sys2Proof/Laws/PerInstr.lean ====
section
/-! SUPPORT. Statements about every command as syntax, one lemma per constructor. -/

namespace Sys2Proof.Laws

/-- A command word as a number. -/
theorem commandWord_toNat (op : BitVec 8) (arg : BitVec 24) :
    (commandWord op arg).toNat = op.toNat * 2 ^ 24 + arg.toNat := by
  rw [commandWord, BitVec.toNat_append, ← Nat.shiftLeft_add_eq_or_of_lt arg.isLt, Nat.shiftLeft_eq]

/-- The unit field of a command word is the high half of its op byte. -/
theorem commandWord_unit (op : BitVec 8) (arg : BitVec 24) :
    (commandWord op arg).toNat / 2 ^ 28 = op.toNat / 16 := by
  have := arg.isLt; rw [commandWord_toNat]; omega

/-- The function field of a command word is the low half of its op byte. -/
theorem commandWord_func (op : BitVec 8) (arg : BitVec 24) :
    (commandWord op arg).toNat / 2 ^ 24 % 16 = op.toNat % 16 := by
  have := arg.isLt; rw [commandWord_toNat]; omega

namespace OpcodeMap

/-- The word of a command has the unit and the function of its row of the opcode map
(30_encoding.md R101, R105). -/
def Statement (i : Instr) : Prop :=
  ∃ r ∈ opcodeRows, r.mnemonic = i.mnemonic ∧ (encode i).toNat / 2 ^ 28 = r.unit
    ∧ (encode i).toNat / 2 ^ 24 % 16 = r.func

theorem ctlBound : Statement .ctlBound :=
  ⟨⟨"CTL.BOUND", 0, 1, .c0⟩, by simp [opcodeRows], rfl, commandWord_unit 0x01 _,
    commandWord_func 0x01 _⟩

theorem ctlPre (n : BitVec 24) : Statement (.ctlPre n) :=
  ⟨⟨"CTL.PRE", 0, 2, .ciSample⟩, by simp [opcodeRows], rfl, commandWord_unit 0x02 _,
    commandWord_func 0x02 _⟩

theorem ctlByp (n : BitVec 24) : Statement (.ctlByp n) :=
  ⟨⟨"CTL.BYP", 0, 3, .ciSample⟩, by simp [opcodeRows], rfl, commandWord_unit 0x03 _,
    commandWord_func 0x03 _⟩

theorem ctlBlock : Statement .ctlBlock :=
  ⟨⟨"CTL.BLOCK", 0, 4, .c0⟩, by simp [opcodeRows], rfl, commandWord_unit 0x04 _,
    commandWord_func 0x04 _⟩

theorem fftBrev : Statement .fftBrev :=
  ⟨⟨"FFT.BREV", 1, 1, .c0⟩, by simp [opcodeRows], rfl, commandWord_unit 0x11 _,
    commandWord_func 0x11 _⟩

theorem fftBfly (inv : Bool) (st : BitVec 5) (q : BitVec 18) : Statement (.fftBfly inv st q) :=
  ⟨⟨"FFT.BFLY", 1, 2, .cb⟩, by simp [opcodeRows], rfl, commandWord_unit 0x12 _,
    commandWord_func 0x12 _⟩

theorem fftFwd : Statement .fftFwd :=
  ⟨⟨"FFT.FWD", 1, 3, .c0⟩, by simp [opcodeRows], rfl, commandWord_unit 0x13 _,
    commandWord_func 0x13 _⟩

theorem fftInv : Statement .fftInv :=
  ⟨⟨"FFT.INV", 1, 4, .c0⟩, by simp [opcodeRows], rfl, commandWord_unit 0x14 _,
    commandWord_func 0x14 _⟩

theorem convInit (idx : BitVec 24) : Statement (.convInit idx) :=
  ⟨⟨"CONV.INIT", 2, 1, .ciRow⟩, by simp [opcodeRows], rfl, commandWord_unit 0x21 _,
    commandWord_func 0x21 _⟩

theorem convClear : Statement .convClear :=
  ⟨⟨"CONV.CLEAR", 2, 2, .c0⟩, by simp [opcodeRows], rfl, commandWord_unit 0x22 _,
    commandWord_func 0x22 _⟩

theorem convBlock : Statement .convBlock :=
  ⟨⟨"CONV.BLOCK", 2, 3, .c0⟩, by simp [opcodeRows], rfl, commandWord_unit 0x23 _,
    commandWord_func 0x23 _⟩

theorem convFrame : Statement .convFrame :=
  ⟨⟨"CONV.FRAME", 2, 4, .c0⟩, by simp [opcodeRows], rfl, commandWord_unit 0x24 _,
    commandWord_func 0x24 _⟩

theorem convPush : Statement .convPush :=
  ⟨⟨"CONV.PUSH", 2, 5, .c0⟩, by simp [opcodeRows], rfl, commandWord_unit 0x25 _,
    commandWord_func 0x25 _⟩

theorem convMac : Statement .convMac :=
  ⟨⟨"CONV.MAC", 2, 6, .c0⟩, by simp [opcodeRows], rfl, commandWord_unit 0x26 _,
    commandWord_func 0x26 _⟩

theorem convOut : Statement .convOut :=
  ⟨⟨"CONV.OUT", 2, 7, .c0⟩, by simp [opcodeRows], rfl, commandWord_unit 0x27 _,
    commandWord_func 0x27 _⟩

theorem nnLoad (idx : BitVec 24) : Statement (.nnLoad idx) :=
  ⟨⟨"NN.LOAD", 3, 1, .ciRow⟩, by simp [opcodeRows], rfl, commandWord_unit 0x31 _,
    commandWord_func 0x31 _⟩

theorem nnReset : Statement .nnReset :=
  ⟨⟨"NN.RESET", 3, 2, .c0⟩, by simp [opcodeRows], rfl, commandWord_unit 0x32 _,
    commandWord_func 0x32 _⟩

theorem nnFwd (n : BitVec 24) : Statement (.nnFwd n) :=
  ⟨⟨"NN.FWD", 3, 3, .ciSample⟩, by simp [opcodeRows], rfl, commandWord_unit 0x33 _,
    commandWord_func 0x33 _⟩

theorem toneSet : Statement .toneSet :=
  ⟨⟨"TONE.SET", 4, 1, .c0⟩, by simp [opcodeRows], rfl, commandWord_unit 0x41 _,
    commandWord_func 0x41 _⟩

theorem toneProc (n : BitVec 24) : Statement (.toneProc n) :=
  ⟨⟨"TONE.PROC", 4, 2, .ciSample⟩, by simp [opcodeRows], rfl, commandWord_unit 0x42 _,
    commandWord_func 0x42 _⟩

theorem dlySet : Statement .dlySet :=
  ⟨⟨"DLY.SET", 5, 1, .c0⟩, by simp [opcodeRows], rfl, commandWord_unit 0x51 _,
    commandWord_func 0x51 _⟩

theorem dlyProc (n : BitVec 24) : Statement (.dlyProc n) :=
  ⟨⟨"DLY.PROC", 5, 2, .ciSample⟩, by simp [opcodeRows], rfl, commandWord_unit 0x52 _,
    commandWord_func 0x52 _⟩

theorem revRoom : Statement .revRoom :=
  ⟨⟨"REV.ROOM", 6, 1, .c0⟩, by simp [opcodeRows], rfl, commandWord_unit 0x61 _,
    commandWord_func 0x61 _⟩

theorem revDecay : Statement .revDecay :=
  ⟨⟨"REV.DECAY", 6, 2, .c0⟩, by simp [opcodeRows], rfl, commandWord_unit 0x62 _,
    commandWord_func 0x62 _⟩

theorem revProc (n : BitVec 24) : Statement (.revProc n) :=
  ⟨⟨"REV.PROC", 6, 3, .ciSample⟩, by simp [opcodeRows], rfl, commandWord_unit 0x63 _,
    commandWord_func 0x63 _⟩

theorem mixSet : Statement .mixSet :=
  ⟨⟨"MIX.SET", 7, 1, .c0⟩, by simp [opcodeRows], rfl, commandWord_unit 0x71 _,
    commandWord_func 0x71 _⟩

theorem mixProc (n : BitVec 24) : Statement (.mixProc n) :=
  ⟨⟨"MIX.PROC", 7, 2, .ciSample⟩, by simp [opcodeRows], rfl, commandWord_unit 0x72 _,
    commandWord_func 0x72 _⟩

end OpcodeMap

end Sys2Proof.Laws
end

