-- ==== Sys2Proof/Laws/Trig.lean ====
section
/-! SUPPORT. The twiddle factors of `NUM_FIX(w, f)` are the values nearest to the ideal ones, for every
width, every fraction and every transform length (40_fft.md R131). -/

namespace Sys2Proof.Machine

/-- What the bisection finds: the last value whose threshold `a` has reached, up to the next. -/
theorem risingSearch_spec (step : Nat → Int) (a : Int) (fuel lo : Nat) :
    (risingSearch step a fuel lo = lo ∨ step (risingSearch step a fuel lo) ≤ a)
    ∧ (risingSearch step a fuel lo + 1 = lo + 2 ^ fuel ∨ a < step (risingSearch step a fuel lo + 1)) := by
  induction fuel generalizing lo with
  | zero => simp [risingSearch]
  | succ fuel ih =>
    have h := pow_succ 2 fuel
    rw [risingSearch]
    split
    · rename_i hs
      obtain ⟨h1, h2⟩ := ih (lo + 2 ^ fuel)
      constructor
      · rcases h1 with h1 | h1
        · right; rw [h1]; exact hs
        · exact .inr h1
      · rcases h2 with h2 | h2
        · left; omega
        · exact .inr h2
    · rename_i hs
      obtain ⟨h1, h2⟩ := ih lo
      refine ⟨h1, ?_⟩
      rcases h2 with h2 | h2
      · right; rw [h2]; omega
      · exact .inr h2
namespace Fix

/-- The angle `2*pi*k/2^M`. -/
noncomputable def turn (M k : Nat) : ℝ := 2 * Real.pi * k / 2 ^ M

/-- Whole turns do not matter. -/
theorem turn_reduce (M k : Nat) : Real.cos (turn M k) = Real.cos (turn M (k % 2 ^ M)) := by
  have h : turn M k = turn M (k % 2 ^ M) + (k / 2 ^ M : Nat) * (2 * Real.pi) := by
    unfold turn
    have h2 : (k : ℝ) = ((2 ^ M * (k / 2 ^ M) + k % 2 ^ M : Nat) : ℝ) := by rw [Nat.div_add_mod]
    rw [h2]; push_cast; field_simp; ring
  rw [h, Real.cos_add_nat_mul_two_pi]

/-- `cosNeg` says whether the cosine is negative. -/
theorem cosNeg_iff (M k : Nat) : cosNeg M k = true ↔ Real.cos (turn M k) < 0 := by
  rw [turn_reduce]
  have hlt : k % 2 ^ M < 2 ^ M := Nat.mod_lt _ (Nat.pow_pos (by decide))
  unfold cosNeg turn
  generalize k % 2 ^ M = r at *
  simp only [Bool.and_eq_true, decide_eq_true_eq]
  have hp := Real.pi_pos
  have hN : (0 : ℝ) < 2 ^ M := by positivity
  have hr : (r : ℝ) < 2 ^ M := by exact_mod_cast hlt
  have hr0 : (0 : ℝ) ≤ r := Nat.cast_nonneg r
  constructor
  · rintro ⟨h1, h2⟩
    have h1 : (2 ^ M : ℝ) < 4 * r := by exact_mod_cast h1
    have h2 : (4 * r : ℝ) < 3 * 2 ^ M := by exact_mod_cast h2
    refine Real.cos_neg_of_pi_div_two_lt_of_lt ?_ ?_
    · rw [lt_div_iff₀ hN]; nlinarith
    · rw [div_lt_iff₀ hN]; nlinarith
  · contrapose!
    intro h
    by_cases h1 : 2 ^ M < 4 * r
    · have h2 := h h1
      have h2 : (3 * 2 ^ M : ℝ) ≤ 4 * r := by exact_mod_cast h2
      rw [← Real.cos_sub_two_pi]
      refine Real.cos_nonneg_of_neg_pi_div_two_le_of_le ?_ ?_
      · rw [le_sub_iff_add_le, le_div_iff₀ hN]; nlinarith
      · rw [sub_le_iff_le_add, div_le_iff₀ hN]; nlinarith
    · have h1 : (4 * r : ℝ) ≤ 2 ^ M := by exact_mod_cast (not_lt.1 h1)
      refine Real.cos_nonneg_of_neg_pi_div_two_le_of_le ?_ ?_
      · have : 0 ≤ 2 * Real.pi * r / 2 ^ M := by positivity
        linarith
      · rw [div_le_iff₀ hN]; nlinarith

theorem turn_double (M k : Nat) : 2 * turn (M + 1) k = turn M k := by
  unfold turn; rw [pow_succ]; field_simp

/-- `cosSide` compares a fraction with the cosine exactly. -/
theorem cosSide_spec (M k : Nat) (n : Int) (e : Nat) :
    (0 < cosSide M k n e ↔ Real.cos (turn M k) < n / 2 ^ e)
    ∧ (cosSide M k n e < 0 ↔ (n / 2 ^ e : ℝ) < Real.cos (turn M k)) := by
  induction M generalizing n e with
  | zero =>
    have he : (0 : ℝ) < 2 ^ e := by positivity
    have hc : Real.cos (turn 0 k) = 1 := by
      rw [turn_reduce]; simp [turn, Nat.mod_one]
    rw [hc, lt_div_iff₀ he, div_lt_iff₀ he, cosSide, Int.sign_pos_iff, Int.sign_neg_iff, sub_pos, sub_neg,
      one_mul]
    push_cast
    exact ⟨by exact_mod_cast Iff.rfl, by exact_mod_cast Iff.rfl⟩
  | succ M ih =>
    have he : (0 : ℝ) < 2 ^ e := by positivity
    obtain ⟨h1, h2⟩ := ih (((2 * (n.natAbs * n.natAbs) : Nat) : Int) - ((4 ^ e : Nat) : Int)) (2 * e)
    have hd : Real.cos (turn M k) = 2 * Real.cos (turn (M + 1) k) ^ 2 - 1 := by
      rw [← turn_double, Real.cos_two_mul]
    have hx : ((((2 * (n.natAbs * n.natAbs) : Nat) : Int) - ((4 ^ e : Nat) : Int) : Int) : ℝ) / 2 ^ (2 * e)
        = 2 * (n / 2 ^ e : ℝ) ^ 2 - 1 := by
      have hsq : ((2 * (n.natAbs * n.natAbs) : Nat) : Int) = 2 * (n * n) := by
        rw [Nat.cast_mul, Int.natAbs_mul_self]; rfl
      have : (2 : ℝ) ^ (2 * e) = (2 ^ e) ^ 2 := by rw [mul_comm, pow_mul]
      have h4 : (4 : ℝ) ^ e = (2 ^ e) ^ 2 := by rw [← pow_mul, mul_comm, pow_mul]; norm_num
      rw [hsq]; push_cast; rw [this, h4]; field_simp
    rw [hx, hd] at h1 h2
    have hn : (0 : ℝ) ≤ n / 2 ^ e ↔ 0 ≤ n := by
      rw [le_div_iff₀ he, zero_mul]; exact_mod_cast Iff.rfl
    have hneg := cosNeg_iff (M + 1) k
    generalize Real.cos (turn (M + 1) k) = c at *
    generalize (n / 2 ^ e : ℝ) = x at *
    rw [cosSide]
    by_cases hc : cosNeg (M + 1) k = true
    · have hc' := hneg.1 hc
      rw [if_pos hc]
      by_cases h0 : 0 ≤ n
      · have := hn.2 h0
        rw [if_pos h0]
        exact ⟨⟨fun _ => by linarith, fun _ => by decide⟩, ⟨fun h => absurd h (by decide), fun h => by linarith⟩⟩
      · have := lt_of_not_ge (mt hn.1 h0)
        rw [if_neg h0, neg_pos, Left.neg_neg_iff, h1, h2]
        constructor <;> constructor <;> intro h <;> nlinarith
    · have hc' := le_of_not_gt (mt hneg.2 hc)
      rw [if_neg hc]
      by_cases h0 : n < 0
      · have := lt_of_not_ge (mt hn.1 (not_le.2 h0))
        rw [if_pos h0]
        exact ⟨⟨fun h => absurd h (by decide), fun h => by linarith⟩, ⟨fun _ => by linarith, fun _ => by decide⟩⟩
      · have := hn.2 (not_lt.1 h0)
        rw [if_neg h0, h1, h2]
        constructor <;> constructor <;> intro h <;> nlinarith

/-- An integer within one half of `y`, brought into a range, is nearest to `y` of the range. -/
theorem clamp_nearest {lo hi v b : Int} {y : ℝ} (hv : |(v : ℝ) - y| ≤ 1 / 2) (h1 : lo ≤ b) (h2 : b ≤ hi) :
    |((max lo (min hi v) : Int) : ℝ) - y| ≤ |(b : ℝ) - y| := by
  obtain ⟨l, r⟩ := abs_le.1 hv
  have far : ∀ {p q : Int}, p + 1 ≤ q → (p : ℝ) + 1 ≤ q := fun h => by exact_mod_cast h
  have near : ∀ {p q : Int}, p ≤ q → (p : ℝ) ≤ q := fun h => by exact_mod_cast h
  rcases lt_trichotomy v b with h | h | h
  · have := far h
    rw [abs_of_nonneg (by linarith : (0 : ℝ) ≤ b - y)]
    by_cases hlo : v < lo
    · rw [min_eq_right (by omega), max_eq_left (by omega)]
      have := far hlo; have := near h1
      rw [abs_of_nonneg (by linarith)]; linarith
    · rw [min_eq_right (by omega), max_eq_right (by omega)]
      exact le_trans hv (by linarith)
  · rw [min_eq_right (by omega), max_eq_right (by omega), h]
  · have := far h
    rw [abs_of_nonpos (by linarith : (b : ℝ) - y ≤ 0)]
    by_cases hhi : hi < v
    · rw [min_eq_left (by omega), max_eq_right (by omega)]
      have := far hhi; have := near h2
      rw [abs_of_nonpos (by linarith)]; linarith
    · rw [min_eq_right (by omega), max_eq_right (by omega)]
      exact le_trans hv (by linarith)

/-- The bisection ends within one half of the scaled cosine. -/
theorem cosNearest_spec {f M k : Nat} (hf : 1 ≤ f) (hk : 4 * k ≤ 2 ^ M) :
    |((cosNearest f M k : Nat) : ℝ) - 2 ^ f * Real.cos (turn M k)| ≤ 1 / 2 := by
  obtain ⟨h1, h2⟩ := risingSearch_spec (fun v => cosSide M k (2 * (v : Int) - 1) (f + 1)) 0 (f + 1) 0
  have hN : (0 : ℝ) < 2 ^ M := by positivity
  have hk' : (4 * k : ℝ) ≤ 2 ^ M := by exact_mod_cast hk
  have hp := Real.pi_pos
  have c0 : 0 ≤ Real.cos (turn M k) := by
    refine Real.cos_nonneg_of_neg_pi_div_two_le_of_le ?_ ?_
    · have : 0 ≤ turn M k := by unfold turn; positivity
      linarith
    · unfold turn; rw [div_le_iff₀ hN]; nlinarith
  have c1 := Real.cos_le_one (turn M k)
  have hS : (2 : ℝ) ≤ 2 ^ f := by
    calc (2 : ℝ) = 2 ^ 1 := by norm_num
      _ ≤ 2 ^ f := pow_le_pow_right₀ (by norm_num) hf
  have side := fun n => cosSide_spec M k n (f + 1)
  unfold cosNearest
  generalize risingSearch (fun v => cosSide M k (2 * (v : Int) - 1) (f + 1)) 0 (f + 1) 0 = v at *
  generalize Real.cos (turn M k) = c at *
  have hpos : (0 : ℝ) < 2 ^ (f + 1) := by positivity
  have hdbl : (2 : ℝ) ^ (f + 1) = 2 * 2 ^ f := by rw [pow_succ]; ring
  have low : v = 0 ∨ (2 * (v : ℝ) - 1) ≤ 2 * 2 ^ f * c := by
    rcases h1 with h1 | h1
    · exact .inl h1
    · right
      have := not_lt.1 (mt (side _).1.2 (not_lt.2 h1))
      rw [div_le_iff₀ hpos, hdbl] at this
      push_cast at this; linarith
  have high : 2 * 2 ^ f * c < 2 * (v : ℝ) + 1 := by
    rcases h2 with h2 | h2
    · have hv : (v : ℝ) + 1 = 2 * 2 ^ f := by
        rw [← hdbl]; exact_mod_cast (by omega : v + 1 = 2 ^ (f + 1))
      nlinarith
    · have := (side _).1.1 h2
      rw [lt_div_iff₀ hpos, hdbl] at this
      push_cast at this; linarith
  rw [abs_le]
  constructor
  · linarith
  · rcases low with rfl | h
    · have : 0 ≤ 2 ^ f * c := by positivity
      simp; linarith
    · linarith

/-- R131: no value of the format is nearer to the ideal one than `ofTrig`. -/
theorem ofTrig_nearest {w f M k : Nat} (s : Bool) {b : Int} (hf : 1 ≤ f) (hk : 4 * k ≤ 2 ^ M)
    (h1 : fixMin w ≤ b) (h2 : b ≤ fixMax w) :
    |(ofTrig w f s (2 ^ M) k : ℝ) - 2 ^ f * (if s then -Real.cos (turn M k) else Real.cos (turn M k))|
      ≤ |(b : ℝ) - 2 ^ f * (if s then -Real.cos (turn M k) else Real.cos (turn M k))| := by
  have h := cosNearest_spec (M := M) (k := k) hf hk
  unfold ofTrig value
  rw [Nat.log2_two_pow]
  cases s
  · exact clamp_nearest (by simpa using h) h1 h2
  · refine clamp_nearest ?_ h1 h2
    simp only [if_true, Int.cast_neg, Int.cast_natCast]
    rw [show ∀ x y : ℝ, -x - 2 ^ f * -y = -(x - 2 ^ f * y) from fun x y => by ring, abs_neg]
    exact h

/-- The sine of an angle is the cosine of the rest of the quarter turn. -/
theorem sin_turn {M k j : Nat} (h : 4 * (k + j) = 2 ^ M) : Real.sin (turn M k) = Real.cos (turn M j) := by
  have hN : (2 : ℝ) ^ M = 4 * (k + j) := by exact_mod_cast h.symm
  have h0 : (0 : ℝ) < 2 ^ M := by positivity
  rw [← Real.cos_pi_div_two_sub]
  congr 1
  unfold turn
  rw [eq_div_iff h0.ne', sub_mul, div_mul_cancel₀ _ h0.ne', hN]; ring

/-- The cosine of the rest of a half turn. -/
theorem cos_turn {M k j : Nat} (h : 2 * (k + j) = 2 ^ M) :
    Real.cos (turn M k) = -Real.cos (turn M j) ∧ Real.sin (turn M k) = Real.sin (turn M j) := by
  have hN : (2 : ℝ) ^ M = 2 * (k + j) := by exact_mod_cast h.symm
  have h0 : (0 : ℝ) < 2 ^ M := by positivity
  have : turn M k = Real.pi - turn M j := by
    unfold turn
    rw [div_eq_iff h0.ne', sub_mul, div_mul_cancel₀ _ h0.ne', hN]; ring
  rw [this, Real.cos_pi_sub, Real.sin_pi_sub]
  exact ⟨rfl, rfl⟩

/-- A transform with more than one twiddle factor has a length divisible by 4. -/
theorem quarter_turn {M k : Nat} (h0 : k ≠ 0) (hk : 2 * k < 2 ^ M) : ∃ m, 2 ^ M = 4 * m := by
  obtain ⟨n, rfl⟩ : ∃ n, M = n + 2 := by
    refine ⟨M - 2, ?_⟩
    by_contra hM
    have : 2 ^ M ≤ 2 ^ 1 := Nat.pow_le_pow_right (by decide) (by omega)
    omega
  exact ⟨2 ^ n, by rw [pow_add]; ring⟩

/-- `const` of 1 and of -1 are the values nearest to them. -/
theorem const_one (w f : Nat) : const w f 1 = value w (2 ^ f) ∧ const w f (-1) = value w (-2 ^ f) := by
  constructor <;> simp [const]

/-- 40_fft.md R131 for `NUM_FIX(w, f)`: of all values of the format, the two parts of every entry of the
twiddle table are nearest to `cos(2*pi*k/N)` and `-sin(2*pi*k/N)`. -/
theorem TW_nearest {w f M k : Nat} (hf : 1 ≤ f) (hk : 2 * k < 2 ^ M) {b : Int}
    (h1 : fixMin w ≤ b) (h2 : b ≤ fixMax w) :
    |(((NUM_FIX w f).TW (2 ^ M) k).re : ℝ) - 2 ^ f * Real.cos (turn M k)|
        ≤ |(b : ℝ) - 2 ^ f * Real.cos (turn M k)|
    ∧ |(((NUM_FIX w f).TW (2 ^ M) k).im : ℝ) - 2 ^ f * -Real.sin (turn M k)|
        ≤ |(b : ℝ) - 2 ^ f * -Real.sin (turn M k)| := by
  have exact : ∀ v : Int, |(value w v : ℝ) - v| ≤ |(b : ℝ) - v| := fun v =>
    clamp_nearest (by simp) h1 h2
  have one : |((const w f 1 : Int) : ℝ) - 2 ^ f| ≤ |(b : ℝ) - 2 ^ f| := by
    rw [(const_one w f).1]; simpa using exact (2 ^ f)
  have negOne : |((const w f (-1) : Int) : ℝ) - -2 ^ f| ≤ |(b : ℝ) - -2 ^ f| := by
    rw [(const_one w f).2]; simpa using exact (-2 ^ f)
  have t0 : turn M 0 = 0 := by simp [turn]
  show |((twiddleTable (const w f 1) (const w f (-1)) (ofTrig w f) (2 ^ M) k).re : ℝ) - _| ≤ _
    ∧ |((twiddleTable (const w f 1) (const w f (-1)) (ofTrig w f) (2 ^ M) k).im : ℝ) - _| ≤ _
  unfold twiddleTable
  split
  · rename_i hk0
    subst hk0
    rw [t0, Real.cos_zero, Real.sin_zero]
    exact ⟨by simpa using one, by simp [silence]⟩
  · split
    · rename_i h0 hq
      have e := sin_turn (M := M) (k := k) (j := 0) hq
      have e' := sin_turn (M := M) (k := 0) (j := k) (by omega)
      rw [t0, Real.cos_zero] at e
      rw [t0, Real.sin_zero] at e'
      rw [e, ← e']
      exact ⟨by simp [silence], by simpa using negOne⟩
    · split
      · rename_i h0 hq hlt
        obtain ⟨m, hm⟩ := quarter_turn h0 hk
        rw [sin_turn (M := M) (k := k) (j := 2 ^ M / 4 - k) (by omega)]
        exact ⟨ofTrig_nearest false hf (by omega) h1 h2, ofTrig_nearest true hf (by omega) h1 h2⟩
      · rename_i h0 hq hlt
        obtain ⟨m, hm⟩ := quarter_turn h0 hk
        obtain ⟨e1, e2⟩ := cos_turn (M := M) (k := k) (j := 2 ^ M / 2 - k) (by omega)
        rw [e1, e2, sin_turn (M := M) (k := 2 ^ M / 2 - k) (j := k - 2 ^ M / 4) (by omega)]
        exact ⟨ofTrig_nearest true hf (by omega) h1 h2, ofTrig_nearest true hf (by omega) h1 h2⟩

end Fix

end Sys2Proof.Machine
end

