-- ==== Sys2Proof/Machine/Asm.lean ====
section
/-! DEFINITION. The textual form of a verification program (30_encoding.md R113) and its
pseudo-instructions (R114), read into the events it stands for. No rule of the machine reads text. -/

namespace Sys2Proof.Machine

/-- The value of a digit in a base up to 16. -/
def digitValue (base : Nat) (ch : Char) : Option Nat :=
  let v :=
    if '0' ≤ ch ∧ ch ≤ '9' then ch.toNat - '0'.toNat
    else if 'a' ≤ ch ∧ ch ≤ 'f' then ch.toNat - 'a'.toNat + 10
    else if 'A' ≤ ch ∧ ch ≤ 'F' then ch.toNat - 'A'.toNat + 10
    else base
  if v < base then some v else none

/-- A string of digits, after the value `acc` of those already read. -/
def readDigits (base acc : Nat) : List Char → Option Nat
  | [] => some acc
  | ch :: rest =>
    match digitValue base ch with
    | some d => readDigits base (acc * base + d) rest
    | none => none

/-- An integer operand, decimal or `0x` hexadecimal (R113). -/
def readInteger : List Char → Option Nat
  | [] => none
  | ['0', 'x'] => none
  | '0' :: 'x' :: digits => readDigits 16 0 digits
  | digits => readDigits 10 0 digits

/-- The pieces of a text between separators. -/
def splitAt (sep : Char) : List Char → List (List Char)
  | [] => [[]]
  | ch :: rest =>
    match splitAt sep rest with
    | [] => [[ch]]
    | piece :: more => if ch = sep then [] :: piece :: more else (ch :: piece) :: more

/-- A decimal number without its sign. -/
def readUnsigned (text : List Char) : Option Rat :=
  match splitAt '.' text with
  | [whole] => (readInteger whole).map (fun v => mkRat v 1)
  | [whole, part] =>
    match readDigits 10 0 whole, readDigits 10 0 part with
    | some a, some b => some (mkRat (a * 10 ^ part.length + b : Nat) (10 ^ part.length))
    | _, _ => none
  | _ => none

/-- A decimal number. -/
def readDecimal : List Char → Option Rat
  | '-' :: text => (readUnsigned text).map (fun q => -q)
  | text => readUnsigned text

/-- A decimal with or without the suffix `f`, as the pattern `toBits(const(value))` (R113). -/
def readNum (c : Cfg) (text : List Char) : Option (BitVec 32) :=
  (readDecimal (if text.getLast? = some 'f' then text.dropLast else text)).map
    (fun q => c.arith.toBits (c.arith.const q))

/-- The value of a port write: a word, or with the suffix `f` a `Num` (R113). -/
def readWord (c : Cfg) (text : List Char) : Option (BitVec 32) :=
  match readInteger text with
  | some v => if v < 2 ^ 32 then some (BitVec.ofNat 32 v) else none
  | none => if text.getLast? = some 'f' then readNum c text else none

/-- One sample of a `TICK`: a decimal, or a pattern in hexadecimal (R111, R113). -/
def readSample (c : Cfg) (text : List Char) : Option (BitVec 32) :=
  match text with
  | '0' :: 'x' :: _ => readWord c text
  | _ => readNum c text

/-- All results, or none if one is missing. -/
def allRead {α β : Type} (f : α → Option β) : List α → Option (List β)
  | [] => some []
  | a :: rest =>
    match f a, allRead f rest with
    | some b, some more => some (b :: more)
    | _, _ => none

/-- The operands of a line, separated by commas. -/
def operandTexts (text : List Char) : List (List Char) :=
  if text = [] then [] else splitAt ',' text

/-- The `arg` of a row's format from its operands, each in its field (R102, R103, R104, R113). -/
def operandArg : Format → List Nat → Option Nat
  | .c0, [] => some 0
  | .ciSample, [n] => if n < 2 ^ 24 then some n else none
  | .ciRow, [idx] => if idx < 2 ^ 24 then some idx else none
  | .cb, [inv, st, q] =>
    if inv < 2 ∧ st < 2 ^ 5 ∧ q < 2 ^ 18 then some (inv * 2 ^ 23 + st * 2 ^ 18 + q) else none
  | _, _ => none

/-- The word of a command line, from the opcode map (R105). -/
def assembleCommand (name : List Char) (ops : List Nat) : Option (BitVec 32) :=
  match opcodeRows.find? (fun r => r.mnemonic.toList = name) with
  | some r =>
    (operandArg r.format ops).map
      (fun arg => BitVec.ofNat 32 (r.unit * 2 ^ 28 + r.func * 2 ^ 24 + arg))
  | none => none

/-- The expansion of a pseudo-instruction (R114). -/
def assemblePseudo (c : Cfg) (name : List Char) (ops : List Nat) : Option (List Instr) :=
  if name = "ENGAGE".toList ∧ ops = [] then some pseudoEngage
  else if name = "SETUP".toList ∧ ops = [] then some pseudoSetup
  else if name = "POST".toList then
    match ops with
    | [n] => if n < 2 ^ 24 then some (pseudoPost (BitVec.ofNat 24 n)) else none
    | _ => none
  else if name = "FFT.PASS".toList then
    match ops with
    | [inv, st] => if inv < 2 ∧ st < 2 ^ 5 then some (pseudoFftPass c (inv == 1) st) else none
    | _ => none
  else none

/-- The samples between the brackets of a `TICK` (R113). -/
def readBlock (c : Cfg) : List Char → Option (List (BitVec 32))
  | '[' :: text =>
    if text.getLast? = some ']' then allRead (readSample c) (operandTexts text.dropLast) else none
  | _ => none

/-- One line without its comment, its first word and the rest without spaces (R113). -/
def assembleWords (c : Cfg) (name args : List Char) : Option (List Event) :=
  if name = "TICK".toList then (readBlock c args).map (fun block => [.tick block])
  else if name = "PW".toList then
    match operandTexts args with
    | [addr, value] =>
      match readInteger addr, readWord c value with
      | some a, some w => some [.portWrite a 32 w]
      | _, _ => none
    | _ => none
  else if name = "PR".toList then
    match operandTexts args with
    | [addr] => (readInteger addr).map (fun a => [.portRead a 32])
    | _ => none
  else
    match allRead readInteger (operandTexts args) with
    | some ops =>
      match assembleCommand name ops with
      | some w => some [.command w]
      | none => (assemblePseudo c name ops).map (fun is => is.map (fun i => .command (encode i)))
    | none => none

/-- One line; `;` starts a comment, and an empty line is nothing (R113). -/
def assembleLine (c : Cfg) (line : List Char) : Option (List Event) :=
  let text := (line.takeWhile (fun ch => ch ≠ ';')).dropWhile (fun ch => ch = ' ')
  if text = [] then some []
  else
    assembleWords c (text.takeWhile (fun ch => ch ≠ ' '))
      ((text.dropWhile (fun ch => ch ≠ ' ')).filter (fun ch => ch ≠ ' '))

/-- The events of a program text, one line after another (R113); none if a line is not in the form. -/
def assemble (c : Cfg) (program : String) : Option (List Event) :=
  (allRead (assembleLine c) (splitAt '\n' program.toList)).map List.flatten

end Sys2Proof.Machine
end

