-- ==== Sys2Proof/Tests/Slice0.lean ====
section
/-! SUPPORT. Tests: expected values come from the words and vectors of the spec (30_encoding.md,
95_test_vectors.md), and a witness for the hypotheses of every statement. -/

namespace Sys2Proof.Tests

open Sys2Proof.Machine

set_option Elab.async false

/-! ### A small machine -/

/-- The words of a chip with `NUM_F32` that hold an integer, 1 and 0.5. -/
def num (i : Int) : NumWord := F32.word (F32.num i)
def one : NumWord := num 1
def half : NumWord := F32.word F32.half

/-- The small configuration `CFG_S` of 95_test_vectors.md, with the tables of programs P1 to P4 and an
impulse response that needs more than `KMAX` partitions. -/
def cfgS : Cfg := { Config.default with
  L := 2, KMAX := 4, DMAX := 8, RMAX := 8, REV_P := [1024, 1536], RV_MIN := 2, RV_MAX := 4
  MTAB := [[(333, one), (334, one)], [(333, half), (334, num 2)]]
  IRTAB := [[one], [num 1, num 2, num 3], List.replicate 9 one] }

/-- An idle machine before the boot sequence. -/
def idle : State := State.cold cfgS

/-- The state after a command, or the state before it if that is no next state. -/
def after (i : Instr) (s : State) : State :=
  match exec i s with
  | .next t => t
  | .fault _ => s
  | .refused _ => s

/-- The state after one step. -/
def stepped (s : State) : State :=
  match step s with
  | .next t => t
  | .fault _ => s
  | .refused _ => s

/-- Real samples as complex words. -/
def reals : List Nat → Memory NumWord :=
  fun l => Memory.ofWords 0 (l.flatMap (fun i => [num i, 0]))

/-- The small machine with the numbers of `NUM_FIX(16, 8)`. -/
def idleFix : State := State.cold { cfgS with
  NUM := .fix 16 8, MTAB := [[(333, 256), (334, 256)]], IRTAB := [[256], [256, 512, 768]] }

/-! ### Decoding: one word written out for every command (30_encoding.md R101 to R105) -/

theorem test_decode_ctl :
    decode cfgS 0b0000_0001_000000000000000000000000#32 = .ok .ctlBound
    ∧ decode cfgS 0b0000_0010_000000000000000000000001#32 = .ok (.ctlPre 1)
    ∧ decode cfgS 0b0000_0011_000000000000000000000001#32 = .ok (.ctlByp 1)
    ∧ decode cfgS 0b0000_0100_000000000000000000000000#32 = .ok .ctlBlock := by decide +kernel

theorem test_decode_fft :
    decode cfgS 0b0001_0001_000000000000000000000000#32 = .ok .fftBrev
    ∧ decode cfgS 0b0001_0010_1_00010_000000000000000001#32 = .ok (.fftBfly true 2 1)
    ∧ decode cfgS 0b0001_0011_000000000000000000000000#32 = .ok .fftFwd
    ∧ decode cfgS 0b0001_0100_000000000000000000000000#32 = .ok .fftInv := by decide +kernel

theorem test_decode_conv :
    decode cfgS 0b0010_0001_000000000000000000000010#32 = .ok (.convInit 2)
    ∧ decode cfgS 0b0010_0010_000000000000000000000000#32 = .ok .convClear
    ∧ decode cfgS 0b0010_0011_000000000000000000000000#32 = .ok .convBlock
    ∧ decode cfgS 0b0010_0100_000000000000000000000000#32 = .ok .convFrame
    ∧ decode cfgS 0b0010_0101_000000000000000000000000#32 = .ok .convPush
    ∧ decode cfgS 0b0010_0110_000000000000000000000000#32 = .ok .convMac
    ∧ decode cfgS 0b0010_0111_000000000000000000000000#32 = .ok .convOut := by decide +kernel

theorem test_decode_nn :
    decode cfgS 0b0011_0001_111111111111111111111111#32 = .ok (.nnLoad 16777215)
    ∧ decode cfgS 0b0011_0010_000000000000000000000000#32 = .ok .nnReset
    ∧ decode Config.default 0b0011_0011_000000000000000000000101#32 = .ok (.nnFwd 5) := by
  decide +kernel

theorem test_decode_tone_dly :
    decode cfgS 0b0100_0001_000000000000000000000000#32 = .ok .toneSet
    ∧ decode cfgS 0b0100_0010_000000000000000000000001#32 = .ok (.toneProc 1)
    ∧ decode cfgS 0b0101_0001_000000000000000000000000#32 = .ok .dlySet
    ∧ decode cfgS 0b0101_0010_000000000000000000000001#32 = .ok (.dlyProc 1) := by decide +kernel

theorem test_decode_rev_mix :
    decode cfgS 0b0110_0001_000000000000000000000000#32 = .ok .revRoom
    ∧ decode cfgS 0b0110_0010_000000000000000000000000#32 = .ok .revDecay
    ∧ decode cfgS 0b0110_0011_000000000000000000000001#32 = .ok (.revProc 1)
    ∧ decode cfgS 0b0111_0001_000000000000000000000000#32 = .ok .mixSet
    ∧ decode Config.default 0b0111_0010_000000000000000011111111#32 = .ok (.mixProc 255) := by
  decide +kernel

/-- V-ENC-2: the reserved words. -/
theorem test_decode_reserved :
    decode cfgS 0x33000002 = .error .sampleOutOfBlock
    ∧ decode cfgS 0x01000001 = .error .nonzeroArg
    ∧ decode cfgS 0x00000000 = .error .reservedRow
    ∧ decode cfgS 0xFFFFFFFF = .error .reservedRow
    ∧ decode cfgS 0x80000000 = .error .reservedRow
    ∧ decode cfgS 0x15000000 = .error .reservedRow
    ∧ decode cfgS 0x28000000 = .error .reservedRow
    ∧ decode cfgS 0x12000000 = .error .butterflyOutOfRange
    ∧ decode cfgS 0x120C0000 = .error .butterflyOutOfRange
    ∧ decode cfgS 0x12040002 = .error .butterflyOutOfRange := by decide +kernel

/-! ### Well-formedness: each check refuses an ill-formed term -/

theorem test_wf_sample :
    (Instr.ctlPre 2).wf cfgS = false ∧ (Instr.ctlByp 2).wf cfgS = false
    ∧ (Instr.nnFwd 2).wf cfgS = false ∧ (Instr.toneProc 2).wf cfgS = false
    ∧ (Instr.dlyProc 2).wf cfgS = false ∧ (Instr.revProc 2).wf cfgS = false
    ∧ (Instr.mixProc 2).wf cfgS = false ∧ (Instr.mixProc 1).wf cfgS = true := by decide +kernel

theorem test_wf_butterfly :
    (Instr.fftBfly false 0 0).wf cfgS = false ∧ (Instr.fftBfly false 3 0).wf cfgS = false
    ∧ (Instr.fftBfly false 1 2).wf cfgS = false ∧ (Instr.fftBfly true 2 1).wf cfgS = true := by
  decide +kernel

theorem test_wf_cfg :
    cfgS.wf = true ∧ Config.default.wf = true
    ∧ Cfg.wf { cfgS with L := 3 } = false ∧ Cfg.wf { cfgS with DMAX := 2 } = false
    ∧ Cfg.wf { cfgS with REV_P := [1024, 2048] } = false ∧ Cfg.wf { cfgS with RV_MAX := 8 } = false
    ∧ Cfg.wf { cfgS with MTAB := [] } = false ∧ Cfg.wf { cfgS with IRTAB := [[0x7F800000]] } = false
    ∧ Cfg.wf { cfgS with FB_MAX := 1 } = false ∧ idleFix.cfg.wf = true
    ∧ Cfg.wf { cfgS with NUM := .fix 16 16 } = false ∧ Cfg.wf { cfgS with NUM := .fix 16 0 } = false
    ∧ Cfg.wf { cfgS with NUM := .fix 40 8 } = true
    ∧ Cfg.wf { cfgS with IRTAB := [[2 ^ 32]] } = false
    ∧ Cfg.wf { cfgS with NUM := .fix 16 8, IRTAB := [[32768]] } = false
    ∧ Cfg.wf { cfgS with SIGTOL := 0, RV_MIN := 2 ^ 23, RV_MAX := 2 ^ 24 + 2 ^ 22, RMAX := 2 ^ 25 }
        = true := by decide +kernel

/-! ### The transform (V-FFT-1 to V-FFT-3) -/

theorem test_brev : (after .fftBrev { idle with Z := reals [1, 2, 3, 4] }).Z = reals [1, 3, 2, 4] := by
  decide +kernel

theorem test_bfly :
    (after (.fftBfly false 1 0) { idle with Z := reals [1, 3, 2, 4] }).Z.readBlock 0 8
      = [num 4, 0, 0xC0000000, 0, num 2, 0, num 4, 0] := by decide +kernel

theorem test_fwd :
    (after .fftFwd { idle with Z := reals [1, 2, 3, 4] }).Z.readBlock 0 8
      = [num 10, 0, 0xC0000000, num 2, 0xC0000000, 0, 0xC0000000, 0xC0000000] := by
  decide +kernel

/-- The forward transform of a one-sample delay has `Z[1] = (0, -1)`. -/
theorem test_fwd_sign :
    (after .fftFwd { idle with Z := reals [0, 1, 0, 0] }).Z.readC 1 = ⟨0, 0xBF800000⟩ := by
  decide +kernel

theorem test_inv :
    ((after .fftInv (after .fftFwd { idle with Z := reals [1, 2, 3, 4] })).Z.readBlock 0 8).map
        (fun v => idle.cfg.arith.eq v 0)
      = [false, true, false, true, false, true, false, true]
    ∧ (after .fftInv (after .fftFwd { idle with Z := reals [1, 2, 3, 4] })).Z.read 6 = num 16 := by
  decide +kernel

/-! ### The convolution engine (V-CONV-1 to V-CONV-4) -/

theorem test_convInit :
    (after (.convInit 1) idle).K = 2 ∧ (after (.convInit 1) idle).CURI = 1
    ∧ (after (.convInit 1) idle).PART.readBlock 0 4 = [num 3, 0, one, 0xC0000000]
    ∧ (after (.convInit 1) idle).PART.read 8 = num 3 := by decide +kernel

theorem test_convInit_faults :
    (after (.convInit 3) idle).HCAUSE = 2 ∧ (after (.convInit 2) idle).PHASE = .halt
    ∧ (after (.convInit 2) idle).K = 1 := by decide +kernel

/-- The second block of V-CONV-1: input `(3, 4)` after `(1, 2)`, output `(10, 16)`. -/
theorem test_convBlock :
    (after .convBlock { after .convBlock { after (.convInit 1) idle with
        W := Memory.ofWords 0 [num 1, num 2] } with
        W := Memory.ofWords 0 [num 3, num 4] }).W.readBlock 0 2
      = [num 10, num 16] := by decide +kernel

theorem test_convBlock_ring :
    (after .convBlock { after (.convInit 1) idle with
        W := Memory.ofWords 0 [num 1, num 2] }).WIDX = 1
    ∧ (after .convBlock { after (.convInit 1) idle with
        W := Memory.ofWords 0 [num 1, num 2] }).OVL.readBlock 0 2
      = [num 1, num 2] := by decide +kernel

theorem test_convFrame :
    (after .convFrame { idle with
        OVL := Memory.ofWords 0 [num 1, num 2]
        W := Memory.ofWords 0 [num 3, num 4] }).Z = reals [1, 2, 3, 4] := by decide +kernel

theorem test_convPush :
    (after .convPush { idle with K := 2, WIDX := 1, Z := reals [1, 2, 3, 4] }).HIST.readBlock 8 8
      = [num 1, 0, num 2, 0, num 3, 0, num 4, 0] := by decide +kernel

/-- Partition 1 meets the spectrum of one block ago, across the wrap of the ring. -/
theorem test_convMac :
    (after .convMac { idle with
        K := 2, WIDX := 0
        HIST := Memory.ofWords 0 [num 5, 0, 0, 0, 0, 0, 0, 0, num 7]
        PART := Memory.ofWords 0 [num 2, 0, 0, 0, 0, 0, 0, 0, num 3] }).Z.readC 0
      = ⟨num 31, 0⟩ := by decide +kernel

/-- V-CONV-5: an infinity at index `L` is silenced and the other sample is not. -/
theorem test_convOut :
    (after .convOut { idle with
        K := 2, WIDX := 1, Z := Memory.ofWords 4 [0x7F800000, 0, num 64] }).W.readBlock 0 2
      = [0, num 16]
    ∧ (after .convOut { idle with K := 2, WIDX := 1 }).WIDX = 0 := by decide +kernel

theorem test_convClear :
    (after .convClear { idle with WIDX := 1, OVL := [(0, one)], HIST := [(3, one)] }).OVL = []
    ∧ (after .convClear { idle with WIDX := 1, K := 2 }).WIDX = 0 := by decide +kernel

/-! ### The neural stage (V-NN-1, V-NN-3, V-NN-4) -/

theorem test_nnLoad :
    (after (.nnLoad 1) idle).CURM = 1 ∧ (after (.nnLoad 1) idle).WT.read 334 = num 2
    ∧ (after (.nnLoad 2) idle).HCAUSE = 2 := by decide +kernel

theorem test_nnReset : (after .nnReset { idle with h := [(4, one)] }).h = [] := by decide +kernel

/-- S4: the constant model gives 1 from any finite sample. -/
theorem test_nnFwd :
    (after (.nnFwd 1) { after (.nnLoad 0) idle with W := [(1, 0xC0400000)] }).W = [(1, one)]
    ∧ (after (.nnFwd 1) { after (.nnLoad 0) idle with W := [(1, 0xC0400000)] }).h = [] := by
  decide +kernel

/-- V-NN-3: an infinite level silences the sample and leaves the hidden state. -/
theorem test_nnFwd_guard :
    (after (.nnFwd 0) { idle with
        WT := [(333, one), (334, 0x7F800000)], h := [(2, half)], W := [(0, one)] }).W = []
    ∧ (after (.nnFwd 0) { idle with
        WT := [(333, one), (334, 0x7F800000)], h := [(2, half)], W := [(0, one)] }).h
      = [(2, half)] := by decide +kernel

/-! ### The tone stage (V-TONE-1, V-TONE-3, V-TONE-4) -/

theorem test_toneSet :
    (after .toneSet { idle with A := { idle.A with TONE := 0x3E800000 } }).TALPHA = 0x3F040000
    ∧ (after .toneSet { idle with A := { idle.A with TONE := 0x3F400000 } }).TMODE = .highPass := by
  decide +kernel

theorem test_toneProc_low :
    (after (.toneProc 1) { idle with
        cfg := { cfgS with ALPHA_LO := 1/2, BC2 := 1/2 }, TALPHA := half
        W := [(1, num 4)] }).TF0 = ⟨num 2, num 2, num 8⟩
    ∧ (after (.toneProc 1) { idle with
        cfg := { cfgS with ALPHA_LO := 1/2, BC2 := 1/2 }, TALPHA := half
        W := [(1, num 4)] }).W = [(1, num 4)] := by decide +kernel

theorem test_toneProc_high :
    (after (.toneProc 0) { idle with
        cfg := { cfgS with AHP_MAX := 1/2, BC2 := 1/2 }, TMODE := .highPass, TALPHA := half
        TF1 := ⟨num 2, num 2, num 8⟩, W := [(0, num 4)] }).TF1
      = ⟨num 3, 0x3FC00000, num 12⟩
    ∧ (after (.toneProc 0) { idle with
        cfg := { cfgS with AHP_MAX := 1/2, BC2 := 1/2 }, TMODE := .highPass, TALPHA := half
        TF1 := ⟨num 2, num 2, num 8⟩, W := [(0, num 4)] }).W
      = [(0, 0x403504F3)] := by decide +kernel

/-! ### The delay (V-DLY-2, V-DLY-7, V-DLY-8) -/

theorem test_dlySet :
    (after .dlySet { idle with A := { idle.A with DTIME := num 5, FLAGS := 3 } }).TGT = num 5
    ∧ (after .dlySet { idle with A := { idle.A with FLAGS := 2 } }).ACT = false
    ∧ (after .dlySet { idle with A := { idle.A with FLAGS := 2 } }).TAP2 = true := by decide +kernel

/-- Call 2 of V-DLY-2: the tap gives 8 and half of it is fed back. -/
theorem test_dlyProc :
    (after (.dlyProc 0) { idle with
        TGT := num 2, CUR := num 2, FB := half, ACT := true
        DBUF := [(0, num 8)], WP := 2 }).DBUF = [(0, num 8), (2, num 4)]
    ∧ (after (.dlyProc 0) { idle with
        TGT := num 2, CUR := num 2, FB := half, ACT := true
        DBUF := [(0, num 8)], WP := 2 }).W = [(0, num 8)] := by decide +kernel

/-- V-DLY-7: at `D = DMAX - 1` the slot read is next to the slot written, across the wrap. -/
theorem test_dlyProc_wrap :
    (after (.dlyProc 1) { idle with
        TGT := num 7, CUR := num 7, ACT := true
        DBUF := [(0, num 1), (7, num 3)], WP := 7, W := [(1, num 8)] }).W
      = [(1, num 9)]
    ∧ (after (.dlyProc 1) { idle with WP := 7 }).WP = 0 := by decide +kernel

/-! ### The reverb (V-REV-2 to V-REV-4) -/

theorem test_revRoom :
    (after .revRoom idle).REV.map ReverbLine.RLEN = [3, 4]
    ∧ (after .revRoom { idle with A := { idle.A with ROOM := one } }).REV.map ReverbLine.RLEN
      = [4, 6] := by decide +kernel

theorem test_revRoom_default :
    ((State.cold Config.default).revRoom).REV.map ReverbLine.RLEN = [2628, 2984, 3390, 3847] := by
  decide +kernel

theorem test_revDecay : (after .revDecay idle).G = half := by decide +kernel

/-- A machine with one reverb line that holds a 4, with the reverb enabled and the chain active. -/
def reverb : State := { idle with
  cfg := { cfgS with REV_DAMP := 1/2, REV_GOUT := 1/2 }, CHAIN := .active
  A := { idle.A with FLAGS := 4 }, G := half, REV := [⟨[(0, num 4)], 2, 0, 0⟩] }

/-- Line 0 of V-REV-2 at `t = 2`: the read 4 gives the damping state 2 and the written value 1. -/
theorem test_revProc :
    (after (.revProc 0) reverb).REV = [⟨[(0, one)], 2, 1, num 2⟩]
    ∧ (after (.revProc 0) reverb).W = [(0, num 2)]
    ∧ (after (.revProc 0) { reverb with CHAIN := .bypassed }).W = [(0, num 2)] := by decide +kernel

/-- V-REV-4, with the chain active and bypassed. -/
theorem test_revProc_off :
    (after (.revProc 0) { reverb with A := idle.A }).REV = reverb.REV
    ∧ (after (.revProc 0) { reverb with A := idle.A, CHAIN := .bypassed }).REV = reverb.REV := by
  decide +kernel

/-! ### The mixer (S3, V-MIX-2) -/

theorem test_mixSet :
    (after .mixSet { idle with A := { idle.A with MIX := 0x3E800000 } }).WETG = 0x3E733B9E
    ∧ (after .mixSet { idle with A := { idle.A with MIX := 0x3E800000 } }).DRYG = 0x3F79935B
    ∧ (after .mixSet { idle with A := { idle.A with MIX := half } }).WETG = 0x3F340F0F := by
  decide +kernel

theorem test_mixProc :
    (after (.mixProc 1) { idle with
        DRYG := 0x3F340F0F, WETG := 0x3F340F0F, A := { idle.A with LEVEL := num 2 }
        X := [(1, 0x3E800000)], W := [(1, one)] }).OUTR = [(1, 0x3FE112D3)]
    ∧ (after (.mixProc 0) { idle with X := [(0, 0x7F800000)], OUTL := [(0, one)] }).OUTL = [] := by
  decide +kernel

/-! ### The controller, the port, faults and reset (V-CTL-1 to V-CTL-4, V-FLT-1, P1, P2) -/

theorem test_ctlPre :
    (after (.ctlPre 0) { idle with X := [(0, 0x3E800000)], A := { idle.A with GAIN := num 2 } }).W
      = [(0, half)]
    ∧ (after (.ctlPre 0) { idle with X := [(0, 0x7FC00000)], W := [(0, one)] }).W = [] := by
  decide +kernel

theorem test_ctlByp :
    (after (.ctlByp 1) { idle with X := [(1, 0x7FC00000)] }).OUTL = [(1, 0x7FC00000)] := by
  decide +kernel

/-- V-CTL-2: clamping, dropping and the shadow as written. -/
theorem test_ctlBound_snapshot :
    (after .ctlBound { idle with
        MV := true
        M := { idle.M with GAIN := 0x7FC00000, MIX := 0x3FC00000, DTIME := 0, DFB := one
                           FLAGS := 7 } }).A
      = { idle.A with GAIN := one, MIX := one, DTIME := one, DFB := 0x3F7FC000
                      FLAGS := 7 } := by decide +kernel

/-- P2: both reloads and the engage at one boundary. -/
theorem test_ctlBound_requests :
    (after .ctlBound { idle with RQM := ⟨true, 1⟩, RQI := ⟨true, 1⟩, RQB := true }).CURM = 1
    ∧ (after .ctlBound { idle with RQM := ⟨true, 1⟩, RQI := ⟨true, 1⟩, RQB := true }).K = 2
    ∧ (after .ctlBound { idle with RQM := ⟨true, 1⟩, RQI := ⟨true, 1⟩, RQB := true }).CHAIN = .active
    ∧ (after .ctlBound { idle with RQM := ⟨true, 7⟩ }).HCAUSE = 2 := by decide +kernel

/-- P1: the active block on the constant model, committed mix 0.5 and level 2. -/
theorem test_ctlBlock_active :
    (after .ctlBlock { after (.convInit 0) (after (.nnLoad 0) (after .revRoom idle)) with
        CHAIN := .active, X := Memory.ofWords 0 [0x3E800000, 0xBF000000]
        A := { idle.A with MIX := half, LEVEL := num 2 } }).OUTL.readBlock 0 2
      = [0x3FE112D3, 0x3F340F0F] := by decide +kernel

/-- P1: the bypassed block passes the input through. -/
theorem test_tick_bypassed :
    (stepped { idle with inbox := [.tick [0x3E800000, 0xBF000000]] }).audioOut
      = some ([0x3E800000, 0xBF000000], [0x3E800000, 0xBF000000]) := by
  decide +kernel

/-- V-FLT-1, P4: a block of the wrong length. -/
theorem test_tick_wrong_length :
    (stepped { idle with inbox := [.tick [1, 2, 3]] }).HCAUSE = 2
    ∧ (stepped { idle with inbox := [.tick [1, 2, 3]] }).X = [] := by decide +kernel

/-- V-CTL-4 and V-CTL-2: refused accesses, and the shadow value read back. -/
theorem test_port :
    (stepped { idle with inbox := [.portWrite 0x02 32 0x3F800000] }).S = idle.S
    ∧ (stepped { idle with inbox := [.portWrite 0x04 16 0] }).S = idle.S
    ∧ (stepped { idle with portOut := 5, inbox := [.portRead 0x41 32] }).portOut = 0
    ∧ (stepped (stepped { idle with
        inbox := [.portWrite 0x28 32 0xFFFFFFFF, .portRead 0x28 32] })).portOut = 7 := by
  decide +kernel

/-- V-FLT-2: `RESET` in `HALT`. -/
theorem test_reset_from_halt :
    (stepped { idle with PHASE := .halt, HCAUSE := 4, inbox := [.reset] }).PHASE = .idle
    ∧ (stepped { idle with PHASE := .halt, HCAUSE := 4, inbox := [.reset] }).HCAUSE = 0 := by
  decide +kernel

/-- V-FLT-3: port reads after reset. -/
theorem test_reset_port :
    ((List.range 10).map (fun i => State.reset.portValue (4 * i) 32))
      = [0x3F800000, 0x3F800000, 0x3F800000, 0x3F000000, 0x46BB8000, 0x00000000, 0x3F800000,
         0x467A0000, 0x3F000000, 0x3F000000] := by decide +kernel

/-- The host's fetch: a table word placed as the next event runs as the first command after reset. -/
theorem test_fetch :
    decodeTableWord 32 0x71000000 = some .mixSet
    ∧ (stepped (State.reset.withFetchWord 32 0x00000000)).HCAUSE = 4 := by decide +kernel

/-! ### Witnesses: a state and operands that meet the hypotheses of each statement -/

theorem witness_DecodeEncodeAgree : (Instr.fftBfly true 2 1).wf cfgS = true := by decide +kernel

theorem witness_CommandWordsAreTheOpcodeMap : decode cfgS 0x12880001 = .ok (.fftBfly true 2 1) := by
  decide +kernel

theorem witness_StepRunsIssuedCommand :
    let s := { idle with inbox := [Event.command 0x71000000] }
    s.cfg.wf = true ∧ s.PHASE ≠ .run ∧ s.inbox = [.command 0x71000000]
      ∧ decode s.cfg 0x71000000 = .ok .mixSet
      ∧ decode s.cfg (tableCommandWord 32 0x71000000) = .ok .mixSet := by decide +kernel

theorem witness_ReservedCommandHalts :
    let s := { idle with inbox := [Event.command 0] }
    s.cfg.wf = true ∧ s.PHASE = .idle ∧ s.inbox = [.command 0]
      ∧ decode s.cfg 0 = .error .reservedRow ∧ s.PHASE ≠ .halt
      ∧ (Instr.ctlPre 2).wf s.cfg = false := by decide +kernel

theorem witness_NothingIssuedInHaltOrRun :
    { idle with PHASE := .halt }.PHASE = .halt ∧ { idle with PHASE := .run }.cfg.wf = true
      ∧ { idle with PHASE := .run, inbox := [.tick []] }.inbox = [.tick []]
      ∧ { idle with PHASE := .run, inbox := [.command 0] }.inbox = [.command 0] := by decide +kernel

theorem witness_PortWritesParameter :
    let s := { idle with inbox := [Event.portWrite (4 * 9) 32 0x7FC00000] }
    s.cfg.wf = true ∧ 9 < 10 ∧ s.inbox = [.portWrite (4 * 9) 32 0x7FC00000] := by decide +kernel

theorem witness_PortWritesControl :
    (∀ a ∈ [0x28, 0x2C, 0x30, 0x34, 0x38, 0x3C],
      { idle with inbox := [Event.portWrite a 32 1] }.inbox = [.portWrite a 32 1])
    ∧ idle.cfg.wf = true ∧ (1 : BitVec 32).getLsbD 0 = true ∧ (2 : BitVec 32).getLsbD 0 = false := by
  decide +kernel

theorem witness_PortReads :
    (∀ a ∈ [0x00, 0x24, 0x28, 0x2C, 0x30, 0x34, 0x38, 0x3C], a % 4 = 0 ∧ a ≤ 0x3C ∧
      { idle with inbox := [Event.portRead a 32] }.inbox = [.portRead a 32])
    ∧ idle.cfg.wf = true := by decide +kernel

theorem witness_PortRefusesBadAccess :
    idle.cfg.wf = true ∧ 0x02 % 4 ≠ 0 ∧ 0x3C < 0x40 ∧ 16 ≠ 32
    ∧ { idle with inbox := [Event.portWrite 0x02 32 1] }.inbox = [.portWrite 0x02 32 1]
    ∧ { idle with inbox := [Event.portRead 0x40 32] }.inbox = [.portRead 0x40 32]
    ∧ { idle with inbox := [Event.portRead 0x3C 16] }.inbox = [.portRead 0x3C 16] := by decide +kernel

theorem witness_BitReversal : 5 < 2 ^ 3 ∧ 2 < 3 := by decide

theorem witness_ButterflyPairs :
    cfgS.wf = true ∧ 1 ≤ 1 ∧ 2 ≤ cfgS.M ∧ 1 < cfgS.N / 2 ∧ 3 < cfgS.N := by decide +kernel

/-- R12 to R15: the two kinds of chip; a fixed-point sum that leaves the range saturates and is not
finite. -/
theorem test_num :
    (NUM_F32 0).sigmoid 0x80000000 = F32.half ∧ (NUM_F32 0).tanh F32.zero = F32.zero
    ∧ (NUM_F32 0).num (-3) = 0xC0400000 ∧ (NUM_F32 0).floor 0x40200000 = 2
    ∧ (NUM_FIX 16 8).sigmoid 0 = 128 ∧ (NUM_FIX 16 8).mul 384 512 = 768
    ∧ (NUM_FIX 16 8).div 256 128 = 512 ∧ (NUM_FIX 16 8).sqrt 1024 = 512
    ∧ (NUM_FIX 16 8).add 32767 1 = 32768 ∧ (NUM_FIX 16 8).finite 32768 = false
    ∧ (NUM_FIX 16 8).finite 32767 = true ∧ (NUM_FIX 16 8).floor 1000 = 3
    ∧ (NUM_FIX 16 8).const (mkRat 1 4) = 64 ∧ (NUM_FIX 16 8).lt (-256) 0 = true
    ∧ (NUM_FIX 32 16).finite ((NUM_FIX 32 16).add 0x7FFFFFFF 1) = false := by decide +kernel

/-- R15 at the ends of 32 bits, which are values and not saturated results, and at a width beyond the
port; the patterns of a port (log 3). -/
theorem test_fix_widths :
    (NUM_FIX 32 16).finite ((NUM_FIX 32 16).add 0x7FFFFFFE 1) = true
    ∧ (NUM_FIX 32 16).finite ((NUM_FIX 32 16).sub (-0x7FFFFFFF) 1) = true
    ∧ (NUM_FIX 32 16).finite ((NUM_FIX 32 16).sub (-0x80000000) 1) = false
    ∧ (NUM_FIX 40 8).add 0x7FFFFFFF 1 = 0x80000000 ∧ (NUM_FIX 40 8).finite 0x80000000 = true
    ∧ (NUM_FIX 16 8).ofBits 0x12348000 = -32768 ∧ (NUM_FIX 40 8).ofBits 0xFFFFFFFF = -1
    ∧ (NUM_FIX 16 8).toBits (-1) = 0xFFFFFFFF := by decide +kernel

/-- A saturated word stays one through the operations of a butterfly (40_fft.md R135), and `const` and `num`
past the range are its end (log 3, log 34). -/
theorem test_fix_marks :
    (NUM_FIX 16 8).finite ((NUM_FIX 16 8).add 32768 (-5)) = false
    ∧ (NUM_FIX 16 8).finite ((NUM_FIX 16 8).mul 0 (-32769)) = false
    ∧ (NUM_FIX 16 15).const 1 = 32767 ∧ (NUM_FIX 16 15).num (-1) = -32768
    ∧ (NUM_FIX 16 8).num 200 = 32767 ∧ hasInt (.fix 16 8) 127 = true ∧ hasInt (.fix 16 8) 128 = false := by
  have add : Fix.finite 16 8 (Fix.add 16 8 32768 (-5)) = false := Fix.finite_result_mark (by decide)
  have mul : Fix.finite 16 8 (Fix.mul 16 8 0 (-32769)) = false := Fix.finite_result_mark (by decide)
  exact ⟨add, mul, by decide +kernel⟩

/-- R131 in fixed point for `N = 8`: `181.02` is `2^8 / sqrt 2`; with 200 fraction bits the square of twice
the entry is next to `2^401`. -/
theorem test_fix_twiddles :
    (List.range 4).map ((NUM_FIX 16 8).TW 8) = [⟨256, 0⟩, ⟨181, -181⟩, ⟨0, -256⟩, ⟨-181, -181⟩]
    ∧ (let v := ((NUM_FIX 240 200).TW 8 1).re
      (2 * v - 1) * (2 * v - 1) < 2 ^ 401 ∧ 2 ^ 401 < (2 * v + 1) * (2 * v + 1)) := by decide +kernel

/-- The ideal values of R14 at 1, at -10 and at a large operand lie between the binary32 neighbours a
calculator gives: 0.7310586, 4.5397868e-05, 1, and 0.7615942 and 1 for `tanh`. -/
theorem test_ideal :
    let near := fun (v p : Nat) => F32.floorMag (v * 2 ^ 149) trigScale ≤ p
      ∧ p ≤ F32.ceilMag (v * 2 ^ 149) trigScale
    near (sigmoidIdeal false trigScale) 0x3F3B26A8 ∧ near (sigmoidIdeal true (10 * trigScale)) 0x383E6997
    ∧ near (sigmoidIdeal false (1000 * trigScale)) 0x3F800000
    ∧ near (tanhIdeal trigScale) 0x3F42F7D6 ∧ near (tanhIdeal (1000 * trigScale)) 0x3F800000 := by
  decide +kernel

/-- The same commands on fixed-point numbers: 110 * 2 saturates at 128, so the sample is silence. -/
theorem test_fix_machine :
    (after (.mixProc 0) { idleFix with
        DRYG := 256, WETG := 256, X := [(0, 384)], W := [(0, 512)] }).OUTL = [(0, 896)]
    ∧ (after (.mixProc 0) { idleFix with
        A := { idleFix.A with LEVEL := 512 }, DRYG := 256, X := [(0, 28160)] }).OUTL = []
    ∧ (after (.convInit 1) idleFix).PART.readBlock 0 4 = [768, 0, 256, -512]
    ∧ (after (.nnFwd 1) { after (.nnLoad 0) idleFix with W := [(1, 700)] }).W = [(1, 256)] := by
  decide +kernel

theorem witness_TwiddleEntries : 4 ≤ 4 ∧ 4 % 4 = 0 ∧ 4 ≤ 8 ∧ 8 % 4 = 0 := by decide

theorem witness_FftBrevPermutes :
    idle.PHASE ≠ .halt ∧ idle.cfg.wf = true ∧ (reals [1, 2, 3, 4]).wf = true
      ∧ (reals [1, 2, 3, 4]).inSize (2 * cfgS.N) = true ∧ 3 < idle.cfg.N := by decide +kernel

theorem witness_FftBflyOnePair :
    idle.PHASE ≠ .halt ∧ 1 ≤ (2 : BitVec 5).toNat ∧ (2 : BitVec 5).toNat ≤ idle.cfg.M
      ∧ (1 : BitVec 18).toNat < idle.cfg.N / 2 := by decide +kernel

theorem witness_TransformIsItsSequence : idle.PHASE ≠ .halt ∧ idle.cfg.wf = true := by decide +kernel

theorem witness_ButterflyOrderFree :
    idle.PHASE ≠ .halt ∧ idle.cfg.wf = true ∧ goodMemory (reals [1, 2, 3, 4]) (2 * idle.cfg.N)
      ∧ 2 ≤ idle.cfg.M
      ∧ [Instr.fftBfly true 2 1, .fftBfly true 2 0].Perm (pseudoFftPass idle.cfg true 2) := by
  unfold goodMemory; decide +kernel

theorem witness_ConvInitLoads :
    idle.PHASE ≠ .halt ∧ idle.cfg.wf = true ∧ (1 : BitVec 24).toNat < idle.cfg.NIR
      ∧ max 1 (((idle.cfg.ir 1).length + idle.cfg.L - 1) / idle.cfg.L) = 2 ∧ 2 ≤ idle.cfg.KMAX
      ∧ (∀ m < idle.cfg.N, (reals [1, 2]).readC m
          = ⟨if m < idle.cfg.L ∧ 0 * idle.cfg.L + m < (idle.cfg.ir 1).length
              then (idle.cfg.ir 1).getD (0 * idle.cfg.L + m) 0 else 0, 0⟩) := by
  decide +kernel

theorem witness_ConvInitFaults :
    idle.PHASE ≠ .halt ∧ idle.cfg.NIR ≤ (3 : BitVec 24).toNat
      ∧ idle.cfg.KMAX
          < max 1 (((idle.cfg.ir (2 : BitVec 24).toNat).length + idle.cfg.L - 1) / idle.cfg.L) := by
  decide +kernel

theorem witness_ClearsToSilence : idle.PHASE ≠ .halt := by decide +kernel

theorem witness_ConvFrameBuilds : idle.PHASE ≠ .halt ∧ 1 < idle.cfg.L := by decide +kernel

theorem witness_ConvPushStores :
    let s := { idle with K := 4, WIDX := 3 }
    s.PHASE ≠ .halt ∧ s.WIDX < s.K ∧ s.K ≤ s.cfg.KMAX ∧ 3 < s.cfg.N := by decide +kernel

theorem witness_ConvMacAccumulates :
    let s := { idle with K := 2, WIDX := 0 }
    s.PHASE ≠ .halt ∧ s.WIDX < s.K ∧ s.K ≤ s.cfg.KMAX ∧ 1 < s.K
      ∧ ((1 : Nat) : Int) = ((s.WIDX : Int) - (1 : Nat)) % s.K := by decide +kernel

theorem witness_ConvOutScales :
    let s := { idle with K := 2, WIDX := 1 }
    s.PHASE ≠ .halt ∧ s.WIDX < s.K ∧ s.K ≤ s.cfg.KMAX ∧ 1 < s.cfg.L := by decide +kernel

theorem witness_ConvBlockIsSixSteps :
    let s := { idle with K := 2, WIDX := 1 }
    s.PHASE ≠ .halt ∧ s.WIDX < s.K ∧ s.K ≤ s.cfg.KMAX := by decide +kernel

theorem witness_UnitImpulseSpectrum :
    (∀ s ∈ [idle, idleFix], s.PHASE ≠ .halt ∧ s.cfg.wf = true ∧ (0 : BitVec 24).toNat < s.cfg.NIR
      ∧ hasInt s.cfg.NUM 1 = true
      ∧ s.cfg.ir (0 : BitVec 24).toNat = [s.cfg.arith.num 1]) := by decide +kernel

theorem witness_NnLoadReplaces :
    idle.PHASE ≠ .halt ∧ (1 : BitVec 24).toNat < idle.cfg.NMODEL
      ∧ idle.cfg.NMODEL ≤ (2 : BitVec 24).toNat := by decide +kernel

theorem witness_NnFwdStep : idle.PHASE ≠ .halt ∧ (1 : BitVec 24).toNat < idle.cfg.L := by
  decide +kernel

theorem witness_ConstantModel :
    ∀ u ∈ [idle, idleFix],
      let s := { u with WT := u.cfg.model 0, W := [(1, u.cfg.arith.num 2)] }
      s.PHASE ≠ .halt ∧ s.cfg.wf = true ∧ (1 : BitVec 24).toNat < s.cfg.L
        ∧ hasInt s.cfg.NUM 1 = true
        ∧ s.cfg.arith.finite (s.W.read 1) = true ∧ (∀ a < 324, s.WT.read a = silence)
        ∧ (∀ i < 9, s.cfg.arith.finite (s.WT.read (324 + i)) = true)
        ∧ s.WT.read 333 = s.cfg.arith.num 1 ∧ s.WT.read 334 = s.cfg.arith.num 1
        ∧ ∀ i < 9, s.h.read i = silence := by decide +kernel

theorem witness_ToneSetSelects :
    idle.PHASE ≠ .halt ∧ idle.cfg.arith.le half (idle.cfg.arith.const idle.cfg.TONE_MID) = true
      ∧ idle.cfg.arith.le 0x3F000001 (idle.cfg.arith.const idle.cfg.TONE_MID) = false
      ∧ (State.cold Config.default).cfg = Config.default
      ∧ (State.cold Config.default).PHASE ≠ .halt
      ∧ (State.cold Config.default).A.TONE = half := by decide +kernel

theorem witness_ToneProcBalances :
    idle.PHASE ≠ .halt ∧ (1 : BitVec 24).toNat < idle.cfg.L ∧ idle.TMODE = .lowPass
      ∧ { idle with TMODE := .highPass }.TMODE = .highPass := by decide +kernel

theorem witness_ParameterCopies : idle.PHASE ≠ .halt := by decide +kernel

theorem witness_DlyProcStep :
    let s := { idle with WP := 7 }
    s.PHASE ≠ .halt ∧ (1 : BitVec 24).toNat < s.cfg.L ∧ s.WP < s.cfg.DMAX := by decide +kernel

theorem witness_IntegerDelayReproduces :
    (∀ u ∈ [idle, idleFix],
      let N := u.cfg.arith
      let s := { u with WP := 7, ACT := true, TGT := N.num 7, CUR := N.num 7, DLV := N.num 1 }
      s.cfg.wf = true ∧ s.cfg.DMAX ≤ 2 ^ 24 ∧ 1 ≤ 7 ∧ 7 ≤ s.cfg.DMAX - 1
        ∧ hasInt s.cfg.NUM 7 = true ∧ s.DBUF = [] ∧ s.WP < s.cfg.DMAX ∧ s.FB = silence
        ∧ s.ACT = true ∧ s.TAP2 = false ∧ s.DLV = N.num 1 ∧ s.TGT = N.num 7 ∧ s.CUR = N.num 7
        ∧ N.finite (N.num 1) = true ∧ N.finite (N.sub (N.num 1) (N.num 1)) = true
        ∧ N.finite (N.sub (N.num 1) silence) = true ∧ N.finite (N.sub silence (N.num 1)) = true) := by
  decide +kernel

theorem witness_RevRoomLengths :
    idle.PHASE ≠ .halt ∧ (State.cold Config.default).cfg = Config.default
      ∧ (State.cold Config.default).PHASE ≠ .halt
      ∧ (State.cold Config.default).A.ROOM = half
      ∧ ((State.cold Config.default).revRoom).REV.length = 4 := by decide +kernel

theorem witness_RevProcStep :
    let s := { idle with
      A := { idle.A with FLAGS := 4 }, REV := [⟨[], 8, 7, 0⟩] }
    s.PHASE ≠ .halt ∧ (1 : BitVec 24).toNat < s.cfg.L ∧ s.A.FLAGS.getLsbD 2 = true
      ∧ (∀ l ∈ s.REV, l.RP < l.RLEN ∧ l.RLEN ≤ s.cfg.RMAX)
      ∧ idle.A.FLAGS.getLsbD 2 = false := by decide +kernel

theorem witness_ReverbReachesSilence :
    let s := { idle with REV := [⟨[(1, num 3)], 3, 1, num 5⟩] }
    s.cfg.arith.eq s.G silence = true ∧ s.cfg.arith.eq 0x80000000 silence = true ∧ (∀ l ∈ s.REV, l.RP < l.RLEN) ∧ ∀ l ∈ s.REV, l.RLEN ≤ 3 := by decide +kernel

theorem witness_MixSetGains : idle.PHASE ≠ .halt := by decide +kernel

theorem witness_MixEndpoints :
    (∀ s ∈ [idle, idleFix], s.PHASE ≠ .halt ∧ s.cfg.wf = true
      ∧ hasInt s.cfg.NUM 1 = true ∧ s.A.MIX = s.cfg.arith.const 1
      ∧ { s with A := { s.A with MIX := silence } }.A.MIX = silence)
    ∧ idle.cfg.NUM = .f32 ∧ F32.finite (F32.const idle.cfg.MIXC) = true := by decide +kernel

theorem witness_MixProcMixes : idle.PHASE ≠ .halt ∧ (1 : BitVec 24).toNat < idle.cfg.L := by
  decide +kernel

theorem witness_CtlSampleCommands : idle.PHASE ≠ .halt ∧ (1 : BitVec 24).toNat < idle.cfg.L := by
  decide +kernel

theorem witness_BoundaryIsItsSequence :
    let s := { idle with RQM := ⟨true, 1⟩, RQI := ⟨true, 1⟩, RQB := true, MV := true }
    s.PHASE ≠ .halt ∧ s.cfg.wf = true ∧ s.blen = s.cfg.L ∧ s.servesModel = true
      ∧ s.RQM.idx.toNat < s.cfg.NMODEL ∧ s.servesIr = true ∧ s.RQI.idx.toNat < s.cfg.NIR
      ∧ s.RQI.idx.toNat ≠ s.CURI.toNat
      ∧ partitionCount s.cfg (s.cfg.ir s.RQI.idx.toNat).length ≤ s.cfg.KMAX := by decide +kernel

theorem witness_BoundaryFaults :
    let s := { idle with tickLen := some 3 }
    let u := { idle with RQM := ⟨true, 2⟩ }
    let v := { idle with RQI := ⟨true, 3⟩ }
    let w := { idle with RQI := ⟨true, 2⟩ }
    let x := { w with MV := true, RQM := ⟨true, 1⟩ }
    let y := { x with readyM := [false] }
    s.PHASE ≠ .halt ∧ s.cfg.wf = true ∧ s.blen ≠ s.cfg.L
      ∧ u.blen = u.cfg.L ∧ u.servesModel = true ∧ u.cfg.NMODEL ≤ u.RQM.idx.toNat
      ∧ v.blen = v.cfg.L ∧ v.servesModel = false ∧ v.servesIr = true ∧ v.cfg.NIR ≤ v.RQI.idx.toNat
      ∧ w.servesIr = true ∧ w.RQI.idx.toNat ≠ w.CURI.toNat
      ∧ w.cfg.KMAX < partitionCount w.cfg (w.cfg.ir w.RQI.idx.toNat).length
      ∧ x.servesModel = true ∧ x.RQM.idx.toNat < x.cfg.NMODEL ∧ x.servesIr = true
      ∧ x.RQM.idx.toNat ≠ x.CURM.toNat ∧ y.servesModel = false ∧ y.servesIr = true := by
  decide +kernel

/-- The worked example of 47_control.md R273. -/
theorem test_snapshot :
    let m : Params := ⟨0x7FC00000, 0x3FC00000, one, half, 0, one, one,
      0x467A0000, half, half, 7⟩
    let t := after .ctlBound { State.cold Config.default with M := m, MV := true }
    t.A = { t.A with GAIN := one, MIX := one, DTIME := one, DFB := 0x3F7FC000, FLAGS := 7 }
      ∧ t.A.T2OFS = 0x467A0000 ∧ t.MV = false := by decide +kernel

theorem witness_BoundaryWaitsForReload :
    let s := { idle with RQM := ⟨true, 1⟩, readyM := [false] }
    let u := { idle with RQI := ⟨true, 1⟩, readyI := [false] }
    s.PHASE ≠ .halt ∧ s.blen = s.cfg.L ∧ s.RQM.pend = true ∧ s.readyM.headD true = false
      ∧ s.RQI.pend = false ∧ u.blen = u.cfg.L ∧ u.RQI.pend = true ∧ u.readyI.headD true = false
      ∧ u.RQM.pend = false := by decide +kernel

theorem witness_BypassToggle :
    let s := { idle with RQB := true }
    s.PHASE ≠ .halt ∧ s.blen = s.cfg.L ∧ s.RQB = true ∧ s.RQM.pend = false ∧ s.RQI.pend = false
      ∧ s.CHAIN = .bypassed ∧ { s with CHAIN := .active }.CHAIN = .active := by decide +kernel

/-- The hypotheses of `BlockIsItsSchedule` and of `EveryStepCompletes`. -/
theorem witness_IndexInv : idle.IndexInv ∧ idle.PHASE ≠ .halt ∧ idle.n = 0 ∧ idle.PhaseInv
    ∧ idle.blen = idle.cfg.L ∧ idle.RQM.pend = false ∧ idle.RQI.pend = false := by
  refine ⟨⟨?_, ?_, ?_, ?_, ?_, ?_, ?_⟩, ?_, ?_, ⟨?_, ?_, ?_, ?_, ?_⟩, ?_, ?_, ?_⟩ <;> decide +kernel

theorem witness_BypassedTickPassesThrough :
    let s := { idle with inbox := [Event.tick [1, 2]] }
    s.cfg.wf = true ∧ s.PHASE = .idle ∧ s.inbox = [.tick [1, 2]] ∧ [1, 2].length = s.cfg.L
      ∧ s.CHAIN = .bypassed ∧ s.RQB = false ∧ s.RQM.pend = false ∧ s.RQI.pend = false := by
  decide +kernel

theorem witness_TickFaults :
    let s := { idle with inbox := [Event.tick [1, 2, 3]] }
    s.cfg.wf = true ∧ s.inbox = [.tick [1, 2, 3]] ∧ s.PHASE = .idle ∧ [1, 2, 3].length ≠ s.cfg.L
      ∧ { s with PHASE := .halt }.PHASE = .halt := by decide +kernel

theorem witness_HaltLeftByResetOnly :
    let s := { idle with PHASE := .halt, inbox := [Event.tick [1, 2]] }
    s.cfg.wf = true ∧ s.PHASE = .halt ∧ s.inbox = [.tick [1, 2]] ∧ Event.tick [1, 2] ≠ .reset := by
  decide +kernel

theorem witness_ResetRunsBootSequence :
    let s := { idle with PHASE := .halt, inbox := [Event.reset] }
    let u := { s with cfg := { cfgS with IRTAB := [List.replicate 9 one] } }
    s.cfg.wf = true ∧ s.inbox = [.reset]
      ∧ partitionCount s.cfg (s.cfg.ir 0).length ≤ s.cfg.KMAX
      ∧ u.cfg.wf = true ∧ u.cfg.KMAX < partitionCount u.cfg (u.cfg.ir 0).length := by decide +kernel

theorem witness_CommandOwnership : ∃ t, exec .dlySet idle = .next t := ⟨_, rfl⟩

/-- The hypotheses of `MemoryKept`, `FeedbackStaysFinite`, `ActiveBankStaysInRange` and
`OutputChannelsStayEqual`: an idle machine, and the step of a port read on it. -/
theorem witness_MemoryKept :
    { idle with inbox := [Event.portRead 0 32] }.MemoryInv
    ∧ ∃ t, step { idle with inbox := [Event.portRead 0 32] } = .next t :=
  have h := State.cold_memoryInv cfgS
  ⟨⟨h.x, h.w, h.outl, h.outr, h.z, h.part, h.hist, h.ovl, h.wt, h.h, h.dbuf, h.lines⟩, _, rfl⟩

theorem witness_FeedbackStaysFinite : idle.FeedbackFinite ∧ ∃ t, step idle = .next t := by
  have z : idle.cfg.arith.finite 0 = true := finite_silence _
  refine ⟨⟨allFinite_nil _, allFinite_nil _, ⟨⟨z, z, z⟩, z, z, z⟩, allFinite_nil _, ?_⟩, _, rfl⟩
  intro l hl
  rw [List.eq_of_mem_replicate hl]
  exact ⟨allFinite_nil _, z⟩

theorem witness_ActiveBankStaysInRange :
    rangesHoldReset idle.cfg ∧ idle.BankInv ∧ idle.DelayInv ∧ ∃ t, step idle = .next t := by
  refine ⟨⟨⟨?_, ?_, ?_, ?_, ?_, ?_, ?_, ?_, ?_, ?_⟩, ⟨?_, ?_, ?_, ?_, ?_, ?_, ?_, ?_, ?_, ?_⟩,
    ⟨?_, ?_, ?_, ?_, ?_, ?_, ?_, ?_, ?_, ?_⟩, ?_⟩, ⟨?_, ?_, ?_, ?_, ?_, ?_, ?_, ?_, ?_, ?_⟩,
    ⟨?_, ?_, ?_⟩, _, rfl⟩ <;>
    first | (unfold inRange; decide +kernel) | (unfold delayInRange inRange; decide +kernel) | decide

theorem witness_OutputChannelsStayEqual : idle.OUTL = idle.OUTR ∧ ∃ t, step idle = .next t :=
  ⟨rfl, _, rfl⟩

theorem witness_ArithmeticIsCorrectlyRounded :
    F32.finite F32.one = true ∧ F32.finite F32.negOne = true := by decide +kernel

/-! ### The textual form (30_encoding.md R113, R114; words of R105 and of 95_test_vectors.md section 3) -/

theorem test_assemble_commands :
    assemble cfgS "NN.FWD 5 ; a comment\nCONV.INIT 0x2\nFFT.BFLY 1,2,1\n\nCTL.BOUND"
      = some [.command 0x33000005, .command 0x21000002, .command 0x12880001,
          .command 0x01000000] := by decide +kernel

theorem test_assemble_port_and_tick :
    assemble cfgS "PW 0x04, 1.5f\nPW 0x38, 1\nPR 0x3C\nTICK [0.25, -0.5]"
      = some [.portWrite 4 32 0x3FC00000, .portWrite 0x38 32 1, .portRead 0x3C 32,
          .tick [0x3E800000, 0xBF000000]] := by decide +kernel

theorem test_assemble_pseudo :
    assemble cfgS "ENGAGE\nPOST 1\nFFT.PASS 0,1"
      = some [.command 0x32000000, .command 0x22000000, .command 0x42000001, .command 0x52000001,
          .command 0x63000001, .command 0x72000001, .command 0x12040000, .command 0x12040001] := by
  decide +kernel

theorem test_assemble_refuses :
    assemble cfgS "NN.FWD" = none ∧ assemble cfgS "NOP" = none
      ∧ assemble cfgS "FFT.BFLY 2,1,0" = none := by decide +kernel

theorem test_assembly_of_commands_assembles :
    assemble cfgS (Instr.fftBfly true 2 1).assembly = some [.command 0x12880001] := by decide +kernel

end Sys2Proof.Tests
end

section
/-! Every step from a good state answers a good state (00_scope.md R17; 20_memory.md R70, R90;
47_control.md R285; 60_exceptions.md R316).

`State.SteadyIn p l k` is the invariant carried through the middle of a step, where a block may run: the
index registers are in range, the sample counter is `k`, the `TICK` being served is `l`, and the CORE is
in phase `p` unless a fatal fault has halted it. Every operation keeps it for every `p`, `l` and `k`;
between steps it is the invariant of the statement, at `SteadyIn .idle none 0`. -/

namespace Sys2Proof.Machine

/-! ### What a well-formed configuration gives -/

theorem Cfg.sizes_of_wf {c : Cfg} (h : c.wf = true) :
    1 ≤ c.L ∧ 1 ≤ c.KMAX ∧ 3 ≤ c.DMAX ∧ 1 ≤ c.RMAX := by
  simp only [Cfg.wf, Cfg.sizesOk, Bool.and_eq_true, decide_eq_true_eq] at h
  tauto

theorem Cfg.tables_nonempty_of_wf {c : Cfg} (h : c.wf = true) : 1 ≤ c.NMODEL ∧ 1 ≤ c.NIR := by
  simp only [Cfg.wf, Cfg.tablesOk, Bool.and_eq_true, decide_eq_true_eq] at h
  tauto

/-! ### The invariant inside a step -/

/-- The index registers are in range and the CORE is in phase `p` unless halted by a fatal fault, with
`TICK` length `l` and sample counter `k`. -/
structure State.SteadyIn (p : Phase) (l : Option Nat) (k : Nat) (s : State) : Prop where
  cfgOk : s.cfg.wf = true
  ring : 1 ≤ s.K ∧ s.K ≤ s.cfg.KMAX ∧ s.WIDX < s.K
  delay : s.WP < s.cfg.DMAX
  lineCount : s.REV.length = s.cfg.NREV
  lines : ∀ r ∈ s.REV, r.RLEN ≤ s.cfg.RMAX ∧ r.RP < r.RLEN
  tables : s.CURM.toNat < s.cfg.NMODEL ∧ s.CURI.toNat < s.cfg.NIR
  serving : s.tickLen = l
  sample : s.n = k
  phase : (s.PHASE = p ∧ s.HCAUSE = 0) ∨ (s.PHASE = .halt ∧ (s.HCAUSE = 2 ∨ s.HCAUSE = 4))

/-- The registers that `State.SteadyIn` speaks of. -/
def State.steadyRegisters (s : State) :=
  (s.cfg, s.K, s.WIDX, s.WP, s.REV, s.CURM, s.CURI, s.tickLen, s.n, s.PHASE, s.HCAUSE)

section

variable {p : Phase} {l : Option Nat} {k : Nat} {s t : State}

/-- An operation that leaves these registers as they are keeps the invariant. -/
theorem State.SteadyIn.of_registers (h : s.SteadyIn p l k)
    (e : t.steadyRegisters = s.steadyRegisters) : t.SteadyIn p l k := by
  simp only [State.steadyRegisters, Prod.mk.injEq] at e
  obtain ⟨cfg, kk, widx, wp, rev, curm, curi, tick, n, phase, cause⟩ := e
  obtain ⟨h1, h2, h3, h4, h5, h6, h7, h8, h9⟩ := h
  constructor <;> simpa only [cfg, kk, widx, wp, rev, curm, curi, tick, n, phase, cause]

/-- Between steps the two invariants of the claims are this one. -/
theorem State.steadyIn_of_inv (hi : s.IndexInv) (hp : s.PhaseInv) : s.SteadyIn .idle none 0 where
  cfgOk := hi.cfgOk
  ring := hi.ring
  delay := hi.delay
  lineCount := hi.lineCount
  lines := hi.lines
  tables := hi.tables
  serving := hp.noTick
  sample := hp.sampleZero
  phase := by
    cases e : s.PHASE with
    | idle =>
      have : ¬ s.HCAUSE ≠ 0 := fun hc => by simpa [e] using hp.haltCode.2 hc
      exact .inl ⟨rfl, not_not.1 this⟩
    | run => exact absurd e hp.notRunning
    | halt => exact .inr ⟨rfl, hp.codes.resolve_left (hp.haltCode.1 e)⟩

theorem State.SteadyIn.indexInv (h : s.SteadyIn p l 0) : s.IndexInv where
  cfgOk := h.cfgOk
  ring := h.ring
  delay := h.delay
  lineCount := h.lineCount
  lines := h.lines
  sample := by
    obtain ⟨hL, -⟩ := Cfg.sizes_of_wf h.cfgOk
    rw [h.sample]
    omega
  tables := h.tables

theorem State.SteadyIn.phaseInv (h : s.SteadyIn .idle none 0) : s.PhaseInv := by
  obtain ⟨hp, hc⟩ | ⟨hp, hc⟩ := h.phase
  · exact ⟨by simp [hp], h.serving, h.sample, by simp [hp, hc], .inl hc⟩
  · exact ⟨by simp [hp], h.serving, h.sample, by rcases hc with hc | hc <;> simp [hp, hc], .inr hc⟩

/-! ### The range checks of the commands pass -/

theorem State.SteadyIn.ringInRange (h : s.SteadyIn p l k) : s.ringInRange = true := by
  obtain ⟨-, hk, hw⟩ := h.ring
  simp [State.ringInRange, hk, hw]

theorem State.SteadyIn.dlyInRange (h : s.SteadyIn p l k) : s.dlyInRange = true := by
  simpa [State.dlyInRange] using h.delay

theorem State.SteadyIn.revInRange (h : s.SteadyIn p l k) : s.revInRange = true := by
  simp only [State.revInRange, List.all_eq_true, Bool.and_eq_true, decide_eq_true_eq]
  exact fun r hr => (h.lines r hr).symm

theorem State.SteadyIn.chainInRange (h : s.SteadyIn p l k) : s.chainInRange = true := by
  simp [State.chainInRange, h.ringInRange, h.dlyInRange, h.revInRange]

/-- A command whose range check passes completes. -/
theorem inSpace_completes {ok : Bool} (hok : ok = true) (h : t.SteadyIn p l k) :
    ∃ u, inSpace ok t = .next u ∧ u.SteadyIn p l k := ⟨t, by rw [hok, inSpace_true], h⟩

/-! ### What each operation keeps -/

/-- The two fatal faults that a step raises. -/
theorem State.SteadyIn.fatal (h : s.SteadyIn p l k) {c : FaultCause} (hc : c.code = 2 ∨ c.code = 4) :
    (s.fatal c).SteadyIn p l k where
  cfgOk := by simpa using h.cfgOk
  ring := by simpa using h.ring
  delay := by simpa using h.delay
  lineCount := by simpa using h.lineCount
  lines := by simpa using h.lines
  tables := by simpa using h.tables
  serving := by simpa using h.serving
  sample := by simpa using h.sample
  phase := .inr (by simpa using hc)

theorem State.SteadyIn.mismatch (h : s.SteadyIn p l k) :
    (s.fatal .configurationMismatch).SteadyIn p l k := h.fatal (.inl rfl)

theorem State.SteadyIn.convClear (h : s.SteadyIn p l k) : s.convClear.SteadyIn p l k :=
  { h with ring := ⟨h.ring.1, h.ring.2.1, h.ring.1⟩ }

/-- Loading the partitions touches none of the registers. -/
theorem State.loadPartitions_registers (ir : List NumWord) (ps : List Nat) (s : State) :
    (ps.foldl (fun t p => t.loadPartition ir p) s).steadyRegisters = s.steadyRegisters :=
  foldl_keeps (fun t => t.steadyRegisters = s.steadyRegisters) _ ps s rfl (fun _ _ _ ht => ht)

theorem State.SteadyIn.convInit (h : s.SteadyIn p l k) (idx : BitVec 24) :
    (s.convInit idx).SteadyIn p l k := by
  unfold State.convInit
  split
  · exact h.mismatch
  · rename_i hrow
    dsimp only
    split
    · exact h.mismatch
    · rename_i hfit
      have hring : 1 ≤ partitionCount s.cfg (s.cfg.ir idx.toNat).length := le_max_left _ _
      have hstart : State.SteadyIn p l k
          { s with
            K := partitionCount s.cfg (s.cfg.ir idx.toNat).length
            WIDX := 0
            CURI := idx } :=
        { h with ring := ⟨hring, not_lt.1 hfit, hring⟩, tables := ⟨h.tables.1, not_le.1 hrow⟩ }
      refine hstart.of_registers ?_
      have e := State.loadPartitions_registers (s.cfg.ir idx.toNat)
        (List.range (partitionCount s.cfg (s.cfg.ir idx.toNat).length))
        { s with K := partitionCount s.cfg (s.cfg.ir idx.toNat).length }
      simp only [State.steadyRegisters, Prod.mk.injEq] at e
      simp [State.steadyRegisters, e]

theorem State.SteadyIn.convOut (h : s.SteadyIn p l k) : s.convOut.SteadyIn p l k :=
  { h with ring := ⟨h.ring.1, h.ring.2.1, ringNext_lt _ h.ring.1⟩ }

theorem State.SteadyIn.convBlock (h : s.SteadyIn p l k) : s.convBlock.SteadyIn p l k := by
  unfold State.convBlock
  exact State.SteadyIn.convOut (h.of_registers (by simp [State.steadyRegisters]))

theorem State.SteadyIn.nnLoad (h : s.SteadyIn p l k) (idx : BitVec 24) :
    (s.nnLoad idx).SteadyIn p l k := by
  unfold State.nnLoad
  split
  · exact h.mismatch
  · rename_i hrow
    exact { h with tables := ⟨not_le.1 hrow, h.tables.2⟩ }

theorem State.SteadyIn.toneSet (h : s.SteadyIn p l k) : s.toneSet.SteadyIn p l k :=
  h.of_registers (by simp [State.steadyRegisters])

theorem State.SteadyIn.dlyAdvance (h : s.SteadyIn p l k) (x : NumWord) :
    (s.dlyAdvance x).SteadyIn p l k := by
  have hnext : State.SteadyIn p l k { s with WP := ringNext s.WP s.cfg.DMAX } :=
    { h with delay := ringNext_lt _ (lt_of_le_of_lt (Nat.zero_le _) h.delay) }
  exact hnext.of_registers rfl

theorem State.SteadyIn.dlyProc (h : s.SteadyIn p l k) (n : Nat) : (s.dlyProc n).SteadyIn p l k :=
  (h.dlyAdvance (s.W.read n)).of_registers rfl

theorem lineLength_range {c : Cfg} (hc : c.wf = true) (base : Int) (q : Nat) :
    lineLength c base q ≤ c.RMAX ∧ 0 < lineLength c base q := by
  obtain ⟨-, -, -, hR⟩ := Cfg.sizes_of_wf hc
  unfold lineLength
  omega

theorem State.SteadyIn.revRoom (h : s.SteadyIn p l k) : s.revRoom.SteadyIn p l k :=
  { h with
    lineCount := List.length_map _
    lines := fun r hr => by
      obtain ⟨q, -, rfl⟩ := List.mem_map.1 hr
      exact lineLength_range h.cfgOk _ q }

theorem State.SteadyIn.revAdvance (h : s.SteadyIn p l k) (x : NumWord) :
    (s.revAdvance x).SteadyIn p l k :=
  { h with
    lineCount := (List.length_map _).trans h.lineCount
    lines := fun r hr => by
      obtain ⟨q, hq, rfl⟩ := List.mem_map.1 hr
      obtain ⟨hlen, hrp⟩ := h.lines q hq
      exact ⟨hlen, ringNext_lt _ (lt_of_le_of_lt (Nat.zero_le _) hrp)⟩ }

theorem State.SteadyIn.revProc (h : s.SteadyIn p l k) (n : Nat) : (s.revProc n).SteadyIn p l k := by
  unfold State.revProc
  split
  · exact (h.revAdvance (s.W.read n)).of_registers rfl
  · exact h

theorem State.SteadyIn.unlessHalted (h : s.SteadyIn p l k) {f : State → State}
    (hf : ∀ t : State, t.SteadyIn p l k → (f t).SteadyIn p l k) :
    (State.unlessHalted f s).SteadyIn p l k := by
  unfold State.unlessHalted
  split
  · exact h
  · exact hf s h

/-! ### The boundary -/

theorem State.SteadyIn.takeSnapshot (h : s.SteadyIn p l k) : s.takeSnapshot.SteadyIn p l k := by
  unfold State.takeSnapshot
  split
  · exact h.of_registers rfl
  · exact h

theorem State.SteadyIn.switchModel (h : s.SteadyIn p l k) : s.switchModel.SteadyIn p l k := by
  unfold State.switchModel
  split
  · exact h.mismatch
  · split
    · exact (h.nnLoad _).of_registers rfl
    · exact h

theorem State.SteadyIn.modelReload (h : s.SteadyIn p l k) : s.modelReload.SteadyIn p l k := by
  unfold State.modelReload
  split
  · dsimp only
    split
    · exact State.SteadyIn.switchModel (h.of_registers rfl)
    · exact h.of_registers rfl
  · exact h

theorem State.SteadyIn.switchIr (h : s.SteadyIn p l k) : s.switchIr.SteadyIn p l k := by
  unfold State.switchIr
  split
  · exact h.mismatch
  · split
    · exact h.convInit _
    · exact h

theorem State.SteadyIn.irReload (h : s.SteadyIn p l k) : s.irReload.SteadyIn p l k := by
  unfold State.irReload
  split
  · dsimp only
    split
    · exact State.SteadyIn.switchIr (h.of_registers rfl)
    · exact h.of_registers rfl
  · exact h

theorem State.SteadyIn.bypassToggle (h : s.SteadyIn p l k) : s.bypassToggle.SteadyIn p l k := by
  unfold State.bypassToggle
  split
  · dsimp only
    split
    · exact State.SteadyIn.convClear (h.of_registers rfl)
    · exact h.of_registers rfl
  · exact h

theorem State.SteadyIn.blockSetup (h : s.SteadyIn p l k) : s.blockSetup.SteadyIn p l k := by
  have hmix : s.mixSet.SteadyIn p l k := h.of_registers rfl
  have hset : s.mixSet.toneSet.dlySet.SteadyIn p l k := hmix.toneSet.of_registers rfl
  unfold State.blockSetup
  dsimp only
  split
  · exact hset.revRoom.of_registers rfl
  · exact hset.of_registers rfl

theorem State.SteadyIn.ctlBound (h : s.SteadyIn p l k) : s.ctlBound.SteadyIn p l k := by
  unfold State.ctlBound
  split
  · exact h.mismatch
  · exact (h.takeSnapshot.modelReload.unlessHalted fun _ ht => ht.irReload).unlessHalted
      fun _ ht => ht.bypassToggle.blockSetup

/-! ### The block schedule -/

/-- A per-sample pass keeps the invariant and leaves the sample counter 0. -/
theorem State.SteadyIn.forSamples (h : s.SteadyIn p l k) {body : Nat → State → State}
    (hb : ∀ (i j : Nat) (t : State), t.SteadyIn p l j → (body i t).SteadyIn p l j) :
    (State.forSamples body s).SteadyIn p l 0 := by
  obtain ⟨j, hj⟩ := State.forSamples_keeps (fun t => ∃ j, t.SteadyIn p l j) body s ⟨k, h⟩
    (fun _ i ⟨_, ht⟩ => ⟨i, { ht with sample := rfl }⟩)
    (fun t i _ ⟨j, ht⟩ => ⟨j, hb i j t ht⟩)
  exact { hj with sample := State.forSamples_n body s }

theorem State.SteadyIn.toneProc (h : s.SteadyIn p l k) (n : Nat) : (s.toneProc n).SteadyIn p l k :=
  h.of_registers rfl

theorem State.SteadyIn.postSample (h : s.SteadyIn p l k) (n : Nat) : (s.postSample n).SteadyIn p l k :=
  (((h.toneProc n).dlyProc n).revProc n).of_registers rfl

theorem State.SteadyIn.activeBlock (h : s.SteadyIn p l k) : s.activeBlock.SteadyIn p l 0 := by
  have hpre : (State.forSamples State.ctlPre s).SteadyIn p l 0 :=
    h.forSamples fun _ _ _ ht => ht.of_registers rfl
  have hnn : (State.forSamples State.nnFwd (State.forSamples State.ctlPre s)).SteadyIn p l 0 :=
    hpre.forSamples fun _ _ _ ht => ht.of_registers rfl
  exact hnn.convBlock.forSamples fun i _ _ ht => ht.postSample i

theorem State.SteadyIn.bypassedBlock (h : s.SteadyIn p l k) : s.bypassedBlock.SteadyIn p l 0 :=
  h.forSamples fun _ _ _ ht => ht.of_registers rfl

/-- `CTL.BLOCK` completes: the chain's range check passes after every boundary. -/
theorem State.SteadyIn.ctlBlock (h : s.SteadyIn p l 0) :
    ∃ t, s.ctlBlock = .next t ∧ t.SteadyIn p l 0 := by
  have hb := h.ctlBound
  unfold State.ctlBlock
  dsimp only
  split
  · exact ⟨_, rfl, hb⟩
  · split
    · exact inSpace_completes hb.chainInRange hb.activeBlock
    · exact ⟨_, rfl, hb.bypassedBlock⟩

/-! ### Commands -/

/-- The effect of every command completes. -/
theorem effect_completes (i : Instr) (h : s.SteadyIn p l 0) :
    ∃ t, effect i s = .next t ∧ t.SteadyIn p l 0 := by
  cases i with
  | ctlBound => exact ⟨_, rfl, h.ctlBound⟩
  | ctlPre n => exact ⟨_, rfl, h.of_registers rfl⟩
  | ctlByp n => exact ⟨_, rfl, h.of_registers rfl⟩
  | ctlBlock => exact h.ctlBlock
  | fftBrev => exact ⟨_, rfl, h.of_registers rfl⟩
  | fftBfly inv st q => exact ⟨_, rfl, h.of_registers rfl⟩
  | fftFwd => exact ⟨_, rfl, h.of_registers rfl⟩
  | fftInv => exact ⟨_, rfl, h.of_registers rfl⟩
  | convInit idx => exact ⟨_, rfl, h.convInit idx⟩
  | convClear => exact ⟨_, rfl, h.convClear⟩
  | convBlock => exact inSpace_completes h.ringInRange h.convBlock
  | convFrame => exact ⟨_, rfl, h.of_registers rfl⟩
  | convPush => exact inSpace_completes h.ringInRange (h.of_registers rfl)
  | convMac => exact inSpace_completes h.ringInRange (h.of_registers rfl)
  | convOut => exact inSpace_completes h.ringInRange h.convOut
  | nnLoad idx => exact ⟨_, rfl, h.nnLoad idx⟩
  | nnReset => exact ⟨_, rfl, h.of_registers rfl⟩
  | nnFwd n => exact ⟨_, rfl, h.of_registers rfl⟩
  | toneSet => exact ⟨_, rfl, h.toneSet⟩
  | toneProc n => exact ⟨_, rfl, h.toneProc n.toNat⟩
  | dlySet => exact ⟨_, rfl, h.of_registers rfl⟩
  | dlyProc n => exact inSpace_completes h.dlyInRange (h.dlyProc n.toNat)
  | revRoom => exact ⟨_, rfl, h.revRoom⟩
  | revDecay => exact ⟨_, rfl, h.of_registers rfl⟩
  | revProc n => exact inSpace_completes (by simp [h.revInRange]) (h.revProc n.toNat)
  | mixSet => exact ⟨_, rfl, h.of_registers rfl⟩
  | mixProc n => exact ⟨_, rfl, h.of_registers rfl⟩

/-- The issue of a command completes if its effect does. -/
theorem issue_completes (legal : Bool) {f : State → Result} (h : s.SteadyIn p l k)
    (hf : ∃ t, f s = .next t ∧ t.SteadyIn p l k) :
    ∃ t, issue legal f s = .next t ∧ t.SteadyIn p l k := by
  by_cases hp : s.PHASE = .halt
  · exact ⟨s, issue_of_halt hp, h⟩
  · cases legal
    · exact ⟨_, issue_of_illegal hp, h.fatal (.inr rfl)⟩
    · rwa [issue_of_legal hp]

end

/-! ### Events -/

section

variable {s : State}

theorem State.SteadyIn.not_run {l : Option Nat} {k : Nat} (h : s.SteadyIn .idle l k) : s.PHASE ≠ .run := by
  obtain ⟨hp, -⟩ | ⟨hp, -⟩ := h.phase <;> simp [hp]

theorem runWord_completes (w : BitVec 32) (h : s.SteadyIn .idle none 0) :
    ∃ t, runWord w s = .next t ∧ t.SteadyIn .idle none 0 := by
  unfold runWord
  rw [if_neg h.not_run]
  split
  · rw [exec_eq_issue]
    exact issue_completes _ h (effect_completes _ h)
  · exact issue_completes _ h ⟨s, rfl, h⟩

/-- A `TICK` starts a block: the phase is `RUN` and its length is noted. -/
theorem State.SteadyIn.beginBlock (h : s.SteadyIn .idle none 0) (hp : s.PHASE ≠ .halt)
    (block : List (BitVec 32)) : (s.beginBlock block).SteadyIn .run (some block.length) 0 :=
  { h with
    serving := rfl
    phase := .inl ⟨rfl, (h.phase.resolve_right fun hh => hp hh.1).2⟩ }

/-- The end of a block: `IDLE` again, unless a fatal fault has halted the CORE. -/
theorem State.SteadyIn.endBlock {l : Option Nat} (h : s.SteadyIn .run l 0) :
    s.endBlock.SteadyIn .idle none 0 := by
  unfold State.endBlock
  dsimp only
  obtain ⟨hp, hc⟩ | ⟨hp, hc⟩ := h.phase
  · rw [if_neg (by simp [hp])]
    exact { h with serving := rfl, phase := .inl ⟨rfl, hc⟩ }
  · rw [if_pos hp]
    exact { h with serving := rfl, phase := .inr ⟨hp, hc⟩ }

theorem State.tick_completes (block : List (BitVec 32)) (h : s.SteadyIn .idle none 0) :
    ∃ t, s.tick block = .next t ∧ t.SteadyIn .idle none 0 := by
  unfold State.tick
  split
  · exact ⟨_, rfl, h.of_registers rfl⟩
  · rename_i hp
    obtain ⟨u, hu, hs⟩ := (h.beginBlock hp block).ctlBlock
    rw [hu]
    exact ⟨_, rfl, hs.endBlock⟩

theorem State.SteadyIn.portWrite (h : s.SteadyIn .idle none 0) (addr width : Nat) (w : BitVec 32) :
    (s.portWrite addr width w).SteadyIn .idle none 0 := by
  rw [State.portWrite_frame]
  exact h.of_registers rfl

theorem State.cold_steady {c : Cfg} (hc : c.wf = true) : (State.cold c).SteadyIn .idle none 0 := by
  obtain ⟨-, hK, hD, hR⟩ := Cfg.sizes_of_wf hc
  obtain ⟨hM, hI⟩ := Cfg.tables_nonempty_of_wf hc
  exact
    { cfgOk := hc
      ring := ⟨le_refl 1, hK, Nat.zero_lt_one⟩
      delay := show 0 < c.DMAX by omega
      lineCount := List.length_replicate
      lines := fun r hr => by
        rw [List.eq_of_mem_replicate hr]
        exact ⟨hR, Nat.zero_lt_one⟩
      tables := ⟨hM, hI⟩
      serving := rfl
      sample := rfl
      phase := .inl ⟨rfl, rfl⟩ }

theorem State.SteadyIn.boot {p : Phase} {l : Option Nat} {k : Nat} (h : s.SteadyIn p l k) :
    s.boot.SteadyIn p l k := by
  have hmodel : (State.unlessHalted State.nnReset (s.nnLoad 0)).SteadyIn p l k :=
    (h.nnLoad 0).unlessHalted fun _ ht => ht.of_registers rfl
  refine (hmodel.unlessHalted fun _ ht => ht.convInit 0).unlessHalted fun t ht => ?_
  have hroom : t.revRoom.revDecay.mixSet.SteadyIn p l k := ht.revRoom.of_registers rfl
  exact hroom.toneSet.of_registers rfl

/-- `RESET` leaves a good state, also where the boot sequence ends in a fatal fault. -/
theorem State.resetEvent_steady (hc : s.cfg.wf = true) : s.resetEvent.SteadyIn .idle none 0 := by
  have hboot := (State.cold_steady hc).boot
  unfold State.resetEvent
  generalize (State.cold s.cfg).boot = t at hboot
  exact hboot.of_registers rfl

theorem runEvent_completes (e : Event) (h : s.SteadyIn .idle none 0) :
    ∃ t, runEvent e s = .next t ∧ t.SteadyIn .idle none 0 := by
  cases e with
  | reset => exact ⟨_, rfl, State.resetEvent_steady h.cfgOk⟩
  | tick block =>
    rw [runEvent, if_neg h.not_run]
    exact State.tick_completes block h
  | portWrite addr width w => exact ⟨_, rfl, h.portWrite addr width w⟩
  | portRead addr width => exact ⟨_, rfl, h.of_registers rfl⟩
  | command w => exact runWord_completes w h

theorem step_completes (h : s.SteadyIn .idle none 0) :
    ∃ t, step s = .next t ∧ t.SteadyIn .idle none 0 := by
  unfold step runNext
  rw [if_pos h.cfgOk]
  split
  · exact ⟨s, rfl, h⟩
  · exact runEvent_completes _ (h.of_registers rfl)

end

/-- Settles O54: `State.SteadyIn .idle none 0` is the invariant of the statement, and `step_completes`
takes it through every event. -/
theorem everyStepCompletes : Obligations.EveryStepCompletes := by
  intro s hi hp
  obtain ⟨t, ht, hs⟩ := step_completes (State.steadyIn_of_inv hi hp)
  exact ⟨t, ht, hs.indexInv, hs.phaseInv⟩

end Sys2Proof.Machine
end

section
/-! The operations of `NUM_F32` are correctly rounded (00_scope.md R13).

Magnitudes are counted in units of `2^-149`. `nearestMag t m` says that the sign-less pattern `m` is the
nearest to the real magnitude `t` among all patterns, as if exponents had no end. `nearestMag_grid` proves
it of one rounding on a grid, for every operation at once; `isRounded_pack` adds the sign and the overflow
to infinity; what is left to each operation is which magnitude it rounds. -/

namespace Sys2Proof.Machine.F32

/-! ### The nearest pattern of a magnitude -/

/-- `m` is the pattern nearest to `t` units, a tie going to the even pattern, with no largest exponent. -/
def nearestMag (t : ℝ) (m : Nat) : Prop :=
  ∀ c : Nat, |(magOf m : ℝ) - t| ≤ |(magOf c : ℝ) - t|
    ∧ (|(magOf m : ℝ) - t| = |(magOf c : ℝ) - t| → magOf c = magOf m ∨ m % 2 = 0)

/-- Below the step from `u` to `u + 1` of a grid lie the patterns up to `u`, above it the others. -/
theorem magOf_beside_grid {k u : Nat} (hu : u < 2 ^ 24) (hk : 0 < k → 2 ^ 23 ≤ u) (c : Nat) :
    magOf c ≤ u * 2 ^ k ∨ (u + 1) * 2 ^ k ≤ magOf c := by
  have hlow : magOf (k * 2 ^ 23 + u) = u * 2 ^ k := magOf_grid (by omega) hk
  have hhigh : magOf (k * 2 ^ 23 + (u + 1)) = (u + 1) * 2 ^ k :=
    magOf_grid (by omega) (fun h => by have := hk h; omega)
  rw [← hlow, ← hhigh]
  rcases Nat.lt_or_ge (k * 2 ^ 23 + u) c with h | h
  · exact .inr (magOf_mono (by omega))
  · exact .inl (magOf_mono h)

/-- Rounding half to even on a grid of `2^k` units: between `q` and `q + 1` steps the choice `up` is the
nearest pattern, if it says on which side of the middle `t` lies. -/
theorem nearestMag_grid {k q : Nat} {t : ℝ} (up : Prop) [Decidable up] (hq : q < 2 ^ 24)
    (hk : 0 < k → 2 ^ 23 ≤ q) (hlow : (q : ℝ) * 2 ^ k ≤ t) (hhigh : t ≤ ((q : ℝ) + 1) * 2 ^ k)
    (hup : up ↔ (2 * (q : ℝ) + 1) * 2 ^ k < 2 * t ∨ ((2 * (q : ℝ) + 1) * 2 ^ k = 2 * t ∧ q % 2 = 1)) :
    nearestMag t (k * 2 ^ 23 + if up then q + 1 else q) := by
  intro c
  have hside : (magOf c : ℝ) ≤ q * 2 ^ k ∨ ((q : ℝ) + 1) * 2 ^ k ≤ magOf c := by
    exact_mod_cast magOf_beside_grid hq hk c
  by_cases h : up
  · have hm : magOf (k * 2 ^ 23 + (q + 1)) = (q + 1) * 2 ^ k :=
      magOf_grid (by omega) (fun h => by have := hk h; omega)
    have hdist : |(((q + 1) * 2 ^ k : Nat) : ℝ) - t| = ((q : ℝ) + 1) * 2 ^ k - t := by
      push_cast; exact abs_of_nonneg (by linarith)
    rw [if_pos h, hm, hdist]
    have hmid := hup.1 h
    rcases hside with hc | hc
    · rw [abs_of_nonpos (by linarith)]
      refine ⟨by rcases hmid with hm | ⟨hm, -⟩ <;> linarith, fun heq => .inr ?_⟩
      rcases hmid with hm | ⟨-, hodd⟩
      · linarith
      · omega
    · rw [abs_of_nonneg (by linarith)]
      refine ⟨by linarith, fun heq => .inl ?_⟩
      have : (magOf c : ℝ) = (((q + 1) * 2 ^ k : Nat) : ℝ) := by push_cast; linarith
      exact_mod_cast this
  · have hm : magOf (k * 2 ^ 23 + q) = q * 2 ^ k := magOf_grid (by omega) hk
    have hdist : |((q * 2 ^ k : Nat) : ℝ) - t| = t - (q : ℝ) * 2 ^ k := by
      push_cast; rw [abs_of_nonpos (by linarith)]; ring
    rw [if_neg h, hm, hdist]
    have hmid : 2 * t ≤ (2 * (q : ℝ) + 1) * 2 ^ k := not_lt.1 fun hlt => h (hup.2 (.inl hlt))
    rcases hside with hc | hc
    · rw [abs_of_nonpos (by linarith)]
      refine ⟨by linarith, fun heq => .inl ?_⟩
      have : (magOf c : ℝ) = ((q * 2 ^ k : Nat) : ℝ) := by push_cast; linarith
      exact_mod_cast this
    · rw [abs_of_nonneg (by linarith)]
      refine ⟨by linarith, fun heq => .inr ?_⟩
      have hodd : q % 2 ≠ 1 := fun hodd => h (hup.2 (.inr ⟨by linarith, hodd⟩))
      omega

/-- The magnitude `roundMag` answers, before it is cut off at infinity. -/
def unboundedRoundMag (n d : Nat) : Nat :=
  gridBits n d * 2 ^ 23 + roundHalfEven (n / (d * 2 ^ gridBits n d)) (n % (d * 2 ^ gridBits n d))
    (d * 2 ^ gridBits n d)

theorem roundMag_eq_min (n d : Nat) : roundMag n d = min (unboundedRoundMag n d) infMag := rfl

/-- The number of steps `n/d` units are past zero on their grid has at most 24 bits. -/
theorem gridSteps_lt (n d : Nat) : n / (d * 2 ^ gridBits n d) < 2 ^ 24 := by
  rw [← Nat.div_div_eq_div_mul]
  exact Nat.div_lt_of_lt_mul (grid_upper _)

/-- On a grid coarser than one unit it has 24 bits. -/
theorem gridSteps_ge {n d : Nat} (h : 0 < gridBits n d) : 2 ^ 23 ≤ n / (d * 2 ^ gridBits n d) := by
  rw [← Nat.div_div_eq_div_mul, Nat.le_div_iff_mul_le (Nat.pow_pos (by decide)), Nat.mul_comm]
  exact grid_lower h

theorem nearestMag_unboundedRoundMag (n : Nat) {d : Nat} (hd : 0 < d) :
    nearestMag ((n : ℝ) / d) (unboundedRoundMag n d) := by
  have hlt := gridSteps_lt n d
  have hge := @gridSteps_ge n d
  unfold unboundedRoundMag roundHalfEven
  generalize gridBits n d = k at *
  have hd' : (0 : ℝ) < d := by exact_mod_cast hd
  have hdm : ((n : Nat) : ℝ) = d * 2 ^ k * (n / (d * 2 ^ k) : Nat) + (n % (d * 2 ^ k) : Nat) := by
    exact_mod_cast (Nat.div_add_mod n (d * 2 ^ k)).symm
  have hr : ((n % (d * 2 ^ k) : Nat) : ℝ) < d * 2 ^ k := by
    exact_mod_cast Nat.mod_lt n (Nat.mul_pos hd (Nat.pow_pos (by decide)))
  have hr0 : (0 : ℝ) ≤ (n % (d * 2 ^ k) : Nat) := Nat.cast_nonneg _
  generalize n / (d * 2 ^ k) = q at *
  generalize n % (d * 2 ^ k) = r at *
  have hclt : d * 2 ^ k < 2 * r ↔ (d * 2 ^ k : ℝ) < 2 * r := by norm_cast
  have hceq : 2 * r = d * 2 ^ k ↔ (2 * r : ℝ) = d * 2 ^ k := by norm_cast
  have htwo : 2 * ((n : ℝ) / d) = (2 * (d * 2 ^ k * q + r)) / d := by rw [hdm]; ring
  refine nearestMag_grid _ hlt hge ?_ ?_ ?_
  · rw [le_div_iff₀ hd']; nlinarith
  · rw [div_le_iff₀ hd']; nlinarith
  · rw [htwo, lt_div_iff₀ hd', eq_div_iff hd'.ne', hclt, hceq]
    have hmid : (2 * (q : ℝ) + 1) * 2 ^ k * d = 2 * (d * 2 ^ k * q) + d * 2 ^ k := by ring
    rw [hmid, mul_add, add_lt_add_iff_left, add_right_inj, eq_comm (a := 2 * (r : ℝ))]

/-! ### Overflow -/

/-- The magnitudes of the pattern of infinity and of the two largest finite ones, in units of
`2^-149`. -/
theorem magOf_around_overflow :
    magOf infMag = 33554432 * 2 ^ 252 ∧ magOf (infMag - 1) = 33554430 * 2 ^ 252
      ∧ magOf (infMag - 2) = 33554428 * 2 ^ 252 := by decide +kernel

/-- The overflow threshold `2^128 - 2^103` of R13 in units of `2^-149`: half way from the largest finite
value to the one that the pattern of infinity would have. -/
def overflowUnits : ℝ := 33554431 * 2 ^ 252

theorem lt_infMag_of_nearestMag {t : ℝ} {m : Nat} (h : nearestMag t m) (ht : t < overflowUnits) :
    m < infMag := by
  obtain ⟨hinf, hlast, -⟩ := magOf_around_overflow
  unfold overflowUnits at ht
  by_contra hm
  have hm' : (33554432 * 2 ^ 252 : ℝ) ≤ magOf m := by exact_mod_cast hinf ▸ magOf_mono (not_lt.1 hm)
  have hlast' : (magOf (infMag - 1) : ℝ) = 33554430 * 2 ^ 252 := by exact_mod_cast hlast
  have hle := (h (infMag - 1)).1
  rw [hlast', abs_of_nonneg (by linarith)] at hle
  rcases abs_cases (33554430 * 2 ^ 252 - t) with ⟨e, -⟩ | ⟨e, -⟩ <;> rw [e] at hle <;> linarith

theorem infMag_le_of_nearestMag {t : ℝ} {m : Nat} (h : nearestMag t m) (ht : overflowUnits ≤ t) :
    infMag ≤ m := by
  obtain ⟨hinf, hlast, hprev⟩ := magOf_around_overflow
  unfold overflowUnits at ht
  by_contra hm
  have hinfEven : infMag % 2 = 0 := by decide
  have hinf' : (magOf infMag : ℝ) = 33554432 * 2 ^ 252 := by exact_mod_cast hinf
  have hm' : (magOf m : ℝ) ≤ 33554430 * 2 ^ 252 := by
    exact_mod_cast hlast ▸ magOf_mono (Nat.le_sub_one_of_lt (not_le.1 hm))
  obtain ⟨hle, htie⟩ := h infMag
  rw [hinf', abs_of_nonpos (by linarith)] at hle htie
  have heq : -((magOf m : ℝ) - t) = |33554432 * 2 ^ 252 - t| := by
    refine le_antisymm hle ?_
    rcases abs_cases (33554432 * 2 ^ 252 - t) with ⟨e, -⟩ | ⟨e, -⟩ <;> rw [e] at hle ⊢ <;> linarith
  have heven : m % 2 = 0 := (htie heq).resolve_left fun e => by
    rw [← e, hinf'] at hm'; linarith
  have hm2 : (magOf m : ℝ) ≤ 33554428 * 2 ^ 252 := by
    exact_mod_cast hprev ▸ magOf_mono (show m ≤ infMag - 2 by omega)
  rcases abs_cases (33554432 * 2 ^ 252 - t) with ⟨e, -⟩ | ⟨e, -⟩ <;> rw [e] at heq <;> linarith

/-! ### Patterns with a sign -/

/-- `-1` for the sign bit set, else `1`. -/
def signFactor (s : Bool) : ℝ := if s then -1 else 1

@[simp] theorem signFactor_true : signFactor true = -1 := rfl
@[simp] theorem signFactor_false : signFactor false = 1 := rfl

theorem signFactor_not (s : Bool) : signFactor (!s) = -signFactor s := by cases s <;> simp

theorem signFactor_xor (s u : Bool) : signFactor (s ^^ u) = signFactor s * signFactor u := by
  cases s <;> cases u <;> simp

theorem abs_signFactor (s : Bool) : |signFactor s| = 1 := by cases s <;> simp

theorem value_eq (a : Num32) :
    ((value a : Rat) : ℝ) = signFactor (sign a) * (mag a : ℝ) / 2 ^ 149 := by
  unfold value signFactor
  push_cast
  split <;> norm_num

theorem toNat_pack (s : Bool) {m : Nat} (h : m ≤ infMag) :
    (pack s m).toNat = (if s then 2 ^ 31 else 0) + m := by
  have hi : infMag < 2 ^ 31 := by decide
  rw [pack, BitVec.toNat_ofNat]
  exact Nat.mod_eq_of_lt (by split <;> omega)

theorem sign_pack (s : Bool) {m : Nat} (h : m ≤ infMag) : sign (pack s m) = s := by
  rcases Nat.lt_or_eq_of_le h with h | rfl
  · exact (pack_fields s h).1
  · cases s <;> decide

theorem isInf_pack (s : Bool) : isInf (pack s infMag) = true := by cases s <;> decide

/-- Bit 0 of a packed pattern is that of the sign-less one. -/
theorem toNat_pack_mod_two (s : Bool) {m : Nat} (h : m ≤ infMag) : (pack s m).toNat % 2 = m % 2 := by
  rw [toNat_pack s h]
  split <;> omega

theorem mag_eq_magOf (a : Num32) : mag a = magOf (a.toNat % 2 ^ 31) := by
  have he : expo a = a.toNat % 2 ^ 31 / 2 ^ 23 := by unfold expo; omega
  have hf : frac a = a.toNat % 2 ^ 31 % 2 ^ 23 := by unfold frac; omega
  rw [mag, he, hf, magOf]

/-- A nearest magnitude is a nearest one also among magnitudes of the other sign. -/
theorem nearestMag.other_sign {t : ℝ} {m : Nat} (h : nearestMag t m) (ht : 0 ≤ t) (c : Nat) :
    |(magOf m : ℝ) - t| ≤ magOf c + t
      ∧ (|(magOf m : ℝ) - t| = magOf c + t → (magOf c = 0 ∧ magOf m = 0) ∨ m % 2 = 0) := by
  have hc : (0 : ℝ) ≤ magOf c := Nat.cast_nonneg _
  have hzero : |(magOf m : ℝ) - t| ≤ t := by
    have hz := (h 0).1
    rwa [show magOf 0 = 0 by decide, Nat.cast_zero, zero_sub, abs_neg, abs_of_nonneg ht] at hz
  refine ⟨by linarith, fun heq => ?_⟩
  have hc0 : magOf c = 0 := by exact_mod_cast (by linarith : (magOf c : ℝ) = 0)
  have htie : |(magOf m : ℝ) - t| = |(magOf c : ℝ) - t| := by
    rw [heq, hc0, Nat.cast_zero, zero_sub, abs_neg, abs_of_nonneg ht, zero_add]
  exact ((h c).2 htie).imp_left fun e => ⟨hc0, e.symm.trans hc0⟩

/-- The distance of two signed magnitudes, both counted in units of `2^-149`. -/
theorem dist_signed (s u : Bool) {a b : ℝ} (ha : 0 ≤ a) (hb : 0 ≤ b) :
    |signFactor s * a / 2 ^ 149 - signFactor u * b / 2 ^ 149|
      = (if s = u then |a - b| else a + b) / 2 ^ 149 := by
  rw [← sub_div, abs_div, abs_of_pos (by norm_num : (0 : ℝ) < 2 ^ 149)]
  congr 1
  split
  · rename_i h
    rw [h, ← mul_sub, abs_mul, abs_signFactor, one_mul]
  · rename_i h
    rw [Bool.eq_not.2 h, signFactor_not]
    rw [show -signFactor u * a - signFactor u * b = -(signFactor u * (a + b)) by ring, abs_neg, abs_mul,
      abs_signFactor, one_mul, abs_of_nonneg (add_nonneg ha hb)]

theorem isNearest_pack (s : Bool) {t : ℝ} {m : Nat} (h : nearestMag t m) (ht : 0 ≤ t) (hm : m < infMag) :
    isNearest (signFactor s * t / 2 ^ 149) (pack s m) := by
  obtain ⟨hsign, hfin, -, hmag⟩ := pack_fields s hm
  refine ⟨hfin, fun c _ => ?_⟩
  have hpos : (0 : ℝ) < 2 ^ 149 := by norm_num
  rw [value_eq, value_eq, hsign, hmag, mag_eq_magOf c, dist_signed _ _ (Nat.cast_nonneg _) ht,
    dist_signed _ _ (Nat.cast_nonneg _) ht, if_pos rfl, div_le_div_iff_of_pos_right hpos,
    div_left_inj' hpos.ne', toNat_pack_mod_two s hm.le]
  have hvalue : ∀ v : Num32, ((value v : Rat) : ℝ) = ((value c : Rat) : ℝ) → value c = value v :=
    fun v e => by exact_mod_cast e.symm
  split
  · rename_i hs
    refine ⟨(h _).1, fun heq => ((h _).2 heq).imp_left fun e => hvalue _ ?_⟩
    rw [value_eq, value_eq, hsign, hmag, mag_eq_magOf c, hs, e]
  · obtain ⟨hle, htie⟩ := h.other_sign ht (c.toNat % 2 ^ 31)
    refine ⟨hle, fun heq => (htie heq).imp_left fun ⟨ec, em⟩ => hvalue _ ?_⟩
    rw [value_eq, value_eq, hmag, mag_eq_magOf c, ec, em]
    simp

/-- The rounding of a signed real: the nearest pattern of its magnitude, cut off at infinity. -/
theorem isRounded_pack (s : Bool) {t : ℝ} {m : Nat} (h : nearestMag t m) (ht : 0 ≤ t) :
    isRounded (signFactor s * t / 2 ^ 149) (pack s (min m infMag)) := by
  have hpos : (0 : ℝ) < 2 ^ 149 := by norm_num
  have habs : |signFactor s * t / 2 ^ 149| = t / 2 ^ 149 := by
    rw [abs_div, abs_mul, abs_signFactor, one_mul, abs_of_nonneg ht, abs_of_pos hpos]
  have hthreshold : (2 : ℝ) ^ 128 - 2 ^ 103 = overflowUnits / 2 ^ 149 := by
    unfold overflowUnits; norm_num
  rw [isRounded, habs, hthreshold, div_lt_div_iff_of_pos_right hpos, div_le_div_iff_of_pos_right hpos]
  constructor
  · intro hlt
    have hm := lt_infMag_of_nearestMag h hlt
    rw [min_eq_left hm.le]
    exact isNearest_pack s h ht hm
  · intro hge
    rw [min_eq_right (infMag_le_of_nearestMag h hge)]
    refine ⟨isInf_pack s, ?_⟩
    have htpos : 0 < t / 2 ^ 149 := div_pos (lt_of_lt_of_le (by norm_num [overflowUnits]) hge) hpos
    rw [sign_pack s le_rfl, mul_div_assoc]
    cases s
    · simpa using htpos.le
    · simpa using htpos

/-- The rounding of a real that is `n/d` units with the sign `s`. -/
theorem isRounded_pack_roundMag {x : ℝ} (s : Bool) (n : Nat) {d : Nat} (hd : 0 < d)
    (hx : x = signFactor s * ((n : ℝ) / d) / 2 ^ 149) : isRounded x (pack s (roundMag n d)) :=
  hx ▸ isRounded_pack s (nearestMag_unboundedRoundMag n hd) (by positivity)

/-! ### Finite operands -/

theorem sign_neg (a : Num32) : sign (neg a) = !sign a := by
  simp [sign, neg]

theorem toNat_neg_mod (a : Num32) : (neg a).toNat % 2 ^ 31 = a.toNat % 2 ^ 31 := by
  rw [neg, BitVec.toNat_xor, Nat.xor_mod_two_pow]
  simp

theorem mag_neg (a : Num32) : mag (neg a) = mag a := by
  rw [mag_eq_magOf, mag_eq_magOf, toNat_neg_mod]

theorem expo_neg (a : Num32) : expo (neg a) = expo a := by
  have h := toNat_neg_mod a
  unfold expo
  omega

theorem finite_neg (a : Num32) : finite (neg a) = finite a := by
  rw [finite, finite, expo_neg]

theorem value_neg (a : Num32) : ((value (neg a) : Rat) : ℝ) = -((value a : Rat) : ℝ) := by
  rw [value_eq, value_eq, sign_neg, mag_neg, signFactor_not]
  ring

section

variable {a b : Num32}

theorem isZero_iff_value : isZero a = true ↔ ((value a : Rat) : ℝ) = 0 := by
  rw [mag_eq_zero, value_eq]
  cases sign a <;> simp

theorem mag_pos (hz : isZero a = false) : 0 < mag a :=
  Nat.pos_of_ne_zero fun h => by simp [mag_eq_zero.2 h] at hz

theorem addAs_finite (op : Config.NumOp) (x y : Num32) (ha : finite a = true) (hb : finite b = true) :
    addAs op x y a b = addFinite a b := by
  obtain ⟨na, ia⟩ := (finite_iff a).1 ha
  obtain ⟨nb, ib⟩ := (finite_iff b).1 hb
  simp [addAs, na, nb, ia, ib]

theorem mul_finite (ha : finite a = true) (hb : finite b = true) :
    mul a b = pack (sign a ^^ sign b) (roundMag (mag a * mag b) (2 ^ 149)) := by
  obtain ⟨na, ia⟩ := (finite_iff a).1 ha
  obtain ⟨nb, ib⟩ := (finite_iff b).1 hb
  simp [mul, na, nb, ia, ib]

theorem div_finite (ha : finite a = true) (hb : finite b = true) (h0 : isZero b = false) :
    div a b = pack (sign a ^^ sign b) (roundMag (mag a * 2 ^ 149) (mag b)) := by
  obtain ⟨na, ia⟩ := (finite_iff a).1 ha
  obtain ⟨nb, ib⟩ := (finite_iff b).1 hb
  simp [div, na, nb, ia, ib, h0]

theorem sqrt_finite (ha : finite a = true) (h0 : isZero a = false) (hs : sign a = false) :
    sqrt a = pack false (sqrtMag (mag a)) := by
  obtain ⟨na, ia⟩ := (finite_iff a).1 ha
  simp [sqrt, na, ia, h0, hs]

/-! ### Sum, product and quotient -/

theorem zero_eq_pack_roundMag : zero = pack false (roundMag 0 1) := by
  rw [roundMag_zero]; rfl

theorem isRounded_addFinite (a b : Num32) :
    isRounded (((value a : Rat) : ℝ) + ((value b : Rat) : ℝ)) (addFinite a b) := by
  rw [value_eq, value_eq]
  unfold addFinite
  split
  · rename_i hs
    refine isRounded_pack_roundMag _ _ one_pos ?_
    rw [hs]; push_cast; ring
  · rename_i hs
    rw [Bool.eq_not.2 hs, signFactor_not]
    split
    · rename_i hm
      rw [zero_eq_pack_roundMag]
      refine isRounded_pack_roundMag false 0 one_pos ?_
      rw [hm]; push_cast; ring
    · split
      · rename_i hlt
        refine isRounded_pack_roundMag _ _ one_pos ?_
        rw [Nat.cast_sub hlt.le, signFactor_not]; push_cast; ring
      · rename_i hlt
        refine isRounded_pack_roundMag _ _ one_pos ?_
        rw [Nat.cast_sub (not_lt.1 hlt)]; push_cast; ring

/-- An exact zero sum is `+0` unless both operands are negative. -/
theorem addFinite_of_sum_zero (a b : Num32)
    (h : ((value a : Rat) : ℝ) + ((value b : Rat) : ℝ) = 0) :
    addFinite a b = if sign a && sign b then neg zero else zero := by
  rw [value_eq, value_eq, ← add_div, div_eq_zero_iff, or_iff_left (by norm_num)] at h
  by_cases hs : sign a = sign b
  · have hm : mag a + mag b = 0 := by
      rw [hs, ← mul_add] at h
      have := (mul_eq_zero.1 h).resolve_left (by cases sign b <;> simp)
      exact_mod_cast this
    rw [addFinite, if_pos hs, hm, roundMag_zero, hs, Bool.and_self]
    cases sign b <;> decide
  · have hm : mag a = mag b := by
      rw [Bool.eq_not.2 hs, signFactor_not, neg_mul, ← sub_eq_neg_add, ← mul_sub] at h
      have := (mul_eq_zero.1 h).resolve_left (by cases sign b <;> simp)
      exact_mod_cast (sub_eq_zero.1 this).symm
    rw [addFinite, if_neg hs, if_pos hm, Bool.eq_not.2 hs, Bool.not_and_self]
    rfl

theorem isRounded_mul (ha : finite a = true) (hb : finite b = true) :
    isRounded (((value a : Rat) : ℝ) * ((value b : Rat) : ℝ)) (mul a b) := by
  rw [mul_finite ha hb]
  refine isRounded_pack_roundMag _ _ (by positivity) ?_
  rw [value_eq, value_eq, signFactor_xor]
  push_cast
  ring

theorem isRounded_div (ha : finite a = true) (hb : finite b = true)
    (h0 : ((value b : Rat) : ℝ) ≠ 0) :
    isRounded (((value a : Rat) : ℝ) / ((value b : Rat) : ℝ)) (div a b) := by
  have hz : isZero b = false := Bool.eq_false_of_not_eq_true fun h => h0 (isZero_iff_value.1 h)
  have hm := mag_pos hz
  rw [div_finite ha hb hz]
  refine isRounded_pack_roundMag _ _ hm ?_
  have hm' : (mag b : ℝ) ≠ 0 := by exact_mod_cast hm.ne'
  have hs : signFactor (sign b) ≠ 0 := by cases sign b <;> simp
  have hdiv : signFactor (sign a) * signFactor (sign b) = signFactor (sign a) / signFactor (sign b) := by
    cases sign b <;> simp [div_neg]
  rw [value_eq, value_eq, signFactor_xor, hdiv, Nat.cast_mul, Nat.cast_pow, Nat.cast_ofNat]
  field_simp

/-! ### Square root -/

/-- The bitwise search answers the integer square root, if that has at most `fuel` bits past `r`. -/
theorem isqrtFrom_spec (fuel r x : Nat) (hlow : r * r ≤ x)
    (hhigh : x < (r + 2 ^ fuel) * (r + 2 ^ fuel)) :
    isqrtFrom fuel r x * isqrtFrom fuel r x ≤ x
      ∧ x < (isqrtFrom fuel r x + 1) * (isqrtFrom fuel r x + 1) := by
  induction fuel generalizing r with
  | zero => exact ⟨hlow, hhigh⟩
  | succ fuel ih =>
    rw [isqrtFrom]
    split
    · rename_i h
      refine ih _ h ?_
      rwa [Nat.add_assoc, ← Nat.two_mul, ← Nat.pow_succ']
    · rename_i h
      exact ih _ hlow (not_le.1 h)

/-- The grid of the root: `x` has 47 or 48 bits in steps of `4^k`. -/
theorem sqrtGrid_range {x : Nat} (hx : 2 ^ 46 ≤ x) :
    4 ^ 23 ≤ x / 4 ^ (Nat.log2 x / 2 - 23) ∧ x / 4 ^ (Nat.log2 x / 2 - 23) < 4 ^ 24 := by
  have hx0 : x ≠ 0 := by omega
  have hlog : 46 ≤ Nat.log2 x := (Nat.le_log2 hx0).2 hx
  have hfour : ∀ j, (4 : Nat) ^ j = 2 ^ (2 * j) := fun j => by rw [pow_mul]; rfl
  constructor
  · rw [Nat.le_div_iff_mul_le (by positivity), ← pow_add, hfour]
    exact (Nat.pow_le_pow_right (by decide) (by omega)).trans (Nat.log2_self_le hx0)
  · rw [Nat.div_lt_iff_lt_mul (by positivity), ← pow_add, hfour]
    exact Nat.lt_log2_self.trans_le (Nat.pow_le_pow_right (by decide) (by omega))

/-- The root `q` on the grid of `2^k` units, rounded half to even by comparing squares. -/
theorem nearestMag_sqrt_grid {x k q : Nat} (hlow : 4 ^ 23 ≤ x / 4 ^ k) (hhigh : x / 4 ^ k < 4 ^ 24)
    (hq1 : q * q ≤ x / 4 ^ k) (hq2 : x / 4 ^ k < (q + 1) * (q + 1)) :
    nearestMag (Real.sqrt x) (k * 2 ^ 23 +
      if (2 * q + 1) * (2 * q + 1) * 4 ^ k < 4 * x
        ∨ ((2 * q + 1) * (2 * q + 1) * 4 ^ k = 4 * x ∧ q % 2 = 1) then q + 1 else q) := by
  have hfour : (4 : ℝ) ^ k = 2 ^ k * 2 ^ k := by rw [← mul_pow]; norm_num
  have hsq1 : ((q : ℝ) * 2 ^ k) ^ 2 ≤ x := by
    have h : (q : ℝ) * q * 4 ^ k ≤ x := by
      exact_mod_cast (Nat.le_div_iff_mul_le (by positivity)).1 hq1
    rw [hfour] at h; linarith
  have hsq2 : (x : ℝ) ≤ (((q : ℝ) + 1) * 2 ^ k) ^ 2 := by
    have h : (x : ℝ) < (q + 1) * (q + 1) * 4 ^ k := by
      exact_mod_cast (Nat.div_lt_iff_lt_mul (by positivity)).1 hq2
    rw [hfour] at h; linarith
  have htwo : 2 * Real.sqrt x = Real.sqrt (4 * x) := by
    rw [Real.sqrt_mul (by norm_num), show (4 : ℝ) = 2 ^ 2 by norm_num, Real.sqrt_sq (by norm_num)]
  have hmid : ((2 * (q : ℝ) + 1) * 2 ^ k) ^ 2 = ((2 * q + 1) * (2 * q + 1) * 4 ^ k : Nat) := by
    push_cast; rw [hfour]; ring
  refine nearestMag_grid _ ?_ (fun _ => ?_) (Real.le_sqrt_of_sq_le hsq1)
    (Real.sqrt_le_iff.2 ⟨by positivity, hsq2⟩) ?_
  · exact Nat.mul_self_lt_mul_self_iff.1 (hq1.trans_lt hhigh)
  · exact Nat.lt_succ_iff.1 (Nat.mul_self_lt_mul_self_iff.1 (hlow.trans_lt hq2))
  · rw [htwo, Real.lt_sqrt (by positivity), eq_comm (b := Real.sqrt _),
      Real.sqrt_eq_iff_eq_sq (by positivity) (by positivity), hmid, eq_comm (a := 4 * (x : ℝ))]
    norm_cast

theorem nearestMag_sqrtMag {m : Nat} (hm : 0 < m) :
    nearestMag (Real.sqrt ((m * 2 ^ 149 : Nat) : ℝ)) (sqrtMag m) := by
  obtain ⟨hlow, hhigh⟩ := sqrtGrid_range (show 2 ^ 46 ≤ m * 2 ^ 149 by omega)
  have hfuel : (4 : Nat) ^ 24 ≤ (0 + 2 ^ 25) * (0 + 2 ^ 25) := by decide
  obtain ⟨hq1, hq2⟩ := isqrtFrom_spec 25 0 _ (Nat.zero_le _) (hhigh.trans_le hfuel)
  exact nearestMag_sqrt_grid hlow hhigh hq1 hq2

theorem mag_lt_of_finite {a : Num32} (ha : finite a = true) : mag a < 33554432 * 2 ^ 252 := by
  obtain ⟨-, hlast, -⟩ := magOf_around_overflow
  have hfin : expo a ≠ 255 := of_decide_eq_true ha
  have hbits : a.toNat % 2 ^ 31 ≤ infMag - 1 := by unfold expo at hfin; unfold infMag; omega
  rw [mag_eq_magOf]
  exact (hlast ▸ magOf_mono hbits).trans_lt (by norm_num)

/-- The root of a finite magnitude does not overflow. -/
theorem sqrtMag_lt_infMag {m : Nat} (hm : 0 < m) (h : m < 33554432 * 2 ^ 252) : sqrtMag m < infMag := by
  refine lt_infMag_of_nearestMag (nearestMag_sqrtMag hm) ?_
  have h' : ((m * 2 ^ 149 : Nat) : ℝ) < 33554432 * 2 ^ 252 * 2 ^ 149 := by
    exact_mod_cast Nat.mul_lt_mul_of_pos_right h (by positivity)
  rw [Real.sqrt_lt' (by norm_num [overflowUnits])]
  exact h'.trans (by norm_num [overflowUnits])

/-- A zero of either sign is the rounding of 0. -/
theorem isRounded_zero (ha : finite a = true) (h : ((value a : Rat) : ℝ) = 0) : isRounded 0 a := by
  refine ⟨fun _ => ⟨ha, fun c _ => ?_⟩, fun hbig => absurd hbig (by norm_num)⟩
  rw [h, sub_zero, abs_zero]
  refine ⟨abs_nonneg _, fun heq => .inl ?_⟩
  have hc : ((value c : Rat) : ℝ) = ((value a : Rat) : ℝ) := by
    rw [h, ← sub_zero ((value c : Rat) : ℝ)]
    exact abs_eq_zero.1 heq.symm
  exact_mod_cast hc

theorem sqrt_of_isZero (ha : finite a = true) (hz : isZero a = true) : sqrt a = a := by
  simp [sqrt, ((finite_iff a).1 ha).1, hz]

theorem sign_of_nonneg (h : 0 ≤ ((value a : Rat) : ℝ)) (hz : isZero a = false) : sign a = false := by
  have hm : 0 < (mag a : ℝ) / 2 ^ 149 := div_pos (by exact_mod_cast mag_pos hz) (by positivity)
  by_contra hs
  rw [value_eq, Bool.eq_true_of_not_eq_false hs, signFactor_true, neg_one_mul, neg_div] at h
  linarith

theorem isRounded_sqrt (ha : finite a = true) (h : 0 ≤ ((value a : Rat) : ℝ)) :
    isRounded (Real.sqrt ((value a : Rat) : ℝ)) (sqrt a) := by
  cases hz : isZero a
  · have hm := mag_pos hz
    have hs := sign_of_nonneg h hz
    have hroot : Real.sqrt ((value a : Rat) : ℝ)
        = signFactor false * Real.sqrt ((mag a * 2 ^ 149 : Nat) : ℝ) / 2 ^ 149 := by
      have hunits : ((mag a : ℝ)) / 2 ^ 149 = (mag a : ℝ) * 2 ^ 149 / (2 ^ 149) ^ 2 := by ring
      rw [value_eq, hs, signFactor_false, one_mul, one_mul, hunits, Real.sqrt_div (by positivity),
        Real.sqrt_sq (by positivity), Nat.cast_mul, Nat.cast_pow, Nat.cast_ofNat]
    rw [sqrt_finite ha hz hs, hroot, ← min_eq_left (sqrtMag_lt_infMag hm (mag_lt_of_finite ha)).le]
    exact isRounded_pack false (nearestMag_sqrtMag hm) (Real.sqrt_nonneg _)
  · have h0 := isZero_iff_value.1 hz
    rw [sqrt_of_isZero ha hz, h0, Real.sqrt_zero]
    exact isRounded_zero ha h0

theorem isRounded_sub (ha : finite a = true) (hb : finite b = true) :
    isRounded (((value a : Rat) : ℝ) - ((value b : Rat) : ℝ)) (sub a b) := by
  rw [sub, addAs_finite _ _ _ ha ((finite_neg b).trans hb), sub_eq_add_neg, ← value_neg]
  exact isRounded_addFinite a (neg b)

end

/-- Settles O60: each operation rounds one exact magnitude, once. -/
theorem arithmeticIsCorrectlyRounded : Obligations.ArithmeticIsCorrectlyRounded := by
  intro a b ha hb
  dsimp only
  have hadd : add a b = addFinite a b := addAs_finite _ _ _ ha hb
  refine ⟨hadd ▸ isRounded_addFinite a b, isRounded_sub ha hb, isRounded_mul ha hb,
    isRounded_div ha hb, isRounded_sqrt ha, fun h => ?_, ?_⟩
  · rw [hadd]
    exact addFinite_of_sum_zero a b h
  · rw [mul_finite ha hb]
    exact sign_pack _ (roundMag_le _ _)

end Sys2Proof.Machine.F32
end

section
/-! The active bank and the delay lengths stay finite and in range (10_state.md R21, R22; 44_delay.md
R218; 47_control.md R273).

Apart from `RESET`, three operations write what the claim speaks of: the snapshot clamps the mailbox bank,
`DLY.SET` copies the active bank, and `DLY.PROC` smooths the delay length and clamps it. The lemmas on the
arithmetic say what a clamp needs, in either kind of chip, and that the smoothed length has it: in
`NUM_F32` it is no NaN, in `NUM_FIX` it does not leave the two lengths it lies between. The rest carries
`State.RangedOn c` through a step. -/

namespace Sys2Proof.Machine.F32

/-! ### Comparisons and finiteness in `NUM_F32` -/

section

variable {a b v lo hi : Num32}

theorem le_self_iff : le a a = true ↔ isNaN a = false := by simp [le]

theorem le_of_not_lt (ha : isNaN a = false) (hb : isNaN b = false) (h : lt a b = false) :
    le b a = true :=
  le_of_key hb ha (by simpa [lt, ha, hb] using h)

theorem isNaN_of_le (h : le a b = true) : isNaN a = false ∧ isNaN b = false := by
  simp only [le, Bool.and_eq_true, Bool.not_eq_true'] at h
  exact h.1

theorem abs_key (a : Num32) : |key a| = mag a := by
  unfold key
  split <;> simp

/-- The largest finite magnitude, in units of `2^-149`. -/
theorem mag_le_of_finite (ha : finite a = true) : mag a ≤ 33554430 * 2 ^ 252 := by
  obtain ⟨-, hlast, -⟩ := magOf_around_overflow
  have hexp : expo a ≠ 255 := of_decide_eq_true ha
  have hbits : a.toNat % 2 ^ 31 ≤ infMag - 1 := by
    unfold expo at hexp; unfold infMag; omega
  rw [mag_eq_magOf, ← hlast]
  exact magOf_mono hbits

theorem mag_of_isInf (h : isInf a = true) : mag a = 33554432 * 2 ^ 252 := by
  obtain ⟨hinf, -, -⟩ := magOf_around_overflow
  simp only [isInf, Bool.and_eq_true, decide_eq_true_eq] at h
  obtain ⟨hexp, hfrac⟩ := h
  have hbits : a.toNat % 2 ^ 31 = infMag := by
    unfold expo at hexp; unfold frac at hfrac; unfold infMag; omega
  rw [mag_eq_magOf, hbits, hinf]

/-- What lies between two finite values is finite. -/
theorem finite_of_between (hlo : finite lo = true) (hhi : finite hi = true) (h1 : le lo v = true)
    (h2 : le v hi = true) : finite v = true := by
  refine (finite_iff v).2 ⟨(isNaN_of_le h2).1, Bool.eq_false_of_not_eq_true fun hinf => ?_⟩
  have hkey : |key v| ≤ max |key lo| |key hi| := abs_le_max_abs_abs (key_le_of_le h1) (key_le_of_le h2)
  have hlo' := mag_le_of_finite hlo
  have hhi' := mag_le_of_finite hhi
  rw [abs_key, abs_key, abs_key, mag_of_isInf hinf] at hkey
  omega

theorem isNaN_pack (s : Bool) {m : Nat} (h : m ≤ infMag) : isNaN (pack s m) = false := by
  rcases Nat.lt_or_eq_of_le h with h | rfl
  · obtain ⟨-, -, hnan, -⟩ := pack_fields s h
    exact hnan
  · cases s <;> decide

theorem isNaN_addFinite (a b : Num32) : isNaN (addFinite a b) = false := by
  unfold addFinite
  split
  · exact isNaN_pack _ (roundMag_le _ _)
  · split
    · decide
    · split
      · exact isNaN_pack _ (roundMag_le _ _)
      · exact isNaN_pack _ (roundMag_le _ _)

/-- A finite value plus one that may be infinite is no invalid operation. -/
theorem isNaN_add (ha : finite a = true) (hb : isNaN b = false) : isNaN (add a b) = false := by
  obtain ⟨hnan, hinf⟩ := (finite_iff a).1 ha
  rw [add, addAs, hnan, hb, hinf]
  simp only [Bool.or_self, Bool.false_eq_true, if_false]
  split
  · exact hb
  · exact isNaN_addFinite a b

theorem isNaN_mul (ha : finite a = true) (hb : finite b = true) : isNaN (mul a b) = false := by
  rw [mul_finite ha hb]
  exact isNaN_pack _ (roundMag_le _ _)

theorem value_range_of_not_sign (ha : finite a = true) (hs : sign a = false) :
    0 ≤ ((value a : Rat) : ℝ) ∧ ((value a : Rat) : ℝ) < 2 ^ 128 - 2 ^ 103 := by
  have hm : (mag a : ℝ) ≤ 33554430 * 2 ^ 252 := by exact_mod_cast mag_le_of_finite ha
  rw [value_eq, hs, signFactor_false, one_mul]
  refine ⟨by positivity, ?_⟩
  rw [div_lt_iff₀ (by positivity)]
  exact hm.trans_lt (by norm_num)

/-- The difference of two finite values that are not negative does not overflow. -/
theorem finite_sub (ha : finite a = true) (hb : finite b = true) (hsa : sign a = false)
    (hsb : sign b = false) : finite (sub a b) = true := by
  obtain ⟨ha0, ha1⟩ := value_range_of_not_sign ha hsa
  obtain ⟨hb0, hb1⟩ := value_range_of_not_sign hb hsb
  obtain ⟨hfin, -⟩ := (isRounded_sub ha hb).1 (abs_lt.2 ⟨by linarith, by linarith⟩)
  exact hfin

theorem sign_of_key_pos (h : 0 < key a) : sign a = false :=
  Bool.eq_false_of_not_eq_true fun hs => by
    rw [key, if_pos hs] at h
    omega

theorem key_num_one_pos : 0 < key (num 1) := by decide +kernel

end

/-- Rounding a magnitude of at most 8 does not overflow. -/
theorem finite_pack_roundMag (s : Bool) {n d : Nat} (hd : 0 < d) (h : n ≤ d * 2 ^ 152) :
    finite (pack s (roundMag n d)) = true := by
  have hd' : (0 : ℝ) < d := by exact_mod_cast hd
  have hunits : (n : ℝ) / d < overflowUnits := by
    have h' : (n : ℝ) ≤ d * 2 ^ 152 := by exact_mod_cast h
    rw [div_lt_iff₀ hd']
    unfold overflowUnits
    nlinarith
  have hm := lt_infMag_of_nearestMag (nearestMag_unboundedRoundMag n hd) hunits
  obtain ⟨-, hfin, -⟩ := pack_fields s ((min_le_left _ infMag).trans_lt hm)
  exact hfin

/-- `const` of a rational in `[0, 1]` is finite. -/
theorem finite_const {q : Rat} (h0 : 0 ≤ q.num) (h1 : q.num ≤ q.den) : finite (const q) = true :=
  finite_pack_roundMag _ q.den_pos (by omega)

end Sys2Proof.Machine.F32

namespace Sys2Proof.Machine.Fix

/-! ### Values and neighbours in `NUM_FIX` -/

variable {w f : Nat}

theorem finite_iff (w f : Nat) (a : Int) : finite w f a = true ↔ fixMin w ≤ a ∧ a ≤ fixMax w := by
  simp only [finite, NumFormat.finite, Bool.and_eq_true, decide_eq_true_eq]
  unfold fixSatLow fixSatHigh
  omega

theorem fixMax_nonneg (w : Nat) : 0 ≤ fixMax w := by
  obtain ⟨-, h⟩ := fix_range w
  unfold fixSatHigh at h
  omega

theorem fixMin_add_fixMax (w : Nat) : fixMin w + fixMax w = -1 := by
  unfold fixMin fixMax
  ring

theorem value_of_finite {a : Int} (h : finite w f a = true) : value w a = a := by
  obtain ⟨h0, h1⟩ := (finite_iff w f a).1 h
  unfold value
  omega

theorem value_nonneg {v : Int} (h : 0 ≤ v) : 0 ≤ value w v := by
  have := fixMax_nonneg w
  unfold value
  omega

theorem finite_value (v : Int) : finite w f (value w v) = true := by
  have h0 := fixMax_nonneg w
  have h1 := fixMin_add_fixMax w
  rw [finite_iff]
  unfold value
  omega

/-- Rounded to a neighbour, a quotient stays between the integers it lies between. -/
theorem neighbour_between {op : Config.NumOp} {a b n lo hi : Int} {d : Nat} (hd : 0 < d)
    (h0 : lo * d ≤ n) (h1 : n ≤ hi * d) :
    lo ≤ neighbour w f op a b n d ∧ neighbour w f op a b n d ≤ hi := by
  have hd' : (0 : Int) < d := by exact_mod_cast hd
  have hlo : lo ≤ n / d := (Int.le_ediv_iff_mul_le hd').2 h0
  have hhi : n / d ≤ hi := Int.ediv_le_of_le_mul hd' h1
  unfold neighbour
  split
  · exact ⟨hlo, hhi⟩
  · rename_i hup
    have hne : n / d ≠ hi := fun e => hup (.inl (by
      have := Int.emod_add_mul_ediv n d
      have hmod := Int.emod_nonneg n hd'.ne'
      rw [e] at this
      nlinarith))
    omega

/-- `const` of a rational in `[0, 1]` is a value in `[0, 1]`. -/
theorem const_range {q : Rat} (h0 : 0 ≤ q.num) (h1 : q.num ≤ q.den) :
    0 ≤ const w f q ∧ const w f q ≤ 2 ^ f := by
  have hden : (0 : Int) < q.den := by exact_mod_cast q.den_pos
  have hpow : (0 : Int) < 2 ^ f := by positivity
  have hlow : 0 ≤ q.num * 2 ^ f / (q.den : Int) := Int.ediv_nonneg (by positivity) hden.le
  have hhigh : q.num * 2 ^ f / (q.den : Int) ≤ 2 ^ f :=
    Int.ediv_le_of_le_mul hden (by nlinarith)
  have hone : q.num * 2 ^ f / (q.den : Int) = 2 ^ f → q.num * 2 ^ f % (q.den : Int) = 0 := fun e => by
    have hdiv := Int.emod_add_mul_ediv (q.num * 2 ^ f) q.den
    have hmod := Int.emod_nonneg (q.num * 2 ^ f) hden.ne'
    rw [e] at hdiv
    nlinarith
  have hmin := fixMin_add_fixMax w
  have hmax := fixMax_nonneg w
  unfold const value
  dsimp only
  split
  · omega
  · rename_i hup
    omega

/-- A step of a fraction `k` of the way from `cur` to `tgt` stays between the two. -/
theorem finite_step {k cur tgt : Int} (hcur : finite w f cur = true) (htgt : finite w f tgt = true)
    (hk : finite w f k = true) (hk0 : 0 ≤ k) (hk1 : k ≤ 2 ^ f) (hcur0 : 0 ≤ cur) (htgt0 : 0 ≤ tgt) :
    finite w f (add w f cur (mul w f k (sub w f tgt cur))) = true := by
  obtain ⟨-, hcur1⟩ := (finite_iff w f cur).1 hcur
  obtain ⟨-, htgt1⟩ := (finite_iff w f tgt).1 htgt
  have hmin := fixMin_add_fixMax w
  have hpow : (0 : Int) < 2 ^ f := by positivity
  have hsub : sub w f tgt cur = tgt - cur := result_of_range htgt hcur (by omega) (by omega)
  have hd : finite w f (tgt - cur) = true := (finite_iff _ _ _).2 ⟨by omega, by omega⟩
  obtain ⟨hp0, hp1⟩ := neighbour_between (w := w) (f := f) (op := .mul) (a := k) (b := tgt - cur)
    (n := k * (tgt - cur)) (lo := min 0 (tgt - cur)) (hi := max 0 (tgt - cur)) (d := 2 ^ f)
    (by positivity)
    (by push_cast; rcases le_total 0 (tgt - cur) with h | h
        · rw [min_eq_left h]; nlinarith
        · rw [min_eq_right h]; nlinarith)
    (by push_cast; rcases le_total 0 (tgt - cur) with h | h
        · rw [max_eq_right h]; nlinarith
        · rw [max_eq_left h]; nlinarith)
  have hmul : mul w f k (tgt - cur) = neighbour w f .mul k (tgt - cur) (k * (tgt - cur)) (2 ^ f) :=
    result_of_range hk hd (by omega) (by omega)
  rw [hsub, hmul]
  generalize neighbour w f .mul k (tgt - cur) (k * (tgt - cur)) (2 ^ f) = p at hp0 hp1
  have hp : finite w f p = true := (finite_iff _ _ _).2 ⟨by omega, by omega⟩
  have hadd : add w f cur p = cur + p := result_of_range hcur hp (by omega) (by omega)
  rw [hadd, finite_iff]
  omega

end Sys2Proof.Machine.Fix

namespace Sys2Proof.Machine

/-! ### Clamping in the arithmetic of a chip -/

section

variable {c : Cfg} {lo hi v a b cur tgt : NumWord}

theorem arith_le_self (h : c.arith.finite v = true) : c.arith.le v v = true := by
  cases hk : c.NUM with
  | f32 =>
    rw [arith_f32 hk] at h ⊢
    obtain ⟨hnan, -⟩ := (F32.finite_iff _).1 h
    exact F32.le_self_iff.2 hnan
  | fix w f =>
    rw [arith_fix hk]
    exact decide_eq_true le_rfl

/-- The comparisons order the values that are comparable with themselves, in `NUM_F32` those that are no
NaN. -/
theorem arith_le_of_not_lt (ha : c.arith.le a a = true) (hb : c.arith.le b b = true)
    (h : ¬ c.arith.lt a b = true) : c.arith.le b a = true := by
  have h := Bool.eq_false_of_not_eq_true h
  cases hk : c.NUM with
  | f32 =>
    rw [arith_f32 hk] at ha hb h ⊢
    exact F32.le_of_not_lt (F32.le_self_iff.1 ha) (F32.le_self_iff.1 hb) h
  | fix w f =>
    rw [arith_fix hk] at h ⊢
    exact decide_eq_true (not_lt.1 (of_decide_eq_false h))

/-- What a clamp brings into its range: a value that compares, and is finite where neither end replaces
it. -/
structure Clampable (N : NUM NumWord) (lo hi v : NumWord) : Prop where
  compares : N.le v v = true
  finite : N.le lo v = true → N.le v hi = true → N.finite v = true

theorem Clampable.of_finite (h : c.arith.finite v = true) : Clampable c.arith lo hi v :=
  ⟨arith_le_self h, fun _ _ => h⟩

theorem inRange_clampHigh (hhi : inRange c.arith lo hi hi) (hv : Clampable c.arith lo hi v)
    (hlow : c.arith.le lo v = true) :
    inRange c.arith lo hi (if c.arith.lt hi v then hi else v) := by
  split
  · exact hhi
  · rename_i hlt
    have hhigh := arith_le_of_not_lt (arith_le_self hhi.1) hv.compares hlt
    exact ⟨hv.finite hlow hhigh, hlow, hhigh⟩

theorem inRange_clampLow (hlo : inRange c.arith lo hi lo) (hv : Clampable c.arith lo hi v)
    (hhigh : c.arith.le v hi = true) :
    inRange c.arith lo hi (if c.arith.lt v lo then lo else v) := by
  split
  · exact hlo
  · rename_i hlt
    have hlow := arith_le_of_not_lt hv.compares (arith_le_self hlo.1) hlt
    exact ⟨hv.finite hlow hhigh, hlow, hhigh⟩

/-- 47_control.md R273: a field of the snapshot is in its range, whatever the mailbox holds. -/
theorem inRange_clampParam {old : NumWord} (hlo : inRange c.arith lo hi lo)
    (hhi : inRange c.arith lo hi hi) (hold : inRange c.arith lo hi old) :
    inRange c.arith lo hi (clampParam c.arith lo hi old v) := by
  unfold clampParam
  split
  · rename_i hfin
    split
    · exact hhi
    · rename_i hlt
      exact inRange_clampLow hlo (.of_finite hfin)
        (arith_le_of_not_lt (arith_le_self hhi.1) (arith_le_self hfin) hlt)
  · exact hold

/-! ### The smoothed delay length -/

theorem Cfg.smoothing_of_wf (h : c.wf = true) :
    0 ≤ c.DLY_SMOOTH.num ∧ c.DLY_SMOOTH.num ≤ c.DLY_SMOOTH.den := by
  simp only [Cfg.wf, Cfg.coefficientsOk, ratPos, ratLeOne, Bool.and_eq_true, decide_eq_true_eq] at h
  obtain ⟨-, -, -, -, hpos, hone, -⟩ := h
  exact ⟨hpos.le, hone⟩

/-- The one-pole step of 44_delay.md R218 before its two clamps. -/
def smoothedStep (N : NUM NumWord) (c : Cfg) (cur tgt : NumWord) : NumWord :=
  N.add cur (N.mul (N.const c.DLY_SMOOTH) (N.sub tgt cur))

/-- `smoothedDelay` is the step raised to the lower end, then lowered to the upper end. -/
theorem smoothedDelay_eq (N : NUM NumWord) (c : Cfg) (cur tgt : NumWord) :
    smoothedDelay N c cur tgt =
      if N.lt (N.num (c.DMAX - 1 : Nat))
          (if N.lt (smoothedStep N c cur tgt) (N.num 1) then N.num 1 else smoothedStep N c cur tgt)
      then N.num (c.DMAX - 1 : Nat)
      else if N.lt (smoothedStep N c cur tgt) (N.num 1) then N.num 1 else smoothedStep N c cur tgt :=
  rfl

/-- In `NUM_F32` the step is no NaN: the difference of two lengths does not overflow, so no infinity meets
a zero or an opposite infinity. -/
theorem smoothedStep_clampable_f32 (hk : c.NUM = .f32) (hw : c.wf = true)
    (hlo : inRange c.arith (c.arith.num 1) hi (c.arith.num 1)) (hhi : c.arith.finite hi = true)
    (hcur : inRange c.arith (c.arith.num 1) hi cur) (htgt : inRange c.arith (c.arith.num 1) hi tgt) :
    Clampable c.arith (c.arith.num 1) hi (smoothedStep c.arith c cur tgt) := by
  obtain ⟨hk0, hk1⟩ := Cfg.smoothing_of_wf hw
  rw [arith_f32 hk] at hlo hhi hcur htgt ⊢
  obtain ⟨hlofin, -, -⟩ := hlo
  obtain ⟨hcurfin, hcurlow, -⟩ := hcur
  obtain ⟨htgtfin, htgtlow, -⟩ := htgt
  have sign_of_low : ∀ {v : Num32}, F32.le (F32.num 1) v = true → F32.sign v = false := fun h =>
    F32.sign_of_key_pos (F32.key_num_one_pos.trans_le (F32.key_le_of_le h))
  have hone : F32.pattern (F32.word (F32.num 1)) = F32.num 1 := F32.pattern_word _
  have hdiff := F32.finite_sub htgtfin hcurfin (sign_of_low (hone ▸ htgtlow)) (sign_of_low (hone ▸ hcurlow))
  have hstep := F32.isNaN_add hcurfin (F32.isNaN_mul (F32.finite_const hk0 hk1) hdiff)
  have hpattern : F32.pattern (smoothedStep (NUM_F32 c.SIGTOL).onWords c cur tgt)
      = F32.add (F32.pattern cur)
          (F32.mul (F32.const c.DLY_SMOOTH) (F32.sub (F32.pattern tgt) (F32.pattern cur))) := by
    simp [smoothedStep, NUM.onWords, NUM_F32]
  exact
    { compares := F32.le_self_iff.2 (hpattern ▸ hstep)
      finite := fun h1 h2 => F32.finite_of_between hlofin hhi h1 h2 }

/-- In `NUM_FIX` the step stays between the two lengths. -/
theorem smoothedStep_clampable_fix {w f : Nat} (hk : c.NUM = .fix w f) (hw : c.wf = true)
    (hcur : inRange c.arith (c.arith.num 1) hi cur) (htgt : inRange c.arith (c.arith.num 1) hi tgt) :
    Clampable c.arith (c.arith.num 1) hi (smoothedStep c.arith c cur tgt) := by
  obtain ⟨hk0, hk1⟩ := Cfg.smoothing_of_wf hw
  obtain ⟨hq0, hq1⟩ := Fix.const_range (w := w) (f := f) hk0 hk1
  refine .of_finite ?_
  rw [arith_fix hk] at hcur htgt ⊢
  have nonneg_of_low : ∀ {v : NumWord}, Fix.finite w f v = true →
      (NUM_FIX w f).le (Fix.num w f 1) v = true → 0 ≤ v := fun hv h => by
    have hle : Fix.value w (Fix.num w f 1) ≤ Fix.value w _ := of_decide_eq_true h
    rw [Fix.value_of_finite hv] at hle
    exact (Fix.value_nonneg (Fix.value_nonneg (by positivity))).trans hle
  obtain ⟨hcurfin, hcurlow, -⟩ := hcur
  obtain ⟨htgtfin, htgtlow, -⟩ := htgt
  exact Fix.finite_step hcurfin htgtfin (Fix.finite_value _) hq0 hq1 (nonneg_of_low hcurfin hcurlow)
    (nonneg_of_low htgtfin htgtlow)

/-- 44_delay.md R218: the smoothed length is in range if both lengths are. -/
theorem delayInRange_smoothedDelay (hw : c.wf = true) (hr : rangesHoldReset c)
    (hcur : delayInRange c cur) (htgt : delayInRange c tgt) :
    delayInRange c (smoothedDelay c.arith c cur tgt) := by
  obtain ⟨-, hmin, hmax, -⟩ := hr
  have hlo : delayInRange c (c.arith.num 1) := hmin.dtime
  have hhi : delayInRange c (c.arith.num (c.DMAX - 1 : Nat)) := hmax.dtime
  have hstep : Clampable c.arith (c.arith.num 1) (c.arith.num (c.DMAX - 1 : Nat))
      (smoothedStep c.arith c cur tgt) := by
    cases hk : c.NUM with
    | f32 => exact smoothedStep_clampable_f32 hk hw hlo hhi.1 hcur htgt
    | fix w f => exact smoothedStep_clampable_fix hk hw hcur htgt
  rw [smoothedDelay_eq]
  by_cases hlt : c.arith.lt (smoothedStep c.arith c cur tgt) (c.arith.num 1) = true
  · rw [if_pos hlt]
    exact inRange_clampHigh hhi (.of_finite hlo.1) (arith_le_self hlo.1)
  · rw [if_neg hlt]
    exact inRange_clampHigh hhi hstep (arith_le_of_not_lt hstep.compares (arith_le_self hlo.1) hlt)

/-- 47_control.md R273: the snapshot leaves a bank in range, whatever the mailbox holds. -/
theorem Params.InRanges.accept {old : Params} (hr : rangesHoldReset c) (hold : old.InRanges c)
    (m : Params) : (Params.accept c old m).InRanges c := by
  obtain ⟨-, hmin, hmax, -⟩ := hr
  exact
    { gain := inRange_clampParam hmin.gain hmax.gain hold.gain
      mix := inRange_clampParam hmin.mix hmax.mix hold.mix
      level := inRange_clampParam hmin.level hmax.level hold.level
      tone := inRange_clampParam hmin.tone hmax.tone hold.tone
      dtime := inRange_clampParam hmin.dtime hmax.dtime hold.dtime
      dfb := inRange_clampParam hmin.dfb hmax.dfb hold.dfb
      dlevel := inRange_clampParam hmin.dlevel hmax.dlevel hold.dlevel
      t2ofs := inRange_clampParam hmin.t2ofs hmax.t2ofs hold.t2ofs
      room := inRange_clampParam hmin.room hmax.room hold.room
      decay := inRange_clampParam hmin.decay hmax.decay hold.decay }

end

/-! ### The invariant inside a step -/

/-- The chip has the configuration `c`, whose ranges hold the reset values, and its active bank and its
delay lengths are in them. -/
structure State.RangedOn (c : Cfg) (s : State) : Prop where
  cfgOk : c.wf = true
  ranges : rangesHoldReset c
  cfgEq : s.cfg = c
  bank : s.A.InRanges c
  cur : delayInRange c s.CUR
  tgt : delayInRange c s.TGT
  t2 : delayInRange c s.T2

/-- The registers that `State.RangedOn` speaks of. -/
def State.rangedRegisters (s : State) := (s.cfg, s.A, s.CUR, s.TGT, s.T2)

section

variable {c : Cfg} {s t : State}

/-- An operation that leaves these registers as they are keeps the invariant. -/
theorem State.RangedOn.of_registers (h : s.RangedOn c) (e : t.rangedRegisters = s.rangedRegisters) :
    t.RangedOn c := by
  simp only [State.rangedRegisters, Prod.mk.injEq] at e
  obtain ⟨cfg, bank, cur, tgt, t2⟩ := e
  exact ⟨h.cfgOk, h.ranges, cfg ▸ h.cfgEq, bank ▸ h.bank, cur ▸ h.cur, tgt ▸ h.tgt, t2 ▸ h.t2⟩

theorem State.RangedOn.bankInv (h : s.RangedOn c) : s.BankInv := by
  rw [State.BankInv, h.cfgEq]
  exact h.bank

theorem State.RangedOn.delayInv (h : s.RangedOn c) : s.DelayInv where
  cur := h.cfgEq ▸ h.cur
  tgt := h.cfgEq ▸ h.tgt
  t2 := h.cfgEq ▸ h.t2

/-! ### The operations that write the bank or a delay length -/

theorem State.RangedOn.takeSnapshot (h : s.RangedOn c) : s.takeSnapshot.RangedOn c := by
  unfold State.takeSnapshot
  split
  · exact { h with bank := h.cfgEq ▸ h.bank.accept h.ranges s.M }
  · exact h

theorem State.RangedOn.dlySet (h : s.RangedOn c) : s.dlySet.RangedOn c :=
  { h with
    tgt := h.bank.dtime
    t2 := h.bank.t2ofs }

theorem State.RangedOn.dlyAdvance (h : s.RangedOn c) (x : NumWord) : (s.dlyAdvance x).RangedOn c :=
  { h with
    cur := by
      show delayInRange c (smoothedDelay s.cfg.arith s.cfg s.CUR s.TGT)
      rw [h.cfgEq]
      exact delayInRange_smoothedDelay h.cfgOk h.ranges h.cur h.tgt }

theorem State.RangedOn.dlyProc (h : s.RangedOn c) (n : Nat) : (s.dlyProc n).RangedOn c :=
  (h.dlyAdvance (s.W.read n)).of_registers rfl

theorem State.RangedOn.cold (hw : c.wf = true) (hr : rangesHoldReset c) : (State.cold c).RangedOn c := by
  have hbank : (Params.atReset c).InRanges c := hr.1
  exact
    { cfgOk := hw
      ranges := hr
      cfgEq := rfl
      bank := hbank
      cur := hbank.dtime
      tgt := hbank.dtime
      t2 := hbank.t2ofs }

/-! ### What leaves the registers as they are -/

theorem State.fatal_rangedRegisters (cause : FaultCause) (s : State) :
    (s.fatal cause).rangedRegisters = s.rangedRegisters := by simp [State.rangedRegisters]

theorem State.nnLoad_rangedRegisters (idx : BitVec 24) (s : State) :
    (s.nnLoad idx).rangedRegisters = s.rangedRegisters := by
  unfold State.nnLoad
  split
  · exact State.fatal_rangedRegisters _ s
  · rfl

theorem State.convInit_rangedRegisters (idx : BitVec 24) (s : State) :
    (s.convInit idx).rangedRegisters = s.rangedRegisters := by
  unfold State.convInit
  split
  · exact State.fatal_rangedRegisters _ s
  · dsimp only
    split
    · exact State.fatal_rangedRegisters _ s
    · exact foldl_keeps (fun t => t.rangedRegisters = s.rangedRegisters) _ _ _ rfl (fun _ _ _ ht => ht)

theorem State.toneSet_rangedRegisters (s : State) : s.toneSet.rangedRegisters = s.rangedRegisters := by
  simp [State.rangedRegisters]

theorem State.revProc_rangedRegisters (n : Nat) (s : State) :
    (s.revProc n).rangedRegisters = s.rangedRegisters := by simp [State.rangedRegisters]

theorem State.switchModel_rangedRegisters (s : State) :
    s.switchModel.rangedRegisters = s.rangedRegisters := by
  unfold State.switchModel
  split
  · exact State.fatal_rangedRegisters _ s
  · split
    · exact State.nnLoad_rangedRegisters _ s
    · rfl

theorem State.modelReload_rangedRegisters (s : State) :
    s.modelReload.rangedRegisters = s.rangedRegisters := by
  unfold State.modelReload
  split
  · dsimp only
    split
    · exact State.switchModel_rangedRegisters _
    · rfl
  · rfl

theorem State.switchIr_rangedRegisters (s : State) : s.switchIr.rangedRegisters = s.rangedRegisters := by
  unfold State.switchIr
  split
  · exact State.fatal_rangedRegisters _ s
  · split
    · exact State.convInit_rangedRegisters _ s
    · rfl

theorem State.irReload_rangedRegisters (s : State) : s.irReload.rangedRegisters = s.rangedRegisters := by
  unfold State.irReload
  split
  · dsimp only
    split
    · exact State.switchIr_rangedRegisters _
    · rfl
  · rfl

theorem State.bypassToggle_rangedRegisters (s : State) :
    s.bypassToggle.rangedRegisters = s.rangedRegisters := by
  unfold State.bypassToggle
  split
  · dsimp only
    split <;> rfl
  · rfl

/-! ### The boundary and the block schedule -/

theorem State.RangedOn.unlessHalted (h : s.RangedOn c) {f : State → State}
    (hf : ∀ t : State, t.RangedOn c → (f t).RangedOn c) : (State.unlessHalted f s).RangedOn c := by
  unfold State.unlessHalted
  split
  · exact h
  · exact hf s h

theorem State.RangedOn.toneSet (h : s.RangedOn c) : s.toneSet.RangedOn c :=
  h.of_registers (State.toneSet_rangedRegisters s)

theorem State.RangedOn.blockSetup (h : s.RangedOn c) : s.blockSetup.RangedOn c := by
  have hmix : s.mixSet.RangedOn c := h.of_registers rfl
  have hset := hmix.toneSet.dlySet
  unfold State.blockSetup
  dsimp only
  split
  · exact hset.of_registers rfl
  · exact hset.of_registers rfl

theorem State.RangedOn.ctlBound (h : s.RangedOn c) : s.ctlBound.RangedOn c := by
  unfold State.ctlBound
  split
  · exact h.of_registers (State.fatal_rangedRegisters _ s)
  · have hmodel := h.takeSnapshot.of_registers (State.modelReload_rangedRegisters _)
    refine (hmodel.unlessHalted fun t ht => ?_).unlessHalted fun t ht => ?_
    · exact ht.of_registers (State.irReload_rangedRegisters t)
    · exact (ht.of_registers (State.bypassToggle_rangedRegisters t)).blockSetup

theorem State.RangedOn.forSamples (h : s.RangedOn c) {body : Nat → State → State}
    (hb : ∀ (i : Nat) (t : State), t.RangedOn c → (body i t).RangedOn c) :
    (State.forSamples body s).RangedOn c :=
  State.forSamples_keeps (fun t => t.RangedOn c) body s h (fun _ _ ht => ht.of_registers rfl)
    (fun t i _ ht => hb i t ht)

theorem State.RangedOn.postSample (h : s.RangedOn c) (n : Nat) : (s.postSample n).RangedOn c := by
  have htone : (s.toneProc n).RangedOn c := h.of_registers rfl
  have hrev := (htone.dlyProc n).of_registers (State.revProc_rangedRegisters n _)
  exact hrev.of_registers rfl

theorem State.RangedOn.activeBlock (h : s.RangedOn c) : s.activeBlock.RangedOn c := by
  have hpre : (State.forSamples State.ctlPre s).RangedOn c :=
    h.forSamples fun _ _ ht => ht.of_registers rfl
  have hnn : (State.forSamples State.nnFwd (State.forSamples State.ctlPre s)).RangedOn c :=
    hpre.forSamples fun _ _ ht => ht.of_registers rfl
  have hconv : (State.forSamples State.nnFwd (State.forSamples State.ctlPre s)).convBlock.RangedOn c :=
    hnn.of_registers (by simp [State.convBlock, State.rangedRegisters])
  exact hconv.forSamples fun i _ ht => ht.postSample i

theorem State.RangedOn.bypassedBlock (h : s.RangedOn c) : s.bypassedBlock.RangedOn c :=
  h.forSamples fun _ _ ht => ht.of_registers rfl

/-! ### Commands and events -/

theorem State.RangedOn.of_next (ht : (.next s : Result) = .next t) (h : s.RangedOn c) : t.RangedOn c :=
  Host.Outcome.next.inj ht ▸ h

theorem State.RangedOn.of_inSpace {ok : Bool} (ht : inSpace ok s = .next t) (h : s.RangedOn c) :
    t.RangedOn c := by
  obtain ⟨-, rfl⟩ := inSpace_next ht
  exact h

theorem State.RangedOn.ctlBlock (h : s.RangedOn c) (ht : s.ctlBlock = .next t) : t.RangedOn c := by
  have hb := h.ctlBound
  unfold State.ctlBlock at ht
  dsimp only at ht
  split at ht
  · exact .of_next ht hb
  · split at ht
    · exact .of_inSpace ht hb.activeBlock
    · exact .of_next ht hb.bypassedBlock

/-- The effect of every command keeps the invariant. -/
theorem State.RangedOn.effect (h : s.RangedOn c) {i : Instr} (ht : Machine.effect i s = .next t) :
    t.RangedOn c := by
  cases i with
  | ctlBound => exact .of_next ht h.ctlBound
  | ctlPre n => exact .of_next ht (h.of_registers rfl)
  | ctlByp n => exact .of_next ht (h.of_registers rfl)
  | ctlBlock => exact h.ctlBlock ht
  | fftBrev => exact .of_next ht (h.of_registers rfl)
  | fftBfly inv st q => exact .of_next ht (h.of_registers rfl)
  | fftFwd => exact .of_next ht (h.of_registers rfl)
  | fftInv => exact .of_next ht (h.of_registers rfl)
  | convInit idx => exact .of_next ht (h.of_registers (State.convInit_rangedRegisters idx s))
  | convClear => exact .of_next ht (h.of_registers rfl)
  | convBlock =>
    refine .of_inSpace ht (h.of_registers ?_)
    simp [State.convBlock, State.rangedRegisters]
  | convFrame => exact .of_next ht (h.of_registers rfl)
  | convPush => exact .of_inSpace ht (h.of_registers rfl)
  | convMac => exact .of_inSpace ht (h.of_registers rfl)
  | convOut => exact .of_inSpace ht (h.of_registers rfl)
  | nnLoad idx => exact .of_next ht (h.of_registers (State.nnLoad_rangedRegisters idx s))
  | nnReset => exact .of_next ht (h.of_registers rfl)
  | nnFwd n => exact .of_next ht (h.of_registers rfl)
  | toneSet => exact .of_next ht h.toneSet
  | toneProc n => exact .of_next ht (h.of_registers rfl)
  | dlySet => exact .of_next ht h.dlySet
  | dlyProc n => exact .of_inSpace ht (h.dlyProc n.toNat)
  | revRoom => exact .of_next ht (h.of_registers rfl)
  | revDecay => exact .of_next ht (h.of_registers rfl)
  | revProc n => exact .of_inSpace ht (h.of_registers (State.revProc_rangedRegisters n.toNat s))
  | mixSet => exact .of_next ht (h.of_registers rfl)
  | mixProc n => exact .of_next ht (h.of_registers rfl)

theorem State.RangedOn.issue (h : s.RangedOn c) {legal : Bool} {f : State → Result}
    (hf : f s = .next t → t.RangedOn c) (ht : Machine.issue legal f s = .next t) : t.RangedOn c := by
  obtain ⟨-, rfl⟩ | ⟨-, -, he⟩ | ⟨-, -, rfl⟩ := issue_next ht
  · exact h
  · exact hf he
  · exact h.of_registers (State.fatal_rangedRegisters _ s)

theorem State.RangedOn.runWord (h : s.RangedOn c) {w : BitVec 32} (ht : Machine.runWord w s = .next t) :
    t.RangedOn c := by
  obtain ⟨-, ⟨i, -, he⟩ | ⟨_, -, he⟩⟩ := runWord_next ht
  · exact h.issue (fun hi => h.effect hi) (exec_eq_issue i s ▸ he)
  · exact h.issue (fun hn => .of_next hn h) he

theorem State.RangedOn.boot (h : s.RangedOn c) : s.boot.RangedOn c := by
  have hload := h.of_registers (State.nnLoad_rangedRegisters 0 s)
  have hreset := hload.unlessHalted fun t ht => ht.of_registers (t := t.nnReset) rfl
  have hconv := hreset.unlessHalted fun t ht => ht.of_registers (State.convInit_rangedRegisters 0 t)
  refine hconv.unlessHalted fun t ht => ?_
  have hroom : t.revRoom.revDecay.mixSet.RangedOn c := ht.of_registers rfl
  exact hroom.toneSet.dlySet

theorem State.RangedOn.resetEvent (h : s.RangedOn c) : s.resetEvent.RangedOn c := by
  have hboot := (State.RangedOn.cold h.cfgOk h.ranges).boot
  unfold State.resetEvent
  rw [h.cfgEq]
  generalize (State.cold c).boot = u at hboot
  exact hboot.of_registers rfl

theorem State.portWrite_rangedRegisters (addr width : Nat) (w : BitVec 32) (s : State) :
    (s.portWrite addr width w).rangedRegisters = s.rangedRegisters := by
  rw [State.portWrite_frame]
  rfl

theorem State.endBlock_rangedRegisters (s : State) : s.endBlock.rangedRegisters = s.rangedRegisters := by
  unfold State.endBlock
  dsimp only
  split <;> rfl

theorem State.RangedOn.tick (h : s.RangedOn c) {block : List (BitVec 32)} (ht : s.tick block = .next t) :
    t.RangedOn c := by
  obtain ⟨-, rfl⟩ | ⟨-, u, hu, rfl⟩ := State.tick_next ht
  · exact h.of_registers rfl
  · have hstart : (s.beginBlock block).RangedOn c := h.of_registers rfl
    exact (hstart.ctlBlock hu).of_registers (State.endBlock_rangedRegisters u)

theorem State.RangedOn.runEvent (h : s.RangedOn c) {e : Event} (ht : Machine.runEvent e s = .next t) :
    t.RangedOn c := by
  cases e with
  | reset => exact .of_next ht h.resetEvent
  | tick block =>
    rw [Machine.runEvent] at ht
    split at ht
    · cases ht
    · exact h.tick ht
  | portWrite addr width w => exact .of_next ht (h.of_registers (State.portWrite_rangedRegisters _ _ _ s))
  | portRead addr width => exact .of_next ht (h.of_registers rfl)
  | command w => exact h.runWord ht

theorem State.RangedOn.step (h : s.RangedOn c) (ht : Machine.step s = .next t) : t.RangedOn c := by
  obtain ⟨-, ⟨-, rfl⟩ | ⟨e, rest, -, he⟩⟩ := step_next ht
  · exact h
  · have hrest : State.RangedOn c { s with inbox := rest } := h.of_registers rfl
    exact hrest.runEvent he

end

/-- Settles O57: `State.RangedOn` of the chip's own configuration is the invariant, and it is kept by every
step. -/
theorem activeBankStaysInRange : Obligations.ActiveBankStaysInRange := by
  intro s t hr hbank hdelay ht
  obtain ⟨hw, -⟩ := step_next ht
  have hs : s.RangedOn s.cfg := ⟨hw, hr, rfl, hbank, hdelay.cur, hdelay.tgt, hdelay.t2⟩
  have hnext := hs.step ht
  exact ⟨hnext.cfgEq, hnext.bankInv, hnext.delayInv⟩

end Sys2Proof.Machine
end

section
/-! The reset state is the booted machine (10_state.md R54; 70_reset_and_hazards.md R350, R357).

The default configuration has a blank ROM (log 2), so the boot sequence loads blank tables. What this turns
on is that every transform of a blank buffer is blank in `NUM_F32`: the products of a butterfly are zeros
of either sign, and a sum or a difference that starts from `+0` is `+0`, because the twiddle factors are
finite. -/

namespace Sys2Proof.Machine.F32

/-! ### The twiddle factors of `NUM_F32` are finite -/

theorem altSeries_le (fuel i t x2 : Nat) : altSeries fuel i t x2 ≤ t := by
  cases fuel with
  | zero => exact Nat.zero_le t
  | succ fuel => exact Nat.sub_le t _

/-- The series of the sine and the cosine stay below `7`, scaled. -/
theorem cosScaled_le (N k : Nat) : cosScaled N k ≤ 7 * trigScale := by
  unfold cosScaled trigSmall
  dsimp only
  split
  · exact (altSeries_le _ _ _ _).trans (Nat.le_mul_of_pos_left _ (by decide))
  · calc altSeries 40 1 (trigPi * 2 * (N / 4 - k) / N) _
      _ ≤ trigPi * 2 * (N / 4 - k) / N := altSeries_le _ _ _ _
      _ ≤ trigPi * 2 * N / N := Nat.div_le_div_right (Nat.mul_le_mul_left _ (by omega))
      _ ≤ trigPi * 2 := Nat.div_le_of_le_mul (Nat.mul_comm _ _).le
      _ ≤ 7 * trigScale := by decide

theorem finite_ofTrig (s : Bool) (N k : Nat) : finite (ofTrig s N k) = true :=
  finite_pack_roundMag s (by decide) (by have := cosScaled_le N k; omega)

theorem finite_twiddleTable (N k : Nat) :
    finite (twiddleTable one negOne ofTrig N k).re = true
      ∧ finite (twiddleTable one negOne ofTrig N k).im = true := by
  unfold twiddleTable
  split
  · decide
  · split
    · decide
    · split
      · exact ⟨finite_ofTrig _ _ _, finite_ofTrig _ _ _⟩
      · exact ⟨finite_ofTrig _ _ _, finite_ofTrig _ _ _⟩

/-! ### A butterfly on zeros -/

theorem mul_zero_left {a : Num32} (h : finite a = true) : mul zero a = pack (sign a) 0 := by
  rw [mul_finite (by decide) h, show mag zero = 0 by decide, Nat.zero_mul, roundMag_zero,
    show sign zero = false by decide, Bool.false_xor]

/-- From `+0`, adding or subtracting the sum or the difference of two zeros gives `+0`. -/
theorem zero_add_sub_zeros : ∀ s u : Bool,
    add zero (sub (pack s 0) (pack u 0)) = zero ∧ sub zero (sub (pack s 0) (pack u 0)) = zero
      ∧ add zero (add (pack s 0) (pack u 0)) = zero ∧ sub zero (add (pack s 0) (pack u 0)) = zero := by
  decide +kernel

end Sys2Proof.Machine.F32

namespace Sys2Proof

/-! ### Blank memories -/

section

open Machine

variable {α : Type} [Inhabited α] [DecidableEq α]

theorem Memory.ofWords_blank {ws : List α} (h : ∀ v ∈ ws, v = silence) (base : Nat) :
    Memory.ofWords base ws = [] := by
  induction ws generalizing base with
  | nil => rfl
  | cons v ws ih =>
    rw [Memory.ofWords, if_pos (h v (by simp))]
    exact ih (fun u hu => h u (by simp [hu])) _

theorem Memory.tabulate_blank (n : Nat) {f : Nat → α} (h : ∀ i, f i = silence) :
    Memory.tabulate n f = [] :=
  Memory.ofWords_blank (fun v hv => by
    obtain ⟨i, -, rfl⟩ := List.mem_map.1 hv
    exact h i) 0

theorem Memory.tabulateC_blank (n : Nat) {f : Nat → Cplx α} (h : ∀ k, f k = czero) :
    Memory.tabulateC n f = [] :=
  Memory.ofWords_blank (fun v hv => by
    obtain ⟨k, -, hv⟩ := List.mem_flatMap.1 hv
    simpa [h k, cplxWords, czero] using hv) 0

theorem Memory.writeBlock_blank {ws : List α} (h : ∀ v ∈ ws, v = silence) (base : Nat) :
    Memory.writeBlock ([] : Memory α) base ws = [] := by
  rw [Memory.writeBlock, Memory.ofWords_blank h]
  rfl

theorem Memory.writeC_blank (k : Nat) : Memory.writeC ([] : Memory α) k czero = [] :=
  Memory.writeBlock_blank (by simp [cplxWords, czero]) _

end

end Sys2Proof

namespace Sys2Proof.Machine

/-! ### The transform of a blank buffer -/

section

variable {c : Cfg}

theorem bitReverseZ_blank (c : Cfg) : bitReverseZ c ([] : Memory NumWord) = [] :=
  Memory.tabulateC_blank c.N (f := fun i => Memory.readC [] (bitRev c.M i)) fun _ => rfl

theorem finite_bflyFactor (hk : c.NUM = .f32) (inv : Bool) (st q : Nat) :
    F32.finite (F32.pattern (bflyFactor c.arith c inv st q).re) = true
      ∧ F32.finite (F32.pattern (bflyFactor c.arith c inv st q).im) = true := by
  obtain ⟨hre, him⟩ := F32.finite_twiddleTable c.N (bflyTwiddle c.N st q)
  rw [arith_f32 hk]
  cases inv
  · simpa [bflyFactor, NUM.onWords, NUM_F32, Cplx.map] using ⟨hre, him⟩
  · simpa [bflyFactor, NUM.conj, NUM.onWords, NUM_F32, Cplx.map, F32.finite_neg] using ⟨hre, him⟩

theorem butterflyZ_blank (hk : c.NUM = .f32) (inv : Bool) (st q : Nat) :
    butterflyZ c.arith c inv st q [] = [] := by
  obtain ⟨hre, him⟩ := finite_bflyFactor hk inv st q
  generalize hw : bflyFactor c.arith c inv st q = w at hre him
  have hzero : F32.pattern 0 = F32.zero := by decide
  have hword : F32.word F32.zero = (silence : NumWord) := by decide
  have hprod : ∀ {a : NumWord}, F32.finite (F32.pattern a) = true →
      F32.mul F32.zero (F32.pattern a) = F32.pack (F32.sign (F32.pattern a)) 0 := F32.mul_zero_left
  obtain ⟨hadd, hsub, -, -⟩ :=
    F32.zero_add_sub_zeros (F32.sign (F32.pattern w.re)) (F32.sign (F32.pattern w.im))
  obtain ⟨-, -, hadd', hsub'⟩ :=
    F32.zero_add_sub_zeros (F32.sign (F32.pattern w.im)) (F32.sign (F32.pattern w.re))
  have htop : c.arith.cadd czero (c.arith.cmul czero w) = czero := by
    rw [arith_f32 hk]
    simp [NUM.cadd, NUM.cmul, NUM.onWords, NUM_F32, czero, hzero, hprod hre, hprod him, hadd, hadd', hword]
  have hbottom : c.arith.csub czero (c.arith.cmul czero w) = czero := by
    rw [arith_f32 hk]
    simp [NUM.csub, NUM.cmul, NUM.onWords, NUM_F32, czero, hzero, hprod hre, hprod him, hsub, hsub', hword]
  have hread : ∀ k, Memory.readC ([] : Memory NumWord) k = czero := fun _ => rfl
  unfold butterflyZ
  simp only [hread, hw, htop, hbottom, Memory.writeC_blank]

theorem transformZ_blank (hk : c.NUM = .f32) (inv : Bool) : transformZ c.arith c inv [] = [] :=
  transformZ_keeps (· = []) c.arith c inv [] (bitReverseZ_blank c)
    (fun _ st q _ _ _ hm => hm ▸ butterflyZ_blank hk inv st q)

/-! ### Blank tables -/

theorem partitionSpectrum_blank (hk : c.NUM = .f32) (p : Nat) :
    partitionSpectrum c.arith c ([] : List NumWord) p = [] := by
  have hframe : partitionFrame c ([] : List NumWord) p = [] :=
    Memory.tabulateC_blank c.N (f := fun m => ⟨irWord c [] p m, silence⟩) fun m => by
      simp [irWord, czero]
  rw [partitionSpectrum, hframe, transformZ_blank hk]

theorem storeRow_blank (c : Cfg) (p : Nat) : storeRow c ([] : Memory NumWord) p [] = [] :=
  Memory.writeBlock_blank (fun v hv => by
    obtain ⟨i, -, rfl⟩ := List.mem_map.1 hv
    rfl) _

/-- Before the boot sequence, a model of zeros is what the weights hold. -/
theorem State.nnLoad_cold (hw : c.wf = true) (hm : c.model 0 = []) :
    (State.cold c).nnLoad 0 = State.cold c := by
  obtain ⟨hrow, -⟩ := Cfg.tables_nonempty_of_wf hw
  have hweights : Memory.tabulate modelWords (Memory.read ([] : Memory NumWord)) = [] :=
    Memory.tabulate_blank _ fun _ => rfl
  have hidx : ¬ (State.cold c).cfg.NMODEL ≤ (0 : BitVec 24).toNat := by
    show ¬ c.NMODEL ≤ 0
    omega
  have hmodel : (State.cold c).cfg.model (0 : BitVec 24).toNat = [] := hm
  rw [State.nnLoad, if_neg hidx, hmodel, hweights]
  rfl

/-- Before the boot sequence, the one blank partition of an empty impulse response is what `PART` and `Z`
hold. -/
theorem State.convInit_cold (hw : c.wf = true) (hk : c.NUM = .f32) (hir : c.ir 0 = []) :
    (State.cold c).convInit 0 = State.cold c := by
  obtain ⟨hL, hK, -, -⟩ := Cfg.sizes_of_wf hw
  obtain ⟨-, hrow⟩ := Cfg.tables_nonempty_of_wf hw
  have hcount : partitionCount c 0 = 1 := by
    have hdiv : (0 + c.L - 1) / c.L = 0 := Nat.div_eq_of_lt (by omega)
    rw [partitionCount, hdiv]
    rfl
  have hload : (State.cold c).loadPartition [] 0 = State.cold c := by
    show { State.cold c with
      Z := partitionSpectrum c.arith c [] 0
      PART := storeRow c [] 0 (partitionSpectrum c.arith c [] 0) } = _
    rw [partitionSpectrum_blank hk, storeRow_blank]
    rfl
  have hidx : ¬ (State.cold c).cfg.NIR ≤ (0 : BitVec 24).toNat := by
    show ¬ c.NIR ≤ 0
    omega
  have hrow0 : (State.cold c).cfg.ir (0 : BitVec 24).toNat = [] := hir
  have hcount' : partitionCount (State.cold c).cfg ([] : List NumWord).length = 1 := hcount
  have hfit : ¬ (State.cold c).cfg.KMAX < 1 := not_lt.2 hK
  rw [State.convInit, if_neg hidx, hrow0]
  dsimp only
  rw [hcount', if_neg hfit]
  have hloads : (List.range 1).foldl (fun t p => t.loadPartition [] p) { State.cold c with K := 1 }
      = State.cold c := hload
  rw [hloads]
  rfl

end

/-! ### The boot sequence -/

theorem execAll_cons_of_legal {i : Instr} {is : List Instr} {s t : State} (h : s.PHASE ≠ .halt)
    (hi : i.wf s.cfg = true) (he : effect i s = .next t) : execAll (i :: is) s = execAll is t :=
  execAll_cons i is s t (by rw [exec_eq_issue, hi, issue_of_legal h, he])

/-- The boot sequence, where the loads leave the machine as it was. -/
theorem execAll_bootSequence {s : State} (h : s.PHASE ≠ .halt) (hload : s.nnLoad 0 = s)
    (hreset : s.nnReset = s) (hinit : s.convInit 0 = s) :
    execAll bootSequence s = .next s.revRoom.revDecay.mixSet.toneSet.dlySet := by
  have hroom : s.revRoom.PHASE ≠ .halt := h
  have hdecay : s.revRoom.revDecay.PHASE ≠ .halt := h
  have hmix : s.revRoom.revDecay.mixSet.PHASE ≠ .halt := h
  have htone : s.revRoom.revDecay.mixSet.toneSet.PHASE ≠ .halt := by simpa using h
  rw [bootSequence, execAll_cons_of_legal h rfl (congrArg _ hload),
    execAll_cons_of_legal h rfl (congrArg _ hreset), execAll_cons_of_legal h rfl (congrArg _ hinit),
    execAll_cons_of_legal h rfl rfl, execAll_cons_of_legal hroom rfl rfl,
    execAll_cons_of_legal hdecay rfl rfl, execAll_cons_of_legal hmix rfl rfl,
    execAll_cons_of_legal htone rfl rfl, execAll_nil]

theorem default_wf : Config.default.wf = true := by decide +kernel

/-- The values that the setup computes from the reset values of the default configuration. -/
theorem setup_cold_default :
    (State.cold Config.default).revRoom.revDecay.mixSet.toneSet.dlySet = State.reset := by
  decide +kernel

/-- Settles O51: on the blank ROM the loads change nothing, and the setup gives the values listed. -/
theorem resetStateValues : Obligations.ResetStateValues := by
  have hboot : execAll bootSequence (State.cold Config.default) = .next State.reset := by
    rw [execAll_bootSequence (by decide) (State.nnLoad_cold default_wf rfl) rfl
      (State.convInit_cold default_wf rfl rfl), setup_cold_default]
  refine ⟨hboot, ?_⟩
  decide +kernel

end Sys2Proof.Machine
end

section
/-! `CTL.BLOCK` as an equation for each branch of the block schedule (47_control.md R283). -/

namespace Sys2Proof.Machine

variable {s : State}

/-- A fatal fault of the boundary ends the command there. -/
theorem State.ctlBlock_of_halt (hp : s.ctlBound.PHASE = .halt) : s.ctlBlock = .next s.ctlBound :=
  if_pos hp

/-- The active branch runs if every index register it uses is in range. -/
theorem State.ctlBlock_of_active (hp : s.ctlBound.PHASE ≠ .halt) (hc : s.ctlBound.CHAIN = .active) :
    s.ctlBlock = inSpace s.ctlBound.chainInRange s.ctlBound.activeBlock := by
  simp [State.ctlBlock, hp, hc]

/-- The bypassed branch uses no index register. -/
theorem State.ctlBlock_of_bypassed (hp : s.ctlBound.PHASE ≠ .halt)
    (hc : s.ctlBound.CHAIN = .bypassed) : s.ctlBlock = .next s.ctlBound.bypassedBlock := by
  simp [State.ctlBlock, hp, hc]

/-- Everything `CTL.BLOCK` can do when it answers a next state. -/
theorem State.ctlBlock_next {t : State} (h : s.ctlBlock = .next t) :
    t = s.ctlBound ∨ (s.ctlBound.chainInRange = true ∧ t = s.ctlBound.activeBlock)
      ∨ t = s.ctlBound.bypassedBlock := by
  by_cases hp : s.ctlBound.PHASE = .halt
  · rw [State.ctlBlock_of_halt hp] at h
    exact .inl (Host.Outcome.next.inj h).symm
  · cases hc : s.ctlBound.CHAIN with
    | active =>
      rw [State.ctlBlock_of_active hp hc] at h
      exact .inr (.inl (inSpace_next h))
    | bypassed =>
      rw [State.ctlBlock_of_bypassed hp hc] at h
      exact .inr (.inr (Host.Outcome.next.inj h).symm)

end Sys2Proof.Machine
end

section
/-! No command reads the shadow bank (20_memory.md R86; 70_reset_and_hazards.md R363).

A function of the state that ignores the shadow bank commutes with replacing it. This passes through
composition, case distinctions on other registers, the guard after a fatal fault and the per-sample
passes, so each command's effect ignores the bank as its parts do. -/

namespace Sys2Proof.Machine

/-- The state with the shadow bank replaced. -/
def State.withShadow (p : Params) (s : State) : State := { s with S := p }

/-- The next state of `f` is the same, but for the shadow bank, whatever that bank holds. -/
def IgnoresShadow (f : State → State) : Prop := ∀ p s, f (s.withShadow p) = (f s).withShadow p

/-- The outcome of `f` is the same, but for the shadow bank, whatever that bank holds. -/
def OutcomeIgnoresShadow (f : State → Result) : Prop :=
  ∀ p s, f (s.withShadow p) = mapNext (State.withShadow p) (f s)

/-! ### How functions of the state are put together -/

section

variable {f g : State → State}

theorem IgnoresShadow.comp (hg : IgnoresShadow g) (hf : IgnoresShadow f) :
    IgnoresShadow (fun s => g (f s)) := fun p s =>
  (congrArg g (hf p s)).trans (hg p (f s))

/-- A case distinction on registers other than the shadow bank. -/
theorem IgnoresShadow.ite {b : State → Prop} [∀ s, Decidable (b s)]
    (hb : ∀ p s, b (s.withShadow p) ↔ b s) (hf : IgnoresShadow f) (hg : IgnoresShadow g) :
    IgnoresShadow (fun s => if b s then f s else g s) := fun p s => by
  rw [apply_ite (State.withShadow p)]
  exact if_congr (hb p s) (hf p s) (hg p s)

theorem IgnoresShadow.unlessHalted (hf : IgnoresShadow f) : IgnoresShadow (State.unlessHalted f) :=
  .ite (b := fun s => s.PHASE = .halt) (fun _ _ => Iff.rfl) (fun _ _ => rfl) hf

theorem IgnoresShadow.forSamples {body : Nat → State → State} (hb : ∀ n, IgnoresShadow (body n)) :
    IgnoresShadow (State.forSamples body) := fun p s => by
  have hloop := List.foldl_hom (l := List.range s.cfg.L) (init := s) (State.withShadow p)
    (g₁ := fun t i => body i { t with n := i }) (g₂ := fun t i => body i { t with n := i })
    (fun t i => hb i p { t with n := i })
  exact congrArg (fun t : State => { t with n := 0 }) hloop

theorem OutcomeIgnoresShadow.next (hf : IgnoresShadow f) : OutcomeIgnoresShadow (fun s => .next (f s)) :=
  fun p s => congrArg Host.Outcome.next (hf p s)

/-- A range check on registers other than the shadow bank. -/
theorem OutcomeIgnoresShadow.inSpace {ok : State → Bool} (hok : ∀ p s, ok (s.withShadow p) = ok s)
    (hf : IgnoresShadow f) : OutcomeIgnoresShadow (fun s => inSpace (ok s) (f s)) := fun p s => by
  dsimp only
  rw [hok p s, hf p s]
  cases ok s <;> rfl

end

/-! ### The loads -/

theorem ignoresShadow_fatal (cause : FaultCause) : IgnoresShadow (fun s => s.fatal cause) :=
  fun p s => by cases cause <;> rfl

theorem ignoresShadow_nnLoad (idx : BitVec 24) : IgnoresShadow (State.nnLoad idx) :=
  .ite (b := fun s => s.cfg.NMODEL ≤ idx.toNat) (fun _ _ => Iff.rfl) (ignoresShadow_fatal _)
    (fun _ _ => rfl)

/-- The partitions are loaded one after another, each without the shadow bank. -/
theorem loadPartitions_withShadow (ir : List NumWord) (ps : List Nat) (p : Params) (s : State) :
    ps.foldl (fun t q => t.loadPartition ir q) (s.withShadow p)
      = (ps.foldl (fun t q => t.loadPartition ir q) s).withShadow p :=
  List.foldl_hom (State.withShadow p) (fun _ _ => rfl)

theorem ignoresShadow_convInit (idx : BitVec 24) : IgnoresShadow (State.convInit idx) := by
  have hload : IgnoresShadow fun s =>
      let ir := s.cfg.ir idx.toNat
      let k := partitionCount s.cfg ir.length
      let t := (List.range k).foldl (fun t q => t.loadPartition ir q) { s with K := k }
      { t.convClear with CURI := idx } := fun p s =>
    congrArg (fun t : State => { t.convClear with CURI := idx })
      (loadPartitions_withShadow (s.cfg.ir idx.toNat)
        (List.range (partitionCount s.cfg (s.cfg.ir idx.toNat).length)) p
        { s with K := partitionCount s.cfg (s.cfg.ir idx.toNat).length })
  exact .ite (b := fun s => s.cfg.NIR ≤ idx.toNat) (fun _ _ => Iff.rfl) (ignoresShadow_fatal _)
    (.ite (b := fun s => s.cfg.KMAX < partitionCount s.cfg (s.cfg.ir idx.toNat).length)
      (fun _ _ => Iff.rfl) (ignoresShadow_fatal _) hload)

/-! ### The boundary -/

theorem ignoresShadow_takeSnapshot : IgnoresShadow State.takeSnapshot :=
  .ite (b := fun s => s.MV = true) (fun _ _ => Iff.rfl) (fun _ _ => rfl) (fun _ _ => rfl)

theorem ignoresShadow_switchModel : IgnoresShadow State.switchModel := by
  have hload : IgnoresShadow fun s => (s.nnLoad (s.RQM.idx.setWidth 24)).nnReset := fun p s =>
    congrArg State.nnReset (ignoresShadow_nnLoad (s.RQM.idx.setWidth 24) p s)
  exact .ite (b := fun s => s.cfg.NMODEL ≤ s.RQM.idx.toNat) (fun _ _ => Iff.rfl) (ignoresShadow_fatal _)
    (.ite (b := fun s => s.RQM.idx ≠ s.CURM.setWidth 32) (fun _ _ => Iff.rfl) hload (fun _ _ => rfl))

theorem ignoresShadow_modelReload : IgnoresShadow State.modelReload := by
  have hserve : IgnoresShadow fun s =>
      { s with readyM := s.readyM.tail, RQM := ⟨false, s.RQM.idx⟩ }.switchModel :=
    ignoresShadow_switchModel.comp (fun _ _ => rfl)
  exact .ite (b := fun s => s.RQM.pend = true) (fun _ _ => Iff.rfl)
    (.ite (b := fun s => s.readyM.headD true = true) (fun _ _ => Iff.rfl) hserve (fun _ _ => rfl))
    (fun _ _ => rfl)

theorem ignoresShadow_switchIr : IgnoresShadow State.switchIr := by
  have hload : IgnoresShadow fun s => s.convInit (s.RQI.idx.setWidth 24) := fun p s =>
    ignoresShadow_convInit (s.RQI.idx.setWidth 24) p s
  exact .ite (b := fun s => s.cfg.NIR ≤ s.RQI.idx.toNat) (fun _ _ => Iff.rfl) (ignoresShadow_fatal _)
    (.ite (b := fun s => s.RQI.idx ≠ s.CURI.setWidth 32) (fun _ _ => Iff.rfl) hload (fun _ _ => rfl))

theorem ignoresShadow_irReload : IgnoresShadow State.irReload := by
  have hserve : IgnoresShadow fun s =>
      { s with readyI := s.readyI.tail, RQI := ⟨false, s.RQI.idx⟩ }.switchIr :=
    ignoresShadow_switchIr.comp (fun _ _ => rfl)
  exact .ite (b := fun s => s.RQI.pend = true) (fun _ _ => Iff.rfl)
    (.ite (b := fun s => s.readyI.headD true = true) (fun _ _ => Iff.rfl) hserve (fun _ _ => rfl))
    (fun _ _ => rfl)

theorem ignoresShadow_bypassToggle : IgnoresShadow State.bypassToggle := by
  refine .ite (b := fun s => s.RQB = true) (fun _ _ => Iff.rfl) (fun p s => ?_) (fun _ _ => rfl)
  show (match s.CHAIN with | .bypassed => _ | .active => _) = _
  cases s.CHAIN <;> rfl

theorem ignoresShadow_toneSet : IgnoresShadow State.toneSet :=
  .ite (b := fun s => s.cfg.arith.le s.A.TONE (s.cfg.arith.const s.cfg.TONE_MID) = true)
    (fun _ _ => Iff.rfl) (fun _ _ => rfl) (fun _ _ => rfl)

theorem ignoresShadow_blockSetup : IgnoresShadow State.blockSetup := by
  have hset : IgnoresShadow fun s => s.mixSet.toneSet.dlySet := fun p s =>
    congrArg State.dlySet (ignoresShadow_toneSet p s.mixSet)
  have hroom : IgnoresShadow fun t => (if t.roomChanged then t.revRoom else t).revDecay :=
    IgnoresShadow.comp (g := State.revDecay) (fun _ _ => rfl)
      (.ite (b := fun t => t.roomChanged = true) (fun _ _ => Iff.rfl) (fun _ _ => rfl) (fun _ _ => rfl))
  exact hroom.comp hset

theorem ignoresShadow_ctlBound : IgnoresShadow State.ctlBound := by
  have hreload : IgnoresShadow fun s => State.unlessHalted State.irReload s.takeSnapshot.modelReload :=
    ignoresShadow_irReload.unlessHalted.comp
      (ignoresShadow_modelReload.comp ignoresShadow_takeSnapshot)
  have hsetup : IgnoresShadow fun s => s.bypassToggle.blockSetup :=
    ignoresShadow_blockSetup.comp ignoresShadow_bypassToggle
  exact .ite (b := fun s => s.blen ≠ s.cfg.L) (fun _ _ => Iff.rfl) (ignoresShadow_fatal _)
    (hsetup.unlessHalted.comp hreload)

/-! ### The block schedule -/

theorem ignoresShadow_revProc (n : Nat) : IgnoresShadow (State.revProc n) :=
  .ite (b := fun s => s.A.revEn = true) (fun _ _ => Iff.rfl) (fun _ _ => rfl) (fun _ _ => rfl)

theorem ignoresShadow_postSample (n : Nat) : IgnoresShadow (State.postSample n) :=
  IgnoresShadow.comp (g := State.mixProc n) (fun _ _ => rfl)
    ((ignoresShadow_revProc n).comp (f := fun s => State.dlyProc n (State.toneProc n s))
      (fun _ _ => rfl))

theorem ignoresShadow_activeBlock : IgnoresShadow State.activeBlock := by
  have hpre : IgnoresShadow (State.forSamples State.ctlPre) := .forSamples fun _ _ _ => rfl
  have hnn : IgnoresShadow (State.forSamples State.nnFwd) := .forSamples fun _ _ _ => rfl
  have hconv : IgnoresShadow State.convBlock := fun _ _ => rfl
  exact (IgnoresShadow.forSamples ignoresShadow_postSample).comp (hconv.comp (hnn.comp hpre))

theorem ignoresShadow_bypassedBlock : IgnoresShadow State.bypassedBlock :=
  .forSamples fun _ _ _ => rfl

theorem outcomeIgnoresShadow_ctlBlock : OutcomeIgnoresShadow State.ctlBlock := fun p s => by
  have hb := ignoresShadow_ctlBound p s
  by_cases hp : s.ctlBound.PHASE = .halt
  · rw [State.ctlBlock_of_halt hp, State.ctlBlock_of_halt (by rwa [hb]), hb, mapNext]
  · cases hc : s.ctlBound.CHAIN with
    | active =>
      rw [State.ctlBlock_of_active hp hc, State.ctlBlock_of_active (by rwa [hb]) (by rwa [hb]), hb]
      exact OutcomeIgnoresShadow.inSpace (ok := State.chainInRange) (fun _ _ => rfl)
        ignoresShadow_activeBlock p s.ctlBound
    | bypassed =>
      rw [State.ctlBlock_of_bypassed hp hc, State.ctlBlock_of_bypassed (by rwa [hb]) (by rwa [hb]), hb]
      exact OutcomeIgnoresShadow.next ignoresShadow_bypassedBlock p s.ctlBound

/-! ### Commands -/

theorem outcomeIgnoresShadow_effect (i : Instr) : OutcomeIgnoresShadow (effect i) := by
  cases i with
  | ctlBound => exact .next ignoresShadow_ctlBound
  | ctlPre n => exact fun _ _ => rfl
  | ctlByp n => exact fun _ _ => rfl
  | ctlBlock => exact outcomeIgnoresShadow_ctlBlock
  | fftBrev => exact fun _ _ => rfl
  | fftBfly inv st q => exact fun _ _ => rfl
  | fftFwd => exact fun _ _ => rfl
  | fftInv => exact fun _ _ => rfl
  | convInit idx => exact .next (ignoresShadow_convInit idx)
  | convClear => exact fun _ _ => rfl
  | convBlock => exact .inSpace (fun _ _ => rfl) (fun _ _ => rfl)
  | convFrame => exact fun _ _ => rfl
  | convPush => exact .inSpace (fun _ _ => rfl) (fun _ _ => rfl)
  | convMac => exact .inSpace (fun _ _ => rfl) (fun _ _ => rfl)
  | convOut => exact .inSpace (fun _ _ => rfl) (fun _ _ => rfl)
  | nnLoad idx => exact .next (ignoresShadow_nnLoad idx)
  | nnReset => exact fun _ _ => rfl
  | nnFwd n => exact fun _ _ => rfl
  | toneSet => exact .next ignoresShadow_toneSet
  | toneProc n => exact fun _ _ => rfl
  | dlySet => exact fun _ _ => rfl
  | dlyProc n => exact .inSpace (fun _ _ => rfl) (fun _ _ => rfl)
  | revRoom => exact fun _ _ => rfl
  | revDecay => exact fun _ _ => rfl
  | revProc n => exact .inSpace (fun _ _ => rfl) (ignoresShadow_revProc n.toNat)
  | mixSet => exact fun _ _ => rfl
  | mixProc n => exact fun _ _ => rfl

theorem OutcomeIgnoresShadow.issue {f : State → Result} (hf : OutcomeIgnoresShadow f) (legal : Bool) :
    OutcomeIgnoresShadow (Machine.issue legal f) := fun p s => by
  by_cases hp : s.PHASE = .halt
  · rw [issue_of_halt hp, issue_of_halt (s := s.withShadow p) hp, mapNext]
  · cases legal
    · rw [issue_of_illegal hp, issue_of_illegal (s := s.withShadow p) hp]
      rfl
    · rw [issue_of_legal hp, issue_of_legal (s := s.withShadow p) hp]
      exact hf p s

/-- Settles O53: the effect of every command ignores the shadow bank, and so does its issue. -/
theorem noCommandReadsShadow : Obligations.NoCommandReadsShadow := by
  intro i s p
  rw [exec_eq_issue, exec_eq_issue]
  exact (outcomeIgnoresShadow_effect i).issue (i.wf s.cfg) p s

end Sys2Proof.Machine
end

section
/-! Every step keeps every memory inside its space and in canonical form (20_memory.md R70; 10_state.md
R51; log 15).

`State.StoredOn c` is the invariant: the chip has the well-formed configuration `c` and every memory is in
canonical form and inside its space. A write at an index register stays inside its space because the
command has checked the register; inside the block schedule, where the check is made once for all samples,
`State.ActiveOn c` carries it along. -/

namespace Sys2Proof.Machine

/-! ### Memories that stay inside their space -/

section

variable {m : Memory NumWord} {size : Nat}

theorem goodMemory_nil (size : Nat) : goodMemory [] size := ⟨rfl, rfl⟩

theorem goodMemory_ofWords {ws : List NumWord} (h : ws.length ≤ size) :
    goodMemory (Memory.ofWords 0 ws) size :=
  ⟨Memory.wf_ofWords 0 ws, Memory.inSize_ofWords (by omega)⟩

theorem goodMemory_write (hm : goodMemory m size) {a : Nat} (ha : a < size) (v : NumWord) :
    goodMemory (m.write a v) size :=
  ⟨Memory.wf_write hm.1 a v, Memory.inSize_write hm.2 ha v⟩

theorem goodMemory_writeBlock (hm : goodMemory m size) {base : Nat} {ws : List NumWord}
    (h : base + ws.length ≤ size) : goodMemory (m.writeBlock base ws) size :=
  ⟨Memory.wf_writeBlock hm.1 base ws, Memory.inSize_writeBlock hm.2 h⟩

theorem goodMemory_writeC {n k : Nat} (hm : goodMemory m (2 * n)) (hk : k < n) (v : Cplx NumWord) :
    goodMemory (m.writeC k v) (2 * n) :=
  ⟨Memory.wf_writeC hm.1 k v, Memory.inSize_writeC hm.2 hk v⟩

theorem goodMemory_tabulate (n : Nat) (f : Nat → NumWord) : goodMemory (Memory.tabulate n f) n :=
  ⟨Memory.wf_tabulate n f, Memory.inSize_tabulate n f⟩

theorem goodMemory_tabulateC (n : Nat) (f : Nat → Cplx NumWord) :
    goodMemory (Memory.tabulateC n f) (2 * n) :=
  ⟨Memory.wf_tabulateC n f, Memory.inSize_tabulateC n f⟩

end

/-! ### The transform -/

/-- The transform length is a power of two (00_scope.md R7, R8). -/
theorem Cfg.N_eq_two_pow {c : Cfg} (h : c.wf = true) : c.N = 2 ^ c.M := by
  have hL : 1 ≤ c.L ∧ 2 ^ Nat.log2 c.L = c.L := by
    simp only [Cfg.wf, Cfg.sizesOk, Bool.and_eq_true, decide_eq_true_eq] at h
    tauto
  rw [Cfg.M, Cfg.N, Nat.log2_two_mul (by omega), Nat.pow_succ, hL.2, Nat.mul_comm]

/-- The lower index of a butterfly, the larger of the two, is an entry of the transform (40_fft.md
R134). -/
theorem bflyBottom_lt {M st q : Nat} (h1 : 1 ≤ st) (hM : st ≤ M) (hq : q < 2 ^ M / 2) :
    bflyBottom st q < 2 ^ M := by
  have hspan : bflySpan st = 2 * bflyHalf st := by
    rw [bflySpan, bflyHalf, ← Nat.pow_succ', Nat.succ_eq_add_one, Nat.sub_add_cancel h1]
  have hN : 2 ^ M = 2 ^ (M - st) * bflySpan st := by
    rw [bflySpan, ← Nat.pow_add, Nat.sub_add_cancel hM]
  have hhalf : 2 ^ M / 2 = bflyHalf st * 2 ^ (M - st) := by
    rw [hN, hspan, Nat.mul_left_comm, Nat.mul_div_cancel_left _ (by decide), Nat.mul_comm]
  have hgroup : q / bflyHalf st + 1 ≤ 2 ^ (M - st) :=
    Nat.div_lt_of_lt_mul (hhalf ▸ hq)
  have hj : q % bflyHalf st < bflyHalf st := Nat.mod_lt _ (bflyHalf_pos st)
  calc bflyBottom st q = q / bflyHalf st * bflySpan st + q % bflyHalf st + bflyHalf st := rfl
    _ < (q / bflyHalf st + 1) * bflySpan st := by rw [Nat.add_mul]; omega
    _ ≤ 2 ^ (M - st) * bflySpan st := Nat.mul_le_mul_right _ hgroup
    _ = 2 ^ M := hN.symm

section

variable {c : Cfg} {z : Memory NumWord}

theorem goodMemory_butterflyZ (hw : c.wf = true) {N : NUM NumWord} {inv : Bool} {st q : Nat}
    (h1 : 1 ≤ st) (hM : st ≤ c.M) (hq : q < c.N / 2) (hz : goodMemory z (2 * c.N)) :
    goodMemory (butterflyZ N c inv st q z) (2 * c.N) := by
  have hbottom : bflyBottom st q < c.N := by
    rw [Cfg.N_eq_two_pow hw] at hq ⊢
    exact bflyBottom_lt h1 hM hq
  have htop : bflyTop st q < c.N := lt_of_le_of_lt (Nat.le_add_right _ _) hbottom
  exact goodMemory_writeC (goodMemory_writeC hz htop _) hbottom _

/-- A transform overwrites the whole buffer: it is good whatever the buffer was. -/
theorem goodMemory_transformZ (hw : c.wf = true) (N : NUM NumWord) (inv : Bool) (z : Memory NumWord) :
    goodMemory (transformZ N c inv z) (2 * c.N) :=
  transformZ_keeps (fun m => goodMemory m (2 * c.N)) N c inv z (goodMemory_tabulateC _ _)
    (fun _ _ _ h1 hM hq hm => goodMemory_butterflyZ hw h1 hM hq hm)

/-- A row below `KMAX` is inside `PART` and `HIST`. -/
theorem goodMemory_storeRow {rows : Memory NumWord} {p : Nat} (hp : p < c.KMAX)
    (hr : goodMemory rows (c.KMAX * (2 * c.N))) (z : Memory NumWord) :
    goodMemory (storeRow c rows p z) (c.KMAX * (2 * c.N)) := by
  refine goodMemory_writeBlock hr ?_
  calc rowBase c p + (z.readBlock 0 (2 * c.N)).length = (p + 1) * (2 * c.N) := by
        rw [Memory.length_readBlock, rowBase]
        exact (Nat.succ_mul p _).symm
    _ ≤ c.KMAX * (2 * c.N) := Nat.mul_le_mul_right _ hp

end

/-! ### The invariant -/

/-- The chip has the well-formed configuration `c`, and every memory is in canonical form and inside its
space. -/
structure State.StoredOn (c : Cfg) (s : State) : Prop extends State.MemoryInv s where
  cfgOk : c.wf = true
  cfgEq : s.cfg = c

/-- The configuration and the memories, which `State.StoredOn` speaks of. -/
def State.memories (s : State) :=
  (s.cfg, s.X, s.W, s.OUTL, s.OUTR, s.Z, s.PART, s.HIST, s.OVL, s.WT, s.h, s.DBUF, s.REV)

section

variable {c : Cfg} {s t : State}

/-- An operation that leaves the memories as they are keeps the invariant. -/
theorem State.StoredOn.of_memories (h : s.StoredOn c) (e : t.memories = s.memories) : t.StoredOn c := by
  simp only [State.memories, Prod.mk.injEq] at e
  obtain ⟨cfg, x, w, outl, outr, z, part, hist, ovl, wt, hs, dbuf, rev⟩ := e
  obtain ⟨⟨h1, h2, h3, h4, h5, h6, h7, h8, h9, h10, h11, h12⟩, hw, hc⟩ := h
  refine ⟨⟨?_, ?_, ?_, ?_, ?_, ?_, ?_, ?_, ?_, ?_, ?_, ?_⟩, hw, cfg.trans hc⟩ <;>
    simpa only [cfg, x, w, outl, outr, z, part, hist, ovl, wt, hs, dbuf, rev]

theorem State.StoredOn.cold (hw : c.wf = true) : (State.cold c).StoredOn c :=
  ⟨State.cold_memoryInv c, hw, rfl⟩

/-! ### What each operation keeps -/

theorem State.StoredOn.silenceOut (h : s.StoredOn c) : s.silenceOut.StoredOn c :=
  { h with
    outl := goodMemory_nil _
    outr := goodMemory_nil _ }

theorem State.StoredOn.fatal (h : s.StoredOn c) (cause : FaultCause) : (s.fatal cause).StoredOn c := by
  cases cause with
  | illegalCommand => exact h.of_memories rfl
  | numericalFault | configurationMismatch | deadlineOverrun => exact h.silenceOut.of_memories rfl

theorem State.StoredOn.storeW (h : s.StoredOn c) {n : Nat} (hn : n < c.L) (ok : Bool) (v : NumWord) :
    (s.storeW n ok v).StoredOn c := by
  obtain rfl := h.cfgEq
  exact { h with w := goodMemory_write h.w hn _ }

theorem State.StoredOn.storeOut (h : s.StoredOn c) {n : Nat} (hn : n < c.L) (v : NumWord) :
    (s.storeOut n v).StoredOn c := by
  obtain rfl := h.cfgEq
  exact
    { h with
      outl := goodMemory_write h.outl hn _
      outr := goodMemory_write h.outr hn _ }

theorem State.StoredOn.fftBrev (h : s.StoredOn c) : s.fftBrev.StoredOn c :=
  { h with z := goodMemory_tabulateC _ _ }

theorem State.StoredOn.fftBfly (h : s.StoredOn c) {inv : Bool} {st q : Nat} (h1 : 1 ≤ st)
    (hM : st ≤ c.M) (hq : q < c.N / 2) : (s.fftBfly inv st q).StoredOn c := by
  obtain rfl := h.cfgEq
  exact { h with z := goodMemory_butterflyZ h.cfgOk h1 hM hq h.z }

theorem State.StoredOn.fftTransform (h : s.StoredOn c) (inv : Bool) :
    (s.fftTransform inv).StoredOn c := by
  obtain rfl := h.cfgEq
  exact { h with z := goodMemory_transformZ h.cfgOk _ inv _ }

theorem State.StoredOn.convClear (h : s.StoredOn c) : s.convClear.StoredOn c :=
  { h with
    hist := goodMemory_nil _
    ovl := goodMemory_nil _ }

theorem State.StoredOn.loadPartition (h : s.StoredOn c) (ir : List NumWord) {p : Nat} (hp : p < c.KMAX) :
    (s.loadPartition ir p).StoredOn c := by
  obtain rfl := h.cfgEq
  exact
    { h with
      z := goodMemory_transformZ h.cfgOk _ _ _
      part := goodMemory_storeRow hp h.part _ }

theorem State.StoredOn.convInit (h : s.StoredOn c) (idx : BitVec 24) : (s.convInit idx).StoredOn c := by
  obtain rfl := h.cfgEq
  unfold State.convInit
  split
  · exact h.fatal _
  · dsimp only
    split
    · exact h.fatal _
    · rename_i hfit
      have hloaded : State.StoredOn s.cfg
          ((List.range (partitionCount s.cfg (s.cfg.ir idx.toNat).length)).foldl
            (fun t p => t.loadPartition (s.cfg.ir idx.toNat) p)
            { s with K := partitionCount s.cfg (s.cfg.ir idx.toNat).length }) :=
        foldl_keeps _ _ _ _ (h.of_memories rfl) fun t p hp ht =>
          ht.loadPartition _ (lt_of_lt_of_le (List.mem_range.1 hp) (not_lt.1 hfit))
      exact hloaded.convClear.of_memories rfl

theorem State.StoredOn.convFrame (h : s.StoredOn c) : s.convFrame.StoredOn c :=
  { h with
    z := goodMemory_tabulateC _ _
    ovl := goodMemory_tabulate _ _ }

theorem State.ringInRange_iff : s.ringInRange = true ↔ s.WIDX < s.K ∧ s.K ≤ s.cfg.KMAX := by
  simp [State.ringInRange]

theorem State.dlyInRange_iff : s.dlyInRange = true ↔ s.WP < s.cfg.DMAX := by
  simp [State.dlyInRange]

theorem State.revInRange_iff :
    s.revInRange = true ↔ ∀ r ∈ s.REV, r.RP < r.RLEN ∧ r.RLEN ≤ s.cfg.RMAX := by
  simp [State.revInRange]

theorem State.StoredOn.convPush (h : s.StoredOn c) (hr : s.ringInRange = true) :
    s.convPush.StoredOn c := by
  obtain ⟨hwidx, hk⟩ := State.ringInRange_iff.1 hr
  exact { h with hist := goodMemory_storeRow (lt_of_lt_of_le hwidx hk) h.hist _ }

theorem State.StoredOn.convMac (h : s.StoredOn c) : s.convMac.StoredOn c :=
  { h with z := goodMemory_tabulateC _ _ }

theorem State.StoredOn.convOut (h : s.StoredOn c) : s.convOut.StoredOn c :=
  { h with w := goodMemory_tabulate _ _ }

theorem State.StoredOn.convBlock (h : s.StoredOn c) (hr : s.ringInRange = true) :
    s.convBlock.StoredOn c := by
  have hpush : ((s.convFrame).fftTransform false).convPush.StoredOn c :=
    (h.convFrame.fftTransform false).convPush hr
  exact (hpush.convMac.fftTransform true).convOut

theorem State.StoredOn.nnLoad (h : s.StoredOn c) (idx : BitVec 24) : (s.nnLoad idx).StoredOn c := by
  unfold State.nnLoad
  split
  · exact h.fatal _
  · exact { h with wt := goodMemory_tabulate _ _ }

theorem State.StoredOn.nnReset (h : s.StoredOn c) : s.nnReset.StoredOn c :=
  { h with h := goodMemory_nil _ }

theorem goodMemory_nnStep_h (N : NUM NumWord) (wt : Memory NumWord) {hs : Memory NumWord}
    (hh : goodMemory hs hiddenSize) (x : NumWord) : goodMemory (nnStep N wt hs x).h hiddenSize := by
  unfold nnStep
  dsimp only
  split
  · exact goodMemory_ofWords (by simp [nnHiddenAll])
  · exact hh

theorem State.StoredOn.nnFwd (h : s.StoredOn c) {n : Nat} (hn : n < c.L) : (s.nnFwd n).StoredOn c := by
  have hcell : State.StoredOn c { s with h := (nnStep s.cfg.arith s.WT s.h (s.W.read n)).h } :=
    { h with h := goodMemory_nnStep_h _ _ h.h _ }
  exact hcell.storeW hn _ _

theorem State.StoredOn.toneSet (h : s.StoredOn c) : s.toneSet.StoredOn c :=
  h.of_memories (by simp [State.memories])

theorem State.StoredOn.toneProc (h : s.StoredOn c) {n : Nat} (hn : n < c.L) :
    (s.toneProc n).StoredOn c :=
  (h.storeW hn _ _).of_memories rfl

theorem State.StoredOn.dlyAdvance (h : s.StoredOn c) (hd : s.dlyInRange = true) (x : NumWord) :
    (s.dlyAdvance x).StoredOn c :=
  { h with dbuf := goodMemory_write h.dbuf (State.dlyInRange_iff.1 hd) _ }

theorem State.StoredOn.dlyProc (h : s.StoredOn c) (hd : s.dlyInRange = true) {n : Nat} (hn : n < c.L) :
    (s.dlyProc n).StoredOn c :=
  (h.dlyAdvance hd (s.W.read n)).storeW hn _ _

theorem State.StoredOn.revRoom (h : s.StoredOn c) : s.revRoom.StoredOn c :=
  { h with
    lines := fun r hr => by
      obtain ⟨q, -, rfl⟩ := List.mem_map.1 hr
      exact goodMemory_nil _ }

theorem State.StoredOn.revAdvance (h : s.StoredOn c) (hr : s.revInRange = true) (x : NumWord) :
    (s.revAdvance x).StoredOn c :=
  { h with
    lines := fun r hr' => by
      obtain ⟨q, hq, rfl⟩ := List.mem_map.1 hr'
      obtain ⟨hrp, hlen⟩ := State.revInRange_iff.1 hr q hq
      exact goodMemory_write (h.lines q hq) (lt_of_lt_of_le hrp hlen) _ }

theorem State.StoredOn.revProc (h : s.StoredOn c) (hr : s.A.revEn = true → s.revInRange = true)
    {n : Nat} (hn : n < c.L) : (s.revProc n).StoredOn c := by
  unfold State.revProc
  split
  · rename_i hen
    exact (h.revAdvance (hr hen) (s.W.read n)).storeW hn _ _
  · exact h

theorem State.StoredOn.mixProc (h : s.StoredOn c) {n : Nat} (hn : n < c.L) : (s.mixProc n).StoredOn c :=
  (h.storeOut hn _).of_memories rfl

/-! ### The boundary -/

theorem State.StoredOn.unlessHalted (h : s.StoredOn c) {f : State → State}
    (hf : ∀ t : State, t.StoredOn c → (f t).StoredOn c) : (State.unlessHalted f s).StoredOn c := by
  unfold State.unlessHalted
  split
  · exact h
  · exact hf s h

theorem State.StoredOn.takeSnapshot (h : s.StoredOn c) : s.takeSnapshot.StoredOn c := by
  unfold State.takeSnapshot
  split
  · exact h.of_memories rfl
  · exact h

theorem State.StoredOn.switchModel (h : s.StoredOn c) : s.switchModel.StoredOn c := by
  unfold State.switchModel
  split
  · exact h.fatal _
  · split
    · exact (h.nnLoad _).nnReset
    · exact h

theorem State.StoredOn.modelReload (h : s.StoredOn c) : s.modelReload.StoredOn c := by
  unfold State.modelReload
  split
  · dsimp only
    split
    · exact State.StoredOn.switchModel (h.of_memories rfl)
    · exact h.of_memories rfl
  · exact h

theorem State.StoredOn.switchIr (h : s.StoredOn c) : s.switchIr.StoredOn c := by
  unfold State.switchIr
  split
  · exact h.fatal _
  · split
    · exact h.convInit _
    · exact h

theorem State.StoredOn.irReload (h : s.StoredOn c) : s.irReload.StoredOn c := by
  unfold State.irReload
  split
  · dsimp only
    split
    · exact State.StoredOn.switchIr (h.of_memories rfl)
    · exact h.of_memories rfl
  · exact h

theorem State.StoredOn.bypassToggle (h : s.StoredOn c) : s.bypassToggle.StoredOn c := by
  unfold State.bypassToggle
  split
  · dsimp only
    split
    · have hactive : State.StoredOn c { s with RQB := false, CHAIN := .active } := h.of_memories rfl
      exact hactive.nnReset.convClear
    · exact h.of_memories rfl
  · exact h

theorem State.StoredOn.blockSetup (h : s.StoredOn c) : s.blockSetup.StoredOn c := by
  have hmix : s.mixSet.StoredOn c := h.of_memories rfl
  have hset : s.mixSet.toneSet.dlySet.StoredOn c := hmix.toneSet.of_memories rfl
  unfold State.blockSetup
  dsimp only
  split
  · exact hset.revRoom.of_memories rfl
  · exact hset.of_memories rfl

theorem State.StoredOn.ctlBound (h : s.StoredOn c) : s.ctlBound.StoredOn c := by
  unfold State.ctlBound
  split
  · exact h.fatal _
  · exact (h.takeSnapshot.modelReload.unlessHalted fun _ ht => ht.irReload).unlessHalted
      fun _ ht => ht.bypassToggle.blockSetup

/-! ### The block schedule -/

/-- A per-sample pass keeps what its body keeps at every sample of the block. -/
theorem State.StoredOn.forSamples (h : s.StoredOn c) {body : Nat → State → State}
    (hb : ∀ n, n < c.L → ∀ t : State, t.StoredOn c → (body n t).StoredOn c) :
    (State.forSamples body s).StoredOn c :=
  State.forSamples_keeps (fun t => t.StoredOn c) body s h (fun _ _ ht => ht.of_memories rfl)
    (fun t n hn ht => hb n (h.cfgEq ▸ hn) t ht)

/-- The memories are good and every index register of the active chain is in range. -/
structure State.ActiveOn (c : Cfg) (s : State) : Prop where
  stored : s.StoredOn c
  ring : s.ringInRange = true
  delay : s.dlyInRange = true
  reverb : s.A.revEn = true → s.revInRange = true

theorem State.StoredOn.activeOn (h : s.StoredOn c) (hr : s.chainInRange = true) : s.ActiveOn c := by
  simp only [State.chainInRange, Bool.and_eq_true, Bool.or_eq_true, Bool.not_eq_true'] at hr
  obtain ⟨⟨hring, hdelay⟩, hreverb⟩ := hr
  exact ⟨h, hring, hdelay, fun hen => hreverb.resolve_left (by simp [hen])⟩

/-- A pass over the samples of an active block. -/
theorem State.ActiveOn.forSamples (h : s.ActiveOn c) {body : Nat → State → State}
    (hb : ∀ n, n < c.L → ∀ t : State, t.ActiveOn c → (body n t).ActiveOn c) :
    (State.forSamples body s).ActiveOn c :=
  State.forSamples_keeps (fun t => t.ActiveOn c) body s h
    (fun _ _ ht => ⟨ht.stored.of_memories rfl, ht.ring, ht.delay, ht.reverb⟩)
    (fun t n hn ht => hb n (h.stored.cfgEq ▸ hn) t ht)

theorem State.ActiveOn.ctlPre (h : s.ActiveOn c) {n : Nat} (hn : n < c.L) : (s.ctlPre n).ActiveOn c :=
  ⟨h.stored.storeW hn _ _, h.ring, h.delay, h.reverb⟩

theorem State.ActiveOn.nnFwd (h : s.ActiveOn c) {n : Nat} (hn : n < c.L) : (s.nnFwd n).ActiveOn c :=
  ⟨h.stored.nnFwd hn, h.ring, h.delay, h.reverb⟩

theorem State.ActiveOn.convFrame (h : s.ActiveOn c) : s.convFrame.ActiveOn c :=
  ⟨h.stored.convFrame, h.ring, h.delay, h.reverb⟩

theorem State.ActiveOn.fftTransform (h : s.ActiveOn c) (inv : Bool) : (s.fftTransform inv).ActiveOn c :=
  ⟨h.stored.fftTransform inv, h.ring, h.delay, h.reverb⟩

theorem State.ActiveOn.convPush (h : s.ActiveOn c) : s.convPush.ActiveOn c :=
  ⟨h.stored.convPush h.ring, h.ring, h.delay, h.reverb⟩

theorem State.ActiveOn.convMac (h : s.ActiveOn c) : s.convMac.ActiveOn c :=
  ⟨h.stored.convMac, h.ring, h.delay, h.reverb⟩

/-- The ring advances by one row and stays in range. -/
theorem State.ActiveOn.convOut (h : s.ActiveOn c) : s.convOut.ActiveOn c where
  stored := h.stored.convOut
  ring := by
    obtain ⟨hwidx, hk⟩ := State.ringInRange_iff.1 h.ring
    exact State.ringInRange_iff.2 ⟨ringNext_lt _ (lt_of_le_of_lt (Nat.zero_le _) hwidx), hk⟩
  delay := h.delay
  reverb := h.reverb

theorem State.ActiveOn.convBlock (h : s.ActiveOn c) : s.convBlock.ActiveOn c :=
  (((h.convFrame.fftTransform false).convPush.convMac).fftTransform true).convOut

theorem State.ActiveOn.toneProc (h : s.ActiveOn c) {n : Nat} (hn : n < c.L) :
    (s.toneProc n).ActiveOn c :=
  ⟨h.stored.toneProc hn, h.ring, h.delay, h.reverb⟩

theorem State.ActiveOn.dlyProc (h : s.ActiveOn c) {n : Nat} (hn : n < c.L) : (s.dlyProc n).ActiveOn c where
  stored := h.stored.dlyProc h.delay hn
  ring := h.ring
  delay := by
    have hwp := State.dlyInRange_iff.1 h.delay
    exact State.dlyInRange_iff.2 (ringNext_lt _ (lt_of_le_of_lt (Nat.zero_le _) hwp))
  reverb := h.reverb

theorem State.revAdvance_revInRange (hr : s.revInRange = true) (x : NumWord) :
    (s.revAdvance x).revInRange = true := by
  refine State.revInRange_iff.2 fun r hr' => ?_
  obtain ⟨q, hq, rfl⟩ := List.mem_map.1 hr'
  obtain ⟨hrp, hlen⟩ := State.revInRange_iff.1 hr q hq
  exact ⟨ringNext_lt _ (lt_of_le_of_lt (Nat.zero_le _) hrp), hlen⟩

theorem State.ActiveOn.revProc (h : s.ActiveOn c) {n : Nat} (hn : n < c.L) :
    (s.revProc n).ActiveOn c := by
  have hstored := h.stored.revProc h.reverb hn
  unfold State.revProc at hstored ⊢
  split
  · rename_i hen
    rw [if_pos hen] at hstored
    exact ⟨hstored, h.ring, h.delay, fun _ => State.revAdvance_revInRange (h.reverb hen) _⟩
  · exact h

theorem State.ActiveOn.mixProc (h : s.ActiveOn c) {n : Nat} (hn : n < c.L) : (s.mixProc n).ActiveOn c :=
  ⟨h.stored.mixProc hn, h.ring, h.delay, h.reverb⟩

theorem State.ActiveOn.activeBlock (h : s.ActiveOn c) : s.activeBlock.ActiveOn c := by
  have hpre : (State.forSamples State.ctlPre s).ActiveOn c := h.forSamples fun _ hn _ ht => ht.ctlPre hn
  have hnn : (State.forSamples State.nnFwd (State.forSamples State.ctlPre s)).ActiveOn c :=
    hpre.forSamples fun _ hn _ ht => ht.nnFwd hn
  exact hnn.convBlock.forSamples fun _ hn _ ht => (((ht.toneProc hn).dlyProc hn).revProc hn).mixProc hn

theorem State.StoredOn.bypassedBlock (h : s.StoredOn c) : s.bypassedBlock.StoredOn c :=
  h.forSamples fun _ hn _ ht => ht.storeOut hn _

theorem State.StoredOn.ctlBlock (h : s.StoredOn c) (ht : s.ctlBlock = .next t) : t.StoredOn c := by
  have hb := h.ctlBound
  obtain rfl | ⟨hr, rfl⟩ | rfl := State.ctlBlock_next ht
  · exact hb
  · exact (hb.activeOn hr).activeBlock.stored
  · exact hb.bypassedBlock

/-! ### Commands -/

theorem State.StoredOn.of_next (ht : (.next s : Result) = .next t) (h : s.StoredOn c) : t.StoredOn c :=
  Host.Outcome.next.inj ht ▸ h

theorem State.StoredOn.of_inSpace {ok : Bool} (ht : inSpace ok s = .next t)
    (h : ok = true → s.StoredOn c) : t.StoredOn c := by
  obtain ⟨hok, rfl⟩ := inSpace_next ht
  exact h hok

theorem lt_of_sampleOk {n : BitVec 24} (hn : sampleOk c n = true) : n.toNat < c.L := of_decide_eq_true hn

/-- The effect of every well-formed command keeps the memories. -/
theorem State.StoredOn.effect (h : s.StoredOn c) {i : Instr} (hi : i.wf c = true)
    (ht : Machine.effect i s = .next t) : t.StoredOn c := by
  cases i with
  | ctlBound => exact .of_next ht h.ctlBound
  | ctlPre n => exact .of_next ht (h.storeW (lt_of_sampleOk hi) _ _)
  | ctlByp n => exact .of_next ht (h.storeOut (lt_of_sampleOk hi) _)
  | ctlBlock => exact h.ctlBlock ht
  | fftBrev => exact .of_next ht h.fftBrev
  | fftBfly inv st q =>
    simp only [Instr.wf, butterflyOk, Bool.and_eq_true, decide_eq_true_eq] at hi
    obtain ⟨⟨h1, hM⟩, hq⟩ := hi
    exact .of_next ht (h.fftBfly h1 hM hq)
  | fftFwd => exact .of_next ht (h.fftTransform false)
  | fftInv => exact .of_next ht (h.fftTransform true)
  | convInit idx => exact .of_next ht (h.convInit idx)
  | convClear => exact .of_next ht h.convClear
  | convBlock => exact .of_inSpace ht h.convBlock
  | convFrame => exact .of_next ht h.convFrame
  | convPush => exact .of_inSpace ht h.convPush
  | convMac => exact .of_inSpace ht fun _ => h.convMac
  | convOut => exact .of_inSpace ht fun _ => h.convOut
  | nnLoad idx => exact .of_next ht (h.nnLoad idx)
  | nnReset => exact .of_next ht h.nnReset
  | nnFwd n => exact .of_next ht (h.nnFwd (lt_of_sampleOk hi))
  | toneSet => exact .of_next ht h.toneSet
  | toneProc n => exact .of_next ht (h.toneProc (lt_of_sampleOk hi))
  | dlySet => exact .of_next ht (h.of_memories rfl)
  | dlyProc n => exact .of_inSpace ht fun hd => h.dlyProc hd (lt_of_sampleOk hi)
  | revRoom => exact .of_next ht h.revRoom
  | revDecay => exact .of_next ht (h.of_memories rfl)
  | revProc n =>
    refine .of_inSpace ht fun hr => h.revProc (fun hen => ?_) (lt_of_sampleOk hi)
    simpa [hen] using hr
  | mixSet => exact .of_next ht (h.of_memories rfl)
  | mixProc n => exact .of_next ht (h.mixProc (lt_of_sampleOk hi))

theorem State.StoredOn.issue (h : s.StoredOn c) {legal : Bool} {f : State → Result}
    (hf : legal = true → f s = .next t → t.StoredOn c) (ht : Machine.issue legal f s = .next t) :
    t.StoredOn c := by
  obtain ⟨-, rfl⟩ | ⟨-, hl, he⟩ | ⟨-, -, rfl⟩ := issue_next ht
  · exact h
  · exact hf hl he
  · exact h.fatal _

theorem State.StoredOn.runWord (h : s.StoredOn c) {w : BitVec 32} (ht : Machine.runWord w s = .next t) :
    t.StoredOn c := by
  obtain ⟨-, ⟨i, -, he⟩ | ⟨_, -, he⟩⟩ := runWord_next ht
  · exact h.issue (fun hi => h.effect (h.cfgEq ▸ hi)) (exec_eq_issue i s ▸ he)
  · exact h.issue (fun _ hn => .of_next hn h) he

/-! ### Events -/

theorem State.StoredOn.boot (h : s.StoredOn c) : s.boot.StoredOn c := by
  have hmodel := (h.nnLoad 0).unlessHalted fun _ ht => ht.nnReset
  refine (hmodel.unlessHalted fun _ ht => ht.convInit 0).unlessHalted fun t ht => ?_
  have hroom : t.revRoom.revDecay.mixSet.StoredOn c := ht.revRoom.of_memories rfl
  exact hroom.toneSet.of_memories rfl

theorem State.StoredOn.resetEvent (h : s.StoredOn c) : s.resetEvent.StoredOn c := by
  have hboot := (State.StoredOn.cold h.cfgOk).boot
  unfold State.resetEvent
  rw [h.cfgEq]
  generalize (State.cold c).boot = u at hboot
  exact hboot.of_memories rfl

theorem State.StoredOn.beginBlock (h : s.StoredOn c) (block : List (BitVec 32)) :
    (s.beginBlock block).StoredOn c := by
  refine { h with x := ?_ }
  unfold State.beginBlock
  dsimp only
  split
  · rename_i hlen
    exact goodMemory_ofWords (by rw [List.length_map, hlen])
  · exact h.x

theorem State.StoredOn.endBlock (h : s.StoredOn c) : s.endBlock.StoredOn c := by
  unfold State.endBlock
  dsimp only
  split
  · exact h.silenceOut.of_memories rfl
  · exact h.of_memories rfl

theorem State.StoredOn.tick (h : s.StoredOn c) {block : List (BitVec 32)} (ht : s.tick block = .next t) :
    t.StoredOn c := by
  obtain ⟨-, rfl⟩ | ⟨-, u, hu, rfl⟩ := State.tick_next ht
  · exact h.silenceOut.of_memories rfl
  · exact ((h.beginBlock block).ctlBlock hu).endBlock

theorem State.portWrite_memories (addr width : Nat) (w : BitVec 32) (s : State) :
    (s.portWrite addr width w).memories = s.memories := by
  rw [State.portWrite_frame]
  rfl

theorem State.StoredOn.runEvent (h : s.StoredOn c) {e : Event} (ht : Machine.runEvent e s = .next t) :
    t.StoredOn c := by
  cases e with
  | reset => exact .of_next ht h.resetEvent
  | tick block =>
    rw [Machine.runEvent] at ht
    split at ht
    · cases ht
    · exact h.tick ht
  | portWrite addr width w => exact .of_next ht (h.of_memories (State.portWrite_memories _ _ _ s))
  | portRead addr width => exact .of_next ht (h.of_memories rfl)
  | command w => exact h.runWord ht

theorem State.StoredOn.step (h : s.StoredOn c) (ht : Machine.step s = .next t) : t.StoredOn c := by
  obtain ⟨-, ⟨-, rfl⟩ | ⟨e, rest, -, he⟩⟩ := step_next ht
  · exact h
  · have hrest : State.StoredOn c { s with inbox := rest } := h.of_memories rfl
    exact hrest.runEvent he

end

/-- Settles O55: `State.StoredOn` of the chip's own configuration is kept by every step. -/
theorem memoryKept : Obligations.MemoryKept := by
  intro s t hs ht
  obtain ⟨hw, -⟩ := step_next ht
  have hstored : s.StoredOn s.cfg := ⟨hs, hw, rfl⟩
  exact (hstored.step ht).toMemoryInv

end Sys2Proof.Machine
end

section
/-! A refused port access (20_memory.md R72). -/

namespace Sys2Proof.Machine

variable {s : State} {e : Event} {rest : List Event} {addr width : Nat}

/-- A step on a well-formed configuration runs the next event. -/
theorem step_of_inbox (hw : s.cfg.wf = true) (hi : s.inbox = e :: rest) :
    step s = runEvent e { s with inbox := rest } := by
  simp [step, runNext, hw, hi]

/-- The accesses that the port refuses. -/
theorem portAccessOk_eq_false (h : addr % 4 ≠ 0 ∨ 0x3C < addr ∨ width ≠ 32) :
    portAccessOk addr width = false := by
  rw [Bool.eq_false_iff, portAccessOk, ne_eq, Bool.and_eq_true, Bool.and_eq_true]
  simp only [decide_eq_true_eq]
  omega

/-- A refused write changes nothing. -/
theorem State.portWrite_of_refused (h : portAccessOk addr width = false) (w : BitVec 32) (s : State) :
    s.portWrite addr width w = s := by
  simp [State.portWrite, h]

/-- A refused read returns 0. -/
theorem State.portRead_of_refused (h : portAccessOk addr width = false) (s : State) :
    s.portRead addr width = { s with portOut := 0 } := by
  simp [State.portRead, State.portValue, h]

/-- Settles O10: the access test is the first thing both port operations do. -/
theorem portRefusesBadAccess : Obligations.PortRefusesBadAccess := by
  intro s addr width w rest hw hbad
  have hrefused := portAccessOk_eq_false hbad
  constructor
  · intro hi
    rw [step_of_inbox hw hi, runEvent, State.portWrite_of_refused hrefused]
  · intro hi
    rw [step_of_inbox hw hi, runEvent, State.portRead_of_refused hrefused]

end Sys2Proof.Machine
end

section
/-! Decoding and encoding agree, and the decoder is the opcode map (30_encoding.md R101 to R107).

The decoder chooses how a word is read by the byte of its unit and function. Both directions go format by
format: what each of the four readers answers on an encoded word, and what an answer of it says of the
word (`Reads`). The table of the opcode map enters by `rowOf`, the row of an op byte. -/

namespace Sys2Proof

/-! ### The fields of a word (R101, R104) -/

@[simp] theorem opField_commandWord (op : BitVec 8) (arg : BitVec 24) :
    opField (commandWord op arg) = op :=
  BitVec.extractLsb'_append_eq_left

@[simp] theorem argField_commandWord (op : BitVec 8) (arg : BitVec 24) :
    argField (commandWord op arg) = arg :=
  BitVec.extractLsb'_append_eq_right

/-- A word is its op byte and its argument. -/
theorem commandWord_fields (w : BitVec 32) : commandWord (opField w) (argField w) = w :=
  (BitVec.extractLsb'_append_extractLsb'_eq_extractLsb' rfl).trans BitVec.extractLsb'_eq_self

theorem opField_toNat (w : BitVec 32) : (opField w).toNat = w.toNat / 2 ^ 24 := by
  have := w.isLt
  rw [opField, BitVec.extractLsb'_toNat, Nat.shiftRight_eq_div_pow]
  omega

theorem argField_toNat (w : BitVec 32) : (argField w).toNat = w.toNat % 2 ^ 24 := by
  rw [argField, BitVec.extractLsb'_toNat, Nat.shiftRight_zero]

section

variable (op : BitVec 8) (inv : Bool) (st : BitVec 5) (q : BitVec 18)

theorem butterfly_inv_field : (commandWord op (butterflyArg inv st q)).getLsbD 23 = inv := by
  rw [commandWord, BitVec.getLsbD_append, butterflyArg, BitVec.getLsbD_append, BitVec.getLsbD_append]
  simp

theorem butterfly_stage_field : (commandWord op (butterflyArg inv st q)).extractLsb' 18 5 = st := by
  rw [commandWord, BitVec.extractLsb'_append_eq_of_add_le (by decide), butterflyArg,
    BitVec.extractLsb'_append_eq_of_le (by decide)]
  exact BitVec.extractLsb'_append_eq_right

theorem butterfly_pair_field : (commandWord op (butterflyArg inv st q)).extractLsb' 0 18 = q := by
  rw [commandWord, BitVec.extractLsb'_append_eq_of_add_le (by decide)]
  exact BitVec.extractLsb'_append_eq_right

end

/-- The argument of a word is its three butterfly fields. -/
theorem butterflyArg_fields (w : BitVec 32) :
    butterflyArg (w.getLsbD 23) (w.extractLsb' 18 5) (w.extractLsb' 0 18) = argField w := by
  have hinv : BitVec.ofBool (w.getLsbD 23) = w.extractLsb' 23 1 := by
    ext i hi
    obtain rfl : i = 0 := by omega
    simp
  have hhigh : w.extractLsb' 23 1 ++ w.extractLsb' 18 5 = w.extractLsb' 18 6 :=
    BitVec.extractLsb'_append_extractLsb'_eq_extractLsb' rfl
  rw [butterflyArg, hinv, hhigh]
  exact BitVec.extractLsb'_append_extractLsb'_eq_extractLsb' rfl

/-! ### A well-formed command decodes from its own word -/

theorem decodeButterfly_commandWord (c : Cfg) (op : BitVec 8) (inv : Bool) {st : BitVec 5}
    {q : BitVec 18} (h : butterflyOk c st q = true) :
    decodeButterfly c (commandWord op (butterflyArg inv st q)) = .ok (.fftBfly inv st q) := by
  rw [decodeButterfly, butterfly_inv_field, butterfly_stage_field, butterfly_pair_field, if_pos h]

theorem decode_encode {c : Cfg} {i : Instr} (h : i.wf c = true) : decode c (encode i) = .ok i := by
  cases i with
  | ctlBound | ctlBlock | fftBrev | fftFwd | fftInv | convClear | convBlock | convFrame | convPush
  | convMac | convOut | nnReset | toneSet | dlySet | revRoom | revDecay | mixSet =>
    simp [encode, decode, decodeC0]
  | ctlPre n | ctlByp n | nnFwd n | toneProc n | dlyProc n | revProc n | mixProc n =>
    rw [Instr.wf] at h
    simp [encode, decode, decodeSample, h]
  | convInit idx | nnLoad idx => simp [encode, decode, decodeRow]
  | fftBfly inv st q => simpa [encode, decode] using decodeButterfly_commandWord c 0x12 inv h

/-- Settles O1: each of the four formats reads back the word it writes. -/
theorem decodeEncodeAgree : Obligations.DecodeEncodeAgree :=
  fun _ _ h => decode_encode h

/-! ### The rows of the opcode map -/

/-- The row of the opcode map at an op byte, its unit and function in one number. -/
def rowOf (op : Nat) : Option OpcodeRow :=
  opcodeRows.find? fun r => r.unit * 16 + r.func == op

theorem rowOf_of_mem {r : OpcodeRow} (hr : r ∈ opcodeRows) : rowOf (r.unit * 16 + r.func) = some r := by
  fin_cases hr <;> rfl

theorem func_lt_of_mem {r : OpcodeRow} (hr : r ∈ opcodeRows) : r.func < 16 := by
  revert r; decide

/-- The row at a word's op byte is the one with the word's unit and function. -/
theorem rowOf_opField {w : BitVec 32} {r : OpcodeRow} :
    rowOf (opField w).toNat = some r
      ↔ r ∈ opcodeRows ∧ w.toNat / 2 ^ 28 = r.unit ∧ w.toNat / 2 ^ 24 % 16 = r.func := by
  rw [opField_toNat]
  constructor
  · intro h
    have hr : r ∈ opcodeRows := List.mem_of_find?_eq_some h
    have hop : r.unit * 16 + r.func = w.toNat / 2 ^ 24 := by simpa using List.find?_some h
    have hfunc := func_lt_of_mem hr
    exact ⟨hr, by omega, by omega⟩
  · rintro ⟨hr, hunit, hfunc⟩
    rw [← rowOf_of_mem hr]
    congr 1
    omega

/-! ### What an answer of a reader says of the word -/

/-- `d` reads the word `w` as the row `row` of the opcode map says: it answers a command exactly when
there is a row and its format accepts the argument, and the answer is that row's well-formed command
with the word `w`. -/
structure Reads (c : Cfg) (w : BitVec 32) (d : Except DecodeError Instr) (row : Option OpcodeRow) :
    Prop where
  ok_iff : (∃ i, d = .ok i) ↔ ∃ r, row = some r ∧ r.format.accepts c w = true
  sound : ∀ i, d = .ok i → i.wf c = true ∧ encode i = w ∧ ∃ r, row = some r ∧ r.mnemonic = i.mnemonic

/-- A reader that answers one command under a condition reads a row that accepts under it. -/
theorem Reads.of_cond {c : Cfg} {w : BitVec 32} {p : Prop} [Decidable p] {e : DecodeError} {i : Instr}
    {r : OpcodeRow} (hp : p ↔ r.format.accepts c w = true) (hwf : p → i.wf c = true)
    (henc : p → encode i = w) (hm : r.mnemonic = i.mnemonic) :
    Reads c w (if p then .ok i else .error e) (some r) := by
  by_cases h : p
  · rw [if_pos h]
    exact ⟨by simp [hp.mp h], by rintro _ ⟨⟩; exact ⟨hwf h, henc h, r, rfl, hm⟩⟩
  · rw [if_neg h]
    exact ⟨by simp [mt hp.mpr h], by rintro _ ⟨⟩⟩

section

variable {c : Cfg} {w : BitVec 32} {op unit func : Nat}

theorem commandWord_argField (hop : (opField w).toNat = op) :
    commandWord (BitVec.ofNat 8 op) (argField w) = w := by
  rw [← hop, BitVec.ofNat_toNat, BitVec.setWidth_eq, commandWord_fields]

theorem reads_c0 {i : Instr} (hop : (opField w).toNat = op) (hwf : i.wf c = true)
    (henc : encode i = commandWord (BitVec.ofNat 8 op) 0)
    (hrow : rowOf op = some ⟨i.mnemonic, unit, func, .c0⟩) :
    Reads c w (decodeC0 w i) (rowOf (opField w).toNat) := by
  rw [hop, hrow]
  refine .of_cond ?_ (fun _ => hwf) (fun h => ?_) rfl
  · rw [Format.accepts, decide_eq_true_iff, ← argField_toNat]
    exact BitVec.toNat_eq
  · rw [henc, ← h, commandWord_argField hop]

theorem reads_sample {mk : BitVec 24 → Instr} (hop : (opField w).toNat = op)
    (hmk : ∀ n, (mk n).wf c = sampleOk c n ∧ encode (mk n) = commandWord (BitVec.ofNat 8 op) n
      ∧ rowOf op = some ⟨(mk n).mnemonic, unit, func, .ciSample⟩) :
    Reads c w (decodeSample c w mk) (rowOf (opField w).toNat) := by
  obtain ⟨hwf, henc, hrow⟩ := hmk (argField w)
  rw [hop, hrow]
  refine .of_cond ?_ (fun h => hwf.trans h) (fun _ => ?_) rfl
  · rw [sampleOk, argField_toNat, Format.accepts]
  · rw [henc, commandWord_argField hop]

theorem reads_row {mk : BitVec 24 → Instr} (hop : (opField w).toNat = op)
    (hmk : ∀ n, (mk n).wf c = true ∧ encode (mk n) = commandWord (BitVec.ofNat 8 op) n
      ∧ rowOf op = some ⟨(mk n).mnemonic, unit, func, .ciRow⟩) :
    Reads c w (decodeRow w mk) (rowOf (opField w).toNat) := by
  obtain ⟨hwf, henc, hrow⟩ := hmk (argField w)
  rw [hop, hrow]
  constructor
  · simp [decodeRow, Format.accepts]
  · rintro _ ⟨⟩
    exact ⟨hwf, by rw [henc, commandWord_argField hop], _, rfl, rfl⟩

theorem reads_butterfly (hop : (opField w).toNat = 0x12) :
    Reads c w (decodeButterfly c w) (rowOf (opField w).toNat) := by
  rw [hop]
  refine .of_cond (r := ⟨"FFT.BFLY", 1, 2, .cb⟩) ?_ id (fun _ => ?_) rfl
  · simp [butterflyOk, Format.accepts, Nat.shiftRight_eq_div_pow]
  · rw [encode, butterflyArg_fields]
    exact commandWord_argField hop

theorem reads_none {e : DecodeError} (hrow : rowOf op = none) : Reads c w (.error e) (rowOf op) := by
  rw [hrow]
  exact ⟨by simp, by rintro _ ⟨⟩⟩

end

/-- The decoder reads every word as the opcode map's row at the word's op byte says; one case per row,
in the order of R105. -/
theorem decode_reads (c : Cfg) (w : BitVec 32) : Reads c w (decode c w) (rowOf (opField w).toNat) := by
  unfold decode
  split
  next hop => exact reads_c0 hop rfl rfl rfl
  next hop => exact reads_sample hop fun _ => ⟨rfl, rfl, rfl⟩
  next hop => exact reads_sample hop fun _ => ⟨rfl, rfl, rfl⟩
  next hop => exact reads_c0 hop rfl rfl rfl
  next hop => exact reads_c0 hop rfl rfl rfl
  next hop => exact reads_butterfly hop
  next hop => exact reads_c0 hop rfl rfl rfl
  next hop => exact reads_c0 hop rfl rfl rfl
  next hop => exact reads_row hop fun _ => ⟨rfl, rfl, rfl⟩
  next hop => exact reads_c0 hop rfl rfl rfl
  next hop => exact reads_c0 hop rfl rfl rfl
  next hop => exact reads_c0 hop rfl rfl rfl
  next hop => exact reads_c0 hop rfl rfl rfl
  next hop => exact reads_c0 hop rfl rfl rfl
  next hop => exact reads_c0 hop rfl rfl rfl
  next hop => exact reads_row hop fun _ => ⟨rfl, rfl, rfl⟩
  next hop => exact reads_c0 hop rfl rfl rfl
  next hop => exact reads_sample hop fun _ => ⟨rfl, rfl, rfl⟩
  next hop => exact reads_c0 hop rfl rfl rfl
  next hop => exact reads_sample hop fun _ => ⟨rfl, rfl, rfl⟩
  next hop => exact reads_c0 hop rfl rfl rfl
  next hop => exact reads_sample hop fun _ => ⟨rfl, rfl, rfl⟩
  next hop => exact reads_c0 hop rfl rfl rfl
  next hop => exact reads_c0 hop rfl rfl rfl
  next hop => exact reads_sample hop fun _ => ⟨rfl, rfl, rfl⟩
  next hop => exact reads_c0 hop rfl rfl rfl
  next hop => exact reads_sample hop fun _ => ⟨rfl, rfl, rfl⟩
  next =>
    refine reads_none (List.find?_eq_none.mpr fun r hr => ?_)
    rw [beq_iff_eq]
    fin_cases hr <;> exact Ne.symm ‹_›

/-- A word is a command exactly when it is that well-formed command's word. -/
theorem decode_eq_ok_iff {c : Cfg} {w : BitVec 32} {i : Instr} :
    decode c w = .ok i ↔ i.wf c = true ∧ encode i = w := by
  constructor
  · intro h
    obtain ⟨hwf, henc, -⟩ := (decode_reads c w).sound i h
    exact ⟨hwf, henc⟩
  · rintro ⟨hwf, rfl⟩
    exact decode_encode hwf

/-- Settles O2: `decode_reads` with the row at the op byte spelled out as its unit and function. -/
theorem commandWordsAreTheOpcodeMap : Obligations.CommandWordsAreTheOpcodeMap := by
  intro c w
  have hreads := decode_reads c w
  constructor
  · simp only [hreads.ok_iff, rowOf_opField, and_assoc]
  · intro i hi
    obtain ⟨hwf, henc, r, hrow, hm⟩ := hreads.sound i hi
    obtain ⟨hr, hunit, hfunc⟩ := rowOf_opField.mp hrow
    exact ⟨hwf, henc, r, hr, hunit, hfunc, hm⟩

/-! ### The worked words of the spec (R105, R107) -/

/-- Settles O3: each worked word is the word of its command, and the two illegal words have no row. -/
theorem specWordsDecode : Obligations.SpecWordsDecode :=
  ⟨decode_eq_ok_iff.mpr ⟨by decide, rfl⟩, decode_eq_ok_iff.mpr ⟨rfl, rfl⟩,
    decode_eq_ok_iff.mpr ⟨by decide, rfl⟩, decode_eq_ok_iff.mpr ⟨by decide, rfl⟩,
    decode_eq_ok_iff.mpr ⟨by decide, rfl⟩, decode_eq_ok_iff.mpr ⟨by decide, rfl⟩, rfl, rfl⟩

end Sys2Proof

namespace Sys2Proof.Machine

/-! ### Issuing a command (R100, R107) -/

section

variable {s : State} {w : BitVec 32}

/-- A command word outside `RUN` runs the command it decodes to. -/
theorem runWord_of_ok {i : Instr} (hp : s.PHASE ≠ .run) (hd : decode s.cfg w = .ok i) :
    runWord w s = exec i s := by
  simp [runWord, hp, hd]

/-- A reserved word outside `RUN` is issued as an illegal command. -/
theorem runWord_of_error {e : DecodeError} (hp : s.PHASE ≠ .run) (hd : decode s.cfg w = .error e) :
    runWord w s = issue false (fun t => .next t) s := by
  simp [runWord, hp, hd]

theorem runWord_of_run (hp : s.PHASE = .run) : runWord w s = .refused .commandInRun := by
  simp [runWord, hp]

/-- A step on a command word outside `RUN` runs the command it decodes to. -/
theorem step_of_command {rest : List Event} {i : Instr} (hw : s.cfg.wf = true) (hp : s.PHASE ≠ .run)
    (hi : s.inbox = .command w :: rest) (hd : decode s.cfg w = .ok i) :
    step s = exec i { s with inbox := rest } :=
  (step_of_inbox hw hi).trans (runWord_of_ok hp hd)

/-- A step on a reserved word in `IDLE` is an IllegalCommand. -/
theorem step_of_reserved {rest : List Event} {e : DecodeError} (hw : s.cfg.wf = true)
    (hp : s.PHASE = .idle) (hi : s.inbox = .command w :: rest) (hd : decode s.cfg w = .error e) :
    step s = .next { s with inbox := rest, HCAUSE := 4, PHASE := .halt } :=
  calc step s
    _ = runWord w { s with inbox := rest } := step_of_inbox hw hi
    _ = issue false (fun t => .next t) { s with inbox := rest } := runWord_of_error (by simp [hp]) hd
    _ = .next (State.fatal { s with inbox := rest } .illegalCommand) := issue_of_illegal (by simp [hp])

end

/-- Settles O4: placing a table word in the inbox changes the inbox alone, so taking it gives `s`. -/
theorem stepRunsIssuedCommand : Obligations.StepRunsIssuedCommand :=
  ⟨fun _ _ _ _ hw hp hi hd => step_of_command hw hp hi hd,
    fun s nbits w _ hw hp hd => step_of_command (s := s.withFetchWord nbits w) hw hp rfl hd⟩

/-- Settles O5: a reserved word and an operand that no word encodes are both issued as illegal. -/
theorem reservedCommandHalts : Obligations.ReservedCommandHalts := by
  refine ⟨fun s w rest e hw hp hi hd => step_of_reserved hw hp hi hd, fun s i hp hwf => ?_⟩
  rw [exec_eq_issue, hwf, issue_of_illegal hp, State.fatal_illegalCommand]

/-- Settles O6: the phase is the first thing an issue, a `TICK` and a command word test. -/
theorem nothingIssuedInHaltOrRun : Obligations.NothingIssuedInHaltOrRun := by
  refine ⟨fun i s hp => ?_, fun s block rest hw hp hi => ?_, fun s w rest hw hp hi => ?_⟩
  · rw [exec_eq_issue, issue_of_halt hp]
  · rw [step_of_inbox hw hi, runEvent, if_pos hp]
  · exact (step_of_inbox hw hi).trans (runWord_of_run hp)

end Sys2Proof.Machine
end

section
/-! The index arithmetic of the transform unit and its twiddle table (40_fft.md R131, R132, R134).

A bit reversal is known by its bits. The butterflies of a stage are known by their pairs: `bflyPair st k`
is the one butterfly of stage `st` that holds entry `k`, so that distinct butterflies share no entry. -/

namespace Sys2Proof.Machine

/-! ### The bit reversal (R132) -/

theorem bitRev_lt (m i : Nat) : bitRev m i < 2 ^ m := by
  induction m generalizing i with
  | zero => exact Nat.one_pos
  | succ m ih =>
    have hbit : i % 2 * 2 ^ m ≤ 1 * 2 ^ m := Nat.mul_le_mul_right _ (by omega)
    have hrest := ih (i / 2)
    rw [bitRev, Nat.pow_succ]
    omega

theorem testBit_bitRev {m b : Nat} (hb : b < m) (i : Nat) : (bitRev m i).testBit b = i.testBit (m - 1 - b) := by
  induction m generalizing i with
  | zero => omega
  | succ m ih =>
    rw [bitRev, Nat.mul_comm, Nat.testBit_two_pow_mul_add _ (bitRev_lt m (i / 2))]
    split
    · rename_i hlow
      rw [ih hlow, Nat.testBit_div_two]
      congr 1
      omega
    · obtain rfl : b = m := by omega
      simp

/-- A number of `m` bits is the reversal of `i` if its bits are those of `i` in the opposite order. -/
theorem bitRev_eq {m i j : Nat} (hj : j < 2 ^ m) (h : ∀ b < m, j.testBit b = i.testBit (m - 1 - b)) :
    bitRev m i = j := by
  refine Nat.eq_of_testBit_eq fun b => ?_
  by_cases hb : b < m
  · rw [testBit_bitRev hb, h b hb]
  · have hpow : 2 ^ m ≤ 2 ^ b := Nat.pow_le_pow_right (by decide) (by omega)
    rw [Nat.testBit_lt_two_pow ((bitRev_lt m i).trans_le hpow), Nat.testBit_lt_two_pow (hj.trans_le hpow)]

theorem bitRev_bitRev {m i : Nat} (hi : i < 2 ^ m) : bitRev m (bitRev m i) = i :=
  bitRev_eq hi fun b hb => by
    rw [testBit_bitRev (by omega)]
    congr 1
    omega

/-- Settles O11: the bits of a reversal give that it is its own inverse and fixes both ends. -/
theorem bitReversal : Obligations.BitReversal := by
  refine ⟨fun m i hi => ⟨bitRev_lt m i, bitRev_bitRev hi, fun b hb => testBit_bitRev hb i⟩,
    fun m => ⟨?_, ?_⟩, by decide, by decide, by decide, by decide⟩
  · exact bitRev_eq (Nat.two_pow_pos m) fun b _ => by simp
  · refine bitRev_eq (Nat.sub_lt (Nat.two_pow_pos m) Nat.one_pos) fun b hb => ?_
    have hmirror : m - 1 - b < m := by omega
    simp only [Nat.testBit_two_pow_sub_one, hb, hmirror]

/-! ### The pairs of a stage (R134) -/

/-- The butterfly of stage `st` whose pair holds entry `k`. -/
def bflyPair (st k : Nat) : Nat := k / bflySpan st * bflyHalf st + k % bflyHalf st

section

variable {st : Nat} (h1 : 1 ≤ st)

include h1

theorem bflySpan_eq : bflySpan st = 2 * bflyHalf st := by
  rw [bflySpan, bflyHalf, ← Nat.pow_succ', Nat.succ_eq_add_one, Nat.sub_add_cancel h1]

/-- The butterfly of the entry at distance `r` from the start of group `g`. -/
theorem bflyPair_group (g : Nat) {r : Nat} (hr : r < bflySpan st) :
    bflyPair st (g * bflySpan st + r) = g * bflyHalf st + r % bflyHalf st := by
  have hgroup : (g * bflySpan st + r) / bflySpan st = g := by
    rw [Nat.mul_comm, Nat.mul_add_div (by omega), Nat.div_eq_of_lt hr, Nat.add_zero]
  have hlow : (g * bflySpan st + r) % bflyHalf st = r % bflyHalf st := by
    rw [bflySpan_eq h1, ← Nat.mul_assoc, Nat.mul_add_mod_self_right]
  rw [bflyPair, hgroup, hlow]

theorem bflyPair_top (q : Nat) : bflyPair st (bflyTop st q) = q := by
  have hspan := bflySpan_eq h1
  have hj : bflyJ st q < bflyHalf st := Nat.mod_lt _ (bflyHalf_pos st)
  rw [bflyTop, bflyPair_group h1 _ (by omega), Nat.mod_eq_of_lt hj, bflyJ, Nat.div_add_mod']

theorem bflyPair_bottom (q : Nat) : bflyPair st (bflyBottom st q) = q := by
  have hspan := bflySpan_eq h1
  have hj : bflyJ st q < bflyHalf st := Nat.mod_lt _ (bflyHalf_pos st)
  rw [bflyBottom, bflyTop, Nat.add_assoc, bflyPair_group h1 _ (by omega), Nat.add_mod_right,
    Nat.mod_eq_of_lt hj, bflyJ, Nat.div_add_mod']

theorem eq_top_or_bottom_bflyPair (k : Nat) :
    k = bflyTop st (bflyPair st k) ∨ k = bflyBottom st (bflyPair st k) := by
  have hpos := bflyHalf_pos st
  have hspan := bflySpan_eq h1
  have hj : k % bflyHalf st < bflyHalf st := Nat.mod_lt _ hpos
  have htop : bflyTop st (bflyPair st k) = k / bflySpan st * bflySpan st + k % bflyHalf st := by
    rw [bflyTop, bflyJ, bflyPair, Nat.mul_comm (k / bflySpan st) (bflyHalf st), Nat.mul_add_div hpos,
      Nat.div_eq_of_lt hj, Nat.add_zero, Nat.mul_add_mod, Nat.mod_eq_of_lt hj]
  have hk : k = k / bflySpan st * bflySpan st + k % bflySpan st := (Nat.div_add_mod' k _).symm
  have hr : k % bflySpan st < 2 * bflyHalf st := hspan ▸ Nat.mod_lt k (by omega)
  have hlow : k % bflyHalf st = k % bflySpan st % bflyHalf st :=
    (Nat.mod_mod_of_dvd k (Dvd.intro_left 2 hspan.symm)).symm
  rw [bflyBottom, htop]
  by_cases hhalf : k % bflySpan st < bflyHalf st
  · rw [Nat.mod_eq_of_lt hhalf] at hlow
    exact .inl (by omega)
  · have hupper : k % bflySpan st % bflyHalf st = k % bflySpan st - bflyHalf st := by
      rw [Nat.mod_eq_sub_mod (by omega), Nat.mod_eq_of_lt (by omega)]
    exact .inr (by omega)

/-- Entry `k` is in the pair of butterfly `q` exactly when `q` is the butterfly of `k`. -/
theorem mem_pair_iff (k q : Nat) : (k = bflyTop st q ∨ k = bflyBottom st q) ↔ bflyPair st k = q := by
  constructor
  · rintro (rfl | rfl)
    · exact bflyPair_top h1 q
    · exact bflyPair_bottom h1 q
  · rintro rfl
    exact eq_top_or_bottom_bflyPair h1 k

end

section

variable {c : Cfg} {st : Nat} (hw : c.wf = true) (h1 : 1 ≤ st) (hM : st ≤ c.M)

include hw hM

/-- The transform is a whole number of groups of a stage. -/
theorem bflySpan_mul_groups : bflySpan st * (c.N / bflySpan st) = c.N := by
  refine Nat.mul_div_cancel' ?_
  rw [Cfg.N_eq_two_pow hw]
  exact Nat.pow_dvd_pow 2 hM

include h1

/-- The butterflies of a stage are one half group for each group. -/
theorem bflyHalf_mul_groups : bflyHalf st * (c.N / bflySpan st) = c.N / 2 := by
  have hN := bflySpan_mul_groups hw hM
  rw [bflySpan_eq h1, Nat.mul_assoc, ← bflySpan_eq h1] at hN
  omega

theorem bflyTwiddle_lt (q : Nat) : bflyTwiddle c.N st q < c.N / 2 := by
  have hgroups : 0 < c.N / bflySpan st :=
    Nat.div_pos (by rw [Cfg.N_eq_two_pow hw]; exact Nat.pow_le_pow_right (by decide) hM)
      (Nat.two_pow_pos st)
  rw [← bflyHalf_mul_groups hw h1 hM]
  exact Nat.mul_lt_mul_of_pos_right (Nat.mod_lt _ (bflyHalf_pos st)) hgroups

theorem bflyPair_lt {k : Nat} (hk : k < c.N) : bflyPair st k < c.N / 2 := by
  have hgroup : k / bflySpan st < c.N / bflySpan st :=
    Nat.div_lt_div_of_lt_of_dvd ⟨_, (bflySpan_mul_groups hw hM).symm⟩ hk
  have hj : k % bflyHalf st < bflyHalf st := Nat.mod_lt _ (bflyHalf_pos st)
  calc bflyPair st k < (k / bflySpan st + 1) * bflyHalf st := by rw [bflyPair, Nat.succ_mul]; omega
    _ ≤ c.N / bflySpan st * bflyHalf st := Nat.mul_le_mul_right _ hgroup
    _ = c.N / 2 := by rw [Nat.mul_comm, bflyHalf_mul_groups hw h1 hM]

theorem bflyBottom_lt_N {q : Nat} (hq : q < c.N / 2) : bflyBottom st q < c.N := by
  rw [Cfg.N_eq_two_pow hw] at hq ⊢
  exact bflyBottom_lt h1 hM hq

end

/-- Settles O12: the one butterfly of entry `k` is `bflyPair st k`. -/
theorem butterflyPairs : Obligations.ButterflyPairs := by
  intro c st hw h1 hM
  refine ⟨fun q hq => ⟨rfl, rfl, bflyBottom_lt_N hw h1 hM hq, rfl, bflyTwiddle_lt hw h1 hM q⟩,
    fun k hk => ⟨bflyPair st k, ⟨bflyPair_lt hw h1 hM hk, eq_top_or_bottom_bflyPair h1 k⟩, ?_⟩⟩
  rintro q ⟨-, hq⟩
  exact ((mem_pair_iff h1 k q).mp hq).symm

/-! ### The twiddle table (R131) -/

section

variable {α : Type} [Inhabited α] (one negOne : α) (near : Bool → Nat → Nat → α)

theorem twiddleTable_zero (N : Nat) : twiddleTable one negOne near N 0 = ⟨one, silence⟩ :=
  if_pos rfl

theorem twiddleTable_quarter {N : Nat} (h4 : 4 ≤ N) (hN : N % 4 = 0) :
    twiddleTable one negOne near N (N / 4) = ⟨silence, negOne⟩ := by
  rw [twiddleTable, if_neg (by omega), if_pos (by omega)]

end

/-- The table of a chip: its exact entries are the constants 1 and -1 of its `NUM`. -/
theorem arith_TW (c : Cfg) :
    ∃ near, ∀ N k, c.arith.TW N k = twiddleTable (c.arith.const 1) (c.arith.const (-1)) near N k := by
  cases hk : c.NUM with
  | f32 =>
    have hone : F32.const 1 = F32.one := by decide +kernel
    have hnegOne : F32.const (-1) = F32.negOne := by decide +kernel
    have hzero : F32.word silence = silence := by decide
    refine ⟨fun s N k => F32.word (F32.ofTrig s N k), fun N k => ?_⟩
    rw [arith_f32 hk]
    show Cplx.map F32.word (twiddleTable F32.one F32.negOne F32.ofTrig N k)
      = twiddleTable (F32.word (F32.const 1)) (F32.word (F32.const (-1))) _ N k
    rw [hone, hnegOne]
    simp only [twiddleTable, apply_ite (Cplx.map F32.word)]
    simp only [Cplx.map, hzero]
  | fix w f =>
    refine ⟨Fix.ofTrig w f, fun N k => ?_⟩
    rw [Cfg.arith, hk]
    rfl

/-- Settles O13: the exact entries are the first two cases of the table; the table for `N = 8` is computed. -/
theorem twiddleEntries : Obligations.TwiddleEntries := by
  refine ⟨fun c N => ?_, fun c N h4 hN => ?_, fun tol => ?_⟩
  · obtain ⟨near, hTW⟩ := arith_TW c
    rw [hTW, twiddleTable_zero]
  · obtain ⟨near, hTW⟩ := arith_TW c
    rw [hTW, twiddleTable_quarter _ _ _ h4 hN]
  · show (List.range 4).map (twiddleTable F32.one F32.negOne F32.ofTrig 8) = _
    decide +kernel

end Sys2Proof.Machine
end

section
/-! The commands of the transform unit (40_fft.md R133, R135 to R138).

Each command is `State.withZ`: it writes `Z` and nothing else. A butterfly reads and writes the entries of
its own pair alone, so two butterflies of one stage commute, and commands that commute may be run in any
order. -/

namespace Sys2Proof

/-- Canonical memories with equal complex entries are equal. -/
theorem Memory.ext_of_readC {α : Type} [Inhabited α] [DecidableEq α] {m n : Memory α} (hm : m.wf = true)
    (hn : n.wf = true) (h : ∀ k, m.readC k = n.readC k) : m = n := by
  refine Memory.ext_of_wf hm hn fun a => ?_
  obtain ⟨hre, him⟩ := Cplx.mk.inj (h (a / 2))
  rcases Nat.mod_two_eq_zero_or_one a with ha | ha
  · rwa [show 2 * (a / 2) = a by omega] at hre
  · rwa [show 2 * (a / 2) + 1 = a by omega] at him

/-- An entry past the size reads `(+0, +0)`. -/
theorem Memory.readC_of_inSize {α : Type} [Inhabited α] {m : Memory α} {n k : Nat}
    (h : m.inSize (2 * n) = true) (hk : n ≤ k) : m.readC k = Machine.czero := by
  rw [Memory.readC, Memory.read_of_inSize h (by omega), Memory.read_of_inSize h (by omega), Machine.czero]

end Sys2Proof

namespace Sys2Proof.Machine

/-! ### Running commands -/

/-- A legal command outside `HALT` has its effect. -/
theorem exec_of_legal {i : Instr} {s : State} (h : s.PHASE ≠ .halt) (hi : i.wf s.cfg = true) :
    exec i s = effect i s := by
  rw [exec_eq_issue, hi, issue_of_legal h]

/-- A sequence of command sequences, where each acts on the states `g z` as `f` acts on `z`. -/
theorem execAll_flatMap {β σ : Type} {g : σ → State} {is : β → List Instr} {f : σ → β → σ} {l : List β}
    (h : ∀ b ∈ l, ∀ z, execAll (is b) (g z) = .next (g (f z b))) (z : σ) :
    execAll (l.flatMap is) (g z) = .next (g (l.foldl f z)) := by
  induction l generalizing z with
  | nil => rfl
  | cons b l ih =>
    rw [List.flatMap_cons, execAll_append _ _ _ _ (h b (by simp) z),
      ih (fun c hc => h c (by simp [hc])), List.foldl_cons]

/-- Commands that complete and commute where `P` holds, and keep it, may be run in any order. -/
theorem execAll_perm {P : State → Prop} {is js : List Instr} (hp : is.Perm js)
    (hrun : ∀ i ∈ is, ∀ s, P s → ∃ t, exec i s = .next t ∧ P t)
    (hcomm : ∀ i ∈ is, ∀ j ∈ is, ∀ s, P s → execAll [i, j] s = execAll [j, i] s) {s : State} (hs : P s) :
    execAll is s = execAll js s := by
  induction hp generalizing s with
  | nil => rfl
  | cons i _ ih =>
    obtain ⟨t, ht, hPt⟩ := hrun i (by simp) s hs
    rw [execAll_cons i _ s t ht, execAll_cons i _ s t ht]
    exact ih (fun j hj => hrun j (by simp [hj]))
      (fun j hj k hk => hcomm j (by simp [hj]) k (by simp [hk])) hPt
  | swap i j l =>
    obtain ⟨t, ht, hPt⟩ := hrun j (by simp) s hs
    obtain ⟨u, hu, -⟩ := hrun i (by simp) t hPt
    have hji : execAll [j, i] s = .next u := by
      rw [execAll_cons j _ s t ht, execAll_cons i _ t u hu, execAll_nil]
    have hij : execAll [i, j] s = .next u := (hcomm i (by simp) j (by simp) s hs).trans hji
    exact (execAll_append [j, i] l s u hji).trans (execAll_append [i, j] l s u hij).symm
  | trans hp _ ih₁ ih₂ =>
    exact (ih₁ hrun hcomm hs).trans (ih₂ (fun i hi => hrun i (hp.mem_iff.mpr hi))
      (fun i hi j hj => hcomm i (hp.mem_iff.mpr hi) j (hp.mem_iff.mpr hj)) hs)

/-! ### The bit reversal (R133) -/

/-- The state with another transform buffer. -/
def State.withZ (s : State) (z : Memory NumWord) : State := { s with Z := z }

theorem exec_fftBrev {s : State} (h : s.PHASE ≠ .halt) :
    exec .fftBrev s = .next (s.withZ (bitReverseZ s.cfg s.Z)) :=
  exec_of_legal h rfl

section

variable {α : Type} [Inhabited α] [DecidableEq α] {c : Cfg} {z : Memory α}

theorem readC_bitReverseZ {i : Nat} (hi : i < c.N) :
    (bitReverseZ c z).readC i = z.readC (bitRev c.M i) :=
  Memory.readC_tabulateC _ hi

/-- Reversing twice restores a buffer in canonical form. -/
theorem bitReverseZ_bitReverseZ (hw : c.wf = true) (hz : z.wf = true) (hsize : z.inSize (2 * c.N) = true) :
    bitReverseZ c (bitReverseZ c z) = z := by
  have hN := Cfg.N_eq_two_pow hw
  refine Memory.ext_of_readC (Memory.wf_tabulateC _ _) hz fun i => ?_
  by_cases hi : i < c.N
  · rw [readC_bitReverseZ hi, readC_bitReverseZ (hN ▸ bitRev_lt c.M i), bitRev_bitRev (hN ▸ hi)]
  · have htwice : (bitReverseZ c (bitReverseZ c z)).inSize (2 * c.N) = true :=
      Memory.inSize_tabulateC _ _
    rw [Memory.readC_of_inSize htwice (not_lt.mp hi), Memory.readC_of_inSize hsize (not_lt.mp hi)]

end

/-- Settles O14: the reversal is its own inverse, so the second one restores every entry. -/
theorem fftBrevPermutes : Obligations.FftBrevPermutes := by
  refine ⟨by decide, fun s h => ⟨_, exec_fftBrev h, rfl, fun i hi => readC_bitReverseZ hi⟩,
    fun s h hw hz => ⟨_, exec_fftBrev h, ?_⟩⟩
  obtain ⟨hcanon, hsize⟩ := hz
  have htwice := bitReverseZ_bitReverseZ hw hcanon hsize
  calc exec .fftBrev (s.withZ (bitReverseZ s.cfg s.Z))
    _ = .next (s.withZ (bitReverseZ s.cfg (bitReverseZ s.cfg s.Z))) := exec_fftBrev h
    _ = .next (s.withZ s.Z) := by rw [htwice]
    _ = .next s := rfl

/-! ### One butterfly (R135) -/

theorem butterflyArg_toNat (inv : Bool) (st : BitVec 5) (q : BitVec 18) :
    (butterflyArg inv st q).toNat = inv.toNat * 2 ^ 23 + st.toNat * 2 ^ 18 + q.toNat := by
  rw [butterflyArg, BitVec.toNat_append, BitVec.toNat_append, ← Nat.shiftLeft_add_eq_or_of_lt q.isLt,
    ← Nat.shiftLeft_add_eq_or_of_lt st.isLt, Nat.shiftLeft_eq, Nat.shiftLeft_eq, BitVec.toNat_ofBool]
  omega

theorem butterflyOk_iff {c : Cfg} {st : BitVec 5} {q : BitVec 18} :
    butterflyOk c st q = true ↔ 1 ≤ st.toNat ∧ st.toNat ≤ c.M ∧ q.toNat < c.N / 2 := by
  simp [butterflyOk, and_assoc]

theorem exec_fftBfly {inv : Bool} {st : BitVec 5} {q : BitVec 18} {s : State} (h : s.PHASE ≠ .halt)
    (hok : butterflyOk s.cfg st q = true) :
    exec (.fftBfly inv st q) s
      = .next (s.withZ (butterflyZ s.cfg.arith s.cfg inv st.toNat q.toNat s.Z)) :=
  exec_of_legal h hok

section

variable {α : Type} [Inhabited α] [DecidableEq α] (N : NUM α) (c : Cfg) (inv : Bool) (st q : Nat)
  (z : Memory α)

/-- The lower entry of a pair times its twiddle factor. -/
def bflyProduct : Cplx α := N.cmul (z.readC (bflyBottom st q)) (bflyFactor N c inv st q)

variable {N c inv st q z} in
theorem wf_butterflyZ (hz : z.wf = true) : (butterflyZ N c inv st q z).wf = true :=
  Memory.wf_writeC (Memory.wf_writeC hz _ _) _ _

/-- The entries after a butterfly. -/
theorem readC_butterflyZ (k : Nat) :
    (butterflyZ N c inv st q z).readC k
      = if k = bflyBottom st q then N.csub (z.readC (bflyTop st q)) (bflyProduct N c inv st q z)
        else if k = bflyTop st q then N.cadd (z.readC (bflyTop st q)) (bflyProduct N c inv st q z)
        else z.readC k := by
  simp [butterflyZ, bflyProduct]

/-- The words outside its pair are as they were. -/
theorem read_butterflyZ_of_ne {k : Nat} (ht : k ≠ 2 * bflyTop st q) (ht' : k ≠ 2 * bflyTop st q + 1)
    (hb : k ≠ 2 * bflyBottom st q) (hb' : k ≠ 2 * bflyBottom st q + 1) :
    (butterflyZ N c inv st q z).read k = z.read k := by
  rw [butterflyZ, Memory.read_writeC, if_neg hb, if_neg hb', Memory.read_writeC, if_neg ht, if_neg ht']

end

/-- Settles O15: a butterfly writes the upper entry, then the lower one, which is another entry. -/
theorem fftBflyOnePair : Obligations.FftBflyOnePair := by
  intro inv st q s h h1 hM hq
  refine ⟨?_, _, exec_fftBfly h (butterflyOk_iff.mpr ⟨h1, hM, hq⟩), rfl, ?_, ?_, ?_⟩
  · rw [encode, Laws.commandWord_toNat, butterflyArg_toNat, ← Nat.add_assoc, ← Nat.add_assoc]
    rfl
  · exact (readC_butterflyZ ..).trans ((if_neg (bflyTop_ne_bottom _ _)).trans (if_pos rfl))
  · exact (readC_butterflyZ ..).trans (if_pos rfl)
  · exact fun k ht ht' hb hb' => read_butterflyZ_of_ne _ _ _ _ _ _ ht ht' hb hb'

/-! ### A whole transform (R136, R137) -/

/-- A well-formed configuration leaves room for every stage and every butterfly in a command word. -/
theorem Cfg.butterflies_fit {c : Cfg} (hw : c.wf = true) : c.M < 2 ^ 5 ∧ c.N / 2 ≤ 2 ^ 18 := by
  have hL : c.L ≤ 2 ^ 18 := by
    simp only [Cfg.wf, Cfg.sizesOk, Bool.and_eq_true, decide_eq_true_eq] at hw
    tauto
  have hN : 2 ^ c.M ≤ 2 ^ 19 := by
    rw [← Cfg.N_eq_two_pow hw, Cfg.N]
    omega
  have hM : c.M ≤ 19 := (Nat.pow_le_pow_iff_right (by decide)).mp hN
  rw [Cfg.N]
  omega

section

variable {s : State} (h : s.PHASE ≠ .halt) (hw : s.cfg.wf = true)

include h hw

/-- The command of butterfly `q` of stage `st`, its operands put in their fields. -/
theorem exec_fftBfly_ofNat {inv : Bool} {st q : Nat} (h1 : 1 ≤ st) (hM : st ≤ s.cfg.M) (hq : q < s.cfg.N / 2)
    (z : Memory NumWord) :
    exec (.fftBfly inv (BitVec.ofNat 5 st) (BitVec.ofNat 18 q)) (s.withZ z)
      = .next (s.withZ (butterflyZ s.cfg.arith s.cfg inv st q z)) := by
  obtain ⟨hM5, hN18⟩ := Cfg.butterflies_fit hw
  have hst : (BitVec.ofNat 5 st).toNat = st := (BitVec.toNat_ofNat ..).trans (Nat.mod_eq_of_lt (by omega))
  have hqn : (BitVec.ofNat 18 q).toNat = q := (BitVec.toNat_ofNat ..).trans (Nat.mod_eq_of_lt (by omega))
  have hok : butterflyOk s.cfg (BitVec.ofNat 5 st) (BitVec.ofNat 18 q) = true :=
    butterflyOk_iff.mpr ⟨by omega, by omega, by omega⟩
  rw [exec_fftBfly (s := s.withZ z) h hok, hst, hqn]
  rfl

/-- Two butterfly commands of a stage, one after the other. -/
theorem execAll_two_butterflies {inv : Bool} {st p q : Nat} (h1 : 1 ≤ st) (hM : st ≤ s.cfg.M)
    (hp : p < s.cfg.N / 2) (hq : q < s.cfg.N / 2) (z : Memory NumWord) :
    execAll [.fftBfly inv (BitVec.ofNat 5 st) (BitVec.ofNat 18 p),
        .fftBfly inv (BitVec.ofNat 5 st) (BitVec.ofNat 18 q)] (s.withZ z)
      = .next (s.withZ (butterflyZ s.cfg.arith s.cfg inv st q
          (butterflyZ s.cfg.arith s.cfg inv st p z))) := by
  rw [execAll_cons _ _ _ _ (exec_fftBfly_ofNat h hw h1 hM hp z),
    execAll_cons _ _ _ _ (exec_fftBfly_ofNat h hw h1 hM hq _), execAll_nil]

/-- The butterfly commands of a stage are the stage. -/
theorem execAll_pseudoFftPass {inv : Bool} {st : Nat} (h1 : 1 ≤ st) (hM : st ≤ s.cfg.M)
    (z : Memory NumWord) :
    execAll (pseudoFftPass s.cfg inv st) (s.withZ z)
      = .next (s.withZ (stageZ s.cfg.arith s.cfg inv st z)) := by
  rw [pseudoFftPass, List.map_eq_flatMap]
  refine execAll_flatMap (g := s.withZ) (fun q hq z => ?_) z
  rw [execAll_cons _ _ _ _ (exec_fftBfly_ofNat h hw h1 hM (List.mem_range.mp hq) z), execAll_nil]

/-- The sequence of a transform is the transform. -/
theorem execAll_transformSequence (inv : Bool) :
    execAll (transformSequence s.cfg inv) s = .next (s.fftTransform inv) := by
  rw [transformSequence, execAll_cons _ _ _ _ (exec_fftBrev h)]
  refine execAll_flatMap (g := s.withZ) (fun i hi z => ?_) (bitReverseZ s.cfg s.Z)
  have := List.mem_range.mp hi
  exact execAll_pseudoFftPass h hw (by omega) (by omega) z

end

/-- Settles O16: either transform is the fold of its stages, each the fold of its butterflies. -/
theorem transformIsItsSequence : Obligations.TransformIsItsSequence := fun _ h hw =>
  ⟨⟨_, exec_of_legal h rfl, rfl, execAll_transformSequence h hw false⟩,
    ⟨_, exec_of_legal h rfl, rfl, execAll_transformSequence h hw true⟩⟩

/-! ### The order of the butterflies of a stage (R138) -/

section

variable {α : Type} [Inhabited α] [DecidableEq α] {N : NUM α} {c : Cfg} {inv : Bool} {st : Nat} (h1 : 1 ≤ st)

include h1

/-- A butterfly leaves the entries of the other pairs. -/
theorem readC_butterflyZ_of_other {q k : Nat} (z : Memory α) (hk : bflyPair st k ≠ q) :
    (butterflyZ N c inv st q z).readC k = z.readC k := by
  obtain ⟨ht, hb⟩ := not_or.mp (mt (mem_pair_iff h1 k q).mp hk)
  rw [readC_butterflyZ, if_neg hb, if_neg ht]

/-- A butterfly reads its own pair only. -/
theorem readC_butterflyZ_congr {q k : Nat} {z z' : Memory α} (hk : bflyPair st k = q)
    (hz : ∀ j, bflyPair st j = q → z.readC j = z'.readC j) :
    (butterflyZ N c inv st q z).readC k = (butterflyZ N c inv st q z').readC k := by
  rw [readC_butterflyZ, readC_butterflyZ, bflyProduct, bflyProduct, hz _ (bflyPair_top h1 q),
    hz _ (bflyPair_bottom h1 q), hz k hk]

/-- At an entry of the first one's pair, two butterflies of a stage commute: the other one neither changes
what the first reads nor what it writes. -/
theorem readC_butterflyZ_comm {p q k : Nat} (hpq : p ≠ q) (hk : bflyPair st k = p) (z : Memory α) :
    (butterflyZ N c inv st q (butterflyZ N c inv st p z)).readC k
      = (butterflyZ N c inv st p (butterflyZ N c inv st q z)).readC k := by
  rw [readC_butterflyZ_of_other h1 _ (hk.trans_ne hpq)]
  exact readC_butterflyZ_congr h1 hk fun j hj =>
    (readC_butterflyZ_of_other h1 z (hj.trans_ne hpq)).symm

/-- Two butterflies of one stage commute. -/
theorem butterflyZ_comm {z : Memory α} (hz : z.wf = true) (p q : Nat) :
    butterflyZ N c inv st q (butterflyZ N c inv st p z)
      = butterflyZ N c inv st p (butterflyZ N c inv st q z) := by
  by_cases hpq : p = q
  · rw [hpq]
  refine Memory.ext_of_readC (wf_butterflyZ (wf_butterflyZ hz)) (wf_butterflyZ (wf_butterflyZ hz)) fun k => ?_
  by_cases hp : bflyPair st k = p
  · exact readC_butterflyZ_comm h1 hpq hp z
  · by_cases hq : bflyPair st k = q
    · exact (readC_butterflyZ_comm h1 (Ne.symm hpq) hq z).symm
    · simp only [readC_butterflyZ_of_other h1 _ hp, readC_butterflyZ_of_other h1 _ hq]

end

/-- Settles O17: the butterflies of a stage complete and commute on every canonical buffer. -/
theorem butterflyOrderFree : Obligations.ButterflyOrderFree := by
  intro s inv st order h hw hz h1 hM hperm
  have hmem : ∀ i ∈ order, ∃ q < s.cfg.N / 2,
      .fftBfly inv (BitVec.ofNat 5 st) (BitVec.ofNat 18 q) = i := fun i hi => by
    simpa [pseudoFftPass] using hperm.mem_iff.mp hi
  have hfree : execAll order s = execAll (pseudoFftPass s.cfg inv st) s := by
    refine execAll_perm (P := fun t => ∃ z, Memory.wf z = true ∧ t = s.withZ z) hperm ?_ ?_
      ⟨s.Z, hz.1, rfl⟩
    · rintro i hi _ ⟨z, hcanon, rfl⟩
      obtain ⟨q, hq, rfl⟩ := hmem i hi
      exact ⟨_, exec_fftBfly_ofNat h hw h1 hM hq z, _, wf_butterflyZ hcanon, rfl⟩
    · rintro i hi j hj _ ⟨z, hcanon, rfl⟩
      obtain ⟨p, hp, rfl⟩ := hmem i hi
      obtain ⟨q, hq, rfl⟩ := hmem j hj
      rw [execAll_two_butterflies h hw h1 hM hp hq, execAll_two_butterflies h hw h1 hM hq hp,
        butterflyZ_comm h1 hcanon p q]
  have hpass := execAll_pseudoFftPass h hw h1 hM s.Z (inv := inv)
  exact ⟨_, hfree.trans hpass, hpass⟩

end Sys2Proof.Machine
end

section
/-! The commands of the convolution engine (41_convolution.md R151 to R158), and `NN.RESET`, which clears a
memory as `CONV.CLEAR` does (42_neural.md R178).

A row of `PART` or `HIST` is known by two facts about `storeRow`: the row reads as the buffer stored, and no
other word changes. `CONV.INIT` is the loop `State.loadPartitions`, which stores its rows in ascending order,
so a row once stored is left alone. -/

namespace Sys2Proof.Machine

/-! ### One row of `PART` or `HIST` (R77) -/

section

variable {α : Type} [Inhabited α] [DecidableEq α] {c : Cfg}

/-- The row holds the first `2 * N` words of the buffer, and every other word is as it was. -/
theorem read_storeRow (rows : Memory α) (p : Nat) (z : Memory α) (a : Nat) :
    (storeRow c rows p z).read a
      = if rowBase c p ≤ a ∧ a < rowBase c p + 2 * c.N then z.read (a - rowBase c p) else rows.read a := by
  rw [storeRow, Memory.read_writeBlock, Memory.length_readBlock, Memory.getD_readBlock, Nat.zero_add]
  split
  · rw [if_pos (by omega)]
  · rfl

theorem read_storeRow_of_outside (rows : Memory α) {p : Nat} (z : Memory α) {a : Nat}
    (ha : a < rowBase c p ∨ rowBase c p + 2 * c.N ≤ a) : (storeRow c rows p z).read a = rows.read a := by
  rw [read_storeRow, if_neg (by omega)]

theorem two_mul_rowEntry (c : Cfg) (p k : Nat) : 2 * rowEntry c p k = rowBase c p + 2 * k := by
  rw [rowEntry, rowBase]
  ring

theorem readC_storeRow (rows : Memory α) (p : Nat) (z : Memory α) {k : Nat} (hk : k < c.N) :
    (storeRow c rows p z).readC (rowEntry c p k) = z.readC k := by
  have hre : rowBase c p + 2 * k - rowBase c p = 2 * k := by omega
  have him : rowBase c p + 2 * k + 1 - rowBase c p = 2 * k + 1 := by omega
  rw [Memory.readC, two_mul_rowEntry, read_storeRow, read_storeRow, if_pos (by omega), if_pos (by omega), hre,
    him, Memory.readC]

/-- Storing a later row leaves the row. -/
theorem readC_storeRow_of_lt (rows : Memory α) {p q : Nat} (z : Memory α) {k : Nat} (hk : k < c.N)
    (hq : q < p) : (storeRow c rows p z).readC (rowEntry c q k) = rows.readC (rowEntry c q k) := by
  have hrows : rowBase c q + 2 * c.N ≤ rowBase c p :=
    (Nat.succ_mul q (2 * c.N)).symm.trans_le (Nat.mul_le_mul_right _ hq)
  rw [Memory.readC, two_mul_rowEntry, read_storeRow_of_outside _ _ (.inl (by omega)),
    read_storeRow_of_outside _ _ (.inl (by omega)), Memory.readC, two_mul_rowEntry]

end

/-! ### `CONV.INIT` (R151, R152) -/

section

variable {c : Cfg} {z z' : Memory NumWord}

/-- A bit reversal reads the entries of the transform only. -/
theorem bitReverseZ_congr (hw : c.wf = true) (h : ∀ m < c.N, z.readC m = z'.readC m) :
    bitReverseZ c z = bitReverseZ c z' := by
  refine Memory.ext_of_readC (Memory.wf_tabulateC _ _) (Memory.wf_tabulateC _ _) fun i => ?_
  by_cases hi : i < c.N
  · rw [readC_bitReverseZ hi, readC_bitReverseZ hi, h _ (Cfg.N_eq_two_pow hw ▸ bitRev_lt c.M i)]
  · have hsize : ∀ z : Memory NumWord, (bitReverseZ c z).inSize (2 * c.N) = true :=
      fun _ => Memory.inSize_tabulateC _ _
    rw [Memory.readC_of_inSize (hsize z) (not_lt.mp hi), Memory.readC_of_inSize (hsize z') (not_lt.mp hi)]

/-- A transform depends on the entries of the transform only. -/
theorem transformZ_congr (hw : c.wf = true) (N : NUM NumWord) (inv : Bool)
    (h : ∀ m < c.N, z.readC m = z'.readC m) : transformZ N c inv z = transformZ N c inv z' := by
  rw [transformZ, transformZ, bitReverseZ_congr hw h]

end

section

variable {s : State} {idx : BitVec 24}

/-- Partitions `0` to `k - 1` of an impulse response through `Z` into `PART`. -/
def State.loadPartitions (ir : List NumWord) (k : Nat) (s : State) : State :=
  (List.range k).foldl (fun t p => t.loadPartition ir p) s

variable (ir : List NumWord) (k : Nat) (s)

theorem State.loadPartitions_succ :
    s.loadPartitions ir (k + 1) = (s.loadPartitions ir k).loadPartition ir k := by
  simp [State.loadPartitions, List.range_succ]

theorem State.loadPartitions_frame :
    s.loadPartitions ir k = { s with Z := (s.loadPartitions ir k).Z, PART := (s.loadPartitions ir k).PART } := by
  induction k with
  | zero => rfl
  | succ k ih =>
    rw [State.loadPartitions_succ, ih]
    rfl

theorem State.loadPartitions_cfg : (s.loadPartitions ir k).cfg = s.cfg := by
  rw [State.loadPartitions_frame]

theorem State.loadPartitions_PART_succ :
    (s.loadPartitions ir (k + 1)).PART
      = storeRow s.cfg (s.loadPartitions ir k).PART k (partitionSpectrum s.cfg.arith s.cfg ir k) := by
  rw [State.loadPartitions_succ, ← s.loadPartitions_cfg ir k]
  rfl

/-- `Z` holds the spectrum of the last partition. -/
theorem State.loadPartitions_Z_succ :
    (s.loadPartitions ir (k + 1)).Z = partitionSpectrum s.cfg.arith s.cfg ir k := by
  rw [State.loadPartitions_succ, ← s.loadPartitions_cfg ir k]
  rfl

/-- Every row below `k` holds the spectrum of its partition. -/
theorem State.loadPartitions_readC {p m : Nat} (hp : p < k) (hm : m < s.cfg.N) :
    (s.loadPartitions ir k).PART.readC (rowEntry s.cfg p m)
      = (partitionSpectrum s.cfg.arith s.cfg ir p).readC m := by
  induction k with
  | zero => omega
  | succ k ih =>
    rw [State.loadPartitions_PART_succ]
    rcases Nat.lt_succ_iff_lt_or_eq.mp hp with hlt | rfl
    · rw [readC_storeRow_of_lt _ _ hm hlt, ih hlt]
    · exact readC_storeRow _ _ _ hm

/-- The rows from `k` on keep their words. -/
theorem State.loadPartitions_read_of_le {a : Nat} (ha : rowBase s.cfg k ≤ a) :
    (s.loadPartitions ir k).PART.read a = s.PART.read a := by
  induction k with
  | zero => rfl
  | succ k ih =>
    have hrow : rowBase s.cfg k + 2 * s.cfg.N ≤ a := (Nat.succ_mul k (2 * s.cfg.N)).symm.trans_le ha
    rw [State.loadPartitions_PART_succ, read_storeRow_of_outside _ _ (.inr hrow), ih (by omega)]

variable {ir k s}

theorem exec_convInit (h : s.PHASE ≠ .halt) : exec (.convInit idx) s = .next (s.convInit idx) :=
  exec_of_legal h rfl

/-- `CONV.INIT` of a row that exists and fits. -/
theorem State.convInit_of_fits (hidx : idx.toNat < s.cfg.NIR)
    (hk : partitionCount s.cfg (s.cfg.ir idx.toNat).length = k) (hfit : k ≤ s.cfg.KMAX) :
    s.convInit idx
      = { s with
          K := k
          PART := (State.loadPartitions (s.cfg.ir idx.toNat) k { s with K := k }).PART
          Z := (State.loadPartitions (s.cfg.ir idx.toNat) k { s with K := k }).Z
          HIST := [], OVL := [], WIDX := 0, CURI := idx } := by
  have hloaded : s.convInit idx
      = { State.loadPartitions (s.cfg.ir idx.toNat) k { s with K := k } with
          HIST := [], OVL := [], WIDX := 0, CURI := idx } := by
    subst hk
    rw [State.convInit, if_neg (not_le.mpr hidx)]
    exact if_neg (not_lt.mpr hfit)
  rw [hloaded, State.loadPartitions_frame]

/-- `CONV.INIT` of a row that does not exist or does not fit. -/
theorem State.convInit_of_bad
    (h : s.cfg.NIR ≤ idx.toNat ∨ s.cfg.KMAX < partitionCount s.cfg (s.cfg.ir idx.toNat).length) :
    s.convInit idx = s.fatal .configurationMismatch := by
  rw [State.convInit]
  split
  · rfl
  · rename_i hidx
    exact if_pos (h.resolve_left hidx)

theorem readC_partitionFrame {c : Cfg} (ir : List NumWord) (p : Nat) {m : Nat} (hm : m < c.N) :
    (partitionFrame c ir p).readC m = ⟨irWord c ir p m, silence⟩ :=
  Memory.readC_tabulateC _ hm

/-- The transform of a buffer that holds the frame of a partition is the spectrum of the partition. -/
theorem partitionSpectrum_eq {c : Cfg} (hw : c.wf = true) (N : NUM NumWord) {ir : List NumWord} {p : Nat}
    {z : Memory NumWord} (hz : ∀ m < c.N, z.readC m = ⟨irWord c ir p m, silence⟩) :
    transformZ N c false z = partitionSpectrum N c ir p :=
  transformZ_congr hw N false fun m hm => (hz m hm).trans (readC_partitionFrame ir p hm).symm

end

/-- Settles O18: the rows and the last buffer are the spectra of the partitions, and a transform depends on
the frame in `Z` alone. -/
theorem convInitLoads : Obligations.ConvInitLoads := by
  intro s idx h hw hidx ir k hfit
  refine ⟨Laws.commandWord_toNat 0x21 idx, _,
    (exec_convInit h).trans (congrArg _ (State.convInit_of_fits hidx rfl hfit)), rfl, ?_, ?_⟩
  · intro p hp u hcfg hu hz
    have hspec : (u.fftTransform false).Z = partitionSpectrum s.cfg.arith s.cfg ir p := by
      rw [State.fftTransform, hcfg]
      exact partitionSpectrum_eq hw _ hz
    refine ⟨_, exec_of_legal hu rfl, fun m hm => ?_, fun hlast m _ => ?_⟩
    · rw [hspec]
      exact State.loadPartitions_readC _ _ _ hp hm
    · rw [hspec]
      show (State.loadPartitions ir k { s with K := k }).Z.readC m = _
      rw [← hlast, State.loadPartitions_Z_succ]
  · exact fun a ha => State.loadPartitions_read_of_le _ _ _ ha

/-- Settles O19: either bad row takes the one entry of the fatal faults. -/
theorem convInitFaults : Obligations.ConvInitFaults := fun _ _ h hbad =>
  (exec_convInit h).trans (congrArg _ (State.convInit_of_bad hbad))

/-! ### `CONV.CLEAR` and `NN.RESET` (R153; 42_neural.md R178) -/

/-- Settles O20: the cleared memories list no word, and an unlisted word reads `+0`. -/
theorem clearsToSilence : Obligations.ClearsToSilence :=
  ⟨by decide, by decide, fun _ h =>
    ⟨⟨_, exec_of_legal h rfl, rfl, Memory.read_nil, Memory.read_nil⟩,
      ⟨_, exec_of_legal h rfl, rfl, Memory.read_nil⟩⟩⟩

/-! ### `CONV.FRAME` (R154) -/

section

variable {α : Type} [Inhabited α] [DecidableEq α] {c : Cfg} (ovl w : Memory α) {m : Nat} (hm : m < c.L)

include hm

theorem readC_blockFrame_previous : (blockFrame c ovl w).readC m = ⟨ovl.read m, silence⟩ := by
  rw [blockFrame, Memory.readC_tabulateC _ (by rw [Cfg.N]; omega), if_pos hm]

theorem readC_blockFrame_current : (blockFrame c ovl w).readC (c.L + m) = ⟨w.read m, silence⟩ := by
  rw [blockFrame, Memory.readC_tabulateC _ (by rw [Cfg.N]; omega), if_neg (by omega), Nat.add_sub_cancel_left]

end

/-- Settles O21: the two halves of the frame, and the block saved. -/
theorem convFrameBuilds : Obligations.ConvFrameBuilds := by
  refine ⟨by decide, fun s h => ⟨_, exec_of_legal h rfl, rfl, fun m hm =>
    ⟨readC_blockFrame_previous _ _ hm, readC_blockFrame_current _ _ hm, ?_⟩⟩⟩
  exact (Memory.read_tabulate _ _ m).trans (if_pos hm)

/-! ### The commands on the ring (R155 to R158) -/

section

variable {s : State} (h : s.PHASE ≠ .halt) (hwidx : s.WIDX < s.K) (hk : s.K ≤ s.cfg.KMAX)

include h hwidx hk

/-- A command that tests the ring index completes where the index is in range. -/
theorem exec_on_ring {i : Instr} {t : State} (hi : i.wf s.cfg = true)
    (he : effect i s = inSpace s.ringInRange t) : exec i s = .next t := by
  rw [exec_of_legal h hi, he, State.ringInRange_iff.mpr ⟨hwidx, hk⟩, inSpace_true]

end

/-- Settles O22: the row `WIDX` is stored and no other word. -/
theorem convPushStores : Obligations.ConvPushStores :=
  ⟨by decide, fun _ h hwidx hk => ⟨_, exec_on_ring h hwidx hk rfl rfl, rfl,
    fun _ hm => readC_storeRow _ _ _ hm, fun _ ha => read_storeRow_of_outside _ _ ha⟩⟩

/-- The sum of `macLane` over partitions `0` to `n - 1` (R156). -/
def macPartial {α : Type} [Inhabited α] (N : NUM α) (c : Cfg) (hist part : Memory α) (widx count k n : Nat) :
    Cplx α :=
  (List.range n).foldl
    (fun acc (p : Nat) =>
      N.cadd acc (N.cmul (hist.readC (rowEntry c (ringIndex widx p count) k))
        (part.readC (rowEntry c p k))))
    czero

section

variable {α : Type} [Inhabited α] (N : NUM α) (c : Cfg) (hist part : Memory α) (widx count k : Nat)

theorem macPartial_succ (n : Nat) :
    macPartial N c hist part widx count k (n + 1)
      = N.cadd (macPartial N c hist part widx count k n)
          (N.cmul (hist.readC (rowEntry c (ringIndex widx n count) k)) (part.readC (rowEntry c n k))) := by
  simp [macPartial, List.range_succ]

theorem macLane_eq_macPartial :
    macLane N c hist part widx count k = macPartial N c hist part widx count k count := rfl

end

theorem ringIndex_of_eq {ptr size r : Nat} {off : Int} (hr : (r : Int) = ((ptr : Int) - off) % size) :
    ringIndex ptr off size = r := by
  rw [ringIndex, ← hr, Int.toNat_natCast]

/-- Settles O23: the lane is the sum over all partitions, which grows by one product for each. -/
theorem convMacAccumulates : Obligations.ConvMacAccumulates := by
  refine ⟨by decide, fun s h hwidx hk => ⟨_, exec_on_ring h hwidx hk rfl rfl, rfl, fun k hlane =>
    ⟨macPartial s.cfg.arith s.cfg s.HIST s.PART s.WIDX s.K k, rfl, fun p _ r hr => ?_, ?_⟩⟩⟩
  · rw [macPartial_succ, ringIndex_of_eq hr]
    rfl
  · exact (Memory.readC_tabulateC _ hlane).trans (macLane_eq_macPartial ..)

/-- Settles O24: every sample is scaled, tested and stored. -/
theorem convOutScales : Obligations.ConvOutScales :=
  ⟨by decide, fun _ h hwidx hk => ⟨_, exec_on_ring h hwidx hk rfl rfl, rfl,
    fun m hm => (Memory.read_tabulate _ _ m).trans (if_pos hm)⟩⟩

/-- What the six steps may change. -/
theorem State.convBlock_frame (s : State) :
    s.convBlock
      = { s with
          Z := s.convBlock.Z, OVL := s.convBlock.OVL, HIST := s.convBlock.HIST, W := s.convBlock.W
          WIDX := s.convBlock.WIDX, NFAULT := s.convBlock.NFAULT } := by
  cases s
  rfl

section

variable {s : State} (h : s.PHASE ≠ .halt) (hwidx : s.WIDX < s.K) (hk : s.K ≤ s.cfg.KMAX)

include h hwidx hk

/-- None of the six steps leaves the phase or the ring registers that the next one tests. -/
theorem execAll_convSequence : execAll convSequence s = .next s.convBlock := by
  have hframe := exec_of_legal (i := .convFrame) h rfl
  have hfwd := exec_of_legal (i := .fftFwd) (s := s.convFrame) h rfl
  have hpush := exec_on_ring (i := .convPush) (s := s.convFrame.fftTransform false) h hwidx hk rfl rfl
  have hmac := exec_on_ring (i := .convMac) (s := (s.convFrame.fftTransform false).convPush)
    (by simpa using h) (by simpa using hwidx) (by simpa using hk) rfl rfl
  have hinv := exec_of_legal (i := .fftInv) (s := (s.convFrame.fftTransform false).convPush.convMac)
    (by simpa using h) rfl
  have hout := exec_on_ring (i := .convOut)
    (s := (s.convFrame.fftTransform false).convPush.convMac.fftTransform true)
    (by simpa using h) (by simpa using hwidx) (by simpa using hk) rfl rfl
  rw [convSequence, execAll_cons _ _ _ _ hframe, execAll_cons _ _ _ _ hfwd, execAll_cons _ _ _ _ hpush,
    execAll_cons _ _ _ _ hmac, execAll_cons _ _ _ _ hinv, execAll_cons _ _ _ _ hout, execAll_nil,
    State.convBlock]

end

/-- Settles O25: `CONV.BLOCK` is its six steps by name. -/
theorem convBlockIsSixSteps : Obligations.ConvBlockIsSixSteps :=
  ⟨by decide, fun s h hwidx hk => ⟨s.convBlock, exec_on_ring h hwidx hk rfl rfl, s.convBlock_frame,
    execAll_convSequence h hwidx hk⟩⟩

end Sys2Proof.Machine
end

section
/-! The spectrum of the unit impulse response (41_convolution.md R161; 40_fft.md R136).

After stage `st` of the transform the entries below `2 ^ st` are `(1, +0)` and the others `(+0, +0)`. In every
pair of the next stage the lower entry is then `(+0, +0)`, its product with a finite twiddle factor is a pair
of zeros, and adding or subtracting these leaves the upper entry as it is, exactly: both entries of the pair
become the upper one. -/

namespace Sys2Proof.Machine

/-! ### The stages of a transform (40_fft.md R136) -/

section

variable {α : Type} [Inhabited α] [DecidableEq α] {N : NUM α} {c : Cfg} {inv : Bool} {st : Nat} (h1 : 1 ≤ st)

include h1

/-- Of the butterflies `0` to `n - 1` of a stage, the one that holds an entry is the one that changes it. -/
theorem readC_butterflies (z : Memory α) (n k : Nat) :
    ((List.range n).foldl (fun z q => butterflyZ N c inv st q z) z).readC k
      = if bflyPair st k < n then (butterflyZ N c inv st (bflyPair st k) z).readC k else z.readC k := by
  induction n generalizing k with
  | zero => rfl
  | succ n ih =>
    rw [List.range_succ, List.foldl_append, List.foldl_cons, List.foldl_nil]
    by_cases hk : bflyPair st k = n
    · rw [if_pos (by omega), hk]
      exact readC_butterflyZ_congr h1 hk fun j hj => (ih j).trans (if_neg (by omega))
    · rw [readC_butterflyZ_of_other h1 _ hk, ih]
      simp only [show bflyPair st k < n + 1 ↔ bflyPair st k < n by omega]

/-- A stage does to an entry what the butterfly of its pair does. -/
theorem readC_stageZ (hw : c.wf = true) (hM : st ≤ c.M) (z : Memory α) {k : Nat} (hk : k < c.N) :
    (stageZ N c inv st z).readC k = (butterflyZ N c inv st (bflyPair st k) z).readC k :=
  (readC_butterflies h1 z _ k).trans (if_pos (bflyPair_lt hw h1 hM hk))

omit [Inhabited α] [DecidableEq α] N c inv in
/-- The upper entry of a pair is in the first half group exactly if the pair is in the first group. -/
theorem bflyTop_lt_half_iff (k : Nat) : bflyTop st (bflyPair st k) < bflyHalf st ↔ k < bflySpan st := by
  have hspan := bflySpan_eq h1
  have hj : bflyJ st (bflyPair st k) < bflyHalf st := Nat.mod_lt _ (bflyHalf_pos st)
  have hgroup : bflyPair st k / bflyHalf st = 0 ∨
      bflySpan st ≤ bflyPair st k / bflyHalf st * bflySpan st := by
    rcases Nat.eq_zero_or_pos (bflyPair st k / bflyHalf st) with h | h
    · exact .inl h
    · exact .inr (Nat.le_mul_of_pos_left _ h)
  have hk := eq_top_or_bottom_bflyPair h1 k
  simp only [bflyBottom, bflyTop] at hk ⊢
  rcases hgroup with h | h
  · rw [h, Nat.zero_mul] at hk ⊢
    omega
  · omega

end

/-! ### Adding and subtracting zeros -/

/-- Adding or subtracting `(+0, +0)` times `w` leaves `a`. -/
def AbsorbsZeros (N : NUM NumWord) (a w : Cplx NumWord) : Prop :=
  N.cadd a (N.cmul czero w) = a ∧ N.csub a (N.cmul czero w) = a

/-- From `1`, adding or subtracting the difference of two zeros gives `1`. -/
theorem F32.one_add_sub_zeros : ∀ s u : Bool,
    F32.add F32.one (F32.sub (F32.pack s 0) (F32.pack u 0)) = F32.one
      ∧ F32.sub F32.one (F32.sub (F32.pack s 0) (F32.pack u 0)) = F32.one := by
  decide +kernel

theorem F32.add_sub_zeros {a : Num32} (ha : a = F32.one ∨ a = F32.zero) (s u : Bool) :
    F32.add a (F32.sub (F32.pack s 0) (F32.pack u 0)) = a
      ∧ F32.sub a (F32.sub (F32.pack s 0) (F32.pack u 0)) = a := by
  rcases ha with rfl | rfl
  · exact F32.one_add_sub_zeros s u
  · obtain ⟨hadd, hsub, -, -⟩ := F32.zero_add_sub_zeros s u
    exact ⟨hadd, hsub⟩

theorem absorbs_f32 {a : Num32} {w : Cplx NumWord} (tol : Rat) (ha : a = F32.one ∨ a = F32.zero)
    (hre : F32.finite (F32.pattern w.re) = true) (him : F32.finite (F32.pattern w.im) = true) :
    AbsorbsZeros (NUM_F32 tol).onWords ⟨F32.word a, silence⟩ w := by
  have hzero : F32.pattern 0 = F32.zero := by decide
  have hword : F32.word F32.zero = (silence : NumWord) := by decide
  obtain ⟨hadd, hsub⟩ := F32.add_sub_zeros ha (F32.sign (F32.pattern w.re)) (F32.sign (F32.pattern w.im))
  obtain ⟨-, -, hadd', hsub'⟩ :=
    F32.zero_add_sub_zeros (F32.sign (F32.pattern w.im)) (F32.sign (F32.pattern w.re))
  have hmre : F32.mul F32.zero (F32.pattern w.re) = _ := F32.mul_zero_left hre
  have hmim : F32.mul F32.zero (F32.pattern w.im) = _ := F32.mul_zero_left him
  constructor
  · simp [NUM.cadd, NUM.cmul, NUM.onWords, NUM_F32, czero, hzero, hmre, hmim, hadd, hadd', hword]
  · simp [NUM.csub, NUM.cmul, NUM.onWords, NUM_F32, czero, hzero, hmre, hmim, hsub, hsub', hword]

namespace Fix

variable {w f : Nat} {a : Int}

theorem finite_zero (w f : Nat) : finite w f 0 = true := by
  obtain ⟨h0, h1⟩ := fix_range w
  simp [finite, NumFormat.finite, h0, h1]

theorem mul_zero_left (ha : finite w f a = true) : mul w f 0 a = 0 := by
  have hmin := fixMin_add_fixMax w
  have hmax := fixMax_nonneg w
  have hn : neighbour w f .mul 0 a (0 * a) (2 ^ f) = 0 := by simp [neighbour]
  rw [mul, hn]
  exact result_of_range (finite_zero w f) ha (by omega) hmax

theorem add_zero_right (ha : finite w f a = true) : add w f a 0 = a := by
  obtain ⟨h0, h1⟩ := (finite_iff w f a).1 ha
  rw [add, Int.add_zero]
  exact result_of_range ha (finite_zero w f) h0 h1

theorem sub_zero_right (ha : finite w f a = true) : sub w f a 0 = a := by
  obtain ⟨h0, h1⟩ := (finite_iff w f a).1 ha
  rw [sub, Int.sub_zero]
  exact result_of_range ha (finite_zero w f) h0 h1

theorem finite_twiddleTable (w f N k : Nat) :
    finite w f ((NUM_FIX w f).TW N k).re = true ∧ finite w f ((NUM_FIX w f).TW N k).im = true := by
  show finite w f (twiddleTable _ _ _ N k).re = true ∧ finite w f (twiddleTable _ _ _ N k).im = true
  have hconst : ∀ q, finite w f (const w f q) = true := fun _ => finite_value _
  have htrig : ∀ s M j, finite w f (ofTrig w f s M j) = true := fun _ _ _ => finite_value _
  unfold twiddleTable
  split
  · exact ⟨hconst _, finite_zero w f⟩
  · split
    · exact ⟨finite_zero w f, hconst _⟩
    · split
      · exact ⟨htrig _ _ _, htrig _ _ _⟩
      · exact ⟨htrig _ _ _, htrig _ _ _⟩

end Fix

theorem absorbs_fix {w f : Nat} {a : NumWord} {t : Cplx NumWord} (ha : Fix.finite w f a = true)
    (hre : Fix.finite w f t.re = true) (him : Fix.finite w f t.im = true) :
    AbsorbsZeros (NUM_FIX w f) ⟨a, silence⟩ t := by
  have h0 := Fix.finite_zero w f
  constructor
  · simp [NUM.cadd, NUM.cmul, NUM_FIX, czero, Fix.mul_zero_left, Fix.add_zero_right, Fix.sub_zero_right, *]
  · simp [NUM.csub, NUM.cmul, NUM_FIX, czero, Fix.mul_zero_left, Fix.add_zero_right, Fix.sub_zero_right, *]

/-! ### The transform of a unit impulse -/

section

variable {c : Cfg}

/-- The entry `(1, +0)`. -/
def unitC (c : Cfg) : Cplx NumWord := ⟨c.arith.num 1, silence⟩

/-- The forward twiddle factors of a chip are finite, so `(1, +0)` and `(+0, +0)` absorb the zeros that a
butterfly makes of a lower entry `(+0, +0)`. -/
theorem absorbs_bflyFactor (c : Cfg) (st q : Nat) {a : Cplx NumWord} (ha : a = unitC c ∨ a = czero) :
    AbsorbsZeros c.arith a (bflyFactor c.arith c false st q) := by
  cases hk : c.NUM with
  | f32 =>
    obtain ⟨hre, him⟩ := finite_bflyFactor hk false st q
    have hone : F32.num 1 = F32.one := by decide +kernel
    have hunit : unitC c = ⟨F32.word F32.one, silence⟩ := by
      rw [unitC, arith_f32 hk, ← hone]
      rfl
    rw [hunit] at ha
    rw [arith_f32 hk] at hre him ⊢
    rcases ha with rfl | rfl
    · exact absorbs_f32 _ (.inl rfl) hre him
    · exact absorbs_f32 _ (.inr rfl) hre him
  | fix w f =>
    obtain ⟨hre, him⟩ := Fix.finite_twiddleTable w f c.N (bflyTwiddle c.N st q)
    rw [unitC, arith_fix hk] at ha
    rw [arith_fix hk]
    rcases ha with rfl | rfl
    · exact absorbs_fix (Fix.finite_value _) hre him
    · exact absorbs_fix (Fix.finite_zero w f) hre him

/-- The entries of the transform below `n` are `(1, +0)`, the others `(+0, +0)`. -/
def OnesBelow (c : Cfg) (n : Nat) (z : Memory NumWord) : Prop :=
  ∀ k < c.N, z.readC k = if k < n then unitC c else czero

variable {z : Memory NumWord} {st : Nat}

/-- A butterfly copies the upper entry of its pair into the lower one. -/
theorem OnesBelow.readC_butterflyZ (hz : OnesBelow c (bflyHalf st) z) {q k : Nat} (hq : bflyBottom st q < c.N)
    (hk : k = bflyTop st q ∨ k = bflyBottom st q) :
    (butterflyZ c.arith c false st q z).readC k = z.readC (bflyTop st q) := by
  have htop : bflyTop st q < c.N := (Nat.le_add_right _ _).trans_lt hq
  have hlow : z.readC (bflyBottom st q) = czero :=
    (hz _ hq).trans (if_neg (not_lt.mpr (Nat.le_add_left _ _)))
  have hup : z.readC (bflyTop st q) = unitC c ∨ z.readC (bflyTop st q) = czero := by
    rw [hz _ htop]
    split
    · exact .inl rfl
    · exact .inr rfl
  obtain ⟨hadd, hsub⟩ := absorbs_bflyFactor c st q hup
  rw [Machine.readC_butterflyZ, bflyProduct, hlow, hadd, hsub]
  rcases hk with rfl | rfl
  · simp [bflyTop_ne_bottom]
  · simp

/-- A stage doubles the number of ones. -/
theorem OnesBelow.stageZ (hw : c.wf = true) (h1 : 1 ≤ st) (hM : st ≤ c.M)
    (hz : OnesBelow c (bflyHalf st) z) : OnesBelow c (bflySpan st) (stageZ c.arith c false st z) := by
  intro k hk
  have hq := bflyBottom_lt_N hw h1 hM (bflyPair_lt hw h1 hM hk)
  rw [readC_stageZ h1 hw hM z hk, hz.readC_butterflyZ hq (eq_top_or_bottom_bflyPair h1 k),
    hz _ ((Nat.le_add_right _ _).trans_lt hq)]
  simp only [bflyTop_lt_half_iff h1]

theorem OnesBelow.stages (hw : c.wf = true) (hz : OnesBelow c 1 z) {m : Nat} (hm : m ≤ c.M) :
    OnesBelow c (2 ^ m) ((List.range m).foldl (fun z i => Machine.stageZ c.arith c false (i + 1) z) z) := by
  induction m with
  | zero => exact hz
  | succ m ih =>
    rw [List.range_succ, List.foldl_append]
    exact OnesBelow.stageZ hw (by omega) hm (ih (by omega))

theorem bitRev_eq_zero_iff {m i : Nat} (hi : i < 2 ^ m) : bitRev m i = 0 ↔ i = 0 := by
  obtain ⟨-, hends, -⟩ := bitReversal
  obtain ⟨hzero, -⟩ := hends m
  constructor
  · intro h
    rw [← bitRev_bitRev hi, h, hzero]
  · rintro rfl
    exact hzero

/-- The bit reversal leaves a one in entry 0 where it is. -/
theorem OnesBelow.bitReverseZ (hw : c.wf = true) (hz : OnesBelow c 1 z) : OnesBelow c 1 (bitReverseZ c z) := by
  intro k hk
  have hN := Cfg.N_eq_two_pow hw
  rw [readC_bitReverseZ hk, hz _ (hN ▸ bitRev_lt c.M k)]
  simp only [Nat.lt_one_iff, bitRev_eq_zero_iff (hN ▸ hk)]

/-- 40_fft.md R136: the forward transform of a one in entry 0 is one in every entry. -/
theorem OnesBelow.transformZ (hw : c.wf = true) (hz : OnesBelow c 1 z) :
    OnesBelow c c.N (transformZ c.arith c false z) := by
  have h := (hz.bitReverseZ hw).stages hw le_rfl
  rwa [← Cfg.N_eq_two_pow hw] at h

/-- The only partition of the impulse response `[1]`. -/
theorem onesBelow_partitionFrame (hw : c.wf = true) : OnesBelow c 1 (partitionFrame c [c.arith.num 1] 0) := by
  obtain ⟨hL, -⟩ := Cfg.sizes_of_wf hw
  intro m hm
  rw [readC_partitionFrame _ _ hm]
  by_cases h0 : m = 0
  · subst h0
    simp [irWord, unitC, show 0 < c.L by omega]
  · simp [irWord, czero, h0]

end

theorem partitionCount_one {c : Cfg} (hw : c.wf = true) : partitionCount c 1 = 1 := by
  obtain ⟨hL, -⟩ := Cfg.sizes_of_wf hw
  rw [partitionCount, Nat.add_sub_cancel_left, Nat.div_self hL, max_self]

/-- Settles O26: row 0 is the transform of a one in entry 0. The premise that the format has the value 1 is
what makes `num(1)` the number 1; that it is finite is all the transform needs. -/
theorem unitImpulseSpectrum : Obligations.UnitImpulseSpectrum := by
  intro s idx h hw hidx one _ hir
  obtain ⟨-, hK, -, -⟩ := Cfg.sizes_of_wf hw
  have hcount : partitionCount s.cfg (s.cfg.ir idx.toNat).length = 1 := by
    rw [hir]
    exact partitionCount_one hw
  refine ⟨_, (exec_convInit h).trans (congrArg _ (State.convInit_of_fits hidx hcount hK)), rfl, fun k hk => ?_⟩
  have hrow := State.loadPartitions_readC { s with K := 1 } (s.cfg.ir idx.toNat) 1 Nat.one_pos hk
  rw [rowEntry, Nat.zero_mul, Nat.zero_add, hir] at hrow
  rw [hir]
  exact hrow.trans (((onesBelow_partitionFrame hw).transformZ hw k hk).trans (if_pos hk))

end Sys2Proof.Machine
end

section
/-! The neural stage (42_neural.md R176 to R184).

One inference step has ten values, the output and the nine components of the new hidden state, and commits
them all or none (R182). With the weights of the constant model (R184) every product in the cell has a factor
`+0` and a finite one, so it is a zero, and a sum that starts from `+0` or from `1` keeps it, whatever the
sign of the zero added. The two kinds of chip differ in these facts on the arithmetic alone. -/

namespace Sys2Proof.Machine

/-! ### `NN.LOAD` (R177) -/

section

variable {s : State} {idx : BitVec 24}

theorem exec_nnLoad (h : s.PHASE ≠ .halt) : exec (.nnLoad idx) s = .next (s.nnLoad idx) :=
  exec_of_legal h rfl

/-- `NN.LOAD` of a row that exists. -/
theorem State.nnLoad_of_row (hidx : idx.toNat < s.cfg.NMODEL) :
    s.nnLoad idx
      = { s with WT := Memory.tabulate modelWords (s.cfg.model idx.toNat).read, CURM := idx } :=
  if_neg (not_le.mpr hidx)

/-- `NN.LOAD` of a row outside the table. -/
theorem State.nnLoad_of_bad (hidx : s.cfg.NMODEL ≤ idx.toNat) :
    s.nnLoad idx = s.fatal .configurationMismatch :=
  if_pos hidx

end

/-- Settles O27: the weights are made of the row alone, and a bad row takes the one entry of the fatal
faults. -/
theorem nnLoadReplaces : Obligations.NnLoadReplaces := fun _ idx h =>
  ⟨Laws.commandWord_toNat 0x31 idx,
    fun hidx => ⟨_, (exec_nnLoad h).trans (congrArg _ (State.nnLoad_of_row hidx)), rfl,
      fun a ha => (Memory.read_tabulate _ _ a).trans (if_pos ha)⟩,
    fun hidx => (exec_nnLoad h).trans (congrArg _ (State.nnLoad_of_bad hidx))⟩

/-! ### One inference step (R179 to R182) -/

section

variable {α : Type} [Inhabited α] [DecidableEq α] (N : NUM α) (wt h : Memory α) (x : α)

omit [DecidableEq α] in
theorem getD_nnHiddenAll {i : Nat} (hi : i < hiddenSize) :
    (nnHiddenAll N wt h x).getD i silence = nnHidden N wt h x i := by
  simp [nnHiddenAll, hi]

omit [DecidableEq α] in
/-- The output layer of R181, by the components of the new hidden state. -/
theorem nnOutput_nnHiddenAll :
    nnOutput N wt (nnHiddenAll N wt h x)
      = N.mul ((List.range hiddenSize).foldl
          (fun acc i => N.add acc (N.mul (wt.read (wdAt i)) (nnHidden N wt h x i))) (wt.read bdAt))
          (wt.read lvlAt) :=
  congrArg (N.mul · _) (List.foldl_ext _ _ _ fun acc i hi => by
    rw [getD_nnHiddenAll N wt h x (List.mem_range.mp hi)])

/-- R179: the guard tests the ten values. -/
theorem nnStep_ok_iff :
    (nnStep N wt h x).ok = true
      ↔ N.finite (nnOutput N wt (nnHiddenAll N wt h x)) = true
        ∧ ∀ i < hiddenSize, N.finite (nnHidden N wt h x i) = true := by
  simp [nnStep, nnHiddenAll]

variable {N wt h x}

/-- A step whose ten values are finite leaves them. -/
theorem nnStep_of_ok (hok : (nnStep N wt h x).ok = true) :
    (nnStep N wt h x).y = nnOutput N wt (nnHiddenAll N wt h x)
      ∧ ∀ i < hiddenSize, (nnStep N wt h x).h.read i = nnHidden N wt h x i := by
  constructor
  · exact if_pos hok
  · intro i hi
    have hmem : (nnStep N wt h x).h = Memory.ofWords 0 (nnHiddenAll N wt h x) := if_pos hok
    rw [hmem, Memory.read_ofWords, if_pos (Nat.zero_le i), Nat.sub_zero, getD_nnHiddenAll N wt h x hi]

/-- R182: any other step leaves silence and the old hidden state. -/
theorem nnStep_of_not_ok (hok : ¬ (nnStep N wt h x).ok = true) :
    (nnStep N wt h x).y = silence ∧ (nnStep N wt h x).h = h :=
  ⟨if_neg hok, if_neg hok⟩

end

/-! ### `NN.FWD` (R179) -/

section

variable {s : State} {n : BitVec 24}

theorem exec_nnFwd (h : s.PHASE ≠ .halt) (hn : n.toNat < s.cfg.L) :
    exec (.nnFwd n) s = .next (s.nnFwd n.toNat) :=
  exec_of_legal h (decide_eq_true hn)

/-- What one step of the cell on sample `n` leaves. -/
def State.nnStepAt (s : State) (n : Nat) : NnStep NumWord := nnStep s.cfg.arith s.WT s.h (s.W.read n)

variable (s) (n : Nat)

theorem State.nnFwd_frame :
    s.nnFwd n = { s with W := (s.nnFwd n).W, h := (s.nnFwd n).h, NFAULT := (s.nnFwd n).NFAULT } := rfl

theorem State.nnFwd_h : (s.nnFwd n).h = (s.nnStepAt n).h := rfl

theorem State.read_nnFwd_W_of_ne {a : Nat} (ha : a ≠ n) : (s.nnFwd n).W.read a = s.W.read a :=
  (Memory.read_write _ _ _ a).trans (if_neg ha)

theorem State.read_nnFwd_W_self : (s.nnFwd n).W.read n = (s.nnStepAt n).y := by
  have hstored : (s.nnFwd n).W.read n = orSilence (s.nnStepAt n).ok (s.nnStepAt n).y :=
    (Memory.read_write _ _ _ n).trans (if_pos rfl)
  rw [hstored]
  by_cases hok : (s.nnStepAt n).ok = true
  · rw [hok, orSilence_true]
  · obtain ⟨hy, -⟩ := nnStep_of_not_ok hok
    rw [Bool.eq_false_of_not_eq_true hok, orSilence_false]
    exact hy.symm

end

/-- Settles O28: the step commits its ten values or none. -/
theorem nnFwdStep : Obligations.NnFwdStep := by
  intro s n h hn N x inp rcr r z c hidden y
  have hy : nnOutput N s.WT (nnHiddenAll N s.WT s.h x) = y := nnOutput_nnHiddenAll N s.WT s.h x
  have hguard : (s.nnStepAt n.toNat).ok = true ↔
      N.finite y = true ∧ ∀ i < 9, N.finite (hidden i) = true := hy ▸ nnStep_ok_iff N s.WT s.h x
  refine ⟨Laws.commandWord_toNat 0x33 n, s.nnFwd n.toNat, exec_nnFwd h hn, s.nnFwd_frame n.toNat,
    fun a ha => s.read_nnFwd_W_of_ne n.toNat ha, fun hfin => ?_, fun hfin => ?_⟩
  · obtain ⟨hout, hhidden⟩ := nnStep_of_ok (hguard.mpr hfin)
    rw [State.read_nnFwd_W_self, State.nnFwd_h]
    exact ⟨hout.trans hy, hhidden⟩
  · obtain ⟨hout, hhidden⟩ := nnStep_of_not_ok (mt hguard.mp hfin)
    rw [State.read_nnFwd_W_self, State.nnFwd_h]
    exact ⟨hout, hhidden⟩

/-! ### Zeros in the arithmetic of a chip -/

namespace F32

theorem mul_zero_right {a : Num32} (ha : finite a = true) : mul a zero = pack (sign a) 0 := by
  rw [mul_finite ha (by decide), show mag zero = 0 by decide, Nat.mul_zero, roundMag_zero,
    show sign zero = false by decide, Bool.xor_false]

/-- A zero of either sign changes neither `+0` nor `1`. -/
theorem add_signed_zero : ∀ s : Bool,
    add zero (pack s 0) = zero ∧ add one (pack s 0) = one ∧ add (pack s 0) zero = zero := by
  decide +kernel

theorem num_one : num 1 = one := by decide +kernel

theorem word_zero : word zero = (silence : NumWord) := by decide

theorem pattern_silence : pattern silence = zero := by decide

end F32

namespace Fix

variable {w f : Nat} {a : Int}

theorem mul_zero_right (ha : finite w f a = true) : mul w f a 0 = 0 := by
  have hmin := fixMin_add_fixMax w
  have hmax := fixMax_nonneg w
  have hn : neighbour w f .mul a 0 (a * 0) (2 ^ f) = 0 := by simp [neighbour]
  rw [mul, hn]
  exact result_of_range ha (finite_zero w f) (by omega) hmax

/-- The difference of two values that are not negative does not saturate. -/
theorem finite_sub {b : Int} (ha : finite w f a = true) (hb : finite w f b = true) (ha0 : 0 ≤ a)
    (hb0 : 0 ≤ b) : finite w f (sub w f a b) = true := by
  obtain ⟨-, ha1⟩ := (finite_iff w f a).1 ha
  obtain ⟨-, hb1⟩ := (finite_iff w f b).1 hb
  have hmin := fixMin_add_fixMax w
  have hexact : sub w f a b = a - b := result_of_range ha hb (by omega) (by omega)
  rw [hexact, finite_iff]
  omega

theorem sigmoid_zero (w f : Nat) : sigmoid w f 0 = const w f (mkRat 1 2) := by
  simp [sigmoid, finite_zero, value_of_finite (finite_zero w f)]

theorem tanh_zero (w f : Nat) : tanh w f 0 = 0 := by
  have hmin := fixMin_add_fixMax w
  have hmax := fixMax_nonneg w
  have hsat : saturate w 0 = 0 := saturate_of_range (by omega) hmax
  simp [tanh, finite_zero, value_of_finite (finite_zero w f), hsat]

/-- In a format that has the value 1, the product of `1` and `1` is `1`. -/
theorem num_one_mul_num_one (h : hasInt (.fix w f) 1 = true) :
    mul w f (num w f 1) (num w f 1) = num w f 1 := by
  simp only [hasInt, one_mul, Bool.and_eq_true, decide_eq_true_eq] at h
  obtain ⟨h0, h1⟩ := h
  have hfin : finite w f (2 ^ f) = true := (finite_iff _ _ _).2 ⟨h0, h1⟩
  have hnum : num w f 1 = 2 ^ f := by rw [num, one_mul, value_of_finite hfin]
  have hn : neighbour w f .mul (2 ^ f) (2 ^ f) (2 ^ f * 2 ^ f) (2 ^ f) = 2 ^ f := by
    simp [neighbour]
  rw [hnum, mul, hn]
  exact result_of_range hfin hfin h0 h1

end Fix

section

variable {c : Cfg} {a x : NumWord}

theorem finite_num_one (c : Cfg) : c.arith.finite (c.arith.num 1) = true := by
  cases hk : c.NUM with
  | f32 =>
    rw [arith_f32 hk]
    simp [NUM.onWords, NUM_F32, F32.num_one]
  | fix w f =>
    rw [arith_fix hk]
    exact Fix.finite_value (f := f) _

/-- A finite value times `+0` added to `+0` or to `1` leaves it. -/
theorem arith_add_mul_silence (ha : a = silence ∨ a = c.arith.num 1) (hx : c.arith.finite x = true) :
    c.arith.add a (c.arith.mul x silence) = a := by
  cases hk : c.NUM with
  | f32 =>
    rw [arith_f32 hk] at ha hx ⊢
    have hprod : F32.mul (F32.pattern x) F32.zero = _ := F32.mul_zero_right hx
    obtain ⟨hzero, hone, -⟩ := F32.add_signed_zero (F32.sign (F32.pattern x))
    rcases ha with rfl | rfl
    · simp only [NUM.onWords, NUM_F32, F32.pattern_silence, hprod, F32.pattern_word, hzero, F32.word_zero]
    · simp only [NUM.onWords, NUM_F32, F32.pattern_silence, hprod, F32.pattern_word, F32.num_one, hone]
  | fix w f =>
    have hafin : c.arith.finite a = true := by
      rcases ha with rfl | rfl
      · exact finite_silence c
      · exact finite_num_one c
    rw [arith_fix hk] at hafin hx ⊢
    have hprod : Fix.mul w f x silence = 0 := Fix.mul_zero_right hx
    exact (congrArg _ hprod).trans (Fix.add_zero_right hafin)

/-- `+0` times a finite value is a zero, which `+0` makes `+0`. -/
theorem arith_mul_silence_add (hx : c.arith.finite x = true) :
    c.arith.add (c.arith.mul silence x) silence = silence := by
  cases hk : c.NUM with
  | f32 =>
    rw [arith_f32 hk] at hx ⊢
    have hprod : F32.mul F32.zero (F32.pattern x) = _ := F32.mul_zero_left hx
    obtain ⟨-, -, hsum⟩ := F32.add_signed_zero (F32.sign (F32.pattern x))
    simp only [NUM.onWords, NUM_F32, F32.pattern_silence, hprod, F32.pattern_word, hsum, F32.word_zero]
  | fix w f =>
    rw [arith_fix hk] at hx ⊢
    have hprod : Fix.mul w f silence x = 0 := Fix.mul_zero_left hx
    exact (congrArg (Fix.add w f · 0) hprod).trans (Fix.add_zero_right (Fix.finite_zero w f))

theorem arith_mul_silence_silence (c : Cfg) : c.arith.mul silence silence = silence := by
  cases hk : c.NUM with
  | f32 =>
    have hprod : F32.mul F32.zero F32.zero = F32.zero := by decide
    rw [arith_f32 hk]
    simp only [NUM.onWords, NUM_F32, F32.pattern_silence, hprod, F32.word_zero]
  | fix w f =>
    rw [arith_fix hk]
    exact Fix.mul_zero_left (Fix.finite_zero w f)

theorem arith_silence_add_silence (c : Cfg) : c.arith.add silence silence = silence := by
  have h := arith_mul_silence_add (c := c) (x := silence) (finite_silence c)
  rwa [arith_mul_silence_silence] at h

/-- 00_scope.md R14: `sigmoid` is `0.5` at zero, which is finite. -/
theorem finite_sigmoid_silence (c : Cfg) : c.arith.finite (c.arith.sigmoid silence) = true := by
  cases hk : c.NUM with
  | f32 =>
    rw [arith_f32 hk]
    obtain ⟨hfin, -⟩ := F32.sigmoid_range c.SIGTOL F32.finite_zero
    simpa only [NUM.onWords, NUM_F32, F32.pattern_silence, F32.pattern_word] using hfin
  | fix w f =>
    rw [arith_fix hk]
    exact (congrArg _ (Fix.sigmoid_zero w f)).trans (Fix.finite_value (f := f) _)

/-- 00_scope.md R14: `tanh` is zero at zero. -/
theorem arith_tanh_silence (c : Cfg) : c.arith.tanh silence = silence := by
  cases hk : c.NUM with
  | f32 =>
    have hzero : F32.tanh c.SIGTOL F32.zero = F32.zero := if_pos rfl
    rw [arith_f32 hk]
    simp only [NUM.onWords, NUM_F32, F32.pattern_silence, hzero, F32.word_zero]
  | fix w f =>
    rw [arith_fix hk]
    exact Fix.tanh_zero w f

/-- `1` less the half that `sigmoid` is at zero is not negative, so that its product with `+0` is `+0`. -/
theorem arith_mul_one_sub_sigmoid_silence (c : Cfg) :
    c.arith.mul (c.arith.sub (c.arith.const 1) (c.arith.sigmoid silence)) silence = silence := by
  cases hk : c.NUM with
  | f32 =>
    have hsig : F32.sigmoid c.SIGTOL F32.zero = F32.half := if_pos (by decide)
    have hprod : F32.mul (F32.sub (F32.const 1) F32.half) F32.zero = F32.zero := by decide +kernel
    rw [arith_f32 hk]
    simp only [NUM.onWords, NUM_F32, F32.pattern_silence, F32.pattern_word, hsig, hprod, F32.word_zero]
  | fix w f =>
    obtain ⟨hone, -⟩ := Fix.const_range (w := w) (f := f) (q := 1) (by decide) (by decide)
    obtain ⟨hhalf, -⟩ := Fix.const_range (w := w) (f := f) (q := mkRat 1 2) (by decide) (by decide)
    rw [arith_fix hk]
    refine Fix.mul_zero_right (Fix.finite_sub (Fix.finite_value _) ?_ hone ?_)
    · exact (congrArg _ (Fix.sigmoid_zero w f)).trans (Fix.finite_value _)
    · exact hhalf.trans_eq (Fix.sigmoid_zero w f).symm

theorem arith_num_one_mul_num_one (h : hasInt c.NUM 1 = true) :
    c.arith.mul (c.arith.num 1) (c.arith.num 1) = c.arith.num 1 := by
  cases hk : c.NUM with
  | f32 =>
    have hprod : F32.mul F32.one F32.one = F32.one := by decide +kernel
    rw [arith_f32 hk]
    simp only [NUM.onWords, NUM_F32, F32.pattern_word, F32.num_one, hprod]
  | fix w f =>
    rw [arith_fix hk]
    exact Fix.num_one_mul_num_one (hk ▸ h)

end

/-! ### The constant model (R184) -/

/-- The weights of R184: all weights and biases of the cell `+0`, a finite dense layer, the dense bias and the
level 1. -/
structure ConstantWeights (c : Cfg) (wt : Memory NumWord) : Prop where
  cell : ∀ a < 324, wt.read a = silence
  dense : ∀ i < hiddenSize, c.arith.finite (wt.read (wdAt i)) = true
  bias : wt.read bdAt = c.arith.num 1
  level : wt.read lvlAt = c.arith.num 1

namespace ConstantWeights

variable {c : Cfg} {wt h : Memory NumWord} {x : NumWord} {g i : Nat}

theorem nnIn_eq (hw : ConstantWeights c wt) (hx : c.arith.finite x = true) (hg : g < 3)
    (hi : i < hiddenSize) : nnIn c.arith wt x g i = silence := by
  have hi : i < 9 := hi
  rw [nnIn, hw.cell _ (by rw [wihAt]; omega), hw.cell _ (by rw [bihAt]; omega)]
  exact arith_mul_silence_add hx

section

variable (hw : ConstantWeights c wt) (hh : ∀ i < hiddenSize, h.read i = silence)

include hw hh

theorem nnRec_eq (hg : g < 3) (hi : i < hiddenSize) : nnRec c.arith wt h g i = silence := by
  have hi : i < 9 := hi
  have hbias : wt.read (bhhAt g i) = silence := hw.cell _ (by rw [bhhAt]; omega)
  rw [nnRec, hbias]
  refine List.foldlRecOn (motive := (· = silence)) _ _ rfl fun acc hacc j hj => ?_
  have hj : j < 9 := List.mem_range.mp hj
  rw [hacc, hh j hj, hw.cell _ (by rw [whhAt]; omega)]
  exact arith_add_mul_silence (.inl rfl) (finite_silence c)

variable (hx : c.arith.finite x = true) (hi : i < hiddenSize)

include hx hi

/-- The operand of a gate is `+0`. -/
theorem gate_operand_eq (hg : g < 3) :
    c.arith.add (nnIn c.arith wt x g i) (nnRec c.arith wt h g i) = silence := by
  rw [hw.nnIn_eq hx hg hi, hw.nnRec_eq hh hg hi, arith_silence_add_silence]

theorem nnCandidate_eq : nnCandidate c.arith wt h x i = silence := by
  rw [nnCandidate, nnResetGate, hw.gate_operand_eq hh hx hi (by decide), hw.nnIn_eq hx (by decide) hi,
    hw.nnRec_eq hh (by decide) hi, arith_add_mul_silence (.inl rfl) (finite_sigmoid_silence c),
    arith_tanh_silence]

theorem nnHidden_eq : nnHidden c.arith wt h x i = silence := by
  rw [nnHidden, nnUpdateGate, hw.gate_operand_eq hh hx hi (by decide), hw.nnCandidate_eq hh hx hi,
    hh i hi, arith_mul_one_sub_sigmoid_silence, arith_add_mul_silence (.inl rfl) (finite_sigmoid_silence c)]

end

theorem nnOutput_eq (hw : ConstantWeights c wt) (hh : ∀ i < hiddenSize, h.read i = silence)
    (hx : c.arith.finite x = true) (hone : hasInt c.NUM 1 = true) :
    nnOutput c.arith wt (nnHiddenAll c.arith wt h x) = c.arith.num 1 := by
  have hdense : (List.range hiddenSize).foldl
      (fun acc i => c.arith.add acc (c.arith.mul (wt.read (wdAt i)) (nnHidden c.arith wt h x i)))
      (c.arith.num 1) = c.arith.num 1 := by
    refine List.foldlRecOn (motive := (· = c.arith.num 1)) _ _ rfl fun acc hacc i hi => ?_
    have hi : i < hiddenSize := List.mem_range.mp hi
    rw [hacc, hw.nnHidden_eq hh hx hi]
    exact arith_add_mul_silence (.inr rfl) (hw.dense i hi)
  rw [nnOutput_nnHiddenAll, hw.bias, hw.level, hdense]
  exact arith_num_one_mul_num_one hone

end ConstantWeights

/-- Settles O29: the nine components are `+0` and the output is 1, all finite, so that they are committed. -/
theorem constantModel : Obligations.ConstantModel := by
  intro s n h _ hn N hone hx hcell hdense hbias hlevel hh
  have hw : ConstantWeights s.cfg s.WT := ⟨hcell, hdense, hbias, hlevel⟩
  have hout := hw.nnOutput_eq hh hx hone
  have hok : (s.nnStepAt n.toNat).ok = true := by
    refine (nnStep_ok_iff _ _ _ _).mpr ⟨?_, fun i hi => ?_⟩
    · rw [hout]
      exact finite_num_one s.cfg
    · rw [hw.nnHidden_eq hh hx hi]
      exact finite_silence s.cfg
  obtain ⟨hy, hhidden⟩ := nnStep_of_ok hok
  refine ⟨s.nnFwd n.toNat, exec_nnFwd h hn, ?_, fun i hi => ?_⟩
  · rw [State.read_nnFwd_W_self]
    exact hy.trans hout
  · rw [State.nnFwd_h]
    exact (hhidden i hi).trans (hw.nnHidden_eq hh hx hi)

end Sys2Proof.Machine
end

section
/-! The tone stage (43_tone.md R201 to R204).

`TONE.SET` writes a filter and its coefficient that depend on the configuration and `A.TONE` alone, so that the
table of the defaults is five values of one function. `TONE.PROC` takes the words of the selected filter through
one step, and stores what the step gives if its four tested values are finite. -/

namespace Sys2Proof.Machine

/-! ### `TONE.SET` (R201) -/

/-- The coefficient of the low-pass side (R201). -/
def lowPassAlpha (c : Cfg) (tone : NumWord) : NumWord :=
  let lo := c.arith.const c.ALPHA_LO
  c.arith.add lo (c.arith.mul (c.arith.sub (c.arith.const 1) lo)
    (c.arith.div tone (c.arith.const c.TONE_MID)))

/-- The coefficient of the high-pass side (R201). -/
def highPassAlpha (c : Cfg) (tone : NumWord) : NumWord :=
  let mid := c.arith.const c.TONE_MID
  c.arith.mul (c.arith.const c.AHP_MAX)
    (c.arith.div (c.arith.sub tone mid) (c.arith.sub (c.arith.const 1) mid))

/-- The filter and the coefficient that `TONE.SET` selects at a tone value. -/
def toneSetting (c : Cfg) (tone : NumWord) : ToneMode × NumWord :=
  if c.arith.le tone (c.arith.const c.TONE_MID) then (.lowPass, lowPassAlpha c tone)
  else (.highPass, highPassAlpha c tone)

section

variable {s : State}

theorem exec_toneSet (h : s.PHASE ≠ .halt) : exec .toneSet s = .next s.toneSet :=
  exec_of_legal h rfl

theorem State.toneSet_of_le (hle : s.cfg.arith.le s.A.TONE (s.cfg.arith.const s.cfg.TONE_MID) = true) :
    s.toneSet = { s with TMODE := .lowPass, TALPHA := lowPassAlpha s.cfg s.A.TONE } :=
  if_pos hle

theorem State.toneSet_of_gt (hle : s.cfg.arith.le s.A.TONE (s.cfg.arith.const s.cfg.TONE_MID) = false) :
    s.toneSet = { s with TMODE := .highPass, TALPHA := highPassAlpha s.cfg s.A.TONE } :=
  if_neg (Bool.eq_false_iff.mp hle)

variable (s) in
/-- `TONE.SET` writes the setting at `A.TONE`, on either side of the midpoint. -/
theorem State.toneSet_eq_toneSetting :
    s.toneSet = { s with
      TMODE := (toneSetting s.cfg s.A.TONE).1
      TALPHA := (toneSetting s.cfg s.A.TONE).2 } := by
  cases hle : s.cfg.arith.le s.A.TONE (s.cfg.arith.const s.cfg.TONE_MID) with
  | true => rw [State.toneSet_of_le hle, toneSetting, if_pos hle]
  | false => rw [State.toneSet_of_gt hle, toneSetting, if_neg (Bool.eq_false_iff.mp hle)]

theorem State.toneSet_of_toneSetting {tone alpha : NumWord} {mode : ToneMode} (htone : s.A.TONE = tone)
    (hset : toneSetting s.cfg tone = (mode, alpha)) :
    s.toneSet.TMODE = mode ∧ s.toneSet.TALPHA = alpha := by
  rw [s.toneSet_eq_toneSetting, htone, hset]
  exact ⟨rfl, rfl⟩

end

/-- The table of R201 for the default configuration. -/
theorem toneSetting_default :
    let N := Config.default.arith
    toneSetting Config.default silence = (.lowPass, N.const (mkRat 1 32))
    ∧ toneSetting Config.default (N.const (mkRat 1 4)) = (.lowPass, N.const (mkRat 33 64))
    ∧ toneSetting Config.default (N.const (mkRat 1 2)) = (.lowPass, N.const 1)
    ∧ toneSetting Config.default (N.const (mkRat 3 4)) = (.highPass, N.const (mkRat 1 4))
    ∧ toneSetting Config.default (N.const 1) = (.highPass, N.const (mkRat 1 2)) := by
  decide +kernel

/-- Settles O30: one case for each side of the midpoint, and the table by the setting at its five tone
values. -/
theorem toneSetSelects : Obligations.ToneSetSelects := by
  refine ⟨by decide, fun s h => ⟨fun hle => ?_, fun hle => ?_, fun hc => ⟨s.toneSet, exec_toneSet h, ?_⟩⟩⟩
  · exact (exec_toneSet h).trans (congrArg _ (State.toneSet_of_le hle))
  · exact (exec_toneSet h).trans (congrArg _ (State.toneSet_of_gt hle))
  · obtain ⟨hzero, hquarter, hmid, hthree, hone⟩ := hc ▸ toneSetting_default
    exact ⟨fun ht => State.toneSet_of_toneSetting ht hzero,
      fun ht => State.toneSet_of_toneSetting ht hquarter,
      fun ht => State.toneSet_of_toneSetting ht hmid,
      fun ht => State.toneSet_of_toneSetting ht hthree,
      fun ht => State.toneSet_of_toneSetting ht hone⟩

/-! ### One sample through a tone filter (R202 to R204) -/

section

variable {α : Type} [Inhabited α] (N : NUM α) (c : Cfg) (mode : ToneMode) (alpha : α)
  (f0 : ToneFilter α) (x : α)

/-- The low-pass word after the sample `x` (R203). -/
def toneLowPass : α := N.add f0.TLP (N.mul alpha (N.sub x f0.TLP))

/-- The filtered sample: the low-pass word, or the rest of the sample (R202, R203). -/
def toneFiltered : α :=
  if mode = .lowPass then toneLowPass N alpha f0 x else N.sub x (toneLowPass N alpha f0 x)

/-- The running mean of the squares of a sample `v` and those before it (R204). -/
def toneEnergy (mean v : α) : α :=
  N.add (N.mul (N.sub (N.const 1) (N.const c.BC2)) (N.mul v v)) (N.mul (N.const c.BC2) mean)

/-- The factor that gives the filtered sample the energy of the input (R204). -/
def toneGain (q r : α) : α := if N.eq q silence then N.sqrt r else N.sqrt (N.div r q)

theorem toneStep_next :
    (toneStep N c mode alpha f0 x).next
      = ⟨toneLowPass N alpha f0 x, toneEnergy N c f0.TQ (toneFiltered N mode alpha f0 x),
          toneEnergy N c f0.TR x⟩ := by
  cases mode with
  | lowPass => rfl
  | highPass => rfl

theorem toneStep_y :
    (toneStep N c mode alpha f0 x).y
      = N.mul (toneFiltered N mode alpha f0 x)
          (toneGain N (toneEnergy N c f0.TQ (toneFiltered N mode alpha f0 x)) (toneEnergy N c f0.TR x)) := by
  cases mode with
  | lowPass => rfl
  | highPass => rfl

/-- R202: the guard tests the three state words and the sample. -/
theorem toneStep_ok_iff :
    (toneStep N c mode alpha f0 x).ok = true
      ↔ N.finite (toneStep N c mode alpha f0 x).next.TLP = true
        ∧ N.finite (toneStep N c mode alpha f0 x).next.TQ = true
        ∧ N.finite (toneStep N c mode alpha f0 x).next.TR = true
        ∧ N.finite (toneStep N c mode alpha f0 x).y = true := by
  simp only [toneStep, Bool.and_eq_true, and_assoc]

end

/-! ### `TONE.PROC` (R202) -/

theorem exec_toneProc {s : State} {n : BitVec 24} (h : s.PHASE ≠ .halt) (hn : n.toNat < s.cfg.L) :
    exec (.toneProc n) s = .next (s.toneProc n.toNat) :=
  exec_of_legal h (decide_eq_true hn)

/-- What one step of the selected filter on sample `n` gives. -/
def State.toneStepAt (s : State) (n : Nat) : ToneStep NumWord :=
  toneStep s.cfg.arith s.cfg s.TMODE s.TALPHA s.toneFilter (s.W.read n)

section

variable (s : State) (n : Nat)

theorem State.toneFilter_eq_ite : s.toneFilter = if s.TMODE = .lowPass then s.TF0 else s.TF1 := by
  unfold State.toneFilter
  cases s.TMODE with
  | lowPass => rfl
  | highPass => rfl

theorem State.toneProc_frame :
    s.toneProc n = { s with
      W := (s.toneProc n).W
      TF0 := (s.toneProc n).TF0
      TF1 := (s.toneProc n).TF1
      NFAULT := (s.toneProc n).NFAULT } := rfl

theorem State.read_toneProc_W_of_ne {a : Nat} (ha : a ≠ n) : (s.toneProc n).W.read a = s.W.read a :=
  (Memory.read_write _ _ _ a).trans (if_neg ha)

theorem State.read_toneProc_W_self :
    (s.toneProc n).W.read n = orSilence (s.toneStepAt n).ok (s.toneStepAt n).y :=
  (Memory.read_write _ _ _ n).trans (if_pos rfl)

variable {s}

/-- In low-pass mode filter 0 takes the next words of an accepted step, and filter 1 keeps its own. -/
theorem State.toneProc_filters_of_lowPass (hm : s.TMODE = .lowPass) :
    (s.toneProc n).TF0 = (if (s.toneStepAt n).ok then (s.toneStepAt n).next else s.TF0)
      ∧ (s.toneProc n).TF1 = s.TF1 := by
  simp [State.toneProc, State.toneStepAt, State.toneFilter, hm]

/-- In high-pass mode the two filters change places. -/
theorem State.toneProc_filters_of_highPass (hm : s.TMODE = .highPass) :
    (s.toneProc n).TF1 = (if (s.toneStepAt n).ok then (s.toneStepAt n).next else s.TF1)
      ∧ (s.toneProc n).TF0 = s.TF0 := by
  simp [State.toneProc, State.toneStepAt, State.toneFilter, hm]

/-- A step whose four values are finite is stored. -/
theorem State.toneProc_of_ok (hok : (s.toneStepAt n).ok = true) :
    (s.toneProc n).W.read n = (s.toneStepAt n).y
      ∧ (s.TMODE = .lowPass → (s.toneProc n).TF0 = (s.toneStepAt n).next)
      ∧ (s.TMODE = .highPass → (s.toneProc n).TF1 = (s.toneStepAt n).next) := by
  refine ⟨?_, fun hm => ?_, fun hm => ?_⟩
  · rw [State.read_toneProc_W_self, hok, orSilence_true]
  · exact (State.toneProc_filters_of_lowPass n hm).1.trans (if_pos hok)
  · exact (State.toneProc_filters_of_highPass n hm).1.trans (if_pos hok)

/-- Any other step leaves silence and both filters. -/
theorem State.toneProc_of_not_ok (hok : ¬ (s.toneStepAt n).ok = true) :
    (s.toneProc n).W.read n = silence ∧ (s.toneProc n).TF0 = s.TF0 ∧ (s.toneProc n).TF1 = s.TF1 := by
  refine ⟨?_, ?_⟩
  · rw [State.read_toneProc_W_self, Bool.eq_false_of_not_eq_true hok, orSilence_false]
  · cases hm : s.TMODE with
    | lowPass =>
      obtain ⟨hselected, hother⟩ := State.toneProc_filters_of_lowPass n hm
      exact ⟨hselected.trans (if_neg hok), hother⟩
    | highPass =>
      obtain ⟨hselected, hother⟩ := State.toneProc_filters_of_highPass n hm
      exact ⟨hother, hselected.trans (if_neg hok)⟩

end

/-- Settles O31: the step on the selected filter gives the values of R202 to R204, and its guard is the one of
the statement. -/
theorem toneProcBalances : Obligations.ToneProcBalances := by
  intro s n h hn N x f0 lp f bc1 q r a y good
  have hf0 : s.toneFilter = f0 := s.toneFilter_eq_ite
  have hnext : (s.toneStepAt n.toNat).next = ⟨lp, q, r⟩ := by
    rw [State.toneStepAt, hf0, toneStep_next]
    rfl
  have hy : (s.toneStepAt n.toNat).y = y := by
    rw [State.toneStepAt, hf0, toneStep_y]
    rfl
  have hguard : (s.toneStepAt n.toNat).ok = true ↔ good := by
    rw [State.toneStepAt, toneStep_ok_iff, ← State.toneStepAt, hnext, hy]
  refine ⟨Laws.commandWord_toNat 0x42 n, s.toneProc n.toNat, exec_toneProc h hn, s.toneProc_frame n.toNat,
    fun a ha => s.read_toneProc_W_of_ne n.toNat ha,
    fun hm => (State.toneProc_filters_of_lowPass n.toNat hm).2,
    fun hm => (State.toneProc_filters_of_highPass n.toNat hm).2, fun hgood => ?_, fun hbad => ?_⟩
  · rw [← hnext, ← hy]
    exact State.toneProc_of_ok n.toNat (hguard.mpr hgood)
  · exact State.toneProc_of_not_ok n.toNat (mt hguard.mp hbad)

end Sys2Proof.Machine
end

section
/-! The delay network (44_delay.md R216 to R222), and `REV.DECAY`, which copies a parameter as `DLY.SET`
does (45_reverb.md R237).

The settled integer delay is read through values: `SameValue` says that two finite words stand for one number,
and an operation whose exact result is the number of a word gives that number in either kind of chip. -/

namespace Sys2Proof.Machine

/-! ### `DLY.SET` and `REV.DECAY` (R216; 45_reverb.md R237) -/

/-- Settles O32: both commands are legal, and their effects are the copies. -/
theorem parameterCopies : Obligations.ParameterCopies :=
  ⟨by decide, by decide, fun _ h => ⟨exec_of_legal h rfl, exec_of_legal h rfl⟩⟩

/-! ### `DLY.PROC` (R217 to R221) -/

/-- `DLY.PROC` completes where the operand is a sample and the write pointer is in range. -/
theorem exec_dlyProc {s : State} {n : BitVec 24} (h : s.PHASE ≠ .halt) (hn : n.toNat < s.cfg.L)
    (hwp : s.WP < s.cfg.DMAX) : exec (.dlyProc n) s = .next (s.dlyProc n.toNat) :=
  calc exec (.dlyProc n) s
    _ = inSpace s.dlyInRange (s.dlyProc n.toNat) := exec_of_legal h (decide_eq_true hn)
    _ = .next (s.dlyProc n.toNat) := by rw [State.dlyInRange_iff.mpr hwp, inSpace_true]

section

variable (s : State) (x : NumWord) (n : Nat)

theorem State.dlyAdvance_DBUF_eq :
    (s.dlyAdvance x).DBUF
      = s.DBUF.write s.WP (orSilence (s.cfg.arith.finite (s.dlyWriteValue x)) (s.dlyWriteValue x)) := rfl

theorem State.dlyAdvance_WP_eq : (s.dlyAdvance x).WP = ringNext s.WP s.cfg.DMAX := rfl

theorem State.dlyAdvance_CUR_eq :
    (s.dlyAdvance x).CUR = smoothedDelay s.cfg.arith s.cfg s.CUR s.TGT := rfl

/-- The slot at the write pointer takes the guarded write value (R219, R220). -/
theorem State.read_dlyAdvance_DBUF_self :
    (s.dlyAdvance x).DBUF.read s.WP
      = orSilence (s.cfg.arith.finite (s.dlyWriteValue x)) (s.dlyWriteValue x) := by
  rw [State.dlyAdvance_DBUF_eq, Memory.read_write, if_pos rfl]

theorem State.read_dlyAdvance_DBUF_of_ne {a : Nat} (ha : a ≠ s.WP) :
    (s.dlyAdvance x).DBUF.read a = s.DBUF.read a := by
  rw [State.dlyAdvance_DBUF_eq, Memory.read_write, if_neg ha]

/-- The delay memory of `DLY.PROC n` is that of one call of `DlyProcess` on `W[n]` (R217). -/
theorem State.dlyProc_DBUF_eq : (s.dlyProc n).DBUF = (s.dlyAdvance (s.W.read n)).DBUF := rfl

theorem State.dlyProc_W_eq :
    (s.dlyProc n).W = s.W.write n
      (orSilence (s.cfg.arith.finite (s.cfg.arith.add (s.W.read n) s.dlyReturn))
        (s.cfg.arith.add (s.W.read n) s.dlyReturn)) := rfl

theorem State.dlyProc_frame :
    s.dlyProc n = { s with
      CUR := smoothedDelay s.cfg.arith s.cfg s.CUR s.TGT
      DBUF := (s.dlyProc n).DBUF
      WP := ringNext s.WP s.cfg.DMAX
      W := (s.dlyProc n).W
      NFAULT := (s.dlyProc n).NFAULT } := rfl

end

/-- Settles O33: the words of the statement are those that `DlyProcess` writes and returns. -/
theorem dlyProcStep : Obligations.DlyProcStep := by
  intro s n h hn hwp N x c0 c1 cur back tap rd rd2 wv y d
  have hcur : smoothedDelay N s.cfg s.CUR s.TGT = cur := rfl
  have hwrite : s.dlyWriteValue x = wv := rfl
  have hreturn : s.dlyReturn = d := rfl
  refine ⟨Laws.commandWord_toNat 0x52 n, s.dlyProc n.toNat, exec_dlyProc h hn hwp, ?_, ?_,
    fun a ha => ?_, ?_, fun a ha => ?_⟩
  · rw [← hcur]
    exact s.dlyProc_frame n.toNat
  · rw [State.dlyProc_DBUF_eq, State.read_dlyAdvance_DBUF_self, hwrite]
    rfl
  · rw [State.dlyProc_DBUF_eq, State.read_dlyAdvance_DBUF_of_ne _ _ ha]
  · rw [State.dlyProc_W_eq, Memory.read_write, if_pos rfl, hreturn]
    rfl
  · rw [State.dlyProc_W_eq, Memory.read_write, if_neg ha]

/-! ### Roundings of values of `NUM_F32` (00_scope.md R13) -/

namespace F32

section

variable {a b r v : Num32} {x : ℝ}

theorem abs_value_lt (ha : finite a = true) : |((value a : Rat) : ℝ)| < 2 ^ 128 - 2 ^ 103 := by
  have hm : (mag a : ℝ) ≤ 33554430 * 2 ^ 252 := by exact_mod_cast mag_le_of_finite ha
  rw [value_eq, abs_div, abs_mul, abs_signFactor, one_mul, Nat.abs_cast, abs_of_pos (by positivity),
    div_lt_iff₀ (by positivity)]
  exact hm.trans_lt (by norm_num)

/-- A real that is the value of a finite pattern is rounded to that value. -/
theorem value_of_isRounded (hr : finite r = true) (h : isRounded ((value r : Rat) : ℝ) v) :
    finite v = true ∧ value v = value r := by
  obtain ⟨hv, hnear⟩ := h.1 (abs_value_lt hr)
  obtain ⟨hle, -⟩ := hnear r hr
  rw [sub_self, abs_zero] at hle
  exact ⟨hv, by exact_mod_cast sub_eq_zero.mp (abs_nonpos_iff.mp hle)⟩

theorem finite_iff_of_isRounded (h : isRounded x v) : finite v = true ↔ |x| < 2 ^ 128 - 2 ^ 103 := by
  refine ⟨fun hv => not_le.mp fun hx => ?_, fun hx => (h.1 hx).1⟩
  obtain ⟨-, hinf⟩ := (finite_iff v).mp hv
  simp [(h.2 hx).1] at hinf

theorem value_zero : value zero = 0 := by
  rw [value, show mag zero = 0 by decide, Nat.cast_zero, mul_zero, zero_div]

theorem isRounded_add (ha : finite a = true) (hb : finite b = true) :
    isRounded (((value a : Rat) : ℝ) + ((value b : Rat) : ℝ)) (add a b) := by
  rw [add, addAs_finite _ _ _ ha hb]
  exact isRounded_addFinite a b

theorem value_eq_key (a : Num32) : value a = (key a : Rat) / 2 ^ 149 := by
  unfold value key
  split
  · push_cast; ring
  · push_cast; ring

theorem key_eq_iff_value : key a = key b ↔ value a = value b := by
  rw [value_eq_key, value_eq_key, div_left_inj' (by positivity), Int.cast_inj]

theorem key_le_iff_value : key a ≤ key b ↔ value a ≤ value b := by
  rw [value_eq_key, value_eq_key, div_le_div_iff_of_pos_right (by positivity), Int.cast_le]

end

/-- A magnitude that is a whole number of steps of its grid is rounded to itself. -/
theorem magOf_unboundedRoundMag {n : Nat} (h : 2 ^ gridBits n 1 ∣ n) :
    magOf (unboundedRoundMag n 1) = n := by
  have hlt := gridSteps_lt n 1
  have hge := @gridSteps_ge n 1
  simp only [one_mul] at hlt hge
  simp only [unboundedRoundMag, roundHalfEven, one_mul, Nat.mod_eq_zero_of_dvd h]
  rw [if_neg (by have := Nat.two_pow_pos (gridBits n 1); omega), magOf_grid hlt.le hge,
    Nat.div_mul_cancel h]

/-- An integer of at most 24 bits, in units of `2^-149`. -/
theorem ofInt_natCast {i : Nat} (hi : i < 2 ^ 24) :
    finite (ofInt i) = true ∧ mag (ofInt i) = i * 2 ^ 149 := by
  obtain ⟨hinf, -, -⟩ := magOf_around_overflow
  have hgrid : gridBits (i * 2 ^ 149) 1 ≤ 149 := by
    have hlog : Nat.log2 (i * 2 ^ 149) < 173 := by
      rcases Nat.eq_zero_or_pos i with rfl | hpos
      · simp
      · exact (Nat.log2_lt (by positivity)).mpr (by omega)
    rw [gridBits, Nat.div_one]
    omega
  have hmag : magOf (unboundedRoundMag (i * 2 ^ 149) 1) = i * 2 ^ 149 :=
    magOf_unboundedRoundMag ((pow_dvd_pow 2 hgrid).trans (Dvd.intro_left i rfl))
  have hlt : unboundedRoundMag (i * 2 ^ 149) 1 < infMag := by
    by_contra hge
    have hmono := magOf_mono (not_lt.mp hge)
    rw [hmag, hinf] at hmono
    omega
  obtain ⟨-, hfin, -, hpack⟩ := pack_fields false hlt
  have hofInt : ofInt i = pack false (unboundedRoundMag (i * 2 ^ 149) 1) := by
    rw [ofInt, Int.natAbs_natCast, roundMag_eq_min, min_eq_left hlt.le, decide_eq_false (by omega)]
  rw [hofInt]
  exact ⟨hfin, hpack.trans hmag⟩

/-- R11: `num` of an integer of at most 24 bits is finite and has its value. -/
theorem num_natCast {i : Nat} (hi : i < 2 ^ 24) :
    finite (num i) = true ∧ value (num i) = i := by
  obtain ⟨hfin, hmag⟩ := ofInt_natCast hi
  have hnum : num i = ofInt i := if_pos (by simp [hfin, hmag])
  have hsign : sign (ofInt i) = false := by
    rw [ofInt, sign_pack _ (roundMag_le _ _), decide_eq_false (by omega)]
  refine ⟨hnum ▸ hfin, ?_⟩
  rw [hnum, value_eq_key, key, hsign, hmag]
  norm_num

/-- R11: `floor` of a finite value that is an integer of at least 0. -/
theorem floor_of_value {a : Num32} {i : Nat} (ha : finite a = true) (h : value a = i) : floor a = i := by
  have hkey : key a = i * 2 ^ 149 := by
    rw [value_eq_key, div_eq_iff (by positivity)] at h
    exact_mod_cast h
  have hnonneg : sign a = false ∨ isZero a = true := by
    by_cases hs : sign a = true
    · rw [key, if_pos hs] at hkey
      exact .inr (mag_eq_zero.mpr (by omega))
    · exact .inl (Bool.eq_false_of_not_eq_true hs)
  have hmag : mag a = i * 2 ^ 149 := by
    have habs := abs_key a
    rw [hkey, abs_of_nonneg (by positivity)] at habs
    exact_mod_cast habs.symm
  have hguard : (finite a && (!sign a || isZero a)) = true := by
    rcases hnonneg with hs | hz
    · simp [ha, hs]
    · simp [ha, hz]
  rw [floor, if_pos hguard, hmag, Nat.mul_div_cancel _ (by positivity)]

end F32

namespace Fix

variable {w f : Nat} {a b r : Int}

theorem numValue_of_finite (ha : finite w f a = true) : numValue (.fix w f) a = (a : Rat) / 2 ^ f := by
  rw [numValue, value_of_finite ha, Nat.cast_pow, Nat.cast_ofNat]

theorem numValue_eq_iff (ha : finite w f a = true) (hb : finite w f b = true) :
    numValue (.fix w f) a = numValue (.fix w f) b ↔ a = b := by
  rw [numValue_of_finite ha, numValue_of_finite hb, div_left_inj' (by positivity), Int.cast_inj]

section

variable (ha : finite w f a = true) (hb : finite w f b = true) (hr : finite w f r = true)

include ha hb hr

/-- A result that is a finite value is the exact one. -/
theorem result_of_finite (op : Config.NumOp) : result w f op a b r = r := by
  obtain ⟨h0, h1⟩ := (finite_iff w f r).mp hr
  exact result_of_range ha hb h0 h1

theorem add_exact (h : numValue (.fix w f) a + numValue (.fix w f) b = numValue (.fix w f) r) :
    add w f a b = r := by
  rw [numValue_of_finite ha, numValue_of_finite hb, numValue_of_finite hr, ← add_div,
    div_left_inj' (by positivity)] at h
  have hsum : a + b = r := by exact_mod_cast h
  rw [add, hsum, result_of_finite ha hb hr]

theorem sub_exact (h : numValue (.fix w f) a - numValue (.fix w f) b = numValue (.fix w f) r) :
    sub w f a b = r := by
  rw [numValue_of_finite ha, numValue_of_finite hb, numValue_of_finite hr, ← sub_div,
    div_left_inj' (by positivity)] at h
  have hdiff : a - b = r := by exact_mod_cast h
  rw [sub, hdiff, result_of_finite ha hb hr]

theorem mul_exact (h : numValue (.fix w f) a * numValue (.fix w f) b = numValue (.fix w f) r) :
    mul w f a b = r := by
  rw [numValue_of_finite ha, numValue_of_finite hb, numValue_of_finite hr, div_mul_div_comm,
    div_eq_div_iff (by positivity) (by positivity), ← mul_assoc, mul_left_inj' (by positivity)] at h
  have hprod : a * b = r * 2 ^ f := by exact_mod_cast h
  have hn : neighbour w f .mul a b (a * b) (2 ^ f) = r := by simp [neighbour, hprod]
  rw [mul, hn, result_of_finite ha hb hr]

end

theorem floor_of_numValue {i : Nat} (ha : finite w f a = true) (h : numValue (.fix w f) a = i) :
    floor w f a = i := by
  rw [numValue_of_finite ha, div_eq_iff (by positivity)] at h
  have hword : a = i * 2 ^ f := by exact_mod_cast h
  have hnonneg : 0 ≤ value w a := by
    rw [value_of_finite ha, hword]
    positivity
  rw [floor, ha, decide_eq_true hnonneg, Bool.and_self, if_pos rfl, value_of_finite ha, hword,
    Int.mul_ediv_cancel _ (by positivity)]

end Fix

/-! ### Words that stand for one number -/

/-- Two finite words that stand for one number: one word, or in `NUM_F32` two zeros. -/
structure SameValue (c : Cfg) (a b : NumWord) : Prop where
  left : c.arith.finite a = true
  right : c.arith.finite b = true
  value : numValue c.NUM a = numValue c.NUM b

namespace SameValue

variable {c : Cfg} {a b d : NumWord}

theorem refl (h : c.arith.finite a = true) : SameValue c a a := ⟨h, h, rfl⟩

theorem symm (h : SameValue c a b) : SameValue c b a := ⟨h.right, h.left, h.value.symm⟩

theorem trans (h : SameValue c a b) (h' : SameValue c b d) : SameValue c a d :=
  ⟨h.left, h'.right, h.value.trans h'.value⟩

theorem of_eq (h : a = b) (hb : c.arith.finite b = true) : SameValue c a b := h ▸ refl (h ▸ hb)

/-- In `NUM_FIX` they are one word. -/
theorem eq_of_fix {w f : Nat} (hk : c.NUM = .fix w f) (h : SameValue c a b) : a = b := by
  obtain ⟨ha, hb, hv⟩ := h
  rw [hk] at hv
  rw [arith_fix hk] at ha hb
  exact (Fix.numValue_eq_iff ha hb).mp hv

/-- The comparison of the chip finds them equal. -/
theorem arith_eq (h : SameValue c a b) : c.arith.eq a b = true := by
  cases hk : c.NUM with
  | f32 =>
    obtain ⟨ha, hb, hv⟩ := h
    rw [hk] at hv
    rw [arith_f32 hk] at ha hb ⊢
    obtain ⟨hna, -⟩ := (F32.finite_iff _).mp ha
    obtain ⟨hnb, -⟩ := (F32.finite_iff _).mp hb
    simp [NUM.onWords, NUM_F32, F32.eq, hna, hnb, F32.key_eq_iff_value.mpr hv]
  | fix w f =>
    rw [h.eq_of_fix hk, arith_fix hk]
    exact decide_eq_true rfl

end SameValue

/-! ### Operations whose exact result is a value -/

section

variable {c : Cfg} {a b r : NumWord}

theorem numValue_silence (k : NumFormat) : numValue k silence = 0 := by
  cases k with
  | f32 => exact F32.value_zero
  | fix w f => simp [numValue, Fix.value_of_finite (Fix.finite_zero w f)]

theorem arith_finite_const {q : Rat} (h0 : 0 ≤ q.num) (h1 : q.num ≤ q.den) :
    c.arith.finite (c.arith.const q) = true := by
  cases hk : c.NUM with
  | f32 =>
    rw [arith_f32 hk]
    simpa only [NUM.onWords, NUM_F32, F32.pattern_word] using F32.finite_const h0 h1
  | fix w f =>
    rw [arith_fix hk]
    exact Fix.finite_value (f := f) _

/-- In `NUM_F32` a word whose pattern rounds the number of `r` stands for that number. -/
theorem SameValue.of_isRounded {v : Num32} {x : ℝ} (hk : c.NUM = .f32) (hr : c.arith.finite r = true)
    (hx : x = ((numValue c.NUM r : Rat) : ℝ)) (h : isRounded x v) : SameValue c (F32.word v) r := by
  rw [hx, hk] at h
  have hrfin := hr
  rw [arith_f32 hk] at hrfin
  obtain ⟨hfin, hvalue⟩ := F32.value_of_isRounded hrfin h
  refine ⟨?_, hr, ?_⟩
  · rw [arith_f32 hk]
    simpa only [NUM.onWords, NUM_F32, F32.pattern_word] using hfin
  · rw [hk]
    simpa only [numValue, F32.pattern_word] using hvalue

section

variable (ha : c.arith.finite a = true) (hb : c.arith.finite b = true) (hr : c.arith.finite r = true)

include ha hb hr

theorem arith_add_exact (h : numValue c.NUM a + numValue c.NUM b = numValue c.NUM r) :
    SameValue c (c.arith.add a b) r := by
  cases hk : c.NUM with
  | f32 =>
    rw [arith_f32 hk] at ha hb ⊢
    exact .of_isRounded hk hr (by rw [← h, hk, Rat.cast_add]; rfl) (F32.isRounded_add ha hb)
  | fix w f =>
    rw [hk] at h
    refine .of_eq ?_ hr
    rw [arith_fix hk] at ha hb hr ⊢
    exact Fix.add_exact ha hb hr h

theorem arith_sub_exact (h : numValue c.NUM a - numValue c.NUM b = numValue c.NUM r) :
    SameValue c (c.arith.sub a b) r := by
  cases hk : c.NUM with
  | f32 =>
    rw [arith_f32 hk] at ha hb ⊢
    exact .of_isRounded hk hr (by rw [← h, hk, Rat.cast_sub]; rfl) (F32.isRounded_sub ha hb)
  | fix w f =>
    rw [hk] at h
    refine .of_eq ?_ hr
    rw [arith_fix hk] at ha hb hr ⊢
    exact Fix.sub_exact ha hb hr h

theorem arith_mul_exact (h : numValue c.NUM a * numValue c.NUM b = numValue c.NUM r) :
    SameValue c (c.arith.mul a b) r := by
  cases hk : c.NUM with
  | f32 =>
    rw [arith_f32 hk] at ha hb ⊢
    exact .of_isRounded hk hr (by rw [← h, hk, Rat.cast_mul]; rfl) (F32.isRounded_mul ha hb)
  | fix w f =>
    rw [hk] at h
    refine .of_eq ?_ hr
    rw [arith_fix hk] at ha hb hr ⊢
    exact Fix.mul_exact ha hb hr h

end

/-- Whether a difference overflows depends on the two numbers alone. -/
theorem finite_sub_of_sameValue {a' b' : NumWord} (ha : SameValue c a a') (hb : SameValue c b b')
    (h : c.arith.finite (c.arith.sub a' b') = true) : c.arith.finite (c.arith.sub a b) = true := by
  cases hk : c.NUM with
  | f32 =>
    obtain ⟨hafin, hafin', hav⟩ := ha
    obtain ⟨hbfin, hbfin', hbv⟩ := hb
    rw [hk] at hav hbv
    rw [arith_f32 hk] at hafin hafin' hbfin hbfin' h ⊢
    simp only [NUM.onWords, NUM_F32, F32.pattern_word] at hafin hafin' hbfin hbfin' h ⊢
    simp only [numValue] at hav hbv
    rw [F32.finite_iff_of_isRounded (F32.isRounded_sub hafin' hbfin')] at h
    rwa [F32.finite_iff_of_isRounded (F32.isRounded_sub hafin hbfin), hav, hbv]
  | fix w f => rwa [ha.eq_of_fix hk, hb.eq_of_fix hk]

/-- A word is not less than one that stands for no larger number. -/
theorem arith_lt_eq_false (ha : c.arith.finite a = true) (hb : c.arith.finite b = true)
    (h : numValue c.NUM b ≤ numValue c.NUM a) : c.arith.lt a b = false := by
  cases hk : c.NUM with
  | f32 =>
    rw [hk] at h
    rw [arith_f32 hk]
    have hkey := F32.key_le_iff_value.mpr h
    simp [NUM.onWords, NUM_F32, F32.lt, hkey]
  | fix w f =>
    rw [hk] at h
    rw [arith_fix hk] at ha hb ⊢
    rw [Fix.numValue_of_finite ha, Fix.numValue_of_finite hb, div_le_div_iff_of_pos_right (by positivity),
      Int.cast_le, ← Fix.value_of_finite (f := f) ha, ← Fix.value_of_finite (f := f) hb] at h
    exact decide_eq_false (not_lt.mpr h)

/-! ### Integers that a chip has (00_scope.md R11) -/

/-- `num` of an integer of at most 24 bits that the format has is finite and stands for it. -/
theorem numValue_num {i : Nat} (hi : i < 2 ^ 24) (h : hasInt c.NUM i = true) :
    c.arith.finite (c.arith.num i) = true ∧ numValue c.NUM (c.arith.num i) = i := by
  cases hk : c.NUM with
  | f32 =>
    rw [arith_f32 hk]
    simpa only [NUM.onWords, NUM_F32, numValue, F32.pattern_word] using F32.num_natCast hi
  | fix w f =>
    simp only [hk, hasInt, Bool.and_eq_true, decide_eq_true_eq] at h
    have hfin : Fix.finite w f (i * 2 ^ f) = true := (Fix.finite_iff w f _).mpr h
    have hnum : c.arith.num i = i * 2 ^ f := by
      rw [arith_fix hk]
      exact Fix.value_of_finite hfin
    rw [hnum, Fix.numValue_of_finite hfin, arith_fix hk]
    exact ⟨hfin, by push_cast; field_simp⟩

/-- `num` of a larger integer, which the format may lack, is finite and stands for no smaller number. -/
theorem le_numValue_num {i j : Nat} (hij : i ≤ j) (hj : j < 2 ^ 24) (h : hasInt c.NUM i = true) :
    c.arith.finite (c.arith.num j) = true ∧ (i : Rat) ≤ numValue c.NUM (c.arith.num j) := by
  cases hk : c.NUM with
  | f32 =>
    obtain ⟨hfin, hvalue⟩ := numValue_num (c := c) hj (by rw [hk]; exact decide_eq_true (by omega))
    rw [← hk, hvalue]
    exact ⟨hfin, by exact_mod_cast hij⟩
  | fix w f =>
    simp only [hk, hasInt, Bool.and_eq_true, decide_eq_true_eq] at h
    obtain ⟨h0, h1⟩ := h
    have hfin : Fix.finite w f (Fix.num w f j) = true := Fix.finite_value _
    have hle : (i : Int) * 2 ^ f ≤ Fix.num w f j := by
      have hmul : (i : Int) * 2 ^ f ≤ j * 2 ^ f := by gcongr
      unfold Fix.num Fix.value
      omega
    rw [arith_fix hk]
    refine ⟨hfin, ?_⟩
    rw [show (NUM_FIX w f).num j = Fix.num w f j from rfl, Fix.numValue_of_finite hfin,
      le_div_iff₀ (by positivity)]
    exact_mod_cast hle

/-- `floor` of a finite value that is an integer of at least 0. -/
theorem arith_floor_of_numValue {i : Nat} (ha : c.arith.finite a = true) (h : numValue c.NUM a = i) :
    c.arith.floor a = i := by
  cases hk : c.NUM with
  | f32 =>
    rw [hk] at h
    rw [arith_f32 hk] at ha ⊢
    exact F32.floor_of_value ha h
  | fix w f =>
    rw [hk] at h
    rw [arith_fix hk] at ha ⊢
    exact Fix.floor_of_numValue ha h

end

/-! ### Sums and products with zeros -/

section

variable {c : Cfg} {a b : NumWord}

/-- A difference of two words that stand for one number is a zero. -/
theorem sameValue_sub_self (h : SameValue c a b) : SameValue c (c.arith.sub a b) silence :=
  arith_sub_exact h.left h.right (finite_silence c) (by rw [h.value, numValue_silence, sub_self])

theorem sameValue_add_zero (ha : c.arith.finite a = true) (hb : SameValue c b silence) :
    SameValue c (c.arith.add a b) a :=
  arith_add_exact ha hb.left ha (by rw [hb.value, numValue_silence, add_zero])

theorem sameValue_mul_zero (ha : c.arith.finite a = true) (hb : SameValue c b silence) :
    SameValue c (c.arith.mul a b) silence :=
  arith_mul_exact ha hb.left (finite_silence c) (by rw [hb.value, numValue_silence, mul_zero])

theorem sameValue_zero_mul (ha : c.arith.finite a = true) : SameValue c (c.arith.mul silence a) silence :=
  arith_mul_exact (finite_silence c) ha (finite_silence c) (by rw [numValue_silence, zero_mul])

theorem sameValue_mul_num_one (ha : c.arith.finite a = true) (hone : hasInt c.NUM 1 = true) :
    SameValue c (c.arith.mul a (c.arith.num 1)) a := by
  obtain ⟨hfin, hvalue⟩ := numValue_num (c := c) (i := 1) (by norm_num) hone
  exact arith_mul_exact ha hfin ha (by rw [← Nat.cast_one, hvalue, Nat.cast_one, mul_one])

end

/-! ### Slots of the delay ring -/

section

variable {wp size i : Nat}

/-- After the post-increment the slot just written is one step back. -/
theorem ringIndex_ringNext_one (h : wp < size) : ringIndex (ringNext wp size) (1 : Nat) size = wp := by
  refine ringIndex_of_eq ?_
  rw [ringNext, Int.natCast_mod, Int.emod_sub_emod]
  push_cast
  rw [add_sub_cancel_right, Int.emod_eq_of_lt (by omega) (by omega)]

/-- After the post-increment every other slot is one step further back. -/
theorem ringIndex_ringNext_succ : ringIndex (ringNext wp size) (i + 1 : Nat) size = ringIndex wp i size := by
  rw [ringIndex, ringIndex, ringNext, Int.natCast_mod, Int.emod_sub_emod]
  push_cast
  rw [add_sub_add_right_eq_sub]

/-- The slot at the write pointer is none of the last `size - 1` slots. -/
theorem ringIndex_ne_self (hwp : wp < size) (h0 : 0 < i) (hi : i < size) : ringIndex wp i size ≠ wp := by
  intro heq
  have hmod : ((wp : Int) - i) % size = (wp : Int) % size := by
    have hnonneg := Int.emod_nonneg ((wp : Int) - i) (by omega : (size : Int) ≠ 0)
    rw [ringIndex] at heq
    rw [Int.emod_eq_of_lt (by omega : (0 : Int) ≤ wp) (by omega)]
    omega
  have hdvd : (size : Int) ∣ i := by simpa using Int.ModEq.dvd hmod
  exact absurd (Int.le_of_dvd (by omega) hdvd) (by omega)

end

/-! ### A settled integer delay (R222) -/

/-- The chips and lengths that R222 speaks of. -/
structure IntegerLength (c : Cfg) (D : Nat) : Prop where
  cfgOk : c.wf = true
  capacity : c.DMAX ≤ 2 ^ 24
  pos : 1 ≤ D
  le : D ≤ c.DMAX - 1
  represented : hasInt c.NUM D = true

namespace IntegerLength

variable {c : Cfg} {D : Nat} {d : NumWord} (h : IntegerLength c D)

include h

theorem lt_capacity : D < c.DMAX := by
  obtain ⟨-, -, hpos, hle, -⟩ := h
  omega

theorem last_lt : c.DMAX - 1 < 2 ^ 24 := by
  have := h.lt_capacity
  have := h.capacity
  omega

theorem lt : D < 2 ^ 24 := by
  have := h.le
  have := h.last_lt
  omega

theorem num_spec : c.arith.finite (c.arith.num D) = true ∧ numValue c.NUM (c.arith.num D) = D :=
  numValue_num h.lt h.represented

/-- A format that has `D`, which is at least 1, has the integer 1. -/
theorem hasInt_one : hasInt c.NUM 1 = true := by
  have hrep := h.represented
  have hpos := h.pos
  cases hk : c.NUM with
  | f32 => rfl
  | fix w f =>
    simp only [hk, hasInt, Bool.and_eq_true, decide_eq_true_eq] at hrep ⊢
    have hpow : (0 : Int) < 2 ^ f := by positivity
    have hmin := Fix.fixMin_add_fixMax w
    have hmax := Fix.fixMax_nonneg w
    have hle : (1 : Int) * 2 ^ f ≤ D * 2 ^ f := by gcongr; exact_mod_cast hpos
    omega

section

variable (hd : SameValue c d (c.arith.num D))

include hd

theorem numValue_eq : numValue c.NUM d = D := hd.value.trans h.num_spec.2

/-- R222: the length is a fixed point of the smoothing: the step adds a zero, and neither clamp replaces
it. -/
theorem smoothedDelay_settled :
    SameValue c (smoothedDelay c.arith c d (c.arith.num D)) (c.arith.num D) := by
  obtain ⟨hk0, hk1⟩ := Cfg.smoothing_of_wf h.cfgOk
  have hdiff : SameValue c (c.arith.sub (c.arith.num D) d) silence :=
    sameValue_sub_self hd.symm
  have hstep : SameValue c (smoothedStep c.arith c d (c.arith.num D)) (c.arith.num D) :=
    (sameValue_add_zero hd.left (sameValue_mul_zero (arith_finite_const hk0 hk1) hdiff)).trans hd
  have hvalue := h.numValue_eq hstep
  obtain ⟨honefin, hone⟩ := numValue_num (c := c) (i := 1) (by norm_num) h.hasInt_one
  obtain ⟨hlastfin, hlast⟩ := le_numValue_num h.le h.last_lt h.represented
  have hlow : c.arith.lt (smoothedStep c.arith c d (c.arith.num D)) (c.arith.num 1) = false :=
    arith_lt_eq_false hstep.left honefin (hone.trans_le (by rw [hvalue]; exact_mod_cast h.pos))
  have hhigh : c.arith.lt (c.arith.num (c.DMAX - 1 : Nat))
      (smoothedStep c.arith c d (c.arith.num D)) = false :=
    arith_lt_eq_false hlastfin hstep.left (hvalue.trans_le hlast)
  rw [smoothedDelay_eq, hlow, if_neg Bool.false_ne_true, hhigh, if_neg Bool.false_ne_true]
  exact hstep

/-- R218: at an integer length the tap is the sample so many steps ago, `a`, where its difference from the
neighbour does not overflow. -/
theorem delayTap_settled {dbuf : Memory NumWord} {wp : Nat} {a b : NumWord}
    (ha : SameValue c (dbuf.read (ringIndex wp D c.DMAX)) a)
    (hb : SameValue c (dbuf.read (ringIndex wp (D + 1 : Nat) c.DMAX)) b)
    (hdiff : c.arith.finite (c.arith.sub b a) = true) :
    SameValue c (delayTap c.arith c dbuf wp d) a := by
  have hfloor : c.arith.floor d = D := arith_floor_of_numValue hd.left (h.numValue_eq hd)
  rw [delayTap, hfloor]
  exact (sameValue_add_zero ha.left
    (sameValue_mul_zero (finite_sub_of_sameValue hb ha hdiff) (sameValue_sub_self hd))).trans ha

end

end IntegerLength

/-- The input of `i` calls before call `m`, silence before the first. -/
def delayedInput (x : Nat → NumWord) (i m : Nat) : NumWord := if m < i then silence else x (m - i)

theorem delayedInput_succ_succ (x : Nat → NumWord) (i m : Nat) :
    delayedInput x (i + 1) (m + 1) = delayedInput x i m := by
  simp [delayedInput]

theorem delayedInput_one_succ (x : Nat → NumWord) (m : Nat) : delayedInput x 1 (m + 1) = x m := by
  simp [delayedInput]

/-- The inputs that R222 speaks of: finite, and no two of them, nor one and silence, have a difference that
overflows (R218). -/
structure DelayableInput (c : Cfg) (x : Nat → NumWord) : Prop where
  finite : ∀ m, c.arith.finite (x m) = true
  sub : ∀ m k, c.arith.finite (c.arith.sub (x m) (x k)) = true
  sub_silence : ∀ m, c.arith.finite (c.arith.sub (x m) silence) = true
  silence_sub : ∀ m, c.arith.finite (c.arith.sub silence (x m)) = true

theorem DelayableInput.finite_sub_delayedInput {c : Cfg} {x : Nat → NumWord} (hx : DelayableInput c x)
    (i j m : Nat) : c.arith.finite (c.arith.sub (delayedInput x i m) (delayedInput x j m)) = true := by
  have hzero : c.arith.finite (c.arith.sub silence silence) = true :=
    (sameValue_sub_self (.refl (finite_silence c))).left
  unfold delayedInput
  split
  · split
    · exact hzero
    · exact hx.silence_sub _
  · split
    · exact hx.sub_silence _
    · exact hx.sub _ _

/-- The delay of R222 after `m` calls: the settings of its premise, and a buffer that holds the last
inputs. -/
structure State.DelaySettled (c : Cfg) (D : Nat) (x : Nat → NumWord) (m : Nat) (s : State) : Prop where
  cfgEq : s.cfg = c
  feedback : s.FB = silence
  active : s.ACT = true
  oneTap : s.TAP2 = false
  level : s.DLV = c.arith.num 1
  target : s.TGT = c.arith.num D
  current : SameValue c s.CUR (c.arith.num D)
  pointer : s.WP < c.DMAX
  buffer : ∀ i, 1 ≤ i → i ≤ c.DMAX →
    SameValue c (s.DBUF.read (ringIndex s.WP i c.DMAX)) (delayedInput x i m)

namespace State.DelaySettled

variable {c : Cfg} {D m : Nat} {x : Nat → NumWord} {s : State}

section

variable (h : s.DelaySettled c D x m) (hD : IntegerLength c D) (hx : DelayableInput c x)

include h hD

theorem smoothed : SameValue c (smoothedDelay s.cfg.arith s.cfg s.CUR s.TGT) (c.arith.num D) := by
  rw [h.cfgEq, h.target]
  exact hD.smoothedDelay_settled h.current

include hx

/-- The primary tap is the input of `D` calls ago. -/
theorem dlyRead : SameValue c s.dlyRead (delayedInput x D m) := by
  have hlt := hD.lt_capacity
  have hsmoothed := h.smoothed hD
  rw [h.cfgEq] at hsmoothed
  rw [State.dlyRead, h.cfgEq]
  exact hD.delayTap_settled hsmoothed (h.buffer D hD.pos hlt.le) (h.buffer (D + 1) (by omega) hlt)
    (hx.finite_sub_delayedInput (D + 1) D m)

/-- With feedback 0 the input itself is written. -/
theorem dlyWriteValue : SameValue c (s.dlyWriteValue (x m)) (x m) := by
  have hfb : SameValue c (c.arith.mul silence s.dlyRead) silence :=
    sameValue_zero_mul (h.dlyRead hD hx).left
  rw [State.dlyWriteValue, h.active, if_pos rfl, h.cfgEq, h.feedback]
  exact sameValue_add_zero (hx.finite m) hfb

/-- With one tap and level 1 the primary tap is returned. -/
theorem dlyReturn : SameValue c s.dlyReturn (delayedInput x D m) := by
  have hread := h.dlyRead hD hx
  have hread2 : s.dlyRead2 = silence := by
    rw [State.dlyRead2, h.oneTap, if_neg Bool.false_ne_true]
  have hsum : SameValue c (c.arith.add s.dlyRead silence) s.dlyRead :=
    sameValue_add_zero hread.left (.refl (finite_silence c))
  have hout : SameValue c s.dlyOutput (delayedInput x D m) := by
    rw [State.dlyOutput, hread2, h.cfgEq, h.level]
    exact ((sameValue_mul_num_one hsum.left hD.hasInt_one).trans hsum).trans hread
  rw [State.dlyReturn, h.cfgEq, hout.left, orSilence_true]
  exact hout

/-- A call keeps the settings, and moves the inputs that the buffer holds one step back. -/
theorem dlyAdvance : (s.dlyAdvance (x m)).DelaySettled c D x (m + 1) where
  cfgEq := h.cfgEq
  feedback := h.feedback
  active := h.active
  oneTap := h.oneTap
  level := h.level
  target := h.target
  current := by
    rw [State.dlyAdvance_CUR_eq]
    exact h.smoothed hD
  pointer := by
    rw [State.dlyAdvance_WP_eq, h.cfgEq]
    exact ringNext_lt _ (by have := h.pointer; omega)
  buffer := by
    intro i hi1 hi
    obtain ⟨i, rfl⟩ := Nat.exists_eq_add_of_le' hi1
    rw [State.dlyAdvance_WP_eq, h.cfgEq]
    rcases Nat.eq_zero_or_pos i with rfl | hpos
    · have hwrite := h.dlyWriteValue hD hx
      rw [ringIndex_ringNext_one h.pointer, State.read_dlyAdvance_DBUF_self, delayedInput_one_succ, h.cfgEq,
        hwrite.left, orSilence_true]
      exact hwrite
    · rw [ringIndex_ringNext_succ, delayedInput_succ_succ,
        State.read_dlyAdvance_DBUF_of_ne _ _ (ringIndex_ne_self h.pointer hpos hi)]
      exact h.buffer i hpos (by omega)

end

theorem delayRun (h : s.DelaySettled c D x 0) (hD : IntegerLength c D) (hx : DelayableInput c x) (m : Nat) :
    (delayRun x s m).DelaySettled c D x m := by
  induction m with
  | zero => exact h
  | succ m ih => exact ih.dlyAdvance hD hx

end State.DelaySettled

/-- Settles O34: each call returns the input of `D` calls earlier, which the buffer holds. -/
theorem integerDelayReproduces : Obligations.IntegerDelayReproduces := by
  intro s D x N hw hcap h1 hD hrep hbuf hwp hfb hact htap hlevel htgt hcur hfin hsub hsil m
  have hlength : IntegerLength s.cfg D := ⟨hw, hcap, h1, hD, hrep⟩
  have hinput : DelayableInput s.cfg x := ⟨hfin, hsub, fun m => (hsil m).1, fun m => (hsil m).2⟩
  have hstart : s.DelaySettled s.cfg D x 0 :=
    { cfgEq := rfl
      feedback := hfb
      active := hact
      oneTap := htap
      level := hlevel
      target := htgt
      current := .of_eq hcur hlength.num_spec.1
      pointer := hwp
      buffer := fun i hi _ => by
        rw [hbuf, Memory.read_nil, delayedInput, if_pos (by omega)]
        exact .refl (finite_silence s.cfg) }
  have hrun := hstart.delayRun hlength hinput m
  exact (hrun.dlyReturn hlength hinput).arith_eq

end Sys2Proof.Machine
end

section
/-! The reverb network (45_reverb.md R236, R238 to R241).

A line is read at its pointer before the write to the same slot, so that the slot written `i` samples ago is `i`
steps back from the pointer, and the read is `RLEN` steps back. With decay 0 and silent input each write is a
zero: after `RLEN` samples a line holds nothing else. -/

namespace Sys2Proof.Machine

/-! ### `REV.ROOM` (R236) -/

theorem lineLength_eq (c : Cfg) (base : Int) (p : Nat) :
    (lineLength c base p : Int) = min (max (base * p / 1024) 1) c.RMAX :=
  Int.toNat_of_nonneg (by omega)

section

variable {s : State}

theorem exec_revRoom (h : s.PHASE ≠ .halt) : exec .revRoom s = .next s.revRoom :=
  exec_of_legal h rfl

variable (s) in
theorem State.length_revRoom_REV : s.revRoom.REV.length = s.cfg.NREV := List.length_map _

variable (s) in
/-- The line lengths depend on the configuration and `A.ROOM` alone. -/
theorem State.revRoom_lengths :
    s.revRoom.REV.map ReverbLine.RLEN
      = s.cfg.REV_P.map (lineLength s.cfg (roomBase s.cfg.arith s.cfg s.A.ROOM)) := List.map_map

/-- Line `j` after `REV.ROOM`: the length of its ratio, and cleared. -/
theorem State.getElem?_revRoom_REV {j : Nat} {l : ReverbLine NumWord} (hl : s.revRoom.REV[j]? = some l) :
    l = ⟨[], lineLength s.cfg (roomBase s.cfg.arith s.cfg s.A.ROOM) (s.cfg.REV_P.getD j 0), 0, silence⟩ := by
  obtain ⟨p, hp, rfl⟩ := Option.map_eq_some_iff.mp (List.getElem?_map.symm.trans hl)
  rw [List.getD_eq_getElem?_getD, hp, Option.getD_some]

end

/-- The table of R236 for the default configuration. -/
theorem lineLength_default :
    let c := Config.default
    let lengths := fun room => c.REV_P.map (lineLength c (roomBase c.arith c room))
    lengths silence = [256, 290, 330, 374]
    ∧ lengths (c.arith.const (mkRat 1 2)) = [2628, 2984, 3390, 3847]
    ∧ lengths (c.arith.const 1) = [5000, 5678, 6450, 7319] := by
  decide +kernel

/-- Settles O35: every line by its ratio, and the table by the lengths at its three rooms. -/
theorem revRoomLengths : Obligations.RevRoomLengths := by
  refine ⟨by decide, fun s h => ⟨s.revRoom, exec_revRoom h, rfl, s.length_revRoom_REV, fun j l hl => ?_⟩,
    fun s hc h t ht => ?_⟩
  · rw [State.getElem?_revRoom_REV hl]
    exact ⟨lineLength_eq _ _ _, rfl, rfl, Memory.read_nil⟩
  · obtain rfl : s.revRoom = t := Host.Outcome.next.inj ((exec_revRoom h).symm.trans ht)
    obtain ⟨hzero, hhalf, hone⟩ := lineLength_default
    rw [State.revRoom_lengths, hc]
    exact ⟨fun hr => hr ▸ hzero, fun hr => hr ▸ hhalf, fun hr => hr ▸ hone⟩

/-! ### One sample through a line (R239) -/

section

variable {α : Type} [Inhabited α] [DecidableEq α] {N : NUM α} {c : Cfg} {g x : α} {l : ReverbLine α}

omit [DecidableEq α] in
theorem ReverbLine.ok_iff :
    l.ok N c g x = true
      ↔ N.finite (l.damped N c) = true ∧ N.finite (l.feedback N c g x) = true := Bool.and_eq_true_iff

theorem ReverbLine.read_advance_self :
    (l.advance N c g x).RB.read l.RP = orSilence (l.ok N c g x) (l.feedback N c g x) :=
  (Memory.read_write _ _ _ _).trans (if_pos rfl)

theorem ReverbLine.read_advance_of_ne {a : Nat} (ha : a ≠ l.RP) :
    (l.advance N c g x).RB.read a = l.RB.read a :=
  (Memory.read_write _ _ _ a).trans (if_neg ha)

theorem ReverbLine.advance_RLEN : (l.advance N c g x).RLEN = l.RLEN := rfl

theorem ReverbLine.advance_RP : (l.advance N c g x).RP = ringNext l.RP l.RLEN := rfl

/-- A line whose two values are finite stores them. -/
theorem ReverbLine.advance_of_ok (hok : l.ok N c g x = true) :
    (l.advance N c g x).LP = l.damped N c
      ∧ (l.advance N c g x).RB.read l.RP = l.feedback N c g x := by
  refine ⟨if_pos hok, ?_⟩
  rw [ReverbLine.read_advance_self, hok, orSilence_true]

/-- Any other line stores two silences. -/
theorem ReverbLine.advance_of_not_ok (hok : ¬ l.ok N c g x = true) :
    (l.advance N c g x).LP = silence ∧ (l.advance N c g x).RB.read l.RP = silence := by
  refine ⟨if_neg hok, ?_⟩
  rw [ReverbLine.read_advance_self, Bool.eq_false_of_not_eq_true hok, orSilence_false]

end

/-! ### `REV.PROC` (R238, R240) -/

section

variable {s : State} {n : Nat}

/-- `REV.PROC` completes where the operand is a sample and, if the reverb is enabled, the line pointers are in
range. -/
theorem exec_revProc {n : BitVec 24} (h : s.PHASE ≠ .halt) (hn : n.toNat < s.cfg.L)
    (hr : s.A.revEn = true → s.revInRange = true) : exec (.revProc n) s = .next (s.revProc n.toNat) := by
  have hspace : (!s.A.revEn || s.revInRange) = true := by
    cases hen : s.A.revEn with
    | false => rfl
    | true => exact hr hen
  calc exec (.revProc n) s
    _ = inSpace (!s.A.revEn || s.revInRange) (s.revProc n.toNat) := exec_of_legal h (decide_eq_true hn)
    _ = .next (s.revProc n.toNat) := by rw [hspace, inSpace_true]

theorem State.revProc_of_disabled (hen : s.A.revEn = false) : s.revProc n = s :=
  if_neg (Bool.eq_false_iff.mp hen)

section

variable (hen : s.A.revEn = true)

include hen

/-- An enabled reverb advances its lines on `W[n]` and stores the guarded sum (R238). -/
theorem State.revProc_of_enabled :
    s.revProc n = (s.revAdvance (s.W.read n)).storeW n
      (s.cfg.arith.finite (s.cfg.arith.add (s.W.read n) s.revReturn))
      (s.cfg.arith.add (s.W.read n) s.revReturn) := if_pos hen

theorem State.revProc_frame :
    s.revProc n = { s with
      REV := (s.revProc n).REV, W := (s.revProc n).W, NFAULT := (s.revProc n).NFAULT } := by
  rw [State.revProc_of_enabled hen]
  rfl

theorem State.revProc_REV_eq :
    (s.revProc n).REV = s.REV.map (ReverbLine.advance s.cfg.arith s.cfg s.G (s.W.read n)) := by
  rw [State.revProc_of_enabled hen]
  rfl

theorem State.revProc_W_eq :
    (s.revProc n).W = s.W.write n
      (orSilence (s.cfg.arith.finite (s.cfg.arith.add (s.W.read n) s.revReturn))
        (s.cfg.arith.add (s.W.read n) s.revReturn)) := by
  rw [State.revProc_of_enabled hen]
  rfl

end

end

/-- Settles O36: the words of the statement are those that each line stores and `RevProcess` returns. -/
theorem revProcStep : Obligations.RevProcStep := by
  intro s n h hn
  refine ⟨Laws.commandWord_toNat 0x63 n, fun hoff => ?_, fun hon hr => ?_⟩
  · have hen : s.A.revEn = false := hoff
    rw [exec_revProc h hn (fun hen' => absurd (hen.symm.trans hen') Bool.false_ne_true),
      State.revProc_of_disabled hen]
  · intro N x y v
    have hen : s.A.revEn = true := hon
    have hreturn : s.revReturn = v := rfl
    have hrev : (s.revProc n.toNat).REV = s.REV.map (ReverbLine.advance N s.cfg s.G x) :=
      State.revProc_REV_eq hen
    refine ⟨s.revProc n.toNat, exec_revProc h hn fun _ => State.revInRange_iff.mpr hr,
      State.revProc_frame hen, ?_, fun a ha => ?_, ?_, fun j l u hl hu => ?_⟩
    · rw [State.revProc_W_eq hen, Memory.read_write, if_pos rfl, hreturn]
      rfl
    · rw [State.revProc_W_eq hen, Memory.read_write, if_neg ha]
    · rw [hrev, List.length_map]
    · obtain rfl : l.advance N s.cfg s.G x = u := by
        rw [hrev, List.getElem?_map, hl] at hu
        exact Option.some.inj hu
      intro rd lp wv good
      have hguard : l.ok N s.cfg s.G x = true ↔ good := ReverbLine.ok_iff
      exact ⟨rfl, rfl, fun hgood => ReverbLine.advance_of_ok (hguard.mpr hgood),
        fun hbad => ReverbLine.advance_of_not_ok (mt hguard.mp hbad),
        fun a ha => ReverbLine.read_advance_of_ne ha⟩

/-! ### Results that are not finite (00_scope.md R13, R15)

A product or a sum is finite only if both operands are. -/

namespace F32

variable {a b : Num32}

theorem finite_nan (op : Config.NumOp) (a b : Num32) : finite (nan op a b) = false := by
  refine Bool.eq_false_iff.mpr fun h => ?_
  obtain ⟨hnan, -⟩ := (finite_iff _).mp h
  exact Bool.false_ne_true (hnan.symm.trans (isNaN_nan op a b))

theorem finite_pack_infMag : ∀ s : Bool, finite (pack s infMag) = false := by decide

/-- Any other product is a NaN or an infinity. -/
theorem finite_operands_of_mul (h : finite (mul a b) = true) : finite a = true ∧ finite b = true := by
  unfold mul at h
  dsimp only at h
  split at h
  · simp [finite_nan] at h
  next hnan =>
    split at h
    · split at h <;> simp [finite_nan, finite_pack_infMag] at h
    next hainf =>
      split at h
      · split at h <;> simp [finite_nan, finite_pack_infMag] at h
      next hbinf =>
        simp only [Bool.or_eq_true, not_or, Bool.not_eq_true] at hnan hainf hbinf
        exact ⟨(finite_iff a).mpr ⟨hnan.1, hainf⟩, (finite_iff b).mpr ⟨hnan.2, hbinf⟩⟩

/-- Any other sum is a NaN or an infinity. -/
theorem finite_operands_of_add (h : finite (add a b) = true) : finite a = true ∧ finite b = true := by
  unfold add addAs at h
  split at h
  · simp [finite_nan] at h
  next hnan =>
    split at h
    next hainf =>
      split at h
      · simp [finite_nan] at h
      · simp [finite_iff, hainf] at h
    next hainf =>
      split at h
      next hbinf => simp [finite_iff, hbinf] at h
      next hbinf =>
        simp only [Bool.or_eq_true, not_or, Bool.not_eq_true] at hnan hainf hbinf
        exact ⟨(finite_iff a).mpr ⟨hnan.1, hainf⟩, (finite_iff b).mpr ⟨hnan.2, hbinf⟩⟩

end F32

/-- An operation on a saturated word saturates. -/
theorem Fix.finite_operands_of_result {w f : Nat} {op : Config.NumOp} {a b v : Int}
    (h : Fix.finite w f (Fix.result w f op a b v) = true) :
    Fix.finite w f a = true ∧ Fix.finite w f b = true := by
  rw [Fix.finite_result, Bool.and_eq_true, Bool.and_eq_true] at h
  exact h.left

section

variable {c : Cfg} {a b : NumWord}

theorem finite_operands_of_arith_mul (h : c.arith.finite (c.arith.mul a b) = true) :
    c.arith.finite a = true ∧ c.arith.finite b = true := by
  cases hk : c.NUM with
  | f32 =>
    rw [arith_f32 hk] at h ⊢
    simp only [NUM.onWords, NUM_F32, F32.pattern_word] at h
    exact F32.finite_operands_of_mul h
  | fix w f =>
    rw [arith_fix hk] at h ⊢
    exact Fix.finite_operands_of_result h

theorem finite_operands_of_arith_add (h : c.arith.finite (c.arith.add a b) = true) :
    c.arith.finite a = true ∧ c.arith.finite b = true := by
  cases hk : c.NUM with
  | f32 =>
    rw [arith_f32 hk] at h ⊢
    simp only [NUM.onWords, NUM_F32, F32.pattern_word] at h
    exact F32.finite_operands_of_add h
  | fix w f =>
    rw [arith_fix hk] at h ⊢
    exact Fix.finite_operands_of_result h

/-- Finite words that the comparison of the chip finds equal stand for one number. -/
theorem SameValue.of_arith_eq (ha : c.arith.finite a = true) (hb : c.arith.finite b = true)
    (h : c.arith.eq a b = true) : SameValue c a b := by
  refine ⟨ha, hb, ?_⟩
  cases hk : c.NUM with
  | f32 =>
    rw [arith_f32 hk] at h
    simp only [NUM.onWords, NUM_F32, F32.eq, Bool.and_eq_true, decide_eq_true_eq] at h
    obtain ⟨-, hkey⟩ := h
    exact F32.key_eq_iff_value.mp hkey
  | fix w f =>
    rw [arith_fix hk] at ha hb h
    rw [Fix.numValue_eq_iff ha hb, ← Fix.value_of_finite (f := f) ha, ← Fix.value_of_finite (f := f) hb]
    exact of_decide_eq_true h

end

/-! ### Decay 0 (R241) -/

section

variable {c : Cfg} {g : NumWord}

/-- A guarded value is a zero if it is one whenever its tests pass. -/
theorem sameValue_orSilence {ok : Bool} {v : NumWord} (h : ok = true → SameValue c v silence) :
    SameValue c (orSilence ok v) silence := by
  cases ok with
  | false => exact .refl (finite_silence c)
  | true => exact h rfl

/-- With decay 0 and silent input a finite feedback value is a zero. -/
theorem ReverbLine.feedback_silent {l : ReverbLine NumWord} (hg : c.arith.eq g silence = true)
    (hfin : c.arith.finite (l.feedback c.arith c g silence) = true) :
    SameValue c (l.feedback c.arith c g silence) silence := by
  obtain ⟨-, hprod⟩ := finite_operands_of_arith_add hfin
  obtain ⟨hgfin, hdamped⟩ := finite_operands_of_arith_mul hprod
  have hgzero : SameValue c g silence := .of_arith_eq hgfin (finite_silence c) hg
  have hzero : SameValue c (c.arith.mul g (l.damped c.arith c)) silence :=
    arith_mul_exact hgfin hdamped (finite_silence c) (by rw [hgzero.value, numValue_silence, zero_mul])
  exact sameValue_add_zero (finite_silence c) hzero

/-- A line after `m` silent samples: each slot that they wrote holds a zero. -/
structure ReverbLine.SilentFor (c : Cfg) (m : Nat) (l : ReverbLine NumWord) : Prop where
  pointer : l.RP < l.RLEN
  slots : ∀ i, 1 ≤ i → i ≤ m → i ≤ l.RLEN →
    SameValue c (l.RB.read (ringIndex l.RP i l.RLEN)) silence

namespace ReverbLine.SilentFor

variable {l : ReverbLine NumWord} {m : Nat} (h : l.SilentFor c m)

include h

/-- The read is `RLEN` steps back. -/
theorem tap (hm : l.RLEN ≤ m) : SameValue c l.tap silence := by
  have hpointer := h.pointer
  have hslot := h.slots l.RLEN (by omega) hm le_rfl
  rwa [ringIndex_of_eq (r := l.RP) (by rw [Int.sub_emod_right, Int.emod_eq_of_lt] <;> omega)] at hslot

theorem advance (hg : c.arith.eq g silence = true) :
    (l.advance c.arith c g silence).SilentFor c (m + 1) where
  pointer := ringNext_lt _ (Nat.zero_lt_of_lt h.pointer)
  slots := by
    intro i hi1 him hi
    obtain ⟨i, rfl⟩ := Nat.exists_eq_add_of_le' hi1
    rw [ReverbLine.advance_RLEN] at hi ⊢
    rw [ReverbLine.advance_RP]
    rcases Nat.eq_zero_or_pos i with rfl | hpos
    · rw [ringIndex_ringNext_one h.pointer, ReverbLine.read_advance_self]
      refine sameValue_orSilence fun hok => ?_
      obtain ⟨-, hfin⟩ := ReverbLine.ok_iff.mp hok
      exact ReverbLine.feedback_silent hg hfin
    · rw [ringIndex_ringNext_succ,
        ReverbLine.read_advance_of_ne (ringIndex_ne_self h.pointer hpos hi)]
      exact h.slots i hpos (by omega) (by omega)

end ReverbLine.SilentFor

end

/-- The reverb of R241 after `m` silent samples, with lines of at most `k` words. -/
structure State.ReverbSilentFor (c : Cfg) (k m : Nat) (s : State) : Prop where
  cfgEq : s.cfg = c
  decay : c.arith.eq s.G silence = true
  lengths : ∀ l ∈ s.REV, l.RLEN ≤ k
  lines : ∀ l ∈ s.REV, l.SilentFor c m

namespace State.ReverbSilentFor

variable {c : Cfg} {k m : Nat} {s : State}

theorem revAdvance (h : s.ReverbSilentFor c k m) :
    (s.revAdvance silence).ReverbSilentFor c k (m + 1) where
  cfgEq := h.cfgEq
  decay := h.decay
  lengths := fun l hl => by
    obtain ⟨q, hq, rfl⟩ := List.mem_map.mp hl
    exact h.lengths q hq
  lines := fun l hl => by
    obtain ⟨q, hq, rfl⟩ := List.mem_map.mp hl
    rw [h.cfgEq]
    exact (h.lines q hq).advance h.decay

theorem silentReverb (h : s.ReverbSilentFor c k 0) (m : Nat) :
    (silentReverb s m).ReverbSilentFor c k m := by
  induction m with
  | zero => exact h
  | succ m ih => exact ih.revAdvance

/-- From `k` samples on every read is a zero, and so is their scaled sum. -/
theorem revReturn (h : s.ReverbSilentFor c k m) (hm : k ≤ m) : SameValue c s.revReturn silence := by
  have hsum : SameValue c (reverbSum c.arith s.REV) silence := by
    refine List.foldlRecOn (motive := (SameValue c · silence)) _ _ (.refl (finite_silence c))
      fun acc hacc l hl => ?_
    have htap := (h.lines l hl).tap ((h.lengths l hl).trans hm)
    exact (sameValue_add_zero hacc.left htap).trans hacc
  rw [State.revReturn, State.revOutput, h.cfgEq]
  refine sameValue_orSilence fun hfin => ?_
  obtain ⟨hgain, -⟩ := finite_operands_of_arith_mul hfin
  exact sameValue_mul_zero hgain hsum

end State.ReverbSilentFor

/-- Settles O37: after one traversal every slot of every line has been written with a zero. -/
theorem reverbReachesSilence : Obligations.ReverbReachesSilence := by
  intro s m N hg hpointer hlength
  have hstart : s.ReverbSilentFor s.cfg m 0 :=
    { cfgEq := rfl
      decay := hg
      lengths := hlength
      lines := fun l hl => ⟨hpointer l hl, fun i hi1 hi0 => by omega⟩ }
  exact ((hstart.silentReverb m).revReturn le_rfl).arith_eq

end Sys2Proof.Machine
end

section
/-! The crossfade mixer (46_mixer.md R256 to R259).

At either end of the mix one factor of `a = mix * (1 - mix)` is `+0`, so the bump `b` is `+0` whatever the
crossfade constant, and the gains are the squares of `mix` and `1 - mix`. At mix 0.5 these two are the same
word, and both gains the square of one sum. -/

namespace Sys2Proof.Machine

/-! ### `MIX.SET` (R256, R257) -/

theorem exec_mixSet {s : State} (h : s.PHASE ≠ .halt) : exec .mixSet s = .next s.mixSet :=
  exec_of_legal h rfl

/-- Settles O38: the gains of the effect are the formula of the statement. -/
theorem mixSetGains : Obligations.MixSetGains :=
  ⟨by decide, by decide +kernel, fun _ h => exec_mixSet h⟩

/-! ### `MIX.PROC` (R258) -/

theorem exec_mixProc {s : State} {n : BitVec 24} (h : s.PHASE ≠ .halt) (hn : n.toNat < s.cfg.L) :
    exec (.mixProc n) s = .next (s.mixProc n.toNat) :=
  exec_of_legal h (decide_eq_true hn)

section

variable (s : State) (n : Nat)

theorem State.mixProc_frame :
    s.mixProc n = { s with
      OUTL := (s.mixProc n).OUTL, OUTR := (s.mixProc n).OUTR, NFAULT := (s.mixProc n).NFAULT } := rfl

/-- Both channels take the same guarded sample. -/
theorem State.mixProc_outputs_eq :
    (s.mixProc n).OUTL
        = s.OUTL.write n (orSilence (s.cfg.arith.finite (s.mixSample n)) (s.mixSample n))
      ∧ (s.mixProc n).OUTR
        = s.OUTR.write n (orSilence (s.cfg.arith.finite (s.mixSample n)) (s.mixSample n)) :=
  ⟨rfl, rfl⟩

end

/-- Settles O40: both channels are written at `n` alone. -/
theorem mixProcMixes : Obligations.MixProcMixes := by
  intro s n h hn N o
  have hsample : s.mixSample n.toNat = o := rfl
  obtain ⟨hleft, hright⟩ := s.mixProc_outputs_eq n.toNat
  rw [hsample] at hleft hright
  refine ⟨Laws.commandWord_toNat 0x72 n, s.mixProc n.toNat, exec_mixProc h hn, s.mixProc_frame n.toNat,
    ?_, ?_, fun a ha => ⟨?_, ?_⟩⟩
  · rw [hleft, Memory.read_write, if_pos rfl]
    rfl
  · rw [hright, Memory.read_write, if_pos rfl]
    rfl
  · rw [hleft, Memory.read_write, if_neg ha]
  · rw [hright, Memory.read_write, if_neg ha]

/-! ### The values 0, 1 and 0.5 in the arithmetic of a chip -/

/-- Differences, products and sums of `+0`, `0.5` and `1`, bit for bit. -/
theorem F32.ops_zero_half_one :
    F32.sub F32.one F32.zero = F32.one ∧ F32.sub F32.one F32.one = F32.zero
      ∧ F32.mul F32.zero F32.one = F32.zero ∧ F32.mul F32.one F32.zero = F32.zero
      ∧ F32.add F32.zero F32.one = F32.one ∧ F32.sub F32.one F32.half = F32.half := by
  decide +kernel

namespace Fix

variable {w f : Nat} {a : Int}

theorem add_zero_left (ha : finite w f a = true) : add w f 0 a = a := by
  obtain ⟨h0, h1⟩ := (finite_iff w f a).mp ha
  rw [add, Int.zero_add]
  exact result_of_range (finite_zero w f) ha h0 h1

theorem sub_self (ha : finite w f a = true) : sub w f a a = 0 := by
  obtain ⟨h0, h1⟩ := (finite_iff w f 0).mp (finite_zero w f)
  rw [sub, Int.sub_self]
  exact result_of_range ha ha h0 h1

theorem const_one_eq_num (w f : Nat) : const w f 1 = num w f 1 := by
  obtain ⟨hconst, -⟩ := const_one w f
  rw [hconst, num, one_mul]

/-- In a format with fraction bits and the value 1, the value 0.5 is exact, and `1 - 0.5 = 0.5`. -/
theorem num_one_sub_half (hf : 1 ≤ f) (h : hasInt (.fix w f) 1 = true) :
    sub w f (num w f 1) (const w f (mkRat 1 2)) = const w f (mkRat 1 2) := by
  simp only [hasInt, one_mul, Bool.and_eq_true, decide_eq_true_eq] at h
  obtain ⟨h0, h1⟩ := h
  have hpow : (2 : Int) ^ f = 2 * 2 ^ (f - 1) := (mul_pow_sub_one (by omega) 2).symm
  have hpos : (0 : Int) < 2 ^ (f - 1) := by positivity
  have hmin := fixMin_add_fixMax w
  have hone : finite w f (2 ^ f) = true := (finite_iff _ _ _).mpr ⟨h0, h1⟩
  have hhalf : finite w f (2 ^ (f - 1)) = true := (finite_iff _ _ _).mpr ⟨by omega, by omega⟩
  have hnum : num w f 1 = 2 ^ f := by rw [num, one_mul, value_of_finite hone]
  have hconst : const w f (mkRat 1 2) = 2 ^ (f - 1) := by
    have hn : (mkRat 1 2).num = 1 := by decide
    have hd : (mkRat 1 2).den = 2 := by decide
    simp [const, hn, hd, hpow, value_of_finite hhalf]
  have hdiff : (2 : Int) ^ f - 2 ^ (f - 1) = 2 ^ (f - 1) := by omega
  rw [hnum, hconst, sub, hdiff]
  exact result_of_range hone hhalf (by omega) (by omega)

end Fix

section

variable {c : Cfg}

/-- A fixed-point chip has a fraction bit (00_scope.md R14, R15). -/
theorem Cfg.one_le_fraction_of_wf {w f : Nat} (hw : c.wf = true) (hk : c.NUM = .fix w f) : 1 ≤ f := by
  simp only [Cfg.wf, hk, NumFormat.ok, Bool.and_eq_true, decide_eq_true_eq] at hw
  obtain ⟨⟨hf, -⟩, -⟩ := hw
  exact hf

theorem arith_const_one (c : Cfg) : c.arith.const 1 = c.arith.num 1 := by
  cases hk : c.NUM with
  | f32 =>
    have hconst : F32.const 1 = F32.num 1 := by decide +kernel
    rw [arith_f32 hk]
    exact congrArg F32.word hconst
  | fix w f =>
    rw [arith_fix hk]
    exact Fix.const_one_eq_num w f

/-- `1 - 0 = 1` and `1 - 1 = +0`. -/
theorem arith_num_one_sub (c : Cfg) :
    c.arith.sub (c.arith.num 1) silence = c.arith.num 1
      ∧ c.arith.sub (c.arith.num 1) (c.arith.num 1) = silence := by
  have hfin := finite_num_one c
  cases hk : c.NUM with
  | f32 =>
    obtain ⟨hzero, hone, -⟩ := F32.ops_zero_half_one
    rw [arith_f32 hk]
    simp only [NUM.onWords, NUM_F32, F32.pattern_silence, F32.pattern_word, F32.num_one, hzero, hone,
      F32.word_zero, and_self]
  | fix w f =>
    rw [arith_fix hk] at hfin ⊢
    exact ⟨Fix.sub_zero_right hfin, Fix.sub_self hfin⟩

/-- The products of `+0` and `1`, in either order, are `+0`. -/
theorem arith_mul_silence_num_one (c : Cfg) :
    c.arith.mul silence (c.arith.num 1) = silence ∧ c.arith.mul (c.arith.num 1) silence = silence := by
  have hfin := finite_num_one c
  cases hk : c.NUM with
  | f32 =>
    obtain ⟨-, -, hleft, hright, -⟩ := F32.ops_zero_half_one
    rw [arith_f32 hk]
    simp only [NUM.onWords, NUM_F32, F32.pattern_silence, F32.pattern_word, F32.num_one, hleft, hright,
      F32.word_zero, and_self]
  | fix w f =>
    rw [arith_fix hk] at hfin ⊢
    exact ⟨Fix.mul_zero_left hfin, Fix.mul_zero_right hfin⟩

theorem arith_silence_add_num_one (c : Cfg) :
    c.arith.add silence (c.arith.num 1) = c.arith.num 1 := by
  have hfin := finite_num_one c
  cases hk : c.NUM with
  | f32 =>
    obtain ⟨-, -, -, -, hsum, -⟩ := F32.ops_zero_half_one
    rw [arith_f32 hk]
    simp only [NUM.onWords, NUM_F32, F32.pattern_silence, F32.pattern_word, F32.num_one, hsum]
  | fix w f =>
    rw [arith_fix hk] at hfin ⊢
    exact Fix.add_zero_left hfin

theorem arith_one_sub_half (hw : c.wf = true) (hone : hasInt c.NUM 1 = true) :
    c.arith.sub (c.arith.const 1) (c.arith.const (mkRat 1 2)) = c.arith.const (mkRat 1 2) := by
  rw [arith_const_one]
  cases hk : c.NUM with
  | f32 =>
    obtain ⟨-, -, -, -, -, hdiff⟩ := F32.ops_zero_half_one
    have hhalf : F32.const (mkRat 1 2) = F32.half := by decide +kernel
    rw [arith_f32 hk]
    simp only [NUM.onWords, NUM_F32, F32.pattern_word, F32.num_one, hhalf, hdiff]
  | fix w f =>
    rw [arith_fix hk]
    exact Fix.num_one_sub_half (Cfg.one_le_fraction_of_wf hw hk) (hk ▸ hone)

/-! ### The endpoints of the crossfade (R259) -/

/-- The crossfade constant of a chip is finite wherever it is so in `NUM_F32`. -/
theorem finite_const_of_f32 {q : Rat} (h : c.NUM = .f32 → F32.finite (F32.const q) = true) :
    c.arith.finite (c.arith.const q) = true := by
  cases hk : c.NUM with
  | f32 =>
    rw [arith_f32 hk]
    simpa only [NUM.onWords, NUM_F32, F32.pattern_word] using h hk
  | fix w f =>
    rw [arith_fix hk]
    exact Fix.finite_value (f := f) _

section

variable {k mix : NumWord} (hk : c.arith.finite k = true)

include hk

/-- Where `mix * (1 - mix)` is `+0`, so is the bump. -/
theorem crossfadeBump_of_product
    (ha : c.arith.mul mix (c.arith.sub (c.arith.const 1) mix) = silence) :
    crossfadeBump c.arith k mix = silence := by
  obtain ⟨hprod, -⟩ := arith_mul_silence_num_one c
  rw [crossfadeBump, ha, arith_const_one, arith_add_mul_silence (.inr rfl) hk, hprod]

variable (hone : hasInt c.NUM 1 = true)

include hone

/-- At mix 0 the gains are the squares of `1` and `+0`. -/
theorem gains_silence :
    dryGain c.arith k silence = c.arith.const 1 ∧ wetGain c.arith k silence = silence := by
  obtain ⟨hdiff, -⟩ := arith_num_one_sub c
  obtain ⟨hprod, -⟩ := arith_mul_silence_num_one c
  have hbump : crossfadeBump c.arith k silence = silence :=
    crossfadeBump_of_product hk (by rw [arith_const_one, hdiff, hprod])
  constructor
  · rw [dryGain, hbump, arith_const_one, hdiff, arith_silence_add_num_one,
      arith_num_one_mul_num_one hone]
  · rw [wetGain, hbump, arith_silence_add_silence, arith_mul_silence_silence]

/-- At mix 1 the gains are the squares of `+0` and `1`. -/
theorem gains_one :
    dryGain c.arith k (c.arith.const 1) = silence
      ∧ wetGain c.arith k (c.arith.const 1) = c.arith.const 1 := by
  obtain ⟨-, hdiff⟩ := arith_num_one_sub c
  obtain ⟨-, hprod⟩ := arith_mul_silence_num_one c
  have hbump : crossfadeBump c.arith k (c.arith.const 1) = silence :=
    crossfadeBump_of_product hk (by rw [arith_const_one, hdiff, hprod])
  constructor
  · rw [dryGain, hbump, arith_const_one, hdiff, arith_silence_add_silence, arith_mul_silence_silence]
  · rw [wetGain, hbump, arith_const_one, arith_silence_add_num_one, arith_num_one_mul_num_one hone]

end

/-- Where `1 - mix` is `mix`, both gains are the square of one sum. -/
theorem dryGain_eq_wetGain {k mix : NumWord} (h : c.arith.sub (c.arith.const 1) mix = mix) :
    dryGain c.arith k mix = wetGain c.arith k mix := by
  rw [dryGain, wetGain, h]

end

/-- Settles O39: the gains at the three values of `A.MIX` that the statement names. -/
theorem mixEndpoints : Obligations.MixEndpoints := by
  intro s N h hw hone hfin
  have hk : N.finite (N.const s.cfg.MIXC) = true := finite_const_of_f32 hfin
  have hwet : s.mixSet.WETG = wetGain N (N.const s.cfg.MIXC) s.A.MIX := rfl
  have hdry : s.mixSet.DRYG = dryGain N (N.const s.cfg.MIXC) s.A.MIX := rfl
  refine ⟨s.mixSet, exec_mixSet h, fun hmix => ?_, fun hmix => ?_, fun hmix => ?_⟩
  · rw [hwet, hdry, hmix]
    exact gains_silence hk hone
  · rw [hwet, hdry, hmix]
    exact gains_one hk hone
  · rw [hwet, hdry, hmix]
    exact dryGain_eq_wetGain (arith_one_sub_half hw hone)

end Sys2Proof.Machine
end

section
/-! What every command and every event keeps, by the parts that they are made of.

A predicate on states that holds after each named operation of a command (`KeptByCommands`) holds after every
command; one that also survives what the outside writes and the reset values (`KeptByEvents`) holds after every
step. The boundary's own bookkeeping is `State.withControl`, and the convolution engine's is
`State.withSpectra`. -/

namespace Sys2Proof.Machine

/-! ### The registers that only a boundary writes, and those of the convolution engine -/

/-- The active bank, the mailbox flags, the requests, the chain state and the readiness answers, which a
boundary writes and no other command does (60_exceptions.md R330; 47_control.md R272 to R278). -/
structure Control where
  A : Params
  MV : Bool
  RQM : Request
  RQI : Request
  RQB : Bool
  CHAIN : ChainState
  readyM : List Bool
  readyI : List Bool

/-- The control registers of a state. -/
def State.control (s : State) : Control :=
  ⟨s.A, s.MV, s.RQM, s.RQI, s.RQB, s.CHAIN, s.readyM, s.readyI⟩

/-- The state with other control registers. -/
def State.withControl (k : Control) (s : State) : State :=
  { s with
    A := k.A, MV := k.MV, RQM := k.RQM, RQI := k.RQI, RQB := k.RQB, CHAIN := k.CHAIN
    readyM := k.readyM, readyI := k.readyI }

/-- The active bank after the snapshot of a boundary (47_control.md R273). -/
def State.snapshot (s : State) : Params := if s.MV then Params.accept s.cfg s.A s.M else s.A

/-- Step 2 of a boundary, with and without a waiting snapshot. -/
theorem State.takeSnapshot_eq (s : State) :
    s.takeSnapshot = s.withControl { s.control with A := s.snapshot, MV := false } := by
  cases hmv : s.MV with
  | true => simp [State.takeSnapshot, State.snapshot, State.withControl, State.control, hmv]
  | false =>
    simp only [State.takeSnapshot, State.snapshot, State.withControl, State.control, hmv,
      Bool.false_eq_true, if_false]
    rw [← hmv]

/-- The transform buffer, the partitions and the history ring. -/
structure Spectra where
  Z : Memory NumWord
  PART : Memory NumWord
  HIST : Memory NumWord
  WIDX : Nat
  OVL : Memory NumWord
  K : Nat
  CURI : BitVec 24

/-- The state with other spectra. -/
def State.withSpectra (z : Spectra) (s : State) : State :=
  { s with
    Z := z.Z, PART := z.PART, HIST := z.HIST, WIDX := z.WIDX, OVL := z.OVL, K := z.K, CURI := z.CURI }

/-- The spectra of a state. -/
def State.spectra (s : State) : Spectra := ⟨s.Z, s.PART, s.HIST, s.WIDX, s.OVL, s.K, s.CURI⟩

/-- `CONV.INIT` of a row that exists and fits writes the spectra alone; of any other row it is a fatal
fault. -/
theorem State.convInit_cases (idx : BitVec 24) (s : State) :
    s.convInit idx = s.fatal .configurationMismatch
      ∨ s.convInit idx = s.withSpectra (s.convInit idx).spectra := by
  by_cases h : s.cfg.NIR ≤ idx.toNat
      ∨ s.cfg.KMAX < partitionCount s.cfg (s.cfg.ir idx.toNat).length
  · exact .inl (State.convInit_of_bad h)
  · obtain ⟨hrow, hfit⟩ := not_or.mp h
    right
    rw [State.convInit_of_fits (not_le.mp hrow) rfl (not_lt.mp hfit)]
    rfl

/-! ### Commands -/

/-- `P` holds after `f` where it held before. -/
def Keeps (P : State → Prop) (f : State → State) : Prop := ∀ ⦃s : State⦄, P s → P (f s)

/-- `P` holds after every named operation that commands are made of. -/
structure KeptByCommands (P : State → Prop) : Prop where
  fatal : ∀ cause, Keeps P (fun s => s.fatal cause)
  control : ∀ k, Keeps P (State.withControl k)
  spectra : ∀ z, Keeps P (State.withSpectra z)
  sample : ∀ i, Keeps P (fun s => { s with n := i })
  weights : ∀ wt idx, Keeps P (fun s => { s with WT := wt, CURM := idx })
  nnReset : Keeps P State.nnReset
  mixSet : Keeps P State.mixSet
  toneSet : Keeps P State.toneSet
  dlySet : Keeps P State.dlySet
  revRoom : Keeps P State.revRoom
  revDecay : Keeps P State.revDecay
  convOut : Keeps P State.convOut
  ctlPre : ∀ n, Keeps P (State.ctlPre n)
  ctlByp : ∀ n, Keeps P (State.ctlByp n)
  nnFwd : ∀ n, Keeps P (State.nnFwd n)
  toneProc : ∀ n, Keeps P (State.toneProc n)
  dlyProc : ∀ n, Keeps P (State.dlyProc n)
  revProc : ∀ n, Keeps P (State.revProc n)
  mixProc : ∀ n, Keeps P (State.mixProc n)

namespace KeptByCommands

variable {P : State → Prop} (hP : KeptByCommands P) {s t : State}

include hP

theorem nnLoad (idx : BitVec 24) (h : P s) : P (s.nnLoad idx) := by
  by_cases hrow : idx.toNat < s.cfg.NMODEL
  · rw [State.nnLoad_of_row hrow]
    exact hP.weights _ idx h
  · rw [State.nnLoad_of_bad (not_lt.mp hrow)]
    exact hP.fatal _ h

theorem convInit (idx : BitVec 24) (h : P s) : P (s.convInit idx) := by
  obtain hbad | hfit := s.convInit_cases idx
  · rw [hbad]
    exact hP.fatal _ h
  · rw [hfit]
    exact hP.spectra _ h

theorem fftTransform (inv : Bool) (h : P s) : P (s.fftTransform inv) :=
  hP.spectra (s.fftTransform inv).spectra h

theorem convClear (h : P s) : P s.convClear := hP.spectra s.convClear.spectra h

theorem convFrame (h : P s) : P s.convFrame := hP.spectra s.convFrame.spectra h

theorem convPush (h : P s) : P s.convPush := hP.spectra s.convPush.spectra h

theorem convMac (h : P s) : P s.convMac := hP.spectra s.convMac.spectra h

theorem convBlock (h : P s) : P s.convBlock :=
  hP.convOut (hP.fftTransform true (hP.convMac (hP.convPush (hP.fftTransform false (hP.convFrame h)))))

omit hP in
theorem unlessHalted {f : State → State} (hf : Keeps P f) (h : P s) :
    P (State.unlessHalted f s) := by
  unfold State.unlessHalted
  split
  · exact h
  · exact hf h

theorem takeSnapshot (h : P s) : P s.takeSnapshot := by
  rw [s.takeSnapshot_eq]
  exact hP.control _ h

theorem switchModel (h : P s) : P s.switchModel := by
  unfold State.switchModel
  split
  · exact hP.fatal _ h
  · split
    · exact hP.nnReset (hP.nnLoad _ h)
    · exact h

theorem modelReload (h : P s) : P s.modelReload := by
  unfold State.modelReload
  split
  · dsimp only
    split
    · exact hP.switchModel
        (hP.control { s.control with readyM := s.readyM.tail, RQM := ⟨false, s.RQM.idx⟩ } h)
    · exact hP.control { s.control with readyM := s.readyM.tail } h
  · exact h

theorem switchIr (h : P s) : P s.switchIr := by
  unfold State.switchIr
  split
  · exact hP.fatal _ h
  · split
    · exact hP.convInit _ h
    · exact h

theorem irReload (h : P s) : P s.irReload := by
  unfold State.irReload
  split
  · dsimp only
    split
    · exact hP.switchIr
        (hP.control { s.control with readyI := s.readyI.tail, RQI := ⟨false, s.RQI.idx⟩ } h)
    · exact hP.control { s.control with readyI := s.readyI.tail } h
  · exact h

theorem bypassToggle (h : P s) : P s.bypassToggle := by
  unfold State.bypassToggle
  split
  · dsimp only
    split
    · exact hP.convClear
        (hP.nnReset (hP.control { s.control with RQB := false, CHAIN := .active } h))
    · exact hP.control { s.control with RQB := false, CHAIN := .bypassed } h
  · exact h

theorem blockSetup (h : P s) : P s.blockSetup := by
  have hset := hP.dlySet (hP.toneSet (hP.mixSet h))
  unfold State.blockSetup
  dsimp only
  split
  · exact hP.revDecay (hP.revRoom hset)
  · exact hP.revDecay hset

theorem ctlBound (h : P s) : P s.ctlBound := by
  unfold State.ctlBound
  split
  · exact hP.fatal _ h
  · exact unlessHalted (fun _ ht => hP.blockSetup (hP.bypassToggle ht))
      (unlessHalted (fun _ ht => hP.irReload ht) (hP.modelReload (hP.takeSnapshot h)))

theorem forSamples {body : Nat → State → State} (hb : ∀ n, Keeps P (body n)) (h : P s) :
    P (State.forSamples body s) :=
  State.forSamples_keeps P body s h (fun _ n ht => hP.sample n ht) (fun _ n _ ht => hb n ht)

theorem postSample (n : Nat) : Keeps P (State.postSample n) := fun _ h =>
  hP.mixProc n (hP.revProc n (hP.dlyProc n (hP.toneProc n h)))

theorem activeBlock (h : P s) : P s.activeBlock :=
  hP.forSamples hP.postSample
    (hP.convBlock (hP.forSamples hP.nnFwd (hP.forSamples hP.ctlPre h)))

theorem bypassedBlock (h : P s) : P s.bypassedBlock := hP.forSamples hP.ctlByp h

theorem ctlBlock (h : P s) (ht : s.ctlBlock = .next t) : P t := by
  have hb := hP.ctlBound h
  obtain rfl | ⟨-, rfl⟩ | rfl := State.ctlBlock_next ht
  · exact hb
  · exact hP.activeBlock hb
  · exact hP.bypassedBlock hb

omit hP in
theorem of_next (ht : (.next s : Result) = .next t) (h : P s) : P t := Host.Outcome.next.inj ht ▸ h

omit hP in
theorem of_inSpace {ok : Bool} (ht : inSpace ok s = .next t) (h : P s) : P t := by
  obtain ⟨-, rfl⟩ := inSpace_next ht
  exact h

/-- `P` holds after the effect of every command. -/
theorem effect {i : Instr} (h : P s) (ht : Machine.effect i s = .next t) : P t := by
  cases i with
  | ctlBound => exact of_next ht (hP.ctlBound h)
  | ctlPre n => exact of_next ht (hP.ctlPre _ h)
  | ctlByp n => exact of_next ht (hP.ctlByp _ h)
  | ctlBlock => exact hP.ctlBlock h ht
  | fftBrev => exact of_next ht (hP.spectra s.fftBrev.spectra h)
  | fftBfly inv st q => exact of_next ht (hP.spectra (s.fftBfly inv st.toNat q.toNat).spectra h)
  | fftFwd => exact of_next ht (hP.fftTransform false h)
  | fftInv => exact of_next ht (hP.fftTransform true h)
  | convInit idx => exact of_next ht (hP.convInit idx h)
  | convClear => exact of_next ht (hP.convClear h)
  | convBlock => exact of_inSpace ht (hP.convBlock h)
  | convFrame => exact of_next ht (hP.convFrame h)
  | convPush => exact of_inSpace ht (hP.convPush h)
  | convMac => exact of_inSpace ht (hP.convMac h)
  | convOut => exact of_inSpace ht (hP.convOut h)
  | nnLoad idx => exact of_next ht (hP.nnLoad idx h)
  | nnReset => exact of_next ht (hP.nnReset h)
  | nnFwd n => exact of_next ht (hP.nnFwd _ h)
  | toneSet => exact of_next ht (hP.toneSet h)
  | toneProc n => exact of_next ht (hP.toneProc _ h)
  | dlySet => exact of_next ht (hP.dlySet h)
  | dlyProc n => exact of_inSpace ht (hP.dlyProc _ h)
  | revRoom => exact of_next ht (hP.revRoom h)
  | revDecay => exact of_next ht (hP.revDecay h)
  | revProc n => exact of_inSpace ht (hP.revProc _ h)
  | mixSet => exact of_next ht (hP.mixSet h)
  | mixProc n => exact of_next ht (hP.mixProc _ h)

theorem issue {legal : Bool} {f : State → Result} (hf : f s = .next t → P t) (h : P s)
    (ht : Machine.issue legal f s = .next t) : P t := by
  obtain ⟨-, rfl⟩ | ⟨-, -, he⟩ | ⟨-, -, rfl⟩ := issue_next ht
  · exact h
  · exact hf he
  · exact hP.fatal _ h

/-- `P` holds after every command. -/
theorem exec {i : Instr} (h : P s) (ht : Machine.exec i s = .next t) : P t :=
  hP.issue (hP.effect h) h (exec_eq_issue i s ▸ ht)

theorem runWord {w : BitVec 32} (h : P s) (ht : Machine.runWord w s = .next t) : P t := by
  obtain ⟨-, ⟨i, -, he⟩ | ⟨_, -, he⟩⟩ := runWord_next ht
  · exact hP.exec h he
  · exact hP.issue (fun hn => of_next hn h) h he

theorem boot (h : P s) : P s.boot := by
  have hmodel := unlessHalted hP.nnReset (hP.nnLoad 0 h)
  have hconv := unlessHalted (fun _ ht => hP.convInit 0 ht) hmodel
  exact unlessHalted (fun _ ht => hP.dlySet (hP.toneSet (hP.mixSet (hP.revDecay (hP.revRoom ht))))) hconv

end KeptByCommands

/-! ### Events -/

/-- The registers that the outside writes or reads: the banks behind the port, the requests, the phase and the
input block of a `TICK`, and the model's own event and output fields (00_scope.md R19). -/
structure Outside where
  S : Params
  M : Params
  MV : Bool
  RQM : Request
  RQI : Request
  RQB : Bool
  PHASE : Phase
  X : Memory NumWord
  inbox : List Event
  tickLen : Option Nat
  readyM : List Bool
  readyI : List Bool
  portOut : BitVec 32
  audioOut : Option (List (BitVec 32) × List (BitVec 32))

/-- The outside's registers of a state. -/
def State.outside (s : State) : Outside :=
  ⟨s.S, s.M, s.MV, s.RQM, s.RQI, s.RQB, s.PHASE, s.X, s.inbox, s.tickLen, s.readyM, s.readyI, s.portOut,
    s.audioOut⟩

/-- The state with other registers of the outside. -/
def State.withOutside (o : Outside) (s : State) : State :=
  { s with
    S := o.S, M := o.M, MV := o.MV, RQM := o.RQM, RQI := o.RQI, RQB := o.RQB, PHASE := o.PHASE, X := o.X
    inbox := o.inbox, tickLen := o.tickLen, readyM := o.readyM, readyI := o.readyI, portOut := o.portOut
    audioOut := o.audioOut }

/-- `P` holds after every command, whatever the outside does, when the outputs are silenced, and at the reset
values. -/
structure KeptByEvents (P : State → Prop) : Prop extends KeptByCommands P where
  outside : ∀ o, Keeps P (State.withOutside o)
  silenceOut : Keeps P State.silenceOut
  cold : Keeps P (fun s => State.cold s.cfg)

namespace KeptByEvents

variable {P : State → Prop} (hP : KeptByEvents P) {s t : State}

include hP

theorem resetEvent (h : P s) : P s.resetEvent := by
  have hboot := hP.boot (hP.cold h)
  unfold State.resetEvent
  generalize (State.cold s.cfg).boot = u at hboot
  exact hP.outside { u.outside with inbox := s.inbox, readyM := s.readyM, readyI := s.readyI } hboot

theorem endBlock (h : P s) : P s.endBlock := by
  unfold State.endBlock
  dsimp only
  split
  · have hhalt := hP.outside (State.deliver { s.silenceOut with tickLen := none }).outside (hP.silenceOut h)
    exact hhalt
  · have hidle := hP.outside (State.deliver { s with tickLen := none, PHASE := .idle }).outside h
    exact hidle

theorem tick {block : List (BitVec 32)} (h : P s) (ht : s.tick block = .next t) : P t := by
  obtain ⟨-, rfl⟩ | ⟨-, u, hu, rfl⟩ := State.tick_next ht
  · exact hP.outside s.silenceOut.deliver.outside (hP.silenceOut h)
  · have hbegin : P (s.beginBlock block) := hP.outside (s.beginBlock block).outside h
    exact hP.endBlock (hP.ctlBlock hbegin hu)

theorem portWrite (addr width : Nat) (w : BitVec 32) (h : P s) : P (s.portWrite addr width w) := by
  rw [State.portWrite_frame]
  exact hP.outside { s.outside with
    S := _, M := _, MV := _, RQM := _, RQI := _, RQB := _ } h

theorem runEvent {e : Event} (h : P s) (ht : Machine.runEvent e s = .next t) : P t := by
  cases e with
  | reset => exact KeptByCommands.of_next ht (hP.resetEvent h)
  | tick block =>
    rw [Machine.runEvent] at ht
    split at ht
    · cases ht
    · exact hP.tick h ht
  | portWrite addr width w => exact KeptByCommands.of_next ht (hP.portWrite addr width w h)
  | portRead addr width =>
    exact KeptByCommands.of_next ht (hP.outside (s.portRead addr width).outside h)
  | command w => exact hP.runWord h ht

/-- `P` holds after every step. -/
theorem step (h : P s) (ht : Machine.step s = .next t) : P t := by
  obtain ⟨-, ⟨-, rfl⟩ | ⟨e, rest, -, he⟩⟩ := step_next ht
  · exact h
  · have hrest : P { s with inbox := rest } := hP.outside { s.outside with inbox := rest } h
    exact hP.runEvent hrest he

end KeptByEvents

end Sys2Proof.Machine
end

section
/-! The feedback memories stay finite, and the two output channels stay equal (60_exceptions.md R312;
47_control.md R286).

A word that an operation stores in a feedback memory has passed a test or is silence, so each write of
`KeptByCommands` keeps `State.FiniteOn c`. Every operation that writes an output channel writes the same word
in both. -/

namespace Sys2Proof.Machine

/-! ### The finite feedback memories -/

/-- The chip has the configuration `c`, and its feedback memories and its working block are finite. -/
structure State.FiniteOn (c : Cfg) (s : State) : Prop extends State.FeedbackFinite s where
  cfgEq : s.cfg = c

/-- The registers that `State.FiniteOn` speaks of. -/
def State.feedback (s : State) := (s.cfg, s.W, s.h, s.TF0, s.TF1, s.DBUF, s.REV)

section

variable {c : Cfg} {s t : State}

/-- An operation that leaves these registers as they are keeps them finite. -/
theorem State.FiniteOn.of_feedback (h : s.FiniteOn c) (e : t.feedback = s.feedback) : t.FiniteOn c := by
  simp only [State.feedback, Prod.mk.injEq] at e
  obtain ⟨cfg, w, hs, tf0, tf1, dbuf, rev⟩ := e
  obtain ⟨⟨h1, h2, h3, h4, h5⟩, hc⟩ := h
  refine ⟨⟨?_, ?_, ?_, ?_, ?_⟩, cfg.trans hc⟩ <;> simpa only [cfg, w, hs, tf0, tf1, dbuf, rev]

/-- A tone filter whose words are silence is finite. -/
theorem ToneFilter.isFinite_silence (c : Cfg) : ToneFilter.isFinite c.arith ⟨silence, silence, silence⟩ :=
  ⟨finite_silence c, finite_silence c, finite_silence c⟩

theorem State.FiniteOn.cold (c : Cfg) : (State.cold c).FiniteOn c where
  w := allFinite_nil _
  h := allFinite_nil _
  tone := ⟨ToneFilter.isFinite_silence c, ToneFilter.isFinite_silence c⟩
  dbuf := allFinite_nil _
  lines := fun l hl => by
    rw [List.eq_of_mem_replicate hl]
    exact ⟨allFinite_nil _, finite_silence c⟩
  cfgEq := rfl

/-- A value stored in the working block is silenced if its test fails. -/
theorem State.FiniteOn.storeW (h : s.FiniteOn c) (i : Nat) {ok : Bool} {v : NumWord}
    (hv : ok = true → s.cfg.arith.finite v = true) : (s.storeW i ok v).FiniteOn c :=
  { h with w := allFinite_write h.w i (finite_orSilence hv) }

theorem State.FiniteOn.ctlPre (h : s.FiniteOn c) (n : Nat) : (s.ctlPre n).FiniteOn c :=
  h.storeW n fun hok => (Bool.and_eq_true_iff.mp hok).2

theorem State.FiniteOn.convOut (h : s.FiniteOn c) : s.convOut.FiniteOn c :=
  { h with w := allFinite_tabulate fun _ _ => finite_orSilence id }

/-- The cell commits ten finite values or none. -/
theorem finite_nnStep {wt hs : Memory NumWord} (hh : allFinite c.arith hs) (x : NumWord) :
    allFinite c.arith (nnStep c.arith wt hs x).h ∧ c.arith.finite (nnStep c.arith wt hs x).y = true := by
  by_cases hok : (nnStep c.arith wt hs x).ok = true
  · obtain ⟨hy, hhidden⟩ := (nnStep_ok_iff c.arith wt hs x).mp hok
    obtain ⟨hout, -⟩ := nnStep_of_ok hok
    have hcell : (nnStep c.arith wt hs x).h = Memory.ofWords 0 (nnHiddenAll c.arith wt hs x) := if_pos hok
    rw [hout, hcell]
    refine ⟨allFinite_ofWords fun v hv => ?_, hy⟩
    obtain ⟨i, hi, rfl⟩ := List.mem_map.mp hv
    exact hhidden i (List.mem_range.mp hi)
  · obtain ⟨hout, hcell⟩ := nnStep_of_not_ok hok
    rw [hout, hcell]
    exact ⟨hh, finite_silence c⟩

theorem State.FiniteOn.nnFwd (h : s.FiniteOn c) (n : Nat) : (s.nnFwd n).FiniteOn c := by
  obtain ⟨hcell, hout⟩ := finite_nnStep (c := s.cfg) (wt := s.WT) h.h (s.W.read n)
  have hnext : State.FiniteOn c { s with h := (s.nnStepAt n).h } := { h with h := hcell }
  exact hnext.storeW n fun _ => hout

/-- Both filters are finite after a step: the selected one took tested words or kept its own. -/
theorem State.FiniteOn.toneFilters (h : s.FiniteOn c) (n : Nat) :
    (s.toneProc n).TF0.isFinite s.cfg.arith ∧ (s.toneProc n).TF1.isFinite s.cfg.arith := by
  by_cases hok : (s.toneStepAt n).ok = true
  · have hnext : (s.toneStepAt n).next.isFinite s.cfg.arith := by
      obtain ⟨hlp, hq, hr, -⟩ := (toneStep_ok_iff ..).mp hok
      exact ⟨hlp, hq, hr⟩
    cases hm : s.TMODE with
    | lowPass =>
      obtain ⟨hselected, hother⟩ := State.toneProc_filters_of_lowPass n hm
      rw [hselected, if_pos hok, hother]
      exact ⟨hnext, h.tone.2⟩
    | highPass =>
      obtain ⟨hselected, hother⟩ := State.toneProc_filters_of_highPass n hm
      rw [hselected, if_pos hok, hother]
      exact ⟨h.tone.1, hnext⟩
  · obtain ⟨-, h0, h1⟩ := State.toneProc_of_not_ok n hok
    rw [h0, h1]
    exact h.tone

theorem State.FiniteOn.toneProc (h : s.FiniteOn c) (n : Nat) : (s.toneProc n).FiniteOn c := by
  have hsample : (s.storeW n (s.toneStepAt n).ok (s.toneStepAt n).y).FiniteOn c :=
    h.storeW n fun hok => by
      obtain ⟨-, -, -, hy⟩ := (toneStep_ok_iff ..).mp hok
      exact hy
  exact { hsample with tone := h.toneFilters n }

theorem State.FiniteOn.dlyProc (h : s.FiniteOn c) (n : Nat) : (s.dlyProc n).FiniteOn c := by
  have hdelay : (s.dlyAdvance (s.W.read n)).FiniteOn c :=
    { h with dbuf := allFinite_write h.dbuf s.WP (finite_orSilence id) }
  exact hdelay.storeW n id

theorem State.FiniteOn.revRoom (h : s.FiniteOn c) : s.revRoom.FiniteOn c :=
  { h with
    lines := fun l hl => by
      obtain ⟨q, -, rfl⟩ := List.mem_map.mp hl
      exact ⟨allFinite_nil _, finite_silence s.cfg⟩ }

/-- A line stores two tested values or two silences. -/
theorem ReverbLine.finite_advance {g x : NumWord} {l : ReverbLine NumWord} (hl : allFinite c.arith l.RB) :
    allFinite c.arith (l.advance c.arith c g x).RB
      ∧ c.arith.finite (l.advance c.arith c g x).LP = true := by
  refine ⟨allFinite_write hl l.RP (finite_orSilence fun hok => ?_), finite_orSilence fun hok => ?_⟩
  · exact (ReverbLine.ok_iff.mp hok).2
  · exact (ReverbLine.ok_iff.mp hok).1

theorem State.FiniteOn.revProc (h : s.FiniteOn c) (n : Nat) : (s.revProc n).FiniteOn c := by
  by_cases hen : s.A.revEn = true
  · rw [State.revProc_of_enabled hen]
    have hlines : (s.revAdvance (s.W.read n)).FiniteOn c :=
      { h with
        lines := fun l hl => by
          obtain ⟨q, hq, rfl⟩ := List.mem_map.mp hl
          exact ReverbLine.finite_advance (h.lines q hq).1 }
    exact hlines.storeW n id
  · rwa [State.revProc_of_disabled (Bool.eq_false_of_not_eq_true hen)]

end

theorem keptByEvents_finiteOn (c : Cfg) : KeptByEvents (State.FiniteOn c) where
  fatal := fun cause s h => h.of_feedback (by simp [State.feedback])
  control := fun _ _ h => h.of_feedback rfl
  spectra := fun _ _ h => h.of_feedback rfl
  sample := fun _ _ h => h.of_feedback rfl
  weights := fun _ _ _ h => h.of_feedback rfl
  nnReset := fun _ h => { h with h := allFinite_nil _ }
  mixSet := fun _ h => h.of_feedback rfl
  toneSet := fun s h => h.of_feedback (by simp [State.feedback])
  dlySet := fun _ h => h.of_feedback rfl
  revRoom := fun _ h => h.revRoom
  revDecay := fun _ h => h.of_feedback rfl
  convOut := fun _ h => h.convOut
  ctlPre := fun n _ h => h.ctlPre n
  ctlByp := fun _ _ h => h.of_feedback rfl
  nnFwd := fun n _ h => h.nnFwd n
  toneProc := fun n _ h => h.toneProc n
  dlyProc := fun n _ h => h.dlyProc n
  revProc := fun n _ h => h.revProc n
  mixProc := fun _ _ h => h.of_feedback rfl
  outside := fun _ _ h => h.of_feedback rfl
  silenceOut := fun _ h => h.of_feedback rfl
  cold := fun _ h => h.cfgEq ▸ State.FiniteOn.cold _

/-- Settles O56: `State.FiniteOn` of the chip's own configuration is kept by every step. -/
theorem feedbackStaysFinite : Obligations.FeedbackStaysFinite := by
  intro s t hs ht
  have hfinite : s.FiniteOn s.cfg := ⟨hs, rfl⟩
  exact ((keptByEvents_finiteOn s.cfg).step hfinite ht).toFeedbackFinite

/-! ### The two output channels -/

theorem keptByEvents_outputsEqual : KeptByEvents (fun s => s.OUTL = s.OUTR) where
  fatal := fun cause s h => by
    cases cause with
    | illegalCommand => exact h
    | numericalFault | configurationMismatch | deadlineOverrun => rfl
  control := fun _ _ h => h
  spectra := fun _ _ h => h
  sample := fun _ _ h => h
  weights := fun _ _ _ h => h
  nnReset := fun _ h => h
  mixSet := fun _ h => h
  toneSet := fun s h => by simpa using h
  dlySet := fun _ h => h
  revRoom := fun _ h => h
  revDecay := fun _ h => h
  convOut := fun _ h => h
  ctlPre := fun _ _ h => h
  ctlByp := fun n s h => congrArg (Memory.write · n (s.X.read n)) h
  nnFwd := fun _ _ h => h
  toneProc := fun _ _ h => h
  dlyProc := fun n s h => by simpa using h
  revProc := fun n s h => by simpa using h
  mixProc := fun n s h =>
    congrArg (Memory.write · n (orSilence (s.cfg.arith.finite (s.mixSample n)) (s.mixSample n))) h
  outside := fun _ _ h => h
  silenceOut := fun _ _ => rfl
  cold := fun _ _ => rfl

/-- Settles O58: every write of one channel is a write of the same word in the other. -/
theorem outputChannelsStayEqual : Obligations.OutputChannelsStayEqual := fun _ _ hs ht =>
  keptByEvents_outputsEqual.step hs ht

end Sys2Proof.Machine
end

section
/-! The control port (47_control.md R290 to R296; 20_memory.md R72, R74).

An answered access is a read or a write of one register; `Params.get_set` says that the ten parameters are ten
registers. -/

namespace Sys2Proof.Machine

/-! ### The parameter registers (R290) -/

/-- Writing parameter `i` changes parameter `i` and no other. -/
theorem Params.get_set (p : Params) {i j : Nat} (hi : i < 10) (hj : j < 10) (v : NumWord) :
    (p.set i v).get j = if j = i then v else p.get j := by
  interval_cases i <;> interval_cases j <;> rfl

theorem Params.set_FLAGS (p : Params) {i : Nat} (hi : i < 10) (v : NumWord) : (p.set i v).FLAGS = p.FLAGS := by
  interval_cases i <;> rfl

/-! ### Patterns on a port (30_encoding.md R110, R111) -/

section

variable {c : Cfg} (hk : c.NUM = .f32) (w : BitVec 32)

include hk

/-- In `NUM_F32` a word is the pattern that crossed the port. -/
theorem arith_ofBits_of_f32 : c.arith.ofBits w = w.toNat := by
  rw [arith_f32 hk]
  rfl

/-- In `NUM_F32` a pattern crosses the port unchanged. -/
theorem arith_toBits_ofBits_of_f32 : c.arith.toBits (c.arith.ofBits w) = w := by
  rw [arith_f32 hk]
  exact F32.pattern_word w

end

/-- `+0` crosses a port as the zero pattern. -/
theorem arith_toBits_silence (c : Cfg) : c.arith.toBits silence = 0 := by
  cases hk : c.NUM with
  | f32 =>
    rw [arith_f32 hk]
    rfl
  | fix w f =>
    rw [arith_fix hk]
    show BitVec.ofInt 32 (Fix.value w 0) = 0
    have h0 : Fix.value w 0 = 0 := by
      have h1 : (1 : Int) ≤ 2 ^ (w - 1) := one_le_pow₀ (by norm_num)
      unfold Fix.value fixMin fixMax
      omega
    rw [h0]
    rfl

/-! ### Answered accesses -/

section

variable {s : State} {e : Event} {rest : List Event} {addr : Nat} {w : BitVec 32}

/-- The accesses that the port answers. -/
theorem portAccessOk_eq_true (h4 : addr % 4 = 0) (hmax : addr ≤ 0x3C) : portAccessOk addr 32 = true := by
  simp [portAccessOk, h4, hmax]

theorem State.portWrite_of_answered (h4 : addr % 4 = 0) (hmax : addr ≤ 0x3C) :
    s.portWrite addr 32 w = s.portStore addr w :=
  if_pos (portAccessOk_eq_true h4 hmax)

theorem State.portValue_of_answered (h4 : addr % 4 = 0) (hmax : addr ≤ 0x3C) :
    s.portValue addr 32 = s.portLoad addr :=
  if_pos (portAccessOk_eq_true h4 hmax)

/-- The word at a parameter address (R290). -/
theorem State.portValue_param {i : Nat} (hi : i < 10) :
    s.portValue (4 * i) 32 = s.cfg.arith.toBits (s.S.get i) := by
  rw [State.portValue_of_answered (by omega) (by omega), State.portLoad, if_pos (by omega),
    Nat.mul_div_cancel_left i (by decide)]

theorem State.portWrite_param {i : Nat} (hi : i < 10) :
    s.portWrite (4 * i) 32 w = { s with S := s.S.set i (s.cfg.arith.ofBits w) } := by
  rw [State.portWrite_of_answered (by omega) (by omega), State.portStore, if_pos (by omega),
    Nat.mul_div_cancel_left i (by decide)]

theorem step_of_portWrite (hw : s.cfg.wf = true) (hi : s.inbox = .portWrite addr 32 w :: rest) :
    step s = .next (State.portWrite addr 32 w { s with inbox := rest }) := step_of_inbox hw hi

end

/-- Settles O7: the write sets one of ten registers, and the read finds it. -/
theorem portWritesParameter : Obligations.PortWritesParameter := by
  intro s i w rest hw hi hin
  have hself : (s.S.set i (s.cfg.arith.ofBits w)).get i = s.cfg.arith.ofBits w :=
    (Params.get_set _ hi hi _).trans (if_pos rfl)
  refine ⟨{ s with inbox := rest, S := s.S.set i (s.cfg.arith.ofBits w) }, ?_, rfl, hself,
    fun j hj hne => (Params.get_set _ hi hj _).trans (if_neg hne), Params.set_FLAGS _ hi _, ?_,
    fun hk => ⟨hself.trans (arith_ofBits_of_f32 hk w), ?_⟩⟩
  · rw [step_of_portWrite hw hin, State.portWrite_param hi]
  · rw [State.portValue_param hi, hself]
  · rw [State.portValue_param hi, hself]
    exact arith_toBits_ofBits_of_f32 hk w

/-- Settles O8: one branch of the port's write for each address. -/
theorem portWritesControl : Obligations.PortWritesControl := by
  refine ⟨fun s => ⟨rfl, rfl, rfl, rfl, rfl⟩, fun s a w rest hw hin => ?_⟩
  refine ⟨?_, ?_, ?_, ?_, ?_, ?_, ?_⟩
  · rintro rfl
    exact step_of_portWrite hw hin
  · rintro rfl
    exact step_of_portWrite hw hin
  · rintro rfl
    exact step_of_portWrite hw hin
  · rintro rfl
    exact step_of_portWrite hw hin
  · rintro rfl hbit
    have hstore : State.portWrite 0x38 32 w { s with inbox := rest }
        = { s with inbox := rest, RQB := s.RQB || w.getLsbD 0 } := rfl
    rw [step_of_portWrite hw hin, hstore, hbit, Bool.or_true]
  · rintro rfl hbit
    have hstore : State.portWrite 0x38 32 w { s with inbox := rest }
        = { s with inbox := rest, RQB := s.RQB || w.getLsbD 0 } := rfl
    rw [step_of_portWrite hw hin, hstore, hbit, Bool.or_false]
  · rintro rfl
    exact step_of_portWrite hw hin

theorem statWord_eq (k : ChainState) : statWord k = if k = .active then 1 else 0 := by
  cases k with
  | bypassed => rfl
  | active => rfl

/-- Settles O9: a read leaves the value of the access in `portOut` and changes nothing else. -/
theorem portReads : Obligations.PortReads := by
  intro s a rest hw hin
  have hvalue : a % 4 = 0 → a ≤ 0x3C →
      State.portValue a 32 { s with inbox := rest } = State.portLoad a { s with inbox := rest } :=
    State.portValue_of_answered
  refine ⟨State.portRead a 32 { s with inbox := rest }, ⟨_, rfl⟩, fun h4 hmax => ?_,
    step_of_inbox hw hin⟩
  rw [State.portRead, hvalue h4 hmax]
  refine ⟨fun hparam => if_pos hparam, ?_, ?_, ?_⟩
  · rintro rfl
    rfl
  · rintro (rfl | rfl | rfl | rfl) <;> rfl
  · rintro rfl
    exact statWord_eq s.CHAIN

end Sys2Proof.Machine
end

section
/-! The per-sample commands of the controller (47_control.md R280, R281). -/

namespace Sys2Proof.Machine

section

variable {s : State} {n : BitVec 24} (h : s.PHASE ≠ .halt) (hn : n.toNat < s.cfg.L)

include h hn

theorem exec_ctlPre : exec (.ctlPre n) s = .next (s.ctlPre n.toNat) := exec_of_legal h (decide_eq_true hn)

theorem exec_ctlByp : exec (.ctlByp n) s = .next (s.ctlByp n.toNat) := exec_of_legal h (decide_eq_true hn)

end

section

variable (s : State) (n : Nat)

theorem State.ctlPre_frame :
    s.ctlPre n = { s with W := (s.ctlPre n).W, NFAULT := (s.ctlPre n).NFAULT } := rfl

theorem State.ctlPre_W_eq :
    (s.ctlPre n).W = s.W.write n
      (orSilence (s.cfg.arith.finite (s.X.read n) && s.cfg.arith.finite (s.cfg.arith.mul (s.X.read n) s.A.GAIN))
        (s.cfg.arith.mul (s.X.read n) s.A.GAIN)) := rfl

end

/-- A value guarded by two tests. -/
theorem orSilence_and {α : Type} [Inhabited α] (a b : Bool) (v : α) :
    orSilence (a && b) v = if a then (if b then v else silence) else silence := by
  cases a with
  | true => cases b <;> rfl
  | false => rfl

/-- Settles O41: each command writes the word at its operand and no other. -/
theorem ctlSampleCommands : Obligations.CtlSampleCommands := by
  intro s n h hn N x v
  refine ⟨Laws.commandWord_toNat 0x02 n, Laws.commandWord_toNat 0x03 n,
    ⟨s.ctlPre n.toNat, exec_ctlPre h hn, s.ctlPre_frame n.toNat, ?_, fun a ha => ?_⟩,
    ⟨s.ctlByp n.toNat, exec_ctlByp h hn, rfl, ?_, ?_, fun a ha => ⟨?_, ?_⟩⟩⟩
  · rw [State.ctlPre_W_eq, Memory.read_write, if_pos rfl]
    exact orSilence_and _ _ _
  · rw [State.ctlPre_W_eq, Memory.read_write, if_neg ha]
  · exact (Memory.read_write ..).trans (if_pos rfl)
  · exact (Memory.read_write ..).trans (if_pos rfl)
  · exact (Memory.read_write ..).trans (if_neg ha)
  · exact (Memory.read_write ..).trans (if_neg ha)

end Sys2Proof.Machine
end

section
/-! `HALT` and `RESET` (47_control.md R284; 60_exceptions.md R316, R321; 70_reset_and_hazards.md R350, R357). -/

namespace Sys2Proof.Machine

/-! ### A `TICK` that delivers silence -/

section

variable {s : State} {block : List (BitVec 32)}

/-- A silent channel is delivered as zero patterns. -/
theorem State.audioBlock_nil (s : State) : s.audioBlock [] = List.replicate s.cfg.L 0 := by
  rw [State.audioBlock, Memory.readBlock, List.map_map]
  refine List.eq_replicate_iff.mpr ⟨by simp, fun p hp => ?_⟩
  obtain ⟨i, -, rfl⟩ := List.mem_map.mp hp
  exact arith_toBits_silence s.cfg

theorem State.deliver_silenceOut (s : State) :
    s.silenceOut.deliver = { s with
      OUTL := [], OUTR := []
      audioOut := some (List.replicate s.cfg.L 0, List.replicate s.cfg.L 0) } := by
  rw [State.deliver]
  show { s with OUTL := [], OUTR := [], audioOut := some (s.audioBlock [], s.audioBlock []) } = _
  rw [State.audioBlock_nil]

/-- A block of the wrong length is a fatal fault before anything else (47_control.md R272). -/
theorem State.ctlBound_of_wrong_length (h : s.blen ≠ s.cfg.L) :
    s.ctlBound = s.fatal .configurationMismatch := if_pos h

theorem State.endBlock_of_halt (h : s.PHASE = .halt) :
    s.endBlock = { s with tickLen := none }.silenceOut.deliver := if_pos h

theorem State.endBlock_of_run (h : s.PHASE ≠ .halt) :
    s.endBlock = { s with tickLen := none, PHASE := .idle }.deliver := if_neg h

/-- A `TICK` outside `HALT` is the block schedule and its end. -/
theorem State.tick_of_ctlBlock {u : State} (h : s.PHASE ≠ .halt)
    (hu : (s.beginBlock block).ctlBlock = .next u) : s.tick block = .next u.endBlock := by
  simp [State.tick, h, hu]

theorem State.tick_of_halt (h : s.PHASE = .halt) :
    s.tick block = .next { s with
      OUTL := [], OUTR := []
      audioOut := some (List.replicate s.cfg.L 0, List.replicate s.cfg.L 0) } :=
  (if_pos h).trans (congrArg _ s.deliver_silenceOut)

/-- A `TICK` of the wrong length takes the fatal fault of the boundary, and the input block stays. -/
theorem State.tick_of_wrong_length (h : s.PHASE ≠ .halt) (hlen : block.length ≠ s.cfg.L) :
    s.tick block = .next { s with
      tickLen := none, HCAUSE := 2, PHASE := .halt, OUTL := [], OUTR := []
      audioOut := some (List.replicate s.cfg.L 0, List.replicate s.cfg.L 0) } := by
  have hX : (s.beginBlock block).X = s.X := if_neg hlen
  have hbound : (s.beginBlock block).ctlBound = (s.beginBlock block).fatal .configurationMismatch :=
    State.ctlBound_of_wrong_length hlen
  have hblock := State.ctlBlock_of_halt (s := s.beginBlock block) (hbound ▸ rfl)
  rw [State.tick_of_ctlBlock h (hblock.trans (congrArg _ hbound)), State.endBlock_of_halt rfl,
    State.deliver_silenceOut, State.fatal_configurationMismatch, hX]
  rfl

/-- A step on a `TICK` outside `RUN` serves it. -/
theorem step_of_tick {rest : List Event} (hw : s.cfg.wf = true) (hp : s.PHASE ≠ .run)
    (hin : s.inbox = .tick block :: rest) : step s = State.tick block { s with inbox := rest } :=
  (step_of_inbox hw hin).trans (if_neg hp)

end

/-- Settles O48: the wrong length is the first test of the boundary, and `HALT` the first of a `TICK`. -/
theorem tickFaults : Obligations.TickFaults := by
  intro s block rest hw hin quiet
  refine ⟨fun hp hlen => ?_, fun hp => ?_⟩
  · exact (step_of_tick hw (by simp [hp]) hin).trans
      (State.tick_of_wrong_length (s := { s with inbox := rest }) (by simp [hp]) hlen)
  · exact (step_of_tick hw (by simp [hp]) hin).trans (State.tick_of_halt (s := { s with inbox := rest }) hp)

/-! ### `HALT` is left by `RESET` only -/

theorem runWord_of_halt {s : State} (hp : s.PHASE = .halt) (w : BitVec 32) : runWord w s = .next s := by
  have hrun : s.PHASE ≠ .run := by simp [hp]
  cases hd : decode s.cfg w with
  | ok i => rw [runWord_of_ok hrun hd, exec_eq_issue, issue_of_halt hp]
  | error e => rw [runWord_of_error hrun hd, issue_of_halt hp]

/-- Settles O49: the four events that are not `RESET`, in `HALT`. -/
theorem haltLeftByResetOnly : Obligations.HaltLeftByResetOnly := by
  intro s e rest hw hp hin hreset
  cases e with
  | reset => exact absurd rfl hreset
  | tick block =>
    have htick := State.tick_of_halt (s := { s with inbox := rest }) (block := block) hp
    exact ⟨_, (step_of_tick hw (by simp [hp]) hin).trans htick, rfl⟩
  | portWrite addr width w =>
    have hwrite := State.portWrite_frame addr width w { s with inbox := rest }
    exact ⟨_, (step_of_inbox hw hin).trans (congrArg Host.Outcome.next hwrite), rfl⟩
  | portRead addr width => exact ⟨_, step_of_inbox hw hin, rfl⟩
  | command w =>
    have hword := runWord_of_halt (s := { s with inbox := rest }) hp w
    exact ⟨_, (step_of_inbox hw hin).trans hword, rfl⟩

/-! ### `RESET` -/

/-- In `HALT` a sequence of commands changes nothing. -/
theorem execAll_of_halt {s : State} (h : s.PHASE = .halt) (is : List Instr) : execAll is s = .next s := by
  induction is with
  | nil => rfl
  | cons i is ih => rw [execAll_cons i is s s (by rw [exec_eq_issue, issue_of_halt h]), ih]

/-- The last five commands of the boot sequence (70_reset_and_hazards.md R357). -/
theorem execAll_bootSetup {s : State} (h : s.PHASE ≠ .halt) :
    execAll [.revRoom, .revDecay, .mixSet, .toneSet, .dlySet] s
      = .next s.revRoom.revDecay.mixSet.toneSet.dlySet := by
  have htone : s.revRoom.revDecay.mixSet.toneSet.PHASE ≠ .halt := by simpa using h
  rw [execAll_cons_of_legal h rfl rfl, execAll_cons_of_legal (s := s.revRoom) h rfl rfl,
    execAll_cons_of_legal (s := s.revRoom.revDecay) h rfl rfl,
    execAll_cons_of_legal (s := s.revRoom.revDecay.mixSet) h rfl rfl,
    execAll_cons_of_legal htone rfl rfl, execAll_nil]

section

variable {c : Cfg} (hw : c.wf = true)

/-- The reset values with model 0 loaded. -/
def State.coldLoaded (c : Cfg) : State :=
  { State.cold c with WT := Memory.tabulate modelWords (c.model 0).read }

include hw

/-- Model 0 exists, so the first two boot commands load it. -/
theorem State.nnLoad_nnReset_cold : ((State.cold c).nnLoad 0).nnReset = State.coldLoaded c := by
  obtain ⟨hrow, -⟩ := Cfg.tables_nonempty_of_wf hw
  rw [State.nnLoad_of_row (s := State.cold c) (idx := 0) hrow]
  rfl

theorem State.boot_cold :
    (State.cold c).boot = State.unlessHalted (fun t => t.revRoom.revDecay.mixSet.toneSet.dlySet)
      ((State.coldLoaded c).convInit 0) := by
  have hload : State.unlessHalted State.nnReset ((State.cold c).nnLoad 0) = State.coldLoaded c := by
    obtain ⟨hrow, -⟩ := Cfg.tables_nonempty_of_wf hw
    rw [← State.nnLoad_nnReset_cold hw, State.nnLoad_of_row (s := State.cold c) (idx := 0) hrow]
    rfl
  rw [State.boot, hload]
  rfl

/-- The boot sequence of R357 is `State.boot`, also where `CONV.INIT` ends it in `HALT`. -/
theorem execAll_bootSequence_cold : execAll bootSequence (State.cold c) = .next (State.cold c).boot := by
  have hcold : (State.cold c).PHASE ≠ .halt := by simp [State.cold]
  have hload : ((State.cold c).nnLoad 0).PHASE ≠ .halt := by
    obtain ⟨hrow, -⟩ := Cfg.tables_nonempty_of_wf hw
    rwa [State.nnLoad_of_row (s := State.cold c) (idx := 0) hrow]
  have hloaded : (State.coldLoaded c).PHASE ≠ .halt := hcold
  rw [bootSequence, execAll_cons_of_legal hcold rfl rfl, execAll_cons_of_legal hload rfl rfl,
    State.nnLoad_nnReset_cold hw, execAll_cons_of_legal hloaded rfl rfl, State.boot_cold hw]
  by_cases hhalt : ((State.coldLoaded c).convInit 0).PHASE = .halt
  · rw [execAll_of_halt hhalt, State.unlessHalted_halt hhalt]
  · rw [execAll_bootSetup hhalt, State.unlessHalted_run hhalt]

/-- Impulse response 0 fits: the CORE boots. -/
theorem State.boot_cold_of_fits (hfit : partitionCount c (c.ir 0).length ≤ c.KMAX) :
    (State.cold c).boot.PHASE = .idle ∧ (State.cold c).boot.HCAUSE = 0
      ∧ (State.cold c).boot.CURM = 0 ∧ (State.cold c).boot.CURI = 0 := by
  obtain ⟨-, hrow⟩ := Cfg.tables_nonempty_of_wf hw
  rw [State.boot_cold hw, State.convInit_of_fits (s := State.coldLoaded c) (idx := 0) hrow rfl hfit,
    State.unlessHalted_run (by simp [State.coldLoaded, State.cold])]
  simp [State.coldLoaded, State.cold]

/-- Impulse response 0 does not fit: a fatal fault ends the boot sequence. -/
theorem State.boot_cold_of_not_fits (hbad : c.KMAX < partitionCount c (c.ir 0).length) :
    (State.cold c).boot = (State.coldLoaded c).fatal .configurationMismatch := by
  rw [State.boot_cold hw, State.convInit_of_bad (s := State.coldLoaded c) (idx := 0) (.inr hbad),
    State.unlessHalted_halt rfl]

theorem State.boot_cold_cfg : (State.cold c).boot.cfg = c ∧ (State.cold c).boot.CHAIN = .bypassed := by
  obtain ⟨-, hrow⟩ := Cfg.tables_nonempty_of_wf hw
  rcases le_or_gt (partitionCount c (c.ir 0).length) c.KMAX with hfit | hbad
  · rw [State.boot_cold hw, State.convInit_of_fits (s := State.coldLoaded c) (idx := 0) hrow rfl hfit,
      State.unlessHalted_run (by simp [State.coldLoaded, State.cold])]
    simp [State.coldLoaded, State.cold]
  · rw [State.boot_cold_of_not_fits hw hbad]
    exact ⟨rfl, rfl⟩

end

/-- Settles O50: `State.boot` on the reset values is the boot sequence, and only `CONV.INIT` can end it. -/
theorem resetRunsBootSequence : Obligations.ResetRunsBootSequence := by
  intro s rest hw hin
  obtain ⟨hcfg, hchain⟩ := State.boot_cold_cfg hw
  refine ⟨(State.cold s.cfg).boot, execAll_bootSequence_cold hw, step_of_inbox hw hin, hcfg, hchain,
    State.boot_cold_of_fits hw, fun hbad => ?_⟩
  rw [State.boot_cold_of_not_fits hw hbad]
  exact ⟨rfl, rfl⟩

/-! ### The reset state has the invariants -/

theorem rangesHoldReset_default : rangesHoldReset Config.default := by
  refine ⟨?_, ?_, ?_, by decide⟩ <;> constructor <;> unfold inRange <;> decide +kernel

/-- The reset values after the room, decay and mixer setup of the boot sequence. -/
def State.coldMixed (c : Cfg) : State := (State.cold c).revRoom.revDecay.mixSet

/-- The reset state is the setup commands on the reset values: the loads of the blank ROM change nothing. -/
theorem State.reset_eq_setup : (State.coldMixed Config.default).toneSet.dlySet = State.reset :=
  setup_cold_default

theorem State.reset_steady : State.reset.SteadyIn .idle none 0 := by
  have hroom := (State.cold_steady default_wf).revRoom
  have hmix : (State.coldMixed Config.default).SteadyIn .idle none 0 := hroom.of_registers rfl
  exact State.reset_eq_setup ▸ hmix.toneSet.of_registers rfl

theorem State.reset_stored : State.reset.StoredOn Config.default := by
  have hroom := (State.StoredOn.cold default_wf).revRoom
  have hmix : (State.coldMixed Config.default).StoredOn Config.default := hroom.of_memories rfl
  exact State.reset_eq_setup ▸ hmix.toneSet.of_memories rfl

theorem State.reset_finite : State.reset.FiniteOn Config.default := by
  have hP := keptByEvents_finiteOn Config.default
  have hmix : (State.coldMixed Config.default).FiniteOn Config.default :=
    hP.mixSet (hP.revDecay (hP.revRoom (State.FiniteOn.cold _)))
  exact State.reset_eq_setup ▸ hP.dlySet (hP.toneSet hmix)

theorem State.reset_ranged : State.reset.RangedOn Config.default := by
  have hcold := State.RangedOn.cold default_wf rangesHoldReset_default
  have hmix : (State.coldMixed Config.default).RangedOn Config.default := hcold.of_registers rfl
  exact State.reset_eq_setup ▸ hmix.toneSet.dlySet

/-- Settles O59: each invariant holds of the reset values and of the setup commands after them. -/
theorem resetHasTheInvariants : Obligations.ResetHasTheInvariants :=
  ⟨State.reset_steady.indexInv, State.reset_steady.phaseInv, State.reset_stored.toMemoryInv,
    State.reset_finite.toFeedbackFinite, State.reset_ranged.bankInv, State.reset_ranged.delayInv,
    rangesHoldReset_default, rfl⟩

end Sys2Proof.Machine
end

section
/-! What commands own (60_exceptions.md R330; 10_state.md R26, R27, R31, R36, R40, R42; 20_memory.md R85,
R88). -/

namespace Sys2Proof.Machine

/-- What no command writes: the configuration, the banks behind the port, the input block, the outside's events
and its outputs. -/
def State.commandFrame (s : State) :=
  (s.cfg, s.S, s.M, s.X, s.inbox, s.tickLen, s.portOut, s.audioOut)

theorem keptByCommands_commandFrame (s : State) :
    KeptByCommands (fun t => t.commandFrame = s.commandFrame) where
  fatal := fun cause t h => by simpa [State.commandFrame] using h
  control := fun _ _ h => h
  spectra := fun _ _ h => h
  sample := fun _ _ h => h
  weights := fun _ _ _ h => h
  nnReset := fun _ h => h
  mixSet := fun _ h => h
  toneSet := fun t h => by simpa [State.commandFrame] using h
  dlySet := fun _ h => h
  revRoom := fun _ h => h
  revDecay := fun _ h => h
  convOut := fun _ h => h
  ctlPre := fun _ _ h => h
  ctlByp := fun _ _ h => h
  nnFwd := fun _ _ h => h
  toneProc := fun _ _ h => h
  dlyProc := fun n t h => by simpa [State.commandFrame] using h
  revProc := fun n t h => by simpa [State.commandFrame] using h
  mixProc := fun _ _ h => h

/-- From `s` to `t` the control registers stay, the model stays if `model` is false and the impulse response if
`ir` is. -/
structure State.TablesKept (model ir : Prop) (s t : State) : Prop where
  control : t.control = s.control
  model : ¬ model → t.WT = s.WT ∧ t.CURM = s.CURM
  ir : ¬ ir → t.PART = s.PART ∧ t.K = s.K ∧ t.CURI = s.CURI

/-- The command is a load of a model, or of an impulse response. -/
def LoadsModel (i : Instr) : Prop := ∃ idx, i = .nnLoad idx
def LoadsIr (i : Instr) : Prop := ∃ idx, i = .convInit idx

section

variable {model ir : Prop} {s t : State}

theorem State.TablesKept.same (hc : t.control = s.control) (hm : (t.WT, t.CURM) = (s.WT, s.CURM))
    (hi : (t.PART, t.K, t.CURI) = (s.PART, s.K, s.CURI)) : State.TablesKept model ir s t := by
  simp only [Prod.mk.injEq] at hm hi
  exact ⟨hc, fun _ => hm, fun _ => hi⟩

theorem State.TablesKept.fatal (cause : FaultCause) : State.TablesKept model ir s (s.fatal cause) :=
  .same (by simp [State.control]) (by simp) (by simp)

theorem State.TablesKept.nnLoad (idx : BitVec 24) (hm : model) :
    State.TablesKept model ir s (s.nnLoad idx) := by
  by_cases hrow : idx.toNat < s.cfg.NMODEL
  · rw [State.nnLoad_of_row hrow]
    exact ⟨rfl, fun h => absurd hm h, fun _ => ⟨rfl, rfl, rfl⟩⟩
  · rw [State.nnLoad_of_bad (not_lt.mp hrow)]
    exact .fatal _

theorem State.TablesKept.convInit (idx : BitVec 24) (hi : ir) :
    State.TablesKept model ir s (s.convInit idx) := by
  obtain hbad | hfit := s.convInit_cases idx
  · rw [hbad]
    exact .fatal _
  · rw [hfit]
    exact ⟨rfl, fun _ => ⟨rfl, rfl⟩, fun h => absurd hi h⟩

theorem State.TablesKept.of_next {u : State} (ht : (.next u : Result) = .next t)
    (h : State.TablesKept model ir s u) : State.TablesKept model ir s t := Host.Outcome.next.inj ht ▸ h

theorem State.TablesKept.of_inSpace {u : State} {ok : Bool} (ht : inSpace ok u = .next t)
    (h : State.TablesKept model ir s u) : State.TablesKept model ir s t := by
  obtain ⟨-, rfl⟩ := inSpace_next ht
  exact h

/-- Outside the boundary only the two loads write the tables. -/
theorem effect_tablesKept {i : Instr} (hbound : i ≠ .ctlBound) (hblock : i ≠ .ctlBlock)
    (ht : effect i s = .next t) : State.TablesKept (LoadsModel i) (LoadsIr i) s t := by
  cases i with
  | ctlBound => exact absurd rfl hbound
  | ctlBlock => exact absurd rfl hblock
  | nnLoad idx => exact .of_next ht (.nnLoad idx ⟨idx, rfl⟩)
  | convInit idx => exact .of_next ht (.convInit idx ⟨idx, rfl⟩)
  | toneSet => exact .of_next ht (.same (by simp [State.control]) (by simp) (by simp))
  | revProc n => exact .of_inSpace ht (.same (by simp [State.control]) (by simp) (by simp))
  | convBlock =>
    exact .of_inSpace ht (.same (by simp [State.convBlock, State.control]) (by simp [State.convBlock])
      (by simp [State.convBlock]))
  | dlyProc n => exact .of_inSpace ht (.same (by simp [State.control]) (by simp) (by simp))
  | convPush | convMac | convOut => exact .of_inSpace ht (.same rfl rfl rfl)
  | ctlPre _ | ctlByp _ | fftBrev | fftBfly _ _ _ | fftFwd | fftInv | convClear | convFrame | nnReset
  | nnFwd _ | toneProc _ | dlySet | revRoom | revDecay | mixSet | mixProc _ =>
    exact .of_next ht (.same rfl rfl rfl)

theorem exec_tablesKept {i : Instr} (hbound : i ≠ .ctlBound) (hblock : i ≠ .ctlBlock)
    (ht : exec i s = .next t) : State.TablesKept (LoadsModel i) (LoadsIr i) s t := by
  obtain ⟨-, rfl⟩ | ⟨-, -, he⟩ | ⟨-, -, rfl⟩ := exec_next ht
  · exact .same rfl rfl rfl
  · exact effect_tablesKept hbound hblock he
  · exact .fatal _

end

/-- Settles O52: the frame of all commands by their parts, and that of the others command by command. -/
theorem commandOwnership : Obligations.CommandOwnership := by
  intro i s t ht
  have hframe : t.commandFrame = s.commandFrame := (keptByCommands_commandFrame s).exec rfl ht
  simp only [State.commandFrame, Prod.mk.injEq] at hframe
  obtain ⟨hcfg, hS, hM, hX, hinbox, htick, hport, haudio⟩ := hframe
  refine ⟨hcfg, hS, hM, hX, hinbox, htick, hport, haudio, fun hbound hblock => ?_⟩
  obtain ⟨hcontrol, hmodel, hir⟩ := exec_tablesKept hbound hblock ht
  simp only [State.control, Control.mk.injEq] at hcontrol
  obtain ⟨hA, hMV, hRQM, hRQI, hRQB, hCHAIN, hreadyM, hreadyI⟩ := hcontrol
  exact ⟨hA, hMV, hRQM, hRQI, hRQB, hCHAIN, hreadyM, hreadyI,
    fun h => hmodel fun ⟨idx, hi⟩ => h idx hi, fun h => hir fun ⟨idx, hi⟩ => h idx hi⟩

end Sys2Proof.Machine
end

section
/-! The boundary as an equation (47_control.md R272 to R278; 60_exceptions.md R314, R319, R320).

A boundary whose requests are valid (`State.RequestsOk`) is three things in order: its mailboxes are taken, which
writes the control registers alone; what it loads or clears (`State.boundLoads`), which neither reads nor writes a
control register, so that it may be run before or after the mailboxes are taken; and the per-block setup. A
boundary with any other request ends in a fatal fault. -/

namespace Sys2Proof.Machine

/-! ### What a boundary loads and clears -/

/-- Step 3 of the boundary of `s` on the model memories: the model of a served request, if it is another one
(R274). -/
def State.modelSwitch (s t : State) : State :=
  if s.servesModel = true ∧ s.RQM.idx ≠ s.CURM.setWidth 32 then (t.nnLoad (s.RQM.idx.setWidth 24)).nnReset
  else t

/-- Step 4 on the convolution memories: the impulse response of a served request, if it is another one (R275). -/
def State.irSwitch (s t : State) : State :=
  if s.servesIr = true ∧ s.RQI.idx ≠ s.CURI.setWidth 32 then t.convInit (s.RQI.idx.setWidth 24) else t

/-- Step 5: a chain that becomes active starts from silence (R276). -/
def State.engage (s t : State) : State :=
  if s.RQB = true ∧ s.CHAIN = .bypassed then t.nnReset.convClear else t

/-- Everything the boundary of `s` loads and clears. -/
def State.boundLoads (s t : State) : State := s.engage (s.irSwitch (s.modelSwitch t))

/-! ### The control registers on the way -/

/-- The control registers after the snapshot and step 3. -/
def State.modelTaken (s : State) : Control :=
  { s.control with
    A := s.snapshot
    MV := false
    RQM := ⟨s.RQM.pend && !s.servesModel, s.RQM.idx⟩
    readyM := if s.RQM.pend then s.readyM.tail else s.readyM }

/-- The control registers after step 4. -/
def State.reloadsTaken (s : State) : Control :=
  { s.modelTaken with
    RQI := ⟨s.RQI.pend && !s.servesIr, s.RQI.idx⟩
    readyI := if s.RQI.pend then s.readyI.tail else s.readyI }

/-- The state with the mailboxes taken differs in the control registers alone. -/
theorem State.mailboxesTaken_eq (s : State) :
    s.mailboxesTaken = s.withControl s.mailboxesTaken.control := rfl

/-! ### Loads and control registers do not meet -/

section

variable (k : Control) (s t : State) (idx : BitVec 24)

theorem State.fatal_withControl (cause : FaultCause) :
    (t.withControl k).fatal cause = (t.fatal cause).withControl k := by
  cases cause <;> rfl

theorem State.nnLoad_withControl : (t.withControl k).nnLoad idx = (t.nnLoad idx).withControl k := by
  by_cases hrow : idx.toNat < t.cfg.NMODEL
  · rw [State.nnLoad_of_row hrow, State.nnLoad_of_row (s := t.withControl k) hrow]
    rfl
  · rw [State.nnLoad_of_bad (not_lt.mp hrow), State.nnLoad_of_bad (s := t.withControl k) (not_lt.mp hrow)]
    exact t.fatal_withControl k _

theorem State.loadPartitions_withControl (ir : List NumWord) (n : Nat) :
    (t.withControl k).loadPartitions ir n = (t.loadPartitions ir n).withControl k :=
  List.foldl_hom (State.withControl k) (fun _ _ => rfl)

theorem State.convInit_withControl : (t.withControl k).convInit idx = (t.convInit idx).withControl k := by
  by_cases hbad : t.cfg.NIR ≤ idx.toNat
      ∨ t.cfg.KMAX < partitionCount t.cfg (t.cfg.ir idx.toNat).length
  · rw [State.convInit_of_bad hbad, State.convInit_of_bad (s := t.withControl k) hbad]
    exact t.fatal_withControl k _
  · obtain ⟨hrow, hfit⟩ := not_or.mp hbad
    have hload := State.loadPartitions_withControl k
      { t with K := partitionCount t.cfg (t.cfg.ir idx.toNat).length } (t.cfg.ir idx.toNat)
      (partitionCount t.cfg (t.cfg.ir idx.toNat).length)
    rw [State.convInit_of_fits (not_le.mp hrow) rfl (not_lt.mp hfit),
      State.convInit_of_fits (s := t.withControl k) (not_le.mp hrow) rfl (not_lt.mp hfit)]
    exact congrArg (fun u : State => { t.withControl k with
      K := partitionCount t.cfg (t.cfg.ir idx.toNat).length
      PART := u.PART, Z := u.Z, HIST := [], OVL := [], WIDX := 0, CURI := idx }) hload

theorem State.modelSwitch_withControl :
    s.modelSwitch (t.withControl k) = (s.modelSwitch t).withControl k := by
  unfold State.modelSwitch
  split
  · exact congrArg State.nnReset (t.nnLoad_withControl k _)
  · rfl

theorem State.irSwitch_withControl : s.irSwitch (t.withControl k) = (s.irSwitch t).withControl k := by
  unfold State.irSwitch
  split
  · exact t.convInit_withControl k _
  · rfl

theorem State.engage_withControl : s.engage (t.withControl k) = (s.engage t).withControl k := by
  unfold State.engage
  split <;> rfl

theorem State.boundLoads_withControl : s.boundLoads (t.withControl k) = (s.boundLoads t).withControl k := by
  rw [State.boundLoads, State.modelSwitch_withControl, State.irSwitch_withControl,
    State.engage_withControl, State.boundLoads]

end

/-! ### Valid requests -/

/-- A served model request names a row of the table. -/
def State.ModelRequestOk (s : State) : Prop :=
  s.servesModel = true → s.RQM.idx.toNat < s.cfg.NMODEL ∧ s.cfg.NMODEL ≤ 2 ^ 24

/-- A served impulse-response request names a row of the table, and another row than the loaded one fits. -/
def State.IrRequestOk (s : State) : Prop :=
  s.servesIr = true → (s.RQI.idx.toNat < s.cfg.NIR ∧ s.cfg.NIR ≤ 2 ^ 24)
    ∧ (s.RQI.idx ≠ s.CURI.setWidth 32 →
        partitionCount s.cfg (s.cfg.ir s.RQI.idx.toNat).length ≤ s.cfg.KMAX)

/-- The boundary raises no fatal fault. -/
structure State.RequestsOk (s : State) : Prop where
  length : s.blen = s.cfg.L
  model : s.ModelRequestOk
  ir : s.IrRequestOk

theorem Cfg.tables_fit_of_wf {c : Cfg} (h : c.wf = true) : c.NMODEL ≤ 2 ^ 24 ∧ c.NIR ≤ 2 ^ 24 := by
  simp only [Cfg.wf, Cfg.tablesOk, Bool.and_eq_true, decide_eq_true_eq] at h
  tauto

/-- An index of a table fits the register of the loaded row. -/
theorem toNat_setWidth_24 {idx : BitVec 32} {n : Nat} (h : idx.toNat < n) (hn : n ≤ 2 ^ 24) :
    (idx.setWidth 24).toNat = idx.toNat := by
  rw [BitVec.toNat_setWidth]
  omega

/-- The request names the loaded row exactly when the numbers are equal. -/
theorem ne_setWidth_32_iff (idx : BitVec 32) (cur : BitVec 24) :
    idx ≠ cur.setWidth 32 ↔ idx.toNat ≠ cur.toNat := by
  rw [ne_eq, BitVec.toNat_inj.symm, BitVec.toNat_setWidth_of_le (by decide)]

section

variable {s t : State}

theorem State.servesModel_eq_false_of_idle (h : s.RQM.pend = false) : s.servesModel = false := by
  simp [State.servesModel, h]

theorem State.servesIr_eq_false_of_idle (h : s.RQI.pend = false) : s.servesIr = false := by
  simp [State.servesIr, h]

/-- A boundary that serves no reload raises no fault. -/
theorem State.RequestsOk.of_unserved (hlen : s.blen = s.cfg.L) (hm : s.servesModel = false)
    (hi : s.servesIr = false) : s.RequestsOk where
  length := hlen
  model := fun h => absurd (hm.symm.trans h) Bool.false_ne_true
  ir := fun h => absurd (hi.symm.trans h) Bool.false_ne_true

/-! ### What the loads write -/

/-- The state with the memories and registers that a boundary may load or clear taken from `u`. -/
def State.withLoads (s u : State) : State :=
  { s.withSpectra u.spectra with WT := u.WT, CURM := u.CURM, h := u.h }

theorem State.withLoads_withLoads (s u v : State) : (s.withLoads u).withLoads v = s.withLoads v := rfl

theorem State.modelSwitch_frame (hm : s.ModelRequestOk) (hc : t.cfg = s.cfg) :
    s.modelSwitch t = { t with
      WT := (s.modelSwitch t).WT, CURM := (s.modelSwitch t).CURM, h := (s.modelSwitch t).h } := by
  unfold State.modelSwitch
  split
  · rename_i hserved
    obtain ⟨hrow, hfits⟩ := hm hserved.1
    rw [State.nnLoad_of_row (by rwa [toNat_setWidth_24 hrow hfits, hc])]
    rfl
  · rfl

theorem State.irSwitch_frame (hi : s.IrRequestOk) (hc : t.cfg = s.cfg) :
    s.irSwitch t = t.withLoads (s.irSwitch t) := by
  unfold State.irSwitch
  split
  · rename_i hserved
    obtain ⟨⟨hrow, hfits⟩, hcount⟩ := hi hserved.1
    have hidx := toNat_setWidth_24 hrow hfits
    rw [State.convInit_of_fits (by rwa [hidx, hc]) rfl (by rw [hidx, hc]; exact hcount hserved.2)]
    rfl
  · rfl

theorem State.engage_frame (s t : State) :
    s.engage t = { t with
      h := (s.engage t).h, HIST := (s.engage t).HIST, OVL := (s.engage t).OVL
      WIDX := (s.engage t).WIDX } := by
  unfold State.engage
  split <;> rfl

/-- What the loads of a boundary leave unchanged. -/
theorem State.boundLoads_frame (h : s.RequestsOk) (hc : t.cfg = s.cfg) :
    s.boundLoads t = t.withLoads (s.boundLoads t) := by
  have hmodel := State.modelSwitch_frame h.model hc
  have hir : s.irSwitch (s.modelSwitch t) = (s.modelSwitch t).withLoads (s.irSwitch (s.modelSwitch t)) :=
    State.irSwitch_frame h.ir (by rw [hmodel]; exact hc)
  calc s.boundLoads t
    _ = (s.irSwitch (s.modelSwitch t)).withLoads (s.boundLoads t) := by
      rw [State.boundLoads, s.engage_frame]
      rfl
    _ = (s.modelSwitch t).withLoads (s.boundLoads t) := by rw [hir, State.withLoads_withLoads]
    _ = t.withLoads (s.boundLoads t) := by
      rw [hmodel]
      rfl

/-! ### The reload steps -/

/-- Step 3 of a boundary that serves the request. -/
theorem State.modelReload_of_served (h : s.servesModel = true) :
    s.modelReload = { s with readyM := s.readyM.tail, RQM := ⟨false, s.RQM.idx⟩ }.switchModel := by
  obtain ⟨hpend, hready⟩ := Bool.and_eq_true_iff.mp h
  rw [State.modelReload, if_pos hpend]
  exact if_pos hready

/-- A request that is not ready waits, and one readiness answer is used (R278). -/
theorem State.modelReload_of_unserved (h : s.servesModel = false) :
    s.modelReload = { s with readyM := if s.RQM.pend then s.readyM.tail else s.readyM } := by
  unfold State.modelReload
  split
  · rename_i hpend
    exact if_neg fun hready => by simp_all [State.servesModel]
  · rfl

theorem State.irReload_of_served (h : s.servesIr = true) :
    s.irReload = { s with readyI := s.readyI.tail, RQI := ⟨false, s.RQI.idx⟩ }.switchIr := by
  obtain ⟨hpend, hready⟩ := Bool.and_eq_true_iff.mp h
  rw [State.irReload, if_pos hpend]
  exact if_pos hready

theorem State.irReload_of_unserved (h : s.servesIr = false) :
    s.irReload = { s with readyI := if s.RQI.pend then s.readyI.tail else s.readyI } := by
  unfold State.irReload
  split
  · rename_i hpend
    exact if_neg fun hready => by simp_all [State.servesIr]
  · rfl

theorem State.modelTaken_of_served (h : s.servesModel = true) :
    s.modelTaken = { s.control with
      A := s.snapshot, MV := false, RQM := ⟨false, s.RQM.idx⟩, readyM := s.readyM.tail } := by
  obtain ⟨hpend, -⟩ := Bool.and_eq_true_iff.mp h
  rw [State.modelTaken, h, hpend]
  rfl

theorem State.modelTaken_of_unserved (h : s.servesModel = false) :
    s.modelTaken = { s.control with
      A := s.snapshot, MV := false, readyM := if s.RQM.pend then s.readyM.tail else s.readyM } := by
  rw [State.modelTaken, h, Bool.not_false, Bool.and_true]
  rfl

theorem State.reloadsTaken_of_served (h : s.servesIr = true) :
    s.reloadsTaken = { s.modelTaken with RQI := ⟨false, s.RQI.idx⟩, readyI := s.readyI.tail } := by
  obtain ⟨hpend, -⟩ := Bool.and_eq_true_iff.mp h
  rw [State.reloadsTaken, h, hpend]
  rfl

theorem State.reloadsTaken_of_unserved (h : s.servesIr = false) :
    s.reloadsTaken = { s.modelTaken with
      readyI := if s.RQI.pend then s.readyI.tail else s.readyI } := by
  rw [State.reloadsTaken, h, Bool.not_false, Bool.and_true]
  rfl

/-- Steps 2 and 3 of a boundary that serves the model request. -/
theorem State.takeSnapshot_modelReload_of_served (h : s.servesModel = true) :
    s.takeSnapshot.modelReload = (s.withControl s.modelTaken).switchModel := by
  rw [s.takeSnapshot_eq, State.modelTaken_of_served h]
  exact State.modelReload_of_served (s := s.withControl { s.control with A := s.snapshot, MV := false }) h

/-- Steps 2 and 3 of a boundary with a valid model request. -/
theorem State.takeSnapshot_modelReload (hm : s.ModelRequestOk) :
    s.takeSnapshot.modelReload = (s.modelSwitch s).withControl s.modelTaken := by
  rw [← State.modelSwitch_withControl]
  cases h : s.servesModel with
  | true =>
    obtain ⟨hrow, -⟩ := hm h
    rw [State.takeSnapshot_modelReload_of_served h]
    exact (if_neg (not_le.mpr hrow)).trans (if_congr (and_iff_right h).symm rfl rfl)
  | false =>
    have hsame : s.modelSwitch (s.withControl s.modelTaken) = s.withControl s.modelTaken :=
      if_neg fun hserved => Bool.false_ne_true (h.symm.trans hserved.1)
    rw [hsame, s.takeSnapshot_eq, State.modelTaken_of_unserved h]
    exact State.modelReload_of_unserved
      (s := s.withControl { s.control with A := s.snapshot, MV := false }) h

/-- Step 4 of a boundary that serves the impulse-response request. -/
theorem State.irReload_taken_of_served (h : s.servesIr = true) (t : State) :
    (t.withControl s.modelTaken).irReload = (t.withControl s.reloadsTaken).switchIr := by
  rw [State.reloadsTaken_of_served h]
  exact State.irReload_of_served (s := t.withControl s.modelTaken) h

/-- Step 4 of a boundary with a valid impulse-response request. -/
theorem State.irReload_taken (hi : s.IrRequestOk) (hc : t.cfg = s.cfg) (hcur : t.CURI = s.CURI) :
    (t.withControl s.modelTaken).irReload = (s.irSwitch t).withControl s.reloadsTaken := by
  rw [← State.irSwitch_withControl]
  cases h : s.servesIr with
  | true =>
    obtain ⟨⟨hrow, -⟩, -⟩ := hi h
    rw [State.irReload_taken_of_served h, State.irSwitch, ← hcur]
    exact (if_neg (not_le.mpr (hc ▸ hrow))).trans (if_congr (and_iff_right h).symm rfl rfl)
  | false =>
    have hsame : s.irSwitch (t.withControl s.reloadsTaken) = t.withControl s.reloadsTaken :=
      if_neg fun hserved => Bool.false_ne_true (h.symm.trans hserved.1)
    rw [hsame, State.reloadsTaken_of_unserved h]
    exact State.irReload_of_unserved (s := t.withControl s.modelTaken) h

/-! ### The bypass toggle (R276) -/

theorem State.bypassToggle_of_idle (h : s.RQB = false) : s.bypassToggle = s :=
  if_neg (Bool.eq_false_iff.mp h)

theorem State.bypassToggle_of_bypassed (h : s.RQB = true) (hc : s.CHAIN = .bypassed) :
    s.bypassToggle = { s with RQB := false, CHAIN := .active }.nnReset.convClear := by
  simp [State.bypassToggle, h, hc]

theorem State.bypassToggle_of_active (h : s.RQB = true) (hc : s.CHAIN = .active) :
    s.bypassToggle = { s with RQB := false, CHAIN := .bypassed } := by
  simp [State.bypassToggle, h, hc]

/-- Step 5 of a boundary. -/
theorem State.bypassToggle_taken (s t : State) :
    (t.withControl s.reloadsTaken).bypassToggle = (s.engage t).withControl s.mailboxesTaken.control := by
  have htaken : s.mailboxesTaken.control = { s.reloadsTaken with
      RQB := false, CHAIN := s.mailboxesTaken.CHAIN } := rfl
  rw [← State.engage_withControl, htaken]
  cases hrqb : s.RQB with
  | false =>
    have hchain : s.mailboxesTaken.CHAIN = s.CHAIN := by simp [State.mailboxesTaken, hrqb]
    rw [State.bypassToggle_of_idle (s := t.withControl s.reloadsTaken) hrqb, State.engage,
      if_neg (by simp [hrqb]), hchain, ← hrqb]
    rfl
  | true =>
    cases hc : s.CHAIN with
    | bypassed =>
      have hchain : s.mailboxesTaken.CHAIN = .active := by simp [State.mailboxesTaken, hrqb, hc]
      rw [State.bypassToggle_of_bypassed (s := t.withControl s.reloadsTaken) hrqb hc, State.engage,
        if_pos ⟨hrqb, hc⟩, hchain]
      rfl
    | active =>
      have hchain : s.mailboxesTaken.CHAIN = .bypassed := by simp [State.mailboxesTaken, hrqb, hc]
      rw [State.bypassToggle_of_active (s := t.withControl s.reloadsTaken) hrqb hc, State.engage,
        if_neg (by simp [hc]), hchain]
      rfl

/-! ### The whole boundary -/

/-- A valid model request leaves the phase, the configuration and the loaded impulse response. -/
theorem State.modelSwitch_kept (hm : s.ModelRequestOk) :
    (s.modelSwitch s).PHASE = s.PHASE ∧ (s.modelSwitch s).cfg = s.cfg ∧ (s.modelSwitch s).CURI = s.CURI := by
  rw [State.modelSwitch_frame hm rfl]
  exact ⟨rfl, rfl, rfl⟩

/-- A boundary with valid requests is its loads and the per-block setup, on the state with its mailboxes
taken. -/
theorem State.ctlBound_of_ok (h : s.RequestsOk) (hp : s.PHASE ≠ .halt) :
    s.ctlBound = (s.boundLoads s.mailboxesTaken).blockSetup := by
  obtain ⟨hphase, hcfg, hcur⟩ := State.modelSwitch_kept h.model
  have hmodel : ((s.modelSwitch s).withControl s.modelTaken).PHASE ≠ .halt := hphase.trans_ne hp
  have hir : ((s.irSwitch (s.modelSwitch s)).withControl s.reloadsTaken).PHASE ≠ .halt := by
    rw [State.irSwitch_frame h.ir hcfg]
    exact hmodel
  rw [State.ctlBound, if_neg (not_not.mpr h.length), State.takeSnapshot_modelReload h.model,
    State.unlessHalted_run hmodel, State.irReload_taken h.ir hcfg hcur, State.unlessHalted_run hir,
    State.bypassToggle_taken, s.mailboxesTaken_eq, State.boundLoads_withControl, State.boundLoads]
  rfl

/-- An index outside the table ends the boundary after the snapshot, the request consumed (R274, R319). -/
theorem State.ctlBound_of_bad_model (hlen : s.blen = s.cfg.L) (h : s.servesModel = true)
    (hbad : s.cfg.NMODEL ≤ s.RQM.idx.toNat) :
    s.ctlBound = (s.withControl s.modelTaken).fatal .configurationMismatch := by
  have hfault : s.takeSnapshot.modelReload = (s.withControl s.modelTaken).fatal .configurationMismatch := by
    rw [State.takeSnapshot_modelReload_of_served h]
    exact if_pos hbad
  rw [State.ctlBound, if_neg (not_not.mpr hlen), hfault, State.unlessHalted_halt rfl,
    State.unlessHalted_halt rfl]

/-- A bad row of the impulse-response table ends the boundary after the model reload (R275, R319). -/
theorem State.ctlBound_of_bad_ir (hlen : s.blen = s.cfg.L) (hp : s.PHASE ≠ .halt) (hm : s.ModelRequestOk)
    (hfits : s.cfg.NIR ≤ 2 ^ 24) (h : s.servesIr = true)
    (hbad : s.cfg.NIR ≤ s.RQI.idx.toNat ∨ (s.RQI.idx ≠ s.CURI.setWidth 32
      ∧ s.cfg.KMAX < partitionCount s.cfg (s.cfg.ir s.RQI.idx.toNat).length)) :
    s.ctlBound = ((s.modelSwitch s).withControl s.reloadsTaken).fatal .configurationMismatch := by
  obtain ⟨hphase, hcfg, hcur⟩ := State.modelSwitch_kept hm
  have hmodel : ((s.modelSwitch s).withControl s.modelTaken).PHASE ≠ .halt := hphase.trans_ne hp
  have hfault : ((s.modelSwitch s).withControl s.modelTaken).irReload
      = ((s.modelSwitch s).withControl s.reloadsTaken).fatal .configurationMismatch := by
    rw [State.irReload_taken_of_served h]
    by_cases hrow : s.cfg.NIR ≤ s.RQI.idx.toNat
    · exact if_pos (hcfg ▸ hrow)
    · obtain ⟨hother, hcount⟩ := hbad.resolve_left hrow
      have hidx := toNat_setWidth_24 (not_le.mp hrow) hfits
      have hinit : ((s.modelSwitch s).withControl s.reloadsTaken).switchIr
          = ((s.modelSwitch s).withControl s.reloadsTaken).convInit (s.RQI.idx.setWidth 24) :=
        (if_neg (hcfg ▸ hrow)).trans (if_pos (hcur ▸ hother))
      rw [hinit]
      refine State.convInit_of_bad (.inr ?_)
      show (s.modelSwitch s).cfg.KMAX < partitionCount (s.modelSwitch s).cfg
        ((s.modelSwitch s).cfg.ir (s.RQI.idx.setWidth 24).toNat).length
      rwa [hcfg, hidx]
  rw [State.ctlBound, if_neg (not_not.mpr hlen), State.takeSnapshot_modelReload hm,
    State.unlessHalted_run hmodel, hfault, State.unlessHalted_halt rfl]

/-- A boundary either has valid requests or halts the CORE. -/
theorem State.requestsOk_of_ctlBound (hw : s.cfg.wf = true) (hp : s.PHASE ≠ .halt)
    (hb : s.ctlBound.PHASE ≠ .halt) : s.RequestsOk := by
  obtain ⟨hmodels, hirs⟩ := Cfg.tables_fit_of_wf hw
  have hlen : s.blen = s.cfg.L := by
    by_contra hlen
    exact hb (State.ctlBound_of_wrong_length hlen ▸ rfl)
  have hm : s.ModelRequestOk := by
    refine fun hserved => ⟨?_, hmodels⟩
    by_contra hbad
    exact hb (State.ctlBound_of_bad_model hlen hserved (not_lt.mp hbad) ▸ rfl)
  refine ⟨hlen, hm, fun hserved => ?_⟩
  have hgood : ¬ (s.cfg.NIR ≤ s.RQI.idx.toNat ∨ (s.RQI.idx ≠ s.CURI.setWidth 32
      ∧ s.cfg.KMAX < partitionCount s.cfg (s.cfg.ir s.RQI.idx.toNat).length)) := fun hbad =>
    hb (State.ctlBound_of_bad_ir hlen hp hm hirs hserved hbad ▸ rfl)
  obtain ⟨hrow, hcount⟩ := not_or.mp hgood
  exact ⟨⟨not_le.mp hrow, hirs⟩, fun hother => not_lt.mp fun hlt => hcount ⟨hother, hlt⟩⟩

/-! ### The per-block setup (R277) -/

/-- The state with the registers of the setup taken from `u`. -/
def State.withSetup (s u : State) : State :=
  { s with
    WETG := u.WETG, DRYG := u.DRYG, TMODE := u.TMODE, TALPHA := u.TALPHA, TGT := u.TGT, FB := u.FB
    DLV := u.DLV, T2 := u.T2, ACT := u.ACT, TAP2 := u.TAP2, REV := u.REV, ROOMCUR := u.ROOMCUR, G := u.G }

/-- The room of the present lines is compared with the active bank. -/
theorem State.roomChanged_congr (hc : s.cfg = t.cfg) (hr : s.ROOMCUR = t.ROOMCUR) (hA : s.A = t.A) :
    s.roomChanged = t.roomChanged := by
  rw [State.roomChanged, State.roomChanged, hc, hr, hA]

/-- The setup is its commands, with `REV.ROOM` on a change of the room. -/
theorem State.blockSetup_eq (s : State) :
    s.blockSetup
      = (if s.roomChanged then s.mixSet.toneSet.dlySet.revRoom else s.mixSet.toneSet.dlySet).revDecay := by
  have hroom : s.mixSet.toneSet.dlySet.roomChanged = s.roomChanged :=
    State.roomChanged_congr (by simp) (by simp) (by simp)
  rw [State.blockSetup, hroom]

/-- What the three copies of parameters leave unchanged. -/
theorem State.dlySet_toneSet_mixSet_frame (s : State) :
    s.mixSet.toneSet.dlySet = s.withSetup s.mixSet.toneSet.dlySet := by
  rw [s.mixSet.toneSet_eq_toneSetting]
  rfl

/-- What the setup leaves unchanged. -/
theorem State.blockSetup_frame (s : State) : s.blockSetup = s.withSetup s.blockSetup := by
  rw [s.blockSetup_eq, s.dlySet_toneSet_mixSet_frame]
  split <;> rfl

/-- Where the room does not change the lines stay. -/
theorem State.blockSetup_REV_of_same (h : s.roomChanged = false) : s.blockSetup.REV = s.REV := by
  rw [State.blockSetup_eq, if_neg (Bool.eq_false_iff.mp h)]
  simp

/-- What a boundary with valid requests leaves unchanged. -/
theorem State.ctlBound_frame (h : s.RequestsOk) (hp : s.PHASE ≠ .halt) :
    s.ctlBound = (s.mailboxesTaken.withLoads s.ctlBound).withSetup s.ctlBound := by
  rw [State.ctlBound_of_ok h hp, State.blockSetup_frame,
    State.boundLoads_frame (t := s.mailboxesTaken) h rfl]
  rfl

/-! ### The snapshot (R273) -/

/-- One field of an accepted snapshot. -/
theorem Params.get_accept (c : Cfg) (old m : Params) {i : Nat} (hi : i < 10) :
    (Params.accept c old m).get i
      = clampParam c.arith ((rangeLow c.arith).getD i silence) ((rangeHigh c).getD i silence) (old.get i)
          (m.get i) := by
  interval_cases i <;> rfl

theorem clampParam_eq {α : Type} (N : NUM α) (lo hi old v : α) :
    clampParam N lo hi old v
      = if N.finite v = false then old else if N.lt hi v = true then hi else if N.lt v lo = true then lo
        else v := by
  cases hv : N.finite v with
  | true => simp [clampParam, hv]
  | false => simp [clampParam, hv]

/-- A state whose active bank is the snapshot of `s`. -/
theorem snapshotTaken_of_snapshot (hMV : t.MV = false) (hA : t.A = s.snapshot) : snapshotTaken s t := by
  refine ⟨hMV, fun hmv => ?_, fun hmv => ?_⟩
  · rw [hA, State.snapshot, hmv]
    rfl
  · have haccept : t.A = Params.accept s.cfg s.A s.M := by
      rw [hA, State.snapshot, hmv]
      rfl
    rw [haccept]
    exact ⟨rfl, fun i hi => (Params.get_accept _ _ _ hi).trans (clampParam_eq ..)⟩

/-! ### The commands of a boundary -/

theorem execAll_append_next {is js : List Instr} {u : State} (hi : execAll is s = .next t)
    (hj : execAll js t = .next u) : execAll (is ++ js) s = .next u :=
  (execAll_append is js s t hi).trans hj

/-- Commands that are issued on a condition. -/
theorem execAll_ite {p : Prop} [Decidable p] {is : List Instr} (h : p → execAll is s = .next t) :
    execAll (if p then is else []) s = .next (if p then t else s) := by
  split
  · rename_i hp
    exact h hp
  · rfl

theorem execAll_modelSwitch (hm : s.ModelRequestOk) (hc : t.cfg = s.cfg) (hp : t.PHASE ≠ .halt) :
    execAll (if s.servesModel = true ∧ s.RQM.idx ≠ s.CURM.setWidth 32
        then [.nnLoad (s.RQM.idx.setWidth 24), .nnReset] else []) t = .next (s.modelSwitch t) := by
  refine execAll_ite fun hserved => ?_
  obtain ⟨hrow, hfits⟩ := hm hserved.1
  have hloaded : (t.nnLoad (s.RQM.idx.setWidth 24)).PHASE ≠ .halt := by
    rwa [State.nnLoad_of_row (by rwa [toNat_setWidth_24 hrow hfits, hc])]
  rw [execAll_cons_of_legal hp rfl rfl, execAll_cons_of_legal hloaded rfl rfl, execAll_nil]

theorem execAll_irSwitch (hp : t.PHASE ≠ .halt) :
    execAll (if s.servesIr = true ∧ s.RQI.idx ≠ s.CURI.setWidth 32
        then [.convInit (s.RQI.idx.setWidth 24)] else []) t = .next (s.irSwitch t) :=
  execAll_ite fun _ => execAll_cons_of_legal hp rfl rfl

theorem execAll_engage (hp : t.PHASE ≠ .halt) :
    execAll (if s.RQB = true ∧ s.CHAIN = .bypassed then pseudoEngage else []) t = .next (s.engage t) :=
  execAll_ite fun _ => (execAll_cons_of_legal (i := .nnReset) (is := [.convClear]) hp rfl rfl).trans
    (execAll_cons_of_legal (i := .convClear) (is := []) (s := t.nnReset) hp rfl rfl)

theorem execAll_blockSetup (hp : s.PHASE ≠ .halt) :
    execAll ([.mixSet, .toneSet, .dlySet]
        ++ ((if s.roomChanged = true then [.revRoom] else []) ++ [.revDecay])) s = .next s.blockSetup := by
  have htone : s.mixSet.toneSet.PHASE ≠ .halt := by simpa using hp
  have hdly : s.mixSet.toneSet.dlySet.PHASE ≠ .halt := htone
  have hset : execAll [.mixSet, .toneSet, .dlySet] s = .next s.mixSet.toneSet.dlySet := by
    rw [execAll_cons_of_legal hp rfl rfl, execAll_cons_of_legal (s := s.mixSet) hp rfl rfl,
      execAll_cons_of_legal htone rfl rfl, execAll_nil]
  have hroom := execAll_ite (p := s.roomChanged = true)
    (fun _ => execAll_cons_of_legal (i := .revRoom) (is := []) hdly rfl rfl)
  have hphase : (if s.roomChanged = true then s.mixSet.toneSet.dlySet.revRoom
      else s.mixSet.toneSet.dlySet).PHASE ≠ .halt := by
    split <;> exact hdly
  rw [State.blockSetup_eq]
  exact execAll_append_next hset (execAll_append_next hroom (execAll_cons_of_legal hphase rfl rfl))

/-- The commands of a boundary with valid requests, on the state with its mailboxes taken. -/
theorem execAll_boundSequence (h : s.RequestsOk) (hp : s.PHASE ≠ .halt) :
    execAll (boundSequence s) s.mailboxesTaken = .next s.ctlBound := by
  have hcfg : (s.modelSwitch s.mailboxesTaken).cfg = s.cfg
      ∧ (s.modelSwitch s.mailboxesTaken).PHASE ≠ .halt := by
    rw [State.modelSwitch_frame (t := s.mailboxesTaken) h.model rfl]
    exact ⟨rfl, hp⟩
  have hir : (s.irSwitch (s.modelSwitch s.mailboxesTaken)).PHASE ≠ .halt := by
    rw [State.irSwitch_frame h.ir hcfg.1]
    exact hcfg.2
  have hloads : (s.boundLoads s.mailboxesTaken).PHASE ≠ .halt := by
    rw [State.boundLoads_frame (t := s.mailboxesTaken) h rfl]
    exact hp
  have hroom : s.mailboxesTaken.roomChanged = (s.boundLoads s.mailboxesTaken).roomChanged := by
    rw [State.boundLoads_frame (t := s.mailboxesTaken) h rfl]
    rfl
  rw [State.ctlBound_of_ok h hp, boundSequence, hroom, List.append_assoc, List.append_assoc]
  exact execAll_append_next
    (execAll_append_next (execAll_append_next (execAll_modelSwitch h.model rfl hp) (execAll_irSwitch hcfg.2))
      (execAll_engage hir))
    (execAll_blockSetup hloads)

end

theorem exec_ctlBound {s : State} (h : s.PHASE ≠ .halt) : exec .ctlBound s = .next s.ctlBound :=
  exec_of_legal h rfl

/-- Settles O42: taking the mailboxes commutes with the loads, which the sequence issues after it. -/
theorem boundaryIsItsSequence : Obligations.BoundaryIsItsSequence := by
  intro s hp hw hlen hm hi
  obtain ⟨hmodels, hirs⟩ := Cfg.tables_fit_of_wf hw
  have h : s.RequestsOk :=
    { length := hlen
      model := fun hserved => ⟨hm hserved, hmodels⟩
      ir := fun hserved => ⟨⟨(hi hserved).1, hirs⟩,
        fun hother => (hi hserved).2 ((ne_setWidth_32_iff _ _).mp hother)⟩ }
  have hframe := State.ctlBound_frame h hp
  refine ⟨s.ctlBound, exec_ctlBound hp, ?_, snapshotTaken_of_snapshot ?_ ?_, execAll_boundSequence h hp⟩
  · rw [hframe]
    rfl
  · rw [hframe]
    rfl
  · rw [hframe]
    rfl

/-! ### The faults of a boundary (R314, R319, R320) -/

section

variable {s : State}

/-- The model of a served request that is another one. -/
theorem State.modelSwitch_of_other (hm : s.ModelRequestOk) (hserved : s.servesModel = true)
    (hother : s.RQM.idx.toNat ≠ s.CURM.toNat) :
    (s.modelSwitch s).CURM.toNat = s.RQM.idx.toNat ∧ (∀ a, (s.modelSwitch s).h.read a = silence)
      ∧ ∀ a < modelWords, (s.modelSwitch s).WT.read a = (s.cfg.model s.RQM.idx.toNat).read a := by
  obtain ⟨hrow, hfits⟩ := hm hserved
  have hidx := toNat_setWidth_24 hrow hfits
  have hload : s.modelSwitch s = (s.nnLoad (s.RQM.idx.setWidth 24)).nnReset :=
    if_pos ⟨hserved, (ne_setWidth_32_iff _ _).mpr hother⟩
  rw [hload, State.nnLoad_of_row (by rwa [hidx]), hidx]
  exact ⟨hidx, Memory.read_nil, fun a ha => (Memory.read_tabulate _ _ a).trans (if_pos ha)⟩

theorem State.modelSwitch_of_same (h : ¬ (s.servesModel = true ∧ s.RQM.idx.toNat ≠ s.CURM.toNat))
    (t : State) : s.modelSwitch t = t :=
  if_neg fun hserved => h ⟨hserved.1, (ne_setWidth_32_iff _ _).mp hserved.2⟩

end

/-- Settles O43: the three faults by the step that raises them. -/
theorem boundaryFaults : Obligations.BoundaryFaults := by
  intro s hp hw
  obtain ⟨hmodels, hirs⟩ := Cfg.tables_fit_of_wf hw
  refine ⟨fun hlen => ?_, fun hlen hserved hbad => ?_, fun hlen hmodel hserved hbad => ?_⟩
  · rw [exec_ctlBound hp, State.ctlBound_of_wrong_length hlen, State.fatal_configurationMismatch]
  · have hbound := State.ctlBound_of_bad_model hlen hserved hbad
    refine ⟨_, (exec_ctlBound hp).trans (congrArg _ hbound), snapshotTaken_of_snapshot rfl rfl, ?_⟩
    rw [State.modelTaken_of_served hserved]
    rfl
  · have hm : s.ModelRequestOk := fun h => ⟨hmodel h, hmodels⟩
    have hbound := State.ctlBound_of_bad_ir hlen hp hm hirs hserved
      (hbad.imp_right fun ⟨hother, hcount⟩ => ⟨(ne_setWidth_32_iff _ _).mpr hother, hcount⟩)
    refine ⟨_, (exec_ctlBound hp).trans (congrArg _ hbound), snapshotTaken_of_snapshot rfl rfl, ?_,
      fun ⟨hload, hother⟩ => State.modelSwitch_of_other hm hload hother, fun hsame => ?_⟩
    · rw [State.reloadsTaken_of_served hserved, State.modelSwitch_frame hm rfl]
      rfl
    · rw [State.modelSwitch_of_same hsame]
      exact ⟨rfl, rfl, rfl⟩

/-! ### A boundary that serves no reload (R276, R278) -/

section

variable {s : State}

/-- It clears what an engaged chain clears, and sets up the block. -/
theorem State.ctlBound_of_unserved (hlen : s.blen = s.cfg.L) (hp : s.PHASE ≠ .halt)
    (hm : s.servesModel = false) (hi : s.servesIr = false) :
    s.ctlBound = (s.engage s.mailboxesTaken).blockSetup := by
  have hmodel : s.modelSwitch s.mailboxesTaken = s.mailboxesTaken :=
    if_neg fun h => Bool.false_ne_true (hm.symm.trans h.1)
  have hir : s.irSwitch s.mailboxesTaken = s.mailboxesTaken :=
    if_neg fun h => Bool.false_ne_true (hi.symm.trans h.1)
  rw [State.ctlBound_of_ok (.of_unserved hlen hm hi) hp, State.boundLoads, hmodel, hir]

/-- The memories of the tables, the tone filters and the delay stay. -/
theorem State.ctlBound_frame_of_unserved (hlen : s.blen = s.cfg.L) (hp : s.PHASE ≠ .halt)
    (hm : s.servesModel = false) (hi : s.servesIr = false) :
    s.ctlBound = State.withSetup { s.mailboxesTaken with
      h := s.ctlBound.h, HIST := s.ctlBound.HIST, OVL := s.ctlBound.OVL, WIDX := s.ctlBound.WIDX }
      s.ctlBound := by
  rw [State.ctlBound_of_unserved hlen hp hm hi, State.blockSetup_frame, s.engage_frame]
  rfl

/-- The room of the lines and the room of the active bank. -/
theorem State.roomChanged_of_some {r : NumWord} (h : s.ROOMCUR = some r) :
    s.roomChanged = !s.cfg.arith.eq r s.A.ROOM := by
  simp [State.roomChanged, h]

/-- The reverb lines stay where the room does not change (R277). -/
theorem State.ctlBound_REV_of_unserved (hlen : s.blen = s.cfg.L) (hp : s.PHASE ≠ .halt)
    (hm : s.servesModel = false) (hi : s.servesIr = false) {r : NumWord} (hr : s.ROOMCUR = some r)
    (heq : s.cfg.arith.eq r s.mailboxesTaken.A.ROOM = true) : s.ctlBound.REV = s.REV := by
  have hroom : (s.engage s.mailboxesTaken).roomChanged = s.mailboxesTaken.roomChanged := by
    rw [s.engage_frame]
    rfl
  have hsame : (s.engage s.mailboxesTaken).roomChanged = false := by
    rw [hroom, State.roomChanged_of_some (s := s.mailboxesTaken) hr]
    exact congrArg (! ·) heq
  rw [State.ctlBound_of_unserved hlen hp hm hi, State.blockSetup_REV_of_same hsame, s.engage_frame]
  rfl

end

/-- Settles O44: an unserved request stays in its mailbox, and nothing loads. -/
theorem boundaryWaitsForReload : Obligations.BoundaryWaitsForReload := by
  intro s hp hlen
  refine ⟨fun ⟨hpend, hready, hother⟩ => ?_, fun ⟨hpend, hready, hother⟩ => ?_⟩
  · have hm : s.servesModel = false := by simp only [State.servesModel, hready, Bool.and_false]
    have hframe := State.ctlBound_frame_of_unserved hlen hp hm (State.servesIr_eq_false_of_idle hother)
    have hRQM : s.mailboxesTaken.RQM = s.RQM := by simp [State.mailboxesTaken, hm]
    have hreadyM : s.mailboxesTaken.readyM = s.readyM.tail := if_pos hpend
    refine ⟨s.ctlBound, exec_ctlBound hp, ?_⟩
    rw [hframe]
    exact ⟨rfl, hRQM, hreadyM, rfl, rfl⟩
  · have hi : s.servesIr = false := by simp only [State.servesIr, hready, Bool.and_false]
    have hframe := State.ctlBound_frame_of_unserved hlen hp (State.servesModel_eq_false_of_idle hother) hi
    have hRQI : s.mailboxesTaken.RQI = s.RQI := by simp [State.mailboxesTaken, hi]
    have hreadyI : s.mailboxesTaken.readyI = s.readyI.tail := if_pos hpend
    refine ⟨s.ctlBound, exec_ctlBound hp, ?_⟩
    rw [hframe]
    exact ⟨rfl, hRQI, hreadyI, rfl, rfl, rfl⟩

/-- Settles O45: the two directions of the toggle, on a boundary that serves no reload. -/
theorem bypassToggle : Obligations.BypassToggle := by
  intro s hp hlen hrqb hmodel hir
  have hm := State.servesModel_eq_false_of_idle hmodel
  have hi := State.servesIr_eq_false_of_idle hir
  have hframe := State.ctlBound_frame_of_unserved hlen hp hm hi
  have hloads := State.ctlBound_of_unserved hlen hp hm hi
  refine ⟨s.ctlBound, exec_ctlBound hp, ?_⟩
  rw [hframe]
  refine ⟨rfl, rfl, rfl, rfl, rfl, rfl, rfl, rfl, rfl, rfl, rfl, rfl,
    fun r hr heq => State.ctlBound_REV_of_unserved hlen hp hm hi hr heq, fun hc => ?_, fun hc => ?_⟩
  · have hchain : s.mailboxesTaken.CHAIN = .active := by simp [State.mailboxesTaken, hrqb, hc]
    have hengaged : s.engage s.mailboxesTaken = s.mailboxesTaken.nnReset.convClear := if_pos ⟨hrqb, hc⟩
    rw [hloads, hengaged, State.blockSetup_frame]
    exact ⟨hchain, rfl, fun a => ⟨Memory.read_nil a, Memory.read_nil a, Memory.read_nil a⟩⟩
  · have hchain : s.mailboxesTaken.CHAIN = .bypassed := by simp [State.mailboxesTaken, hrqb, hc]
    have hkept : s.engage s.mailboxesTaken = s.mailboxesTaken := if_neg (by simp [hc])
    rw [hloads, hkept, State.blockSetup_frame]
    exact ⟨hchain, rfl, rfl, rfl, rfl⟩

end Sys2Proof.Machine
end

section
/-! `CTL.BLOCK` as the sequence of its commands (47_control.md R283). -/

namespace Sys2Proof.Machine

/-! ### Passes over the samples -/

/-- The numbers of the samples are operands. -/
theorem Cfg.toNat_sample {c : Cfg} (h : c.wf = true) {i : Nat} (hi : i < c.L) :
    (BitVec.ofNat 24 i).toNat = i := by
  have hL : c.L ≤ 2 ^ 18 := by
    simp only [Cfg.wf, Cfg.sizesOk, Bool.and_eq_true, decide_eq_true_eq] at h
    tauto
  exact (BitVec.toNat_ofNat ..).trans (Nat.mod_eq_of_lt (by omega))

/-- A body that does not read the loop variable of the schedule. -/
def IgnoresSample (body : Nat → State → State) : Prop :=
  ∀ i k s, body i { s with n := k } = { body i s with n := k }

/-- From `n = 0` a pass is the plain loop of its body. -/
theorem State.forSamples_eq_foldl {body : Nat → State → State} (hb : IgnoresSample body) {s : State}
    (hn : s.n = 0) :
    State.forSamples body s = (List.range s.cfg.L).foldl (fun t i => body i t) s := by
  have hloop := List.foldl_hom (l := List.range s.cfg.L) (init := s) (fun t : State => { t with n := 0 })
    (g₁ := fun t i => body i { t with n := i }) (g₂ := fun t i => body i t)
    (fun t i => (hb i 0 t).trans (congrArg (fun t : State => { t with n := 0 }) (hb i i t)).symm)
  have hstart : { s with n := 0 } = s := hn ▸ rfl
  rw [hstart] at hloop
  exact hloop.symm

/-- A loop of command sequences, each of which has its effect where `P` holds and keeps it. -/
theorem execAll_foldl {β : Type} {P : State → Prop} {is : β → List Instr} {f : State → β → State}
    {l : List β} (hrun : ∀ b ∈ l, ∀ t, P t → execAll (is b) t = .next (f t b))
    (hkeep : ∀ t b, P t → P (f t b)) {s : State} (hs : P s) : execAll (l.flatMap is) s = .next (l.foldl f s) := by
  have hsub := execAll_flatMap (σ := { t // P t }) (g := Subtype.val) (is := is)
    (f := fun t b => ⟨f t.1 b, hkeep t.1 b t.2⟩) (l := l) (fun b hb t => hrun b hb t.1 t.2) ⟨s, hs⟩
  exact hsub.trans (congrArg _ (List.foldl_hom Subtype.val (fun _ _ => rfl)).symm)

/-! ### Where the commands of the schedule complete -/

/-- The invariant of a step between two commands of a block on configuration `c`, whatever the cause register
holds. -/
structure State.InBlock (c : Cfg) (p : Phase) (l : Option Nat) (s : State) : Prop where
  steady : { s with HCAUSE := 0 }.SteadyIn p l 0
  cfg : s.cfg = c

section

variable {c : Cfg} {p : Phase} {l : Option Nat} {s : State}

/-- An operation that keeps the invariant of a step and does not meet the cause register. -/
theorem State.InBlock.map (h : s.InBlock c p l) {f : State → State}
    (hf : f { s with HCAUSE := 0 } = { f s with HCAUSE := 0 }) (hc : (f s).cfg = s.cfg)
    (hkeep : ∀ {t : State}, t.SteadyIn p l 0 → (f t).SteadyIn p l 0) : (f s).InBlock c p l where
  steady := hf ▸ hkeep h.steady
  cfg := hc.trans h.cfg

theorem State.InBlock.of_registers (h : s.InBlock c p l) {t : State}
    (e : t.steadyRegisters = s.steadyRegisters) : t.InBlock c p l := by
  simp only [State.steadyRegisters, Prod.mk.injEq] at e
  obtain ⟨cfg, kk, widx, wp, rev, curm, curi, tick, n, phase, -⟩ := e
  refine ⟨h.steady.of_registers ?_, cfg.trans h.cfg⟩
  simp only [State.steadyRegisters, cfg, kk, widx, wp, rev, curm, curi, tick, n, phase]

theorem State.InBlock.phase (h : s.InBlock c p l) : s.PHASE = p := by
  obtain ⟨hp, -⟩ | ⟨-, hcause⟩ := h.steady.phase
  · exact hp
  · have hzero : (0 : BitVec 3) = 2 ∨ (0 : BitVec 3) = 4 := hcause
    exact absurd hzero (by decide)

theorem State.InBlock.sample (h : s.InBlock c p l) : s.n = 0 := h.steady.sample

theorem State.InBlock.toneProc (h : s.InBlock c p l) (n : Nat) : (s.toneProc n).InBlock c p l :=
  h.of_registers rfl

theorem State.InBlock.dlyProc (h : s.InBlock c p l) (n : Nat) : (s.dlyProc n).InBlock c p l :=
  h.map rfl rfl fun ht => ht.dlyProc n

theorem State.InBlock.revProc (h : s.InBlock c p l) (n : Nat) : (s.revProc n).InBlock c p l := by
  cases hen : s.A.revEn with
  | false => exact (State.revProc_of_disabled (n := n) hen).symm ▸ h
  | true =>
    refine h.map ?_ ?_ fun ht => ht.revProc n
    · rw [State.revProc_of_enabled hen]
      exact State.revProc_of_enabled (s := { s with HCAUSE := 0 }) hen
    · rw [State.revProc_of_enabled hen]
      rfl

theorem State.InBlock.mixProc (h : s.InBlock c p l) (n : Nat) : (s.mixProc n).InBlock c p l :=
  h.of_registers rfl

theorem State.InBlock.postSample (h : s.InBlock c p l) (n : Nat) : (s.postSample n).InBlock c p l :=
  (((h.toneProc n).dlyProc n).revProc n).mixProc n

theorem State.InBlock.convBlock (h : s.InBlock c p l) : s.convBlock.InBlock c p l :=
  h.map rfl (by rw [State.convBlock_frame]) fun ht => ht.convBlock

theorem ignoresSample_postSample : IgnoresSample State.postSample := fun i k s => by
  have hrev : ∀ t : State, State.revProc i { t with n := k } = { State.revProc i t with n := k } := fun t => by
    cases hen : t.A.revEn with
    | false =>
      rw [State.revProc_of_disabled hen]
      exact State.revProc_of_disabled (s := { t with n := k }) hen
    | true =>
      rw [State.revProc_of_enabled hen]
      exact State.revProc_of_enabled (s := { t with n := k }) hen
  exact congrArg (State.mixProc i) (hrev (State.dlyProc i (State.toneProc i s)))

/-! ### The passes of the schedule -/

/-- A pass that issues commands `is n` for sample `n`, where these have the effect `body n`. -/
theorem execAll_forSamples {is : BitVec 24 → List Instr} {body : Nat → State → State}
    (hb : IgnoresSample body) (hkeep : ∀ t i, t.InBlock c p l → (body i t).InBlock c p l)
    (hrun : ∀ t (n : BitVec 24), t.InBlock c p l → n.toNat < t.cfg.L →
      execAll (is n) t = .next (body n.toNat t))
    (h : s.InBlock c p l) :
    execAll ((List.range c.L).flatMap fun n => is (BitVec.ofNat 24 n)) s = .next (State.forSamples body s)
      ∧ (State.forSamples body s).InBlock c p l := by
  obtain rfl := h.cfg
  have hw : s.cfg.wf = true := h.steady.cfgOk
  rw [State.forSamples_eq_foldl hb h.sample]
  refine ⟨execAll_foldl (P := State.InBlock s.cfg p l) (fun i hi t ht => ?_) hkeep h,
    foldl_keeps _ _ _ _ h fun t i _ ht => hkeep t i ht⟩
  have hlt := List.mem_range.mp hi
  have hnum := Cfg.toNat_sample hw hlt
  exact (hrun t _ ht (by rwa [hnum, ht.cfg])).trans (by rw [hnum])

section

variable (hp : p ≠ .halt)

include hp

/-- A pass of one command for each sample. -/
theorem execAll_samplePass {mk : BitVec 24 → Instr} {body : Nat → State → State}
    (hb : IgnoresSample body) (hkeep : ∀ t i, t.InBlock c p l → (body i t).InBlock c p l)
    (hexec : ∀ (t : State) (n : BitVec 24), t.PHASE ≠ .halt → n.toNat < t.cfg.L →
      exec (mk n) t = .next (body n.toNat t))
    (h : s.InBlock c p l) :
    execAll (samplePass c mk) s = .next (State.forSamples body s)
      ∧ (State.forSamples body s).InBlock c p l := by
  rw [samplePass, List.map_eq_flatMap]
  refine execAll_forSamples (is := fun n => [mk n]) hb hkeep (fun t n ht hn => ?_) h
  rw [execAll_cons _ _ _ _ (hexec t n (ht.phase.trans_ne hp) hn), execAll_nil]

/-- The four commands of the last pass. -/
theorem execAll_pseudoPost {n : BitVec 24} (h : s.InBlock c p l) (hn : n.toNat < s.cfg.L) :
    execAll (pseudoPost n) s = .next (s.postSample n.toNat) := by
  have htone := h.toneProc n.toNat
  have hdly := htone.dlyProc n.toNat
  have hrev := hdly.revProc n.toNat
  have hrange {t : State} (ht : t.InBlock c p l) : n.toNat < t.cfg.L := by rwa [ht.cfg, ← h.cfg]
  rw [pseudoPost, execAll_cons _ _ _ _ (exec_toneProc (h.phase.trans_ne hp) hn),
    execAll_cons _ _ _ _ (exec_dlyProc (htone.phase.trans_ne hp) (hrange htone) htone.steady.delay),
    execAll_cons _ _ _ _ (exec_revProc (hdly.phase.trans_ne hp) (hrange hdly) fun _ => hdly.steady.revInRange),
    execAll_cons _ _ _ _ (exec_mixProc (hrev.phase.trans_ne hp) (hrange hrev)), execAll_nil]
  rfl

theorem execAll_bypassedBlock (h : s.InBlock c p l) :
    execAll (blockSequence c .bypassed) s = .next s.bypassedBlock ∧ s.bypassedBlock.InBlock c p l :=
  execAll_samplePass hp (fun _ _ _ => rfl) (fun _ _ ht => ht.of_registers rfl) (fun _ _ => exec_ctlByp) h

theorem execAll_activeBlock (h : s.InBlock c p l) :
    execAll (blockSequence c .active) s = .next s.activeBlock ∧ s.activeBlock.InBlock c p l := by
  obtain ⟨hpre, h1⟩ := execAll_samplePass hp (mk := .ctlPre) (body := State.ctlPre) (fun _ _ _ => rfl)
    (fun _ _ ht => ht.of_registers rfl) (fun _ _ => exec_ctlPre) h
  obtain ⟨hnn, h2⟩ := execAll_samplePass hp (mk := .nnFwd) (body := State.nnFwd) (fun _ _ _ => rfl)
    (fun _ _ ht => ht.of_registers rfl) (fun _ _ => exec_nnFwd) h1
  obtain ⟨-, hfits, hidx⟩ := h2.steady.ring
  have hconv := exec_on_ring (i := .convBlock) (h2.phase.trans_ne hp) hidx hfits rfl rfl
  obtain ⟨hpost, h3⟩ := execAll_forSamples ignoresSample_postSample (fun _ i ht => ht.postSample i)
    (fun _ _ ht => execAll_pseudoPost hp ht) h2.convBlock
  exact ⟨execAll_append_next (execAll_append_next (execAll_append_next hpre hnn)
    (execAll_cons _ _ _ _ hconv)) hpost, h3⟩

end

/-! ### The state that a boundary leaves -/

theorem State.InBlock.modelSwitch {b : State} (h : s.InBlock c p l) (hm : b.ModelRequestOk) (hc : b.cfg = c) :
    (b.modelSwitch s).InBlock c p l := by
  unfold State.modelSwitch
  split
  · rename_i hserved
    obtain ⟨hrow, hfits⟩ := hm hserved.1
    have hidx : (b.RQM.idx.setWidth 24).toNat < s.cfg.NMODEL := by
      rwa [toNat_setWidth_24 hrow hfits, h.cfg, ← hc]
    have hload := h.steady.nnLoad (b.RQM.idx.setWidth 24)
    rw [State.nnLoad_of_row (s := { s with HCAUSE := 0 }) hidx] at hload
    rw [State.nnLoad_of_row hidx]
    exact ⟨hload.of_registers rfl, h.cfg⟩
  · exact h

theorem State.InBlock.irSwitch {b : State} (h : s.InBlock c p l) (hi : b.IrRequestOk) (hc : b.cfg = c) :
    (b.irSwitch s).InBlock c p l := by
  unfold State.irSwitch
  split
  · rename_i hserved
    obtain ⟨⟨hrow, hfits⟩, hcount⟩ := hi hserved.1
    have hnum := toNat_setWidth_24 hrow hfits
    have hsame : b.cfg = s.cfg := hc.trans h.cfg.symm
    have hidx : (b.RQI.idx.setWidth 24).toNat < s.cfg.NIR := by rwa [hnum, ← hsame]
    have hk : partitionCount s.cfg (s.cfg.ir (b.RQI.idx.setWidth 24).toNat).length ≤ s.cfg.KMAX := by
      rw [hnum, ← hsame]
      exact hcount hserved.2
    have hinit := h.steady.convInit (b.RQI.idx.setWidth 24)
    rw [State.convInit_of_fits (s := { s with HCAUSE := 0 }) hidx rfl hk] at hinit
    rw [State.convInit_of_fits hidx rfl hk]
    exact ⟨hinit.of_registers rfl, h.cfg⟩
  · exact h

theorem State.InBlock.engage (h : s.InBlock c p l) (b : State) : (b.engage s).InBlock c p l := by
  unfold State.engage
  split
  · exact h.map (f := fun t => t.nnReset.convClear) rfl rfl
      fun ht => State.SteadyIn.convClear (ht.of_registers rfl)
  · exact h

theorem State.InBlock.blockSetup (h : s.InBlock c p l) : s.blockSetup.InBlock c p l := by
  have hset : s.mixSet.toneSet.dlySet.InBlock c p l := h.of_registers (by simp [State.steadyRegisters])
  rw [State.blockSetup_eq]
  split
  · exact State.InBlock.of_registers (hset.map rfl rfl State.SteadyIn.revRoom) rfl
  · exact hset.of_registers rfl

/-- Between the boundary and the schedule the invariant holds. -/
theorem State.InBlock.ctlBound (h : s.InBlock s.cfg s.PHASE l) (hr : s.RequestsOk) (hp : s.PHASE ≠ .halt) :
    s.ctlBound.InBlock s.cfg s.PHASE l := by
  have htaken : s.mailboxesTaken.InBlock s.cfg s.PHASE l := h.of_registers rfl
  rw [State.ctlBound_of_ok hr hp]
  exact (((htaken.modelSwitch hr.model rfl).irSwitch hr.ir rfl).engage s).blockSetup

/-- The invariant of the statement, with no block running. -/
theorem State.IndexInv.inBlock (h : s.IndexInv) (hn : s.n = 0) : s.InBlock s.cfg s.PHASE s.tickLen where
  steady :=
    { cfgOk := h.cfgOk, ring := h.ring, delay := h.delay, lineCount := h.lineCount, lines := h.lines
      tables := h.tables, serving := rfl, sample := hn, phase := .inl ⟨rfl, rfl⟩ }
  cfg := rfl

end

/-- Settles O46: a boundary that raises no fault leaves the ranges that the schedule needs. -/
theorem blockIsItsSchedule : Obligations.BlockIsItsSchedule := by
  intro s hinv hp hn
  have hbound := exec_ctlBound hp
  have hunserved (hlen : s.blen = s.cfg.L) (hm : s.RQM.pend = false) (hi : s.RQI.pend = false) :
      s.ctlBound.PHASE = s.PHASE := by
    have hr : s.RequestsOk := .of_unserved hlen (State.servesModel_eq_false_of_idle hm)
      (State.servesIr_eq_false_of_idle hi)
    exact ((hinv.inBlock hn).ctlBound hr hp).phase
  by_cases hhalt : s.ctlBound.PHASE = .halt
  · exact ⟨_, _, hbound, (exec_of_legal hp rfl).trans (State.ctlBlock_of_halt hhalt), hunserved, fun _ => rfl,
      fun h => absurd hhalt h⟩
  have hready := (hinv.inBlock hn).ctlBound (State.requestsOk_of_ctlBound hinv.cfgOk hp hhalt) hp
  cases hc : s.ctlBound.CHAIN with
  | active =>
    obtain ⟨hrun, hdone⟩ := execAll_activeBlock hp hready
    have hrange : s.ctlBound.chainInRange = true := hready.steady.chainInRange
    have hblock : s.ctlBlock = .next s.ctlBound.activeBlock := by
      rw [State.ctlBlock_of_active hhalt hc, hrange, inSpace_true]
    exact ⟨_, _, hbound, (exec_of_legal hp rfl).trans hblock, hunserved, fun h => absurd h hhalt,
      fun _ => ⟨hc ▸ hrun, hdone.phase⟩⟩
  | bypassed =>
    obtain ⟨hrun, hdone⟩ := execAll_bypassedBlock hp hready
    exact ⟨_, _, hbound, (exec_of_legal hp rfl).trans (State.ctlBlock_of_bypassed hhalt hc), hunserved,
      fun h => absurd h hhalt, fun _ => ⟨hc ▸ hrun, hdone.phase⟩⟩

end Sys2Proof.Machine
end

section
/-! A bypassed block passes its input through (47_control.md R281, R283, R284, R286). -/

namespace Sys2Proof.Machine

/-! ### The copies of a bypassed block -/

/-- The state after the copies of the first `k` samples. -/
def State.bypassedUpTo (s : State) (k : Nat) : State :=
  (List.range k).foldl (fun t i => State.ctlByp i { t with n := i }) s

section

variable (s : State)

theorem State.bypassedBlock_eq_bypassedUpTo : s.bypassedBlock = { s.bypassedUpTo s.cfg.L with n := 0 } := rfl

theorem State.bypassedUpTo_succ (k : Nat) :
    s.bypassedUpTo (k + 1) = State.ctlByp k { s.bypassedUpTo k with n := k } := by
  simp [State.bypassedUpTo, List.range_succ]

/-- The copies write the outputs alone. -/
theorem State.bypassedUpTo_frame (k : Nat) :
    s.bypassedUpTo k = { s with
      OUTL := (s.bypassedUpTo k).OUTL, OUTR := (s.bypassedUpTo k).OUTR, n := (s.bypassedUpTo k).n } := by
  induction k with
  | zero => rfl
  | succ k ih =>
    rw [State.bypassedUpTo_succ, ih]
    rfl

/-- Every sample below `k` is copied to both channels. -/
theorem State.read_bypassedUpTo {k m : Nat} (hm : m < k) :
    (s.bypassedUpTo k).OUTL.read m = s.X.read m ∧ (s.bypassedUpTo k).OUTR.read m = s.X.read m := by
  induction k with
  | zero => omega
  | succ k ih =>
    have hX : (s.bypassedUpTo k).X = s.X := by rw [State.bypassedUpTo_frame]
    have hL : (s.bypassedUpTo (k + 1)).OUTL = (s.bypassedUpTo k).OUTL.write k (s.X.read k) := by
      rw [State.bypassedUpTo_succ, ← hX]
      rfl
    have hR : (s.bypassedUpTo (k + 1)).OUTR = (s.bypassedUpTo k).OUTR.write k (s.X.read k) := by
      rw [State.bypassedUpTo_succ, ← hX]
      rfl
    rw [hL, hR, Memory.read_write, Memory.read_write]
    by_cases hlast : m = k
    · rw [if_pos hlast, if_pos hlast, hlast]
      exact ⟨rfl, rfl⟩
    · rw [if_neg hlast, if_neg hlast]
      exact ih (by omega)

theorem State.bypassedBlock_frame :
    s.bypassedBlock = { s with OUTL := s.bypassedBlock.OUTL, OUTR := s.bypassedBlock.OUTR, n := 0 } := by
  rw [State.bypassedBlock_eq_bypassedUpTo, State.bypassedUpTo_frame]

theorem State.read_bypassedBlock {m : Nat} (hm : m < s.cfg.L) :
    s.bypassedBlock.OUTL.read m = s.X.read m ∧ s.bypassedBlock.OUTR.read m = s.X.read m :=
  s.read_bypassedUpTo hm

end

/-! ### What crosses the audio block port -/

/-- The input block holds the samples of the patterns. -/
theorem State.read_beginBlock_X {s : State} {block : List (BitVec 32)} (hlen : block.length = s.cfg.L) {m : Nat}
    (hm : m < s.cfg.L) : (s.beginBlock block).X.read m = s.cfg.arith.ofBits (block.getD m 0) := by
  have hX : (s.beginBlock block).X = Memory.ofWords 0 (block.map s.cfg.arith.ofBits) := if_pos hlen
  rw [hX, Memory.read_ofWords, if_pos (Nat.zero_le m), Nat.sub_zero]
  simp [hlen, hm]

/-- A channel that holds the samples of the patterns is delivered as their patterns. -/
theorem State.audioBlock_of_samples {s : State} {block : List (BitVec 32)} {m : Memory NumWord}
    (hlen : block.length = s.cfg.L)
    (hread : ∀ i < s.cfg.L, m.read i = s.cfg.arith.ofBits (block.getD i 0)) :
    s.audioBlock m = block.map fun p => s.cfg.arith.toBits (s.cfg.arith.ofBits p) := by
  refine List.ext_getElem (by simp [State.audioBlock, hlen]) fun i hi _ => ?_
  have hlt : i < s.cfg.L := by simpa [State.audioBlock] using hi
  simp [State.audioBlock, Memory.readBlock, hread i hlt, hlen, hlt]

/-! ### A `TICK` on a bypassed chain -/

section

variable {s : State} {block : List (BitVec 32)}

/-- The boundary of a bypassed chain without requests clears nothing. -/
theorem State.ctlBound_frame_of_bypassed (hlen : s.blen = s.cfg.L) (hp : s.PHASE ≠ .halt)
    (hm : s.servesModel = false) (hi : s.servesIr = false) (hb : s.RQB = false) :
    s.ctlBound = s.mailboxesTaken.withSetup s.ctlBound := by
  have hkept : s.engage s.mailboxesTaken = s.mailboxesTaken :=
    if_neg fun h => Bool.false_ne_true (hb.symm.trans h.1)
  rw [State.ctlBound_of_unserved hlen hp hm hi, hkept]
  exact s.mailboxesTaken.blockSetup_frame

theorem State.mailboxesTaken_CHAIN_of_idle (hb : s.RQB = false) : s.mailboxesTaken.CHAIN = s.CHAIN := by
  simp [State.mailboxesTaken, hb]

/-- The boundary and the copies of a bypassed chain without requests write the mailboxes, the registers of the
setup and the outputs. -/
theorem State.bypassedBlock_ctlBound_frame (hlen : s.blen = s.cfg.L) (hp : s.PHASE ≠ .halt)
    (hm : s.servesModel = false) (hi : s.servesIr = false) (hb : s.RQB = false) :
    s.ctlBound.bypassedBlock = { s.mailboxesTaken.withSetup s.ctlBound with
      OUTL := s.ctlBound.bypassedBlock.OUTL, OUTR := s.ctlBound.bypassedBlock.OUTR, n := 0 } :=
  s.ctlBound.bypassedBlock_frame.trans (congrArg
    (fun t : State => { t with
      OUTL := s.ctlBound.bypassedBlock.OUTL, OUTR := s.ctlBound.bypassedBlock.OUTR, n := 0 })
    (State.ctlBound_frame_of_bypassed hlen hp hm hi hb))

/-- They copy the input block to both channels. -/
theorem State.read_bypassedBlock_ctlBound (hlen : s.blen = s.cfg.L) (hp : s.PHASE ≠ .halt)
    (hm : s.servesModel = false) (hi : s.servesIr = false) (hb : s.RQB = false) {m : Nat} (hlt : m < s.cfg.L) :
    s.ctlBound.bypassedBlock.OUTL.read m = s.X.read m
      ∧ s.ctlBound.bypassedBlock.OUTR.read m = s.X.read m := by
  have hframe := State.ctlBound_frame_of_bypassed hlen hp hm hi hb
  have hX : s.ctlBound.X = s.X := by
    rw [hframe]
    rfl
  have hcfg : s.ctlBound.cfg = s.cfg := by
    rw [hframe]
    rfl
  rw [← hX]
  exact s.ctlBound.read_bypassedBlock (hcfg ▸ hlt)

/-- A `TICK` of the right length on a bypassed chain without requests is the boundary, the copies and the
delivery. -/
theorem State.tick_of_bypassed (hp : s.PHASE ≠ .halt) (hlen : block.length = s.cfg.L)
    (hc : s.CHAIN = .bypassed) (hb : s.RQB = false) (hm : s.servesModel = false) (hi : s.servesIr = false) :
    s.tick block = .next ({ (s.beginBlock block).ctlBound.bypassedBlock with
      tickLen := none, PHASE := .idle }.deliver) := by
  have hframe := State.ctlBound_frame_of_bypassed (s := s.beginBlock block) hlen Phase.noConfusion hm hi hb
  have hphase : (s.beginBlock block).ctlBound.PHASE ≠ .halt := by
    rw [hframe]
    exact Phase.noConfusion
  have hchain : (s.beginBlock block).ctlBound.CHAIN = .bypassed := by
    rw [hframe]
    exact (State.mailboxesTaken_CHAIN_of_idle (s := s.beginBlock block) hb).trans hc
  have hend : (s.beginBlock block).ctlBound.bypassedBlock.PHASE ≠ .halt := by
    rw [State.bypassedBlock_frame]
    exact hphase
  rw [State.tick_of_ctlBlock hp (State.ctlBlock_of_bypassed hphase hchain), State.endBlock_of_run hend]

end

/-- Settles O47: the schedule of a bypassed chain copies the block, and nothing before it writes a memory. -/
theorem bypassedTickPassesThrough : Obligations.BypassedTickPassesThrough := by
  intro s block rest hw hp hin hlen hc hb hmodel hir N out
  have hm := State.servesModel_eq_false_of_idle hmodel
  have hi := State.servesIr_eq_false_of_idle hir
  have hstep := (step_of_tick hw (by simp [hp]) hin).trans
    (State.tick_of_bypassed (s := { s with inbox := rest }) (by simp [hp]) hlen hc hb hm hi)
  have hframe := State.bypassedBlock_ctlBound_frame (s := State.beginBlock block { s with inbox := rest }) hlen
    Phase.noConfusion hm hi hb
  have hX (m : Nat) (hlt : m < s.cfg.L) := State.read_beginBlock_X (s := { s with inbox := rest }) hlen hlt
  have hcopy (m : Nat) (hlt : m < s.cfg.L) := State.read_bypassedBlock_ctlBound
    (s := State.beginBlock block { s with inbox := rest }) hlen Phase.noConfusion hm hi hb hlt
  have hchain := (State.mailboxesTaken_CHAIN_of_idle
    (s := State.beginBlock block { s with inbox := rest }) hb).trans hc
  refine ⟨_, hstep, ?_⟩
  rw [hframe]
  refine ⟨rfl, rfl, rfl, congrArg some (Prod.ext ?_ ?_), fun hk => ?_, fun m hlt => ⟨hX m hlt, hcopy m hlt⟩,
    hchain, rfl, rfl, rfl, rfl, rfl, rfl, rfl, rfl, rfl, rfl, rfl, rfl, rfl, rfl, rfl, rfl, fun r hr heq => ?_⟩
  · exact State.audioBlock_of_samples (s := s) hlen fun m hlt => (hcopy m hlt).1.trans (hX m hlt)
  · exact State.audioBlock_of_samples (s := s) hlen fun m hlt => (hcopy m hlt).2.trans (hX m hlt)
  · exact (List.map_congr_left fun w _ => arith_toBits_ofBits_of_f32 hk w).trans (List.map_id' block)
  · exact State.ctlBound_REV_of_unserved (s := State.beginBlock block { s with inbox := rest }) hlen
      Phase.noConfusion hm hi hr heq

end Sys2Proof.Machine
end
